-- ==== Sys2Proof/Word.lean ====
section
/-! DEFINITION. The word types of the machine (spec 00_scope.md R10, R11). -/

namespace Sys2Proof

/-- A 64-bit register value or address (`XLEN` = `ALEN` = 64, R10). -/
abbrev Word := BitVec 64

/-- One byte of backing memory (R60). -/
abbrev Byte := BitVec 8

/-- A 32-bit instruction word (`ILEN` = 32, R10, R90). -/
abbrev InstrWord := BitVec 32

/-- The number of a general register, 0 to 31 (R20). -/
abbrev Reg := Fin 32

end Sys2Proof
end

