-- ==== Sys2Proof/Config.lean ====
section
/-! DEFINITION. What an implementation fixes (spec 00_scope.md R10) and the free values of the model. -/

namespace Sys2Proof

/-- What happens to a word that does not decode (R10, R403). -/
inductive DecodeFaultPolicy where
  /-- Report the word and go on, as a no-op (the default). -/
  | nop
  /-- Report the word and stop the core. -/
  | halt
  deriving DecidableEq, Repr

/-- The switchable and open parameters of R10, fixed for one machine. -/
structure Config where
  /-- `U_IMM_SIGN_EXTEND` (decision D9): `false` leaves bits 63:32 of a U-immediate zero. -/
  uImmSignExtend : Bool
  /-- `DIVREM_SIGNED` (decision D10): `true` makes `div` and `rem` signed. -/
  divremSigned : Bool
  /-- `DECODE_FAULT_POLICY` (decision D16). -/
  decodeFaultPolicy : DecodeFaultPolicy
  /-- `RESET_PC` (decision D7), the address of the first instruction; a multiple of 4. -/
  resetPc : Word
  deriving DecidableEq, Repr

/-- The default setting of the switchable parameters (R10). `RESET_PC` is open in the spec;
0x1000 is a DESIGN CHOICE (log 3). -/
def Config.default : Config where
  uImmSignExtend := false
  divremSigned := true
  decodeFaultPolicy := .nop
  resetPc := 0x1000

/-- FREE VALUE (log 2). The collaborator's answer to its `n`-th call once the answers given in
the state are used up: whether `memory_ready` is true, or whether a `read_memory` or `write_memory`
succeeds (R373, an open oracle). It has no body, so nothing can be proved about its value. -/
opaque Config.collaboratorAnswer : Nat → Bool

end Sys2Proof
end

