-- ==== Sys2Proof/Syntax.lean ====
section
/-! DEFINITION. The instruction set as syntax: one constructor for each row of spec/opcode_table.json
(00_scope.md R2, 30_encoding.md R92, R120), and the operation tags the pipeline carries (R100). -/

namespace Sys2Proof

/-- An instruction, operands in the order of the assembler syntax of R120 (for a store `rs2, imm(rs1)`).
Immediates are the raw fields of the encoding: 12 bits (I and S), a 6- or 5-bit shift amount,
20 bits (U), and for a branch or `jal` the byte offset of 13 or 21 bits with its low zero bit
(R93 to R98). Fields that the hardware ignores are kept (log 15). -/
inductive Instr where
  -- 40_loads_stores.md R131 to R137
  | lb (rd rs1 : Reg) (imm : BitVec 12)
  | lh (rd rs1 : Reg) (imm : BitVec 12)
  | lw (rd rs1 : Reg) (imm : BitVec 12)
  | ld (rd rs1 : Reg) (imm : BitVec 12)
  | lbu (rd rs1 : Reg) (imm : BitVec 12)
  | lhu (rd rs1 : Reg) (imm : BitVec 12)
  | lwu (rd rs1 : Reg) (imm : BitVec 12)
  -- 40_loads_stores.md R139 to R142
  | sb (rs2 rs1 : Reg) (imm : BitVec 12)
  | sh (rs2 rs1 : Reg) (imm : BitVec 12)
  | sw (rs2 rs1 : Reg) (imm : BitVec 12)
  | sd (rs2 rs1 : Reg) (imm : BitVec 12)
  -- 41_alu_immediate.md R151 to R156
  | addi (rd rs1 : Reg) (imm : BitVec 12)
  | slti (rd rs1 : Reg) (imm : BitVec 12)
  | sltiu (rd rs1 : Reg) (imm : BitVec 12)
  | xori (rd rs1 : Reg) (imm : BitVec 12)
  | ori (rd rs1 : Reg) (imm : BitVec 12)
  | andi (rd rs1 : Reg) (imm : BitVec 12)
  -- R157 to R159
  | slli (rd rs1 : Reg) (shamt : BitVec 6)
  | srli (rd rs1 : Reg) (shamt : BitVec 6)
  | srai (rd rs1 : Reg) (shamt : BitVec 6)
  -- R160
  | addiw (rd rs1 : Reg) (imm : BitVec 12)
  -- R161 to R163
  | slliw (rd rs1 : Reg) (shamt : BitVec 5)
  | srliw (rd rs1 : Reg) (shamt : BitVec 5)
  | sraiw (rd rs1 : Reg) (shamt : BitVec 5)
  -- 42_alu_register.md R171 to R180
  | add (rd rs1 rs2 : Reg)
  | sub (rd rs1 rs2 : Reg)
  | sll (rd rs1 rs2 : Reg)
  | slt (rd rs1 rs2 : Reg)
  | sltu (rd rs1 rs2 : Reg)
  | xor (rd rs1 rs2 : Reg)
  | srl (rd rs1 rs2 : Reg)
  | sra (rd rs1 rs2 : Reg)
  | or (rd rs1 rs2 : Reg)
  | and (rd rs1 rs2 : Reg)
  -- R181 to R185
  | addw (rd rs1 rs2 : Reg)
  | subw (rd rs1 rs2 : Reg)
  | sllw (rd rs1 rs2 : Reg)
  | srlw (rd rs1 rs2 : Reg)
  | sraw (rd rs1 rs2 : Reg)
  -- 43_muldiv.md R191, R192, R194
  | mul (rd rs1 rs2 : Reg)
  | div (rd rs1 rs2 : Reg)
  | rem (rd rs1 rs2 : Reg)
  -- 44_upper_immediate.md R201, R202
  | lui (rd : Reg) (imm20 : BitVec 20)
  | auipc (rd : Reg) (imm20 : BitVec 20)
  -- 45_control_transfer.md R211 to R216
  | beq (rs1 rs2 : Reg) (offset : BitVec 13)
  | bne (rs1 rs2 : Reg) (offset : BitVec 13)
  | blt (rs1 rs2 : Reg) (offset : BitVec 13)
  | bge (rs1 rs2 : Reg) (offset : BitVec 13)
  | bltu (rs1 rs2 : Reg) (offset : BitVec 13)
  | bgeu (rs1 rs2 : Reg) (offset : BitVec 13)
  -- R217
  | jal (rd : Reg) (offset : BitVec 21)
  -- R218
  | jalr (rd rs1 : Reg) (imm : BitVec 12)
  -- 46_system.md R231, R232: every operand is ignored (R112)
  | fence (imm : BitVec 12) (rs1 rd : Reg)
  | fenceI (imm : BitVec 12) (rs1 rd : Reg)
  -- R233, R235
  | ecall
  | ebreak
  -- R236 to R238: every operand is ignored (R113, R234)
  | csrrw (rd : Reg) (csr : BitVec 12) (rs1 : Reg)
  | csrrs (rd : Reg) (csr : BitVec 12) (rs1 : Reg)
  | csrrc (rd : Reg) (csr : BitVec 12) (rs1 : Reg)
  -- R239, R241, R242: every operand is ignored
  | csrrwi (rd : Reg) (csr : BitVec 12) (uimm : BitVec 5)
  | csrrsi (rd : Reg) (csr : BitVec 12) (uimm : BitVec 5)
  | csrrci (rd : Reg) (csr : BitVec 12) (uimm : BitVec 5)
  deriving DecidableEq, Repr

/-- The operation tag of a decoded word: one of the 62 mnemonics or `DECODE_FAULT` (R100). -/
inductive Tag where
  | lb | lh | lw | ld | lbu | lhu | lwu | sb | sh | sw
  | sd | addi | slti | sltiu | xori | ori | andi | slli | srli | srai
  | addiw | slliw | srliw | sraiw | add | sub | sll | slt | sltu | xor
  | srl | sra | or | and | addw | subw | sllw | srlw | sraw | mul
  | div | rem | lui | auipc | beq | bne | blt | bge | bltu | bgeu
  | jal | jalr | fence | fenceI | ecall | ebreak | csrrw | csrrs | csrrc | csrrwi
  | csrrsi | csrrci
  /-- The tag of every word outside the supported set (R115, R240). -/
  | decodeFault
  deriving DecidableEq, Repr

/-- The tag of an instruction (R100). -/
def Instr.tag : Instr → Tag
  | .lb _ _ _ => .lb
  | .lh _ _ _ => .lh
  | .lw _ _ _ => .lw
  | .ld _ _ _ => .ld
  | .lbu _ _ _ => .lbu
  | .lhu _ _ _ => .lhu
  | .lwu _ _ _ => .lwu
  | .sb _ _ _ => .sb
  | .sh _ _ _ => .sh
  | .sw _ _ _ => .sw
  | .sd _ _ _ => .sd
  | .addi _ _ _ => .addi
  | .slti _ _ _ => .slti
  | .sltiu _ _ _ => .sltiu
  | .xori _ _ _ => .xori
  | .ori _ _ _ => .ori
  | .andi _ _ _ => .andi
  | .slli _ _ _ => .slli
  | .srli _ _ _ => .srli
  | .srai _ _ _ => .srai
  | .addiw _ _ _ => .addiw
  | .slliw _ _ _ => .slliw
  | .srliw _ _ _ => .srliw
  | .sraiw _ _ _ => .sraiw
  | .add _ _ _ => .add
  | .sub _ _ _ => .sub
  | .sll _ _ _ => .sll
  | .slt _ _ _ => .slt
  | .sltu _ _ _ => .sltu
  | .xor _ _ _ => .xor
  | .srl _ _ _ => .srl
  | .sra _ _ _ => .sra
  | .or _ _ _ => .or
  | .and _ _ _ => .and
  | .addw _ _ _ => .addw
  | .subw _ _ _ => .subw
  | .sllw _ _ _ => .sllw
  | .srlw _ _ _ => .srlw
  | .sraw _ _ _ => .sraw
  | .mul _ _ _ => .mul
  | .div _ _ _ => .div
  | .rem _ _ _ => .rem
  | .lui _ _ => .lui
  | .auipc _ _ => .auipc
  | .beq _ _ _ => .beq
  | .bne _ _ _ => .bne
  | .blt _ _ _ => .blt
  | .bge _ _ _ => .bge
  | .bltu _ _ _ => .bltu
  | .bgeu _ _ _ => .bgeu
  | .jal _ _ => .jal
  | .jalr _ _ _ => .jalr
  | .fence _ _ _ => .fence
  | .fenceI _ _ _ => .fenceI
  | .ecall => .ecall
  | .ebreak => .ebreak
  | .csrrw _ _ _ => .csrrw
  | .csrrs _ _ _ => .csrrs
  | .csrrc _ _ _ => .csrrc
  | .csrrwi _ _ _ => .csrrwi
  | .csrrsi _ _ _ => .csrrsi
  | .csrrci _ _ _ => .csrrci

/-- The loads (51_hazards_forwarding.md R301). -/
def Tag.isLoad : Tag → Bool
  | .lb | .lh | .lw | .ld | .lbu | .lhu | .lwu => true
  | .sb | .sh | .sw | .sd | .addi | .slti | .sltiu | .xori | .ori | .andi | .slli | .srli
  | .srai | .addiw | .slliw | .srliw | .sraiw | .add | .sub | .sll | .slt | .sltu | .xor | .srl
  | .sra | .or | .and | .addw | .subw | .sllw | .srlw | .sraw | .mul | .div | .rem | .lui
  | .auipc | .beq | .bne | .blt | .bge | .bltu | .bgeu | .jal | .jalr | .fence | .fenceI | .ecall
  | .ebreak | .csrrw | .csrrs | .csrrc | .csrrwi | .csrrsi | .csrrci | .decodeFault => false

/-- The stores (50_pipeline_controller.md R258). -/
def Tag.isStore : Tag → Bool
  | .sb | .sh | .sw | .sd => true
  | .lb | .lh | .lw | .ld | .lbu | .lhu | .lwu | .addi | .slti | .sltiu | .xori | .ori
  | .andi | .slli | .srli | .srai | .addiw | .slliw | .srliw | .sraiw | .add | .sub | .sll | .slt
  | .sltu | .xor | .srl | .sra | .or | .and | .addw | .subw | .sllw | .srlw | .sraw | .mul
  | .div | .rem | .lui | .auipc | .beq | .bne | .blt | .bge | .bltu | .bgeu | .jal | .jalr
  | .fence | .fenceI | .ecall | .ebreak | .csrrw | .csrrs | .csrrc | .csrrwi | .csrrsi | .csrrci | .decodeFault => false

/-- The conditional branches (45_control_transfer.md R210). -/
def Tag.isBranch : Tag → Bool
  | .beq | .bne | .blt | .bge | .bltu | .bgeu => true
  | .lb | .lh | .lw | .ld | .lbu | .lhu | .lwu | .sb | .sh | .sw | .sd | .addi
  | .slti | .sltiu | .xori | .ori | .andi | .slli | .srli | .srai | .addiw | .slliw | .srliw | .sraiw
  | .add | .sub | .sll | .slt | .sltu | .xor | .srl | .sra | .or | .and | .addw | .subw
  | .sllw | .srlw | .sraw | .mul | .div | .rem | .lui | .auipc | .jal | .jalr | .fence | .fenceI
  | .ecall | .ebreak | .csrrw | .csrrs | .csrrc | .csrrwi | .csrrsi | .csrrci | .decodeFault => false

end Sys2Proof
end

