-- ==== Sys2Proof/WellFormed.lean ====
section
/-! DEFINITION. Which instruction terms have an encoding: every field is as wide as the encoding's, so
the one thing left to check is the implicit low zero bit of the branch and `jal` offsets (R96, R98). -/

namespace Sys2Proof

/-- A branch or `jal` offset is even: its bit 0 is not encoded (R96, R98). -/
def evenOffset {n : Nat} (offset : BitVec n) : Bool := !offset.getLsbD 0

/-- The instruction is one that a 32-bit word can spell. -/
def Instr.wellFormed : Instr → Bool
  | .beq _ _ offset | .bne _ _ offset | .blt _ _ offset
  | .bge _ _ offset | .bltu _ _ offset | .bgeu _ _ offset => evenOffset offset
  | .jal _ offset => evenOffset offset
  | .lb .. | .lh .. | .lw .. | .ld .. | .lbu .. | .lhu .. | .lwu .. => true
  | .sb .. | .sh .. | .sw .. | .sd .. => true
  | .addi .. | .slti .. | .sltiu .. | .xori .. | .ori .. | .andi .. => true
  | .slli .. | .srli .. | .srai .. | .addiw .. | .slliw .. | .srliw .. | .sraiw .. => true
  | .add .. | .sub .. | .sll .. | .slt .. | .sltu .. | .xor .. | .srl .. | .sra .. | .or .. | .and .. => true
  | .addw .. | .subw .. | .sllw .. | .srlw .. | .sraw .. => true
  | .mul .. | .div .. | .rem .. | .lui .. | .auipc .. | .jalr .. => true
  | .fence .. | .fenceI .. | .ecall | .ebreak => true
  | .csrrw .. | .csrrs .. | .csrrc .. | .csrrwi .. | .csrrsi .. | .csrrci .. => true

end Sys2Proof
end

