-- ==== Sys2Proof/Decode.lean ====
section
/-! DEFINITION. The decoder (30_encoding.md): fields, immediates, the opcode map, the decoded operand set,
and after it the encoder, written from the same tables. -/

namespace Sys2Proof

/-! ### Fields (R91) -/

/-- `iw[6:0]`. -/
def InstrWord.opcode (iw : InstrWord) : BitVec 7 := iw.extractLsb' 0 7
/-- `iw[14:12]`. -/
def InstrWord.funct3 (iw : InstrWord) : BitVec 3 := iw.extractLsb' 12 3
/-- `iw[31:25]`. -/
def InstrWord.funct7 (iw : InstrWord) : BitVec 7 := iw.extractLsb' 25 7
/-- `iw[31:26]`, the upper bits of a 64-bit shift by an immediate (R104). -/
def InstrWord.funct6 (iw : InstrWord) : BitVec 6 := iw.extractLsb' 26 6
/-- The register number `iw[lo+4:lo]`. -/
def InstrWord.regAt (iw : InstrWord) (lo : Nat) : Reg := (iw.extractLsb' lo 5).toFin
/-- `iw[11:7]`. -/
def InstrWord.rd (iw : InstrWord) : Reg := InstrWord.regAt iw 7
/-- `iw[19:15]`. -/
def InstrWord.rs1 (iw : InstrWord) : Reg := InstrWord.regAt iw 15
/-- `iw[24:20]`. -/
def InstrWord.rs2 (iw : InstrWord) : Reg := InstrWord.regAt iw 20

/-! ### Immediate fields (R93 to R98), before extension -/

/-- `iw[31:20]` (R93); also the CSR address (R113). -/
def InstrWord.iField (iw : InstrWord) : BitVec 12 := iw.extractLsb' 20 12
/-- `iw[25:20]` (R94). -/
def InstrWord.shamt6 (iw : InstrWord) : BitVec 6 := iw.extractLsb' 20 6
/-- `iw[24:20]` (R94). -/
def InstrWord.shamt5 (iw : InstrWord) : BitVec 5 := iw.extractLsb' 20 5
/-- `{iw[31:25], iw[11:7]}` (R95). -/
def InstrWord.sField (iw : InstrWord) : BitVec 12 := iw.extractLsb' 25 7 ++ iw.extractLsb' 7 5
/-- `{iw[31], iw[7], iw[30:25], iw[11:8], 1'b0}` (R96): the offset, its low zero bit reinstated. -/
def InstrWord.bField (iw : InstrWord) : BitVec 13 :=
  iw.extractLsb' 31 1 ++ iw.extractLsb' 7 1 ++ iw.extractLsb' 25 6 ++ iw.extractLsb' 8 4 ++ 0#1
/-- `iw[31:12]` (R97). -/
def InstrWord.uField (iw : InstrWord) : BitVec 20 := iw.extractLsb' 12 20
/-- `{iw[31], iw[19:12], iw[20], iw[30:21], 1'b0}` (R98). -/
def InstrWord.jField (iw : InstrWord) : BitVec 21 :=
  iw.extractLsb' 31 1 ++ iw.extractLsb' 12 8 ++ iw.extractLsb' 20 1 ++ iw.extractLsb' 21 10 ++ 0#1
/-- `iw[19:15]` as the 5-bit immediate of `csrrwi`, `csrrsi`, `csrrci` (R113). -/
def InstrWord.uimm (iw : InstrWord) : BitVec 5 := iw.extractLsb' 15 5

/-! ### The opcode map (R101 to R111) -/

/-- Why a word is outside the supported set (R115). -/
inductive DecodeError where
  /-- Fewer than four bytes. -/
  | truncated
  /-- `iw[6:0]` is no major opcode of R101. -/
  | majorOpcode (opcode : BitVec 7)
  /-- The major opcode exists, the `funct3` does not (R102, R103, R106, R107, R110, R111). -/
  | funct3 (opcode : BitVec 7) (funct3 : BitVec 3)
  /-- The pair (`funct7`, `funct3`) does not exist (R108, R109). -/
  | funct7 (opcode : BitVec 7) (funct3 : BitVec 3) (funct7 : BitVec 7)
  /-- The upper bits of a shift by an immediate select no operation (R104, R106). -/
  | shiftUpperBits (funct7 : BitVec 7)
  /-- A SYSTEM word with `funct3 = 000` that is neither `ecall` nor `ebreak` (R111). -/
  | systemWord (iw : InstrWord)
  deriving DecidableEq, Repr

/-- LOAD `0000011` (R102). -/
def decodeLoad (iw : InstrWord) : Except DecodeError Instr :=
  match InstrWord.funct3 iw with
  | 0b000#3 => .ok (.lb (InstrWord.rd iw) (InstrWord.rs1 iw) (InstrWord.iField iw))
  | 0b001#3 => .ok (.lh (InstrWord.rd iw) (InstrWord.rs1 iw) (InstrWord.iField iw))
  | 0b010#3 => .ok (.lw (InstrWord.rd iw) (InstrWord.rs1 iw) (InstrWord.iField iw))
  | 0b011#3 => .ok (.ld (InstrWord.rd iw) (InstrWord.rs1 iw) (InstrWord.iField iw))
  | 0b100#3 => .ok (.lbu (InstrWord.rd iw) (InstrWord.rs1 iw) (InstrWord.iField iw))
  | 0b101#3 => .ok (.lhu (InstrWord.rd iw) (InstrWord.rs1 iw) (InstrWord.iField iw))
  | 0b110#3 => .ok (.lwu (InstrWord.rd iw) (InstrWord.rs1 iw) (InstrWord.iField iw))
  | f => .error (.funct3 0b0000011 f)

/-- MISC-MEM `0001111` (R103, R112). -/
def decodeMiscMem (iw : InstrWord) : Except DecodeError Instr :=
  match InstrWord.funct3 iw with
  | 0b000#3 => .ok (.fence (InstrWord.iField iw) (InstrWord.rs1 iw) (InstrWord.rd iw))
  | 0b001#3 => .ok (.fenceI (InstrWord.iField iw) (InstrWord.rs1 iw) (InstrWord.rd iw))
  | f => .error (.funct3 0b0001111 f)

/-- OP-IMM `0010011` (R104). -/
def decodeOpImm (iw : InstrWord) : Except DecodeError Instr :=
  match InstrWord.funct3 iw with
  | 0b000#3 => .ok (.addi (InstrWord.rd iw) (InstrWord.rs1 iw) (InstrWord.iField iw))
  | 0b010#3 => .ok (.slti (InstrWord.rd iw) (InstrWord.rs1 iw) (InstrWord.iField iw))
  | 0b011#3 => .ok (.sltiu (InstrWord.rd iw) (InstrWord.rs1 iw) (InstrWord.iField iw))
  | 0b100#3 => .ok (.xori (InstrWord.rd iw) (InstrWord.rs1 iw) (InstrWord.iField iw))
  | 0b110#3 => .ok (.ori (InstrWord.rd iw) (InstrWord.rs1 iw) (InstrWord.iField iw))
  | 0b111#3 => .ok (.andi (InstrWord.rd iw) (InstrWord.rs1 iw) (InstrWord.iField iw))
  | 0b001#3 =>
    match InstrWord.funct6 iw with
    | 0b000000#6 => .ok (.slli (InstrWord.rd iw) (InstrWord.rs1 iw) (InstrWord.shamt6 iw))
    | _ => .error (.shiftUpperBits (InstrWord.funct7 iw))
  | _ =>
    match InstrWord.funct6 iw with
    | 0b000000#6 => .ok (.srli (InstrWord.rd iw) (InstrWord.rs1 iw) (InstrWord.shamt6 iw))
    | 0b010000#6 => .ok (.srai (InstrWord.rd iw) (InstrWord.rs1 iw) (InstrWord.shamt6 iw))
    | _ => .error (.shiftUpperBits (InstrWord.funct7 iw))

/-- OP-IMM-32 `0011011` (R106). -/
def decodeOpImm32 (iw : InstrWord) : Except DecodeError Instr :=
  match InstrWord.funct3 iw with
  | 0b000#3 => .ok (.addiw (InstrWord.rd iw) (InstrWord.rs1 iw) (InstrWord.iField iw))
  | 0b001#3 =>
    match InstrWord.funct7 iw with
    | 0b0000000#7 => .ok (.slliw (InstrWord.rd iw) (InstrWord.rs1 iw) (InstrWord.shamt5 iw))
    | f => .error (.shiftUpperBits f)
  | 0b101#3 =>
    match InstrWord.funct7 iw with
    | 0b0000000#7 => .ok (.srliw (InstrWord.rd iw) (InstrWord.rs1 iw) (InstrWord.shamt5 iw))
    | 0b0100000#7 => .ok (.sraiw (InstrWord.rd iw) (InstrWord.rs1 iw) (InstrWord.shamt5 iw))
    | f => .error (.shiftUpperBits f)
  | f => .error (.funct3 0b0011011 f)

/-- STORE `0100011` (R107). -/
def decodeStore (iw : InstrWord) : Except DecodeError Instr :=
  match InstrWord.funct3 iw with
  | 0b000#3 => .ok (.sb (InstrWord.rs2 iw) (InstrWord.rs1 iw) (InstrWord.sField iw))
  | 0b001#3 => .ok (.sh (InstrWord.rs2 iw) (InstrWord.rs1 iw) (InstrWord.sField iw))
  | 0b010#3 => .ok (.sw (InstrWord.rs2 iw) (InstrWord.rs1 iw) (InstrWord.sField iw))
  | 0b011#3 => .ok (.sd (InstrWord.rs2 iw) (InstrWord.rs1 iw) (InstrWord.sField iw))
  | f => .error (.funct3 0b0100011 f)

/-- OP `0110011` (R108). -/
def decodeOp (iw : InstrWord) : Except DecodeError Instr :=
  match InstrWord.funct7 iw, InstrWord.funct3 iw with
  | 0b0000000#7, 0b000#3 => .ok (.add (InstrWord.rd iw) (InstrWord.rs1 iw) (InstrWord.rs2 iw))
  | 0b0000000#7, 0b001#3 => .ok (.sll (InstrWord.rd iw) (InstrWord.rs1 iw) (InstrWord.rs2 iw))
  | 0b0000000#7, 0b010#3 => .ok (.slt (InstrWord.rd iw) (InstrWord.rs1 iw) (InstrWord.rs2 iw))
  | 0b0000000#7, 0b011#3 => .ok (.sltu (InstrWord.rd iw) (InstrWord.rs1 iw) (InstrWord.rs2 iw))
  | 0b0000000#7, 0b100#3 => .ok (.xor (InstrWord.rd iw) (InstrWord.rs1 iw) (InstrWord.rs2 iw))
  | 0b0000000#7, 0b101#3 => .ok (.srl (InstrWord.rd iw) (InstrWord.rs1 iw) (InstrWord.rs2 iw))
  | 0b0000000#7, 0b110#3 => .ok (.or (InstrWord.rd iw) (InstrWord.rs1 iw) (InstrWord.rs2 iw))
  | 0b0000000#7, 0b111#3 => .ok (.and (InstrWord.rd iw) (InstrWord.rs1 iw) (InstrWord.rs2 iw))
  | 0b0100000#7, 0b000#3 => .ok (.sub (InstrWord.rd iw) (InstrWord.rs1 iw) (InstrWord.rs2 iw))
  | 0b0100000#7, 0b101#3 => .ok (.sra (InstrWord.rd iw) (InstrWord.rs1 iw) (InstrWord.rs2 iw))
  | 0b0000001#7, 0b000#3 => .ok (.mul (InstrWord.rd iw) (InstrWord.rs1 iw) (InstrWord.rs2 iw))
  | 0b0000001#7, 0b100#3 => .ok (.div (InstrWord.rd iw) (InstrWord.rs1 iw) (InstrWord.rs2 iw))
  | 0b0000001#7, 0b110#3 => .ok (.rem (InstrWord.rd iw) (InstrWord.rs1 iw) (InstrWord.rs2 iw))
  | f7, f3 => .error (.funct7 0b0110011 f3 f7)

/-- OP-32 `0111011` (R109). -/
def decodeOp32 (iw : InstrWord) : Except DecodeError Instr :=
  match InstrWord.funct7 iw, InstrWord.funct3 iw with
  | 0b0000000#7, 0b000#3 => .ok (.addw (InstrWord.rd iw) (InstrWord.rs1 iw) (InstrWord.rs2 iw))
  | 0b0000000#7, 0b001#3 => .ok (.sllw (InstrWord.rd iw) (InstrWord.rs1 iw) (InstrWord.rs2 iw))
  | 0b0000000#7, 0b101#3 => .ok (.srlw (InstrWord.rd iw) (InstrWord.rs1 iw) (InstrWord.rs2 iw))
  | 0b0100000#7, 0b000#3 => .ok (.subw (InstrWord.rd iw) (InstrWord.rs1 iw) (InstrWord.rs2 iw))
  | 0b0100000#7, 0b101#3 => .ok (.sraw (InstrWord.rd iw) (InstrWord.rs1 iw) (InstrWord.rs2 iw))
  | f7, f3 => .error (.funct7 0b0111011 f3 f7)

/-- BRANCH `1100011` (R110). -/
def decodeBranch (iw : InstrWord) : Except DecodeError Instr :=
  match InstrWord.funct3 iw with
  | 0b000#3 => .ok (.beq (InstrWord.rs1 iw) (InstrWord.rs2 iw) (InstrWord.bField iw))
  | 0b001#3 => .ok (.bne (InstrWord.rs1 iw) (InstrWord.rs2 iw) (InstrWord.bField iw))
  | 0b100#3 => .ok (.blt (InstrWord.rs1 iw) (InstrWord.rs2 iw) (InstrWord.bField iw))
  | 0b101#3 => .ok (.bge (InstrWord.rs1 iw) (InstrWord.rs2 iw) (InstrWord.bField iw))
  | 0b110#3 => .ok (.bltu (InstrWord.rs1 iw) (InstrWord.rs2 iw) (InstrWord.bField iw))
  | 0b111#3 => .ok (.bgeu (InstrWord.rs1 iw) (InstrWord.rs2 iw) (InstrWord.bField iw))
  | f => .error (.funct3 0b1100011 f)

/-- JALR `1100111` (R110). -/
def decodeJalr (iw : InstrWord) : Except DecodeError Instr :=
  match InstrWord.funct3 iw with
  | 0b000#3 => .ok (.jalr (InstrWord.rd iw) (InstrWord.rs1 iw) (InstrWord.iField iw))
  | f => .error (.funct3 0b1100111 f)

/-- SYSTEM `1110011` (R111, R113). -/
def decodeSystem (iw : InstrWord) : Except DecodeError Instr :=
  match InstrWord.funct3 iw with
  | 0b000#3 =>
    if iw = 0x00000073#32 then .ok .ecall
    else if iw = 0x00100073#32 then .ok .ebreak
    else .error (.systemWord iw)
  | 0b001#3 => .ok (.csrrw (InstrWord.rd iw) (InstrWord.iField iw) (InstrWord.rs1 iw))
  | 0b010#3 => .ok (.csrrs (InstrWord.rd iw) (InstrWord.iField iw) (InstrWord.rs1 iw))
  | 0b011#3 => .ok (.csrrc (InstrWord.rd iw) (InstrWord.iField iw) (InstrWord.rs1 iw))
  | 0b101#3 => .ok (.csrrwi (InstrWord.rd iw) (InstrWord.iField iw) (InstrWord.uimm iw))
  | 0b110#3 => .ok (.csrrsi (InstrWord.rd iw) (InstrWord.iField iw) (InstrWord.uimm iw))
  | 0b111#3 => .ok (.csrrci (InstrWord.rd iw) (InstrWord.iField iw) (InstrWord.uimm iw))
  | f => .error (.funct3 0b1110011 f)

/-- The decode function on a word: a nested lookup opcode, funct3, funct7 (R100, R101). -/
def decodeWord (iw : InstrWord) : Except DecodeError Instr :=
  match InstrWord.opcode iw with
  | 0b0000011#7 => decodeLoad iw
  | 0b0001111#7 => decodeMiscMem iw
  | 0b0010011#7 => decodeOpImm iw
  | 0b0010111#7 => .ok (.auipc (InstrWord.rd iw) (InstrWord.uField iw))
  | 0b0011011#7 => decodeOpImm32 iw
  | 0b0100011#7 => decodeStore iw
  | 0b0110011#7 => decodeOp iw
  | 0b0110111#7 => .ok (.lui (InstrWord.rd iw) (InstrWord.uField iw))
  | 0b0111011#7 => decodeOp32 iw
  | 0b1100011#7 => decodeBranch iw
  | 0b1100111#7 => decodeJalr iw
  | 0b1101111#7 => .ok (.jal (InstrWord.rd iw) (InstrWord.jField iw))
  | 0b1110011#7 => decodeSystem iw
  | op => .error (.majorOpcode op)

/-- The word whose bytes, lowest address first, are the four given (little-endian, R61). -/
def wordOfBytes (b0 b1 b2 b3 : Byte) : InstrWord := b3 ++ b2 ++ b1 ++ b0

/-- Decode the instruction at the front of a byte sequence, lowest address first, and give the bytes
after it. Every instruction is four bytes (R90). -/
def decodeBytes : List Byte → Except DecodeError (Instr × List Byte)
  | b0 :: b1 :: b2 :: b3 :: rest =>
    match decodeWord (wordOfBytes b0 b1 b2 b3) with
    | .ok i => .ok (i, rest)
    | .error e => .error e
  | _ => .error .truncated

/-! ### The decoded operand set (R100) -/

/-- What Decode hands to Execute (R29, R100): the tag, the register numbers, the extended immediate, and
which registers are read and whether one is written. -/
structure Decoded where
  tag : Tag
  rd : Reg
  rs1 : Reg
  rs2 : Reg
  imm : Word
  usesRs1 : Bool
  usesRs2 : Bool
  wr : Bool
  deriving DecidableEq, Repr

/-- The U-immediate (R97): shifted left 12, bits 63:32 zero or copies of bit 31, by the parameter. -/
def uImmediate (cfg : Config) (imm20 : BitVec 20) : Word :=
  if cfg.uImmSignExtend then (imm20 ++ 0#12).signExtend 64 else (imm20 ++ 0#12).zeroExtend 64

/-- The R row of the table of R100. -/
def Decoded.rForm (tag : Tag) (rd rs1 rs2 : Reg) : Decoded :=
  { tag, rd, rs1, rs2, imm := 0, usesRs1 := true, usesRs2 := true, wr := true }
/-- The I row. -/
def Decoded.iForm (tag : Tag) (rd rs1 : Reg) (imm : Word) : Decoded :=
  { tag, rd, rs1, rs2 := 0, imm, usesRs1 := true, usesRs2 := false, wr := true }
/-- The S and B rows. -/
def Decoded.sbForm (tag : Tag) (rs1 rs2 : Reg) (imm : Word) : Decoded :=
  { tag, rd := 0, rs1, rs2, imm, usesRs1 := true, usesRs2 := true, wr := false }
/-- The U and J rows. -/
def Decoded.ujForm (tag : Tag) (rd : Reg) (imm : Word) : Decoded :=
  { tag, rd, rs1 := 0, rs2 := 0, imm, usesRs1 := false, usesRs2 := false, wr := true }
/-- The no-op row. -/
def Decoded.noOp (tag : Tag) : Decoded :=
  { tag, rd := 0, rs1 := 0, rs2 := 0, imm := 0, usesRs1 := false, usesRs2 := false, wr := false }

/-- The decoded operand set of an instruction (R100; immediates R93 to R99, R112, R113). -/
def Instr.operands (cfg : Config) (i : Instr) : Decoded :=
  match i with
  | .lb rd rs1 imm | .lh rd rs1 imm | .lw rd rs1 imm | .ld rd rs1 imm
  | .lbu rd rs1 imm | .lhu rd rs1 imm | .lwu rd rs1 imm
  | .addi rd rs1 imm | .slti rd rs1 imm | .sltiu rd rs1 imm
  | .xori rd rs1 imm | .ori rd rs1 imm | .andi rd rs1 imm
  | .addiw rd rs1 imm | .jalr rd rs1 imm => .iForm i.tag rd rs1 (imm.signExtend 64)
  | .slli rd rs1 shamt | .srli rd rs1 shamt | .srai rd rs1 shamt =>
    .iForm i.tag rd rs1 (shamt.zeroExtend 64)
  | .slliw rd rs1 shamt | .srliw rd rs1 shamt | .sraiw rd rs1 shamt =>
    .iForm i.tag rd rs1 (shamt.zeroExtend 64)
  | .sb rs2 rs1 imm | .sh rs2 rs1 imm | .sw rs2 rs1 imm | .sd rs2 rs1 imm =>
    .sbForm i.tag rs1 rs2 (imm.signExtend 64)
  | .add rd rs1 rs2 | .sub rd rs1 rs2 | .sll rd rs1 rs2 | .slt rd rs1 rs2 | .sltu rd rs1 rs2
  | .xor rd rs1 rs2 | .srl rd rs1 rs2 | .sra rd rs1 rs2 | .or rd rs1 rs2 | .and rd rs1 rs2
  | .addw rd rs1 rs2 | .subw rd rs1 rs2 | .sllw rd rs1 rs2 | .srlw rd rs1 rs2 | .sraw rd rs1 rs2
  | .mul rd rs1 rs2 | .div rd rs1 rs2 | .rem rd rs1 rs2 => .rForm i.tag rd rs1 rs2
  | .lui rd imm20 | .auipc rd imm20 => .ujForm i.tag rd (uImmediate cfg imm20)
  | .beq rs1 rs2 offset | .bne rs1 rs2 offset | .blt rs1 rs2 offset
  | .bge rs1 rs2 offset | .bltu rs1 rs2 offset | .bgeu rs1 rs2 offset =>
    .sbForm i.tag rs1 rs2 (offset.signExtend 64)
  | .jal rd offset => .ujForm i.tag rd (offset.signExtend 64)
  | .fence .. | .fenceI .. | .ecall | .ebreak
  | .csrrw .. | .csrrs .. | .csrrc .. | .csrrwi .. | .csrrsi .. | .csrrci .. => .noOp i.tag

/-- `decode(iw)` of R100, total: a word outside the supported set gives the tag `DECODE_FAULT`
with every field zero (R115). -/
def decodeOperands (cfg : Config) (iw : InstrWord) : Decoded :=
  match decodeWord iw with
  | .ok i => i.operands cfg
  | .error _ => .noOp .decodeFault

/-! ### The encoder, from the same tables (R92, R101 to R111) -/

/-- The five bits of a register number. -/
def Reg.bits (r : Reg) : BitVec 5 := BitVec.ofFin r

/-- The R format (R92). -/
def encodeR (funct7 : BitVec 7) (rs2 rs1 : Reg) (funct3 : BitVec 3) (rd : Reg) (opcode : BitVec 7) :
    InstrWord :=
  funct7 ++ Reg.bits rs2 ++ Reg.bits rs1 ++ funct3 ++ Reg.bits rd ++ opcode
/-- The I format (R92). -/
def encodeI (imm : BitVec 12) (rs1 : BitVec 5) (funct3 : BitVec 3) (rd : Reg) (opcode : BitVec 7) :
    InstrWord :=
  imm ++ rs1 ++ funct3 ++ Reg.bits rd ++ opcode
/-- The S format (R92). -/
def encodeS (imm : BitVec 12) (rs2 rs1 : Reg) (funct3 : BitVec 3) (opcode : BitVec 7) : InstrWord :=
  imm.extractLsb' 5 7 ++ Reg.bits rs2 ++ Reg.bits rs1 ++ funct3 ++ imm.extractLsb' 0 5 ++ opcode
/-- The B format (R92). -/
def encodeB (offset : BitVec 13) (rs2 rs1 : Reg) (funct3 : BitVec 3) (opcode : BitVec 7) : InstrWord :=
  offset.extractLsb' 12 1 ++ offset.extractLsb' 5 6 ++ Reg.bits rs2 ++ Reg.bits rs1 ++ funct3 ++
    offset.extractLsb' 1 4 ++ offset.extractLsb' 11 1 ++ opcode
/-- The U format (R92). -/
def encodeU (imm20 : BitVec 20) (rd : Reg) (opcode : BitVec 7) : InstrWord :=
  imm20 ++ Reg.bits rd ++ opcode
/-- The J format (R92). -/
def encodeJ (offset : BitVec 21) (rd : Reg) (opcode : BitVec 7) : InstrWord :=
  offset.extractLsb' 20 1 ++ offset.extractLsb' 1 10 ++ offset.extractLsb' 11 1 ++
    offset.extractLsb' 12 8 ++ Reg.bits rd ++ opcode
/-- The I format of a 64-bit shift (R94, R104): six operation bits and a 6-bit shift amount. -/
def encodeShift6 (funct6 shamt : BitVec 6) (rs1 : Reg) (funct3 : BitVec 3) (rd : Reg) : InstrWord :=
  encodeI (funct6 ++ shamt) (Reg.bits rs1) funct3 rd 0b0010011
/-- The I format of a 32-bit shift (R94, R106): seven operation bits and a 5-bit shift amount. -/
def encodeShift5 (funct7 : BitVec 7) (shamt : BitVec 5) (rs1 : Reg) (funct3 : BitVec 3) (rd : Reg) :
    InstrWord :=
  encodeI (funct7 ++ shamt) (Reg.bits rs1) funct3 rd 0b0011011

/-- The word of an instruction. -/
def encode : Instr → InstrWord
  | .lb rd rs1 imm => encodeI imm (Reg.bits rs1) 0b000 rd 0b0000011
  | .lh rd rs1 imm => encodeI imm (Reg.bits rs1) 0b001 rd 0b0000011
  | .lw rd rs1 imm => encodeI imm (Reg.bits rs1) 0b010 rd 0b0000011
  | .ld rd rs1 imm => encodeI imm (Reg.bits rs1) 0b011 rd 0b0000011
  | .lbu rd rs1 imm => encodeI imm (Reg.bits rs1) 0b100 rd 0b0000011
  | .lhu rd rs1 imm => encodeI imm (Reg.bits rs1) 0b101 rd 0b0000011
  | .lwu rd rs1 imm => encodeI imm (Reg.bits rs1) 0b110 rd 0b0000011
  | .sb rs2 rs1 imm => encodeS imm rs2 rs1 0b000 0b0100011
  | .sh rs2 rs1 imm => encodeS imm rs2 rs1 0b001 0b0100011
  | .sw rs2 rs1 imm => encodeS imm rs2 rs1 0b010 0b0100011
  | .sd rs2 rs1 imm => encodeS imm rs2 rs1 0b011 0b0100011
  | .addi rd rs1 imm => encodeI imm (Reg.bits rs1) 0b000 rd 0b0010011
  | .slti rd rs1 imm => encodeI imm (Reg.bits rs1) 0b010 rd 0b0010011
  | .sltiu rd rs1 imm => encodeI imm (Reg.bits rs1) 0b011 rd 0b0010011
  | .xori rd rs1 imm => encodeI imm (Reg.bits rs1) 0b100 rd 0b0010011
  | .ori rd rs1 imm => encodeI imm (Reg.bits rs1) 0b110 rd 0b0010011
  | .andi rd rs1 imm => encodeI imm (Reg.bits rs1) 0b111 rd 0b0010011
  | .slli rd rs1 shamt => encodeShift6 0b000000 shamt rs1 0b001 rd
  | .srli rd rs1 shamt => encodeShift6 0b000000 shamt rs1 0b101 rd
  | .srai rd rs1 shamt => encodeShift6 0b010000 shamt rs1 0b101 rd
  | .addiw rd rs1 imm => encodeI imm (Reg.bits rs1) 0b000 rd 0b0011011
  | .slliw rd rs1 shamt => encodeShift5 0b0000000 shamt rs1 0b001 rd
  | .srliw rd rs1 shamt => encodeShift5 0b0000000 shamt rs1 0b101 rd
  | .sraiw rd rs1 shamt => encodeShift5 0b0100000 shamt rs1 0b101 rd
  | .add rd rs1 rs2 => encodeR 0b0000000 rs2 rs1 0b000 rd 0b0110011
  | .sub rd rs1 rs2 => encodeR 0b0100000 rs2 rs1 0b000 rd 0b0110011
  | .sll rd rs1 rs2 => encodeR 0b0000000 rs2 rs1 0b001 rd 0b0110011
  | .slt rd rs1 rs2 => encodeR 0b0000000 rs2 rs1 0b010 rd 0b0110011
  | .sltu rd rs1 rs2 => encodeR 0b0000000 rs2 rs1 0b011 rd 0b0110011
  | .xor rd rs1 rs2 => encodeR 0b0000000 rs2 rs1 0b100 rd 0b0110011
  | .srl rd rs1 rs2 => encodeR 0b0000000 rs2 rs1 0b101 rd 0b0110011
  | .sra rd rs1 rs2 => encodeR 0b0100000 rs2 rs1 0b101 rd 0b0110011
  | .or rd rs1 rs2 => encodeR 0b0000000 rs2 rs1 0b110 rd 0b0110011
  | .and rd rs1 rs2 => encodeR 0b0000000 rs2 rs1 0b111 rd 0b0110011
  | .addw rd rs1 rs2 => encodeR 0b0000000 rs2 rs1 0b000 rd 0b0111011
  | .subw rd rs1 rs2 => encodeR 0b0100000 rs2 rs1 0b000 rd 0b0111011
  | .sllw rd rs1 rs2 => encodeR 0b0000000 rs2 rs1 0b001 rd 0b0111011
  | .srlw rd rs1 rs2 => encodeR 0b0000000 rs2 rs1 0b101 rd 0b0111011
  | .sraw rd rs1 rs2 => encodeR 0b0100000 rs2 rs1 0b101 rd 0b0111011
  | .mul rd rs1 rs2 => encodeR 0b0000001 rs2 rs1 0b000 rd 0b0110011
  | .div rd rs1 rs2 => encodeR 0b0000001 rs2 rs1 0b100 rd 0b0110011
  | .rem rd rs1 rs2 => encodeR 0b0000001 rs2 rs1 0b110 rd 0b0110011
  | .lui rd imm20 => encodeU imm20 rd 0b0110111
  | .auipc rd imm20 => encodeU imm20 rd 0b0010111
  | .beq rs1 rs2 offset => encodeB offset rs2 rs1 0b000 0b1100011
  | .bne rs1 rs2 offset => encodeB offset rs2 rs1 0b001 0b1100011
  | .blt rs1 rs2 offset => encodeB offset rs2 rs1 0b100 0b1100011
  | .bge rs1 rs2 offset => encodeB offset rs2 rs1 0b101 0b1100011
  | .bltu rs1 rs2 offset => encodeB offset rs2 rs1 0b110 0b1100011
  | .bgeu rs1 rs2 offset => encodeB offset rs2 rs1 0b111 0b1100011
  | .jal rd offset => encodeJ offset rd 0b1101111
  | .jalr rd rs1 imm => encodeI imm (Reg.bits rs1) 0b000 rd 0b1100111
  | .fence imm rs1 rd => encodeI imm (Reg.bits rs1) 0b000 rd 0b0001111
  | .fenceI imm rs1 rd => encodeI imm (Reg.bits rs1) 0b001 rd 0b0001111
  | .ecall => 0x00000073
  | .ebreak => 0x00100073
  | .csrrw rd csr rs1 => encodeI csr (Reg.bits rs1) 0b001 rd 0b1110011
  | .csrrs rd csr rs1 => encodeI csr (Reg.bits rs1) 0b010 rd 0b1110011
  | .csrrc rd csr rs1 => encodeI csr (Reg.bits rs1) 0b011 rd 0b1110011
  | .csrrwi rd csr uimm => encodeI csr uimm 0b101 rd 0b1110011
  | .csrrsi rd csr uimm => encodeI csr uimm 0b110 rd 0b1110011
  | .csrrci rd csr uimm => encodeI csr uimm 0b111 rd 0b1110011

/-- The bytes of an instruction, lowest address first (little-endian, R61). -/
def encodeBytes (i : Instr) : List Byte :=
  let iw := encode i
  [iw.extractLsb' 0 8, iw.extractLsb' 8 8, iw.extractLsb' 16 8, iw.extractLsb' 24 8]

/-- The instruction the decoder reads from an instruction whose bits are `w`, numbered as
spec/opcode_table.json numbers them, every bit from `nbits` up being zero: the word is laid out as
four bytes in memory order and given to the decoder. -/
def decodeTableWord (nbits w : Nat) : Option Instr :=
  let iw : InstrWord := BitVec.ofNat 32 (w % 2 ^ nbits)
  match decodeBytes
      [iw.extractLsb' 0 8, iw.extractLsb' 8 8, iw.extractLsb' 16 8, iw.extractLsb' 24 8] with
  | .ok (i, _) => some i
  | .error _ => none

end Sys2Proof
end

