-- ==== Sys2Proof/Machine/State.lean ====
section
/-! DEFINITION. The machine state (10_state.md): the architectural state of part A and the state inside
the core of part B, as plain data; the state after reset (part D). -/

namespace Sys2Proof.Machine

/-- The two levels at which the spec describes the machine (00_scope.md R9). MODEL's own (log 1). -/
inductive Level where
  /-- One instruction in program order (files 40 to 46; the architectural machine of R268). -/
  | architectural
  /-- One clock cycle, `advance_cycle()` (files 50 to 53): the hardware. -/
  | cycle
  deriving DecidableEq, Repr

/-- Backing memory (R23, R60): the listed bytes by address, in strictly rising order and none equal to
what an unlisted address reads as. -/
abbrev Memory := List Host.Cell

/-- What an address that is not listed reads as: DESIGN CHOICE, the spec gives memory no initial contents
(R54; log 5). -/
def Memory.unlisted : Byte := 0

/-- The canonical form of memory: addresses strictly rising and below 2^64, no entry equal to
what an unlisted address reads as. -/
abbrev Memory.wf (m : Memory) : Prop :=
  m.Pairwise (fun p q => p.1 < q.1) ∧ ∀ p ∈ m, p.1 < 2 ^ 64 ∧ p.2 ≠ Memory.unlisted

/-! ### Stage registers (R28 to R31). A bubble (R32) is `none`: a stage register of State is an `Option`,
and the don't-care fields of a bubble are not represented (log 7). -/

/-- `DR`, Fetch to Decode (R28). -/
structure FetchedInstr where
  /-- The address the word was fetched from. -/
  pc : Word
  iw : InstrWord
  /-- `branch_prediction`: Fetch followed a BTB target for this instruction. -/
  pred : Bool
  /-- The value Fetch gave `pc` after this fetch. -/
  predNpc : Word
  deriving DecidableEq, Repr

/-- `XR`, Decode to Execute (R29). -/
structure DecodedInstr where
  pc : Word
  iw : InstrWord
  tag : Tag
  rd : Reg
  rs1 : Reg
  rs2 : Reg
  usesRs1 : Bool
  usesRs2 : Bool
  /-- The instruction writes `x[rd]`. -/
  wr : Bool
  imm : Word
  /-- `x[rs1]` as read in Decode. -/
  v1 : Word
  /-- `x[rs2]` as read in Decode. -/
  v2 : Word
  pred : Bool
  predNpc : Word
  deriving DecidableEq, Repr

/-- `MR`, Execute to Memory (R30). -/
structure ExecutedInstr where
  pc : Word
  iw : InstrWord
  tag : Tag
  rd : Reg
  wr : Bool
  result : Word
  /-- The effective address of a load or store. -/
  addr : Word
  /-- The value a store writes. -/
  sdata : Word
  /-- This instruction redirected `pc`. -/
  branch : Bool
  wrongPrediction : Bool
  deriving DecidableEq, Repr

/-- `WR`, Memory to Writeback (R31). -/
structure CompletedInstr where
  pc : Word
  iw : InstrWord
  tag : Tag
  rd : Reg
  wr : Bool
  result : Word
  deriving DecidableEq, Repr

/-! ### Predictor and caches (R34 to R38) -/

/-- An allocated entry of the branch target buffer (R34): `target = none` is `tset = 0`. An empty slot
(`alloc = 0`) is `none` in the table. -/
structure BtbEntry where
  /-- The branch's own address. -/
  tag : Word
  /-- The predicted next pc, once known. -/
  target : Option Word
  deriving DecidableEq, Repr

/-- The branch target buffer: 32 slots (R34). -/
abbrev Btb := Vector (Option BtbEntry) 32

/-- A valid line of the instruction cache (R35): the tag `a[63:13]` and four instruction words. -/
structure IcLine where
  tag : BitVec 51
  words : Vector InstrWord 4
  deriving DecidableEq, Repr

/-- A valid line of the data cache (R37): the tag `a[63:14]` and 8 bytes. -/
structure DcLine where
  tag : BitVec 50
  data : Word
  deriving DecidableEq, Repr

/-- A cache-fill controller with a fill buffer of `n` bits (R36, R38). -/
inductive FillFsm (n : Nat) where
  | idle
  /-- A fill is issued; readiness is polled. -/
  | wait (base : Word) (data : BitVec n)
  /-- Readiness was observed; the line is installed this cycle. -/
  | commit (base : Word) (data : BitVec n)
  deriving DecidableEq, Repr

/-! ### Outputs kept as logs (R39, R48; log 8) -/

/-- The kinds of `mem_fault` (R48, R401). -/
inductive MemFaultKind where
  | readFail | writeFail | iFillFail | dataMisaligned | fetchMisaligned
  deriving DecidableEq, Repr

/-- An event of R39 and R48. -/
inductive Event where
  /-- An instruction left the pipeline (R255). -/
  | retire (pc : Word) (tag : Tag)
  /-- The structured decode error: the word and its address (R402). -/
  | decodeFault (iw : InstrWord) (pc : Word)
  | memFault (kind : MemFaultKind) (addr : Word)
  deriving DecidableEq, Repr

/-- A call of the core to the collaborator's memory (R40 to R42). -/
inductive BusCall where
  | readMemory (addr : Word) (size : Nat)
  | writeMemory (addr value : Word) (size : Nat)
  | memoryReady (addr : Word)
  deriving DecidableEq, Repr

/-- The state of the machine: 10_state.md parts A and B, and the model's own fields `level`, `answers`,
`events` and `bus`. -/
structure State where
  /-- The parameters of R10, never written. -/
  cfg : Config
  /-- MODEL's own (log 1): which level a step of the model is. -/
  level : Level
  /-- `x[0..31]` (R20). -/
  regs : Vector Word 32
  /-- `pc` (R22): the fetch pointer; at the architectural level the address of the next instruction. -/
  pc : Word
  /-- Backing memory (R23). -/
  mem : Memory
  /-- `DR` (R28). -/
  dr : Option FetchedInstr
  /-- `XR` (R29). -/
  xr : Option DecodedInstr
  /-- `MR` (R30). -/
  mr : Option ExecutedInstr
  /-- `WR` (R31). -/
  wr : Option CompletedInstr
  /-- `BTB` (R34). -/
  btb : Btb
  /-- The valid lines of `IC.line`, by index, indices rising (R35). -/
  icLines : List (Nat × IcLine)
  /-- `IC.fsm` (R36). -/
  icFsm : FillFsm 128
  /-- The valid lines of `DC.line`, by index, indices rising (R37). -/
  dcLines : List (Nat × DcLine)
  /-- `DC.fsm` (R38). -/
  dcFsm : FillFsm 64
  /-- `halted` (R39). -/
  halted : Bool
  /-- The events emitted so far, newest first (R39, log 8). -/
  events : List Event
  /-- MODEL's own (log 2): the collaborator's answers to come, in the order of the calls. -/
  answers : List Bool
  /-- MODEL's own (log 8): the calls made to the collaborator and their answers, newest first. -/
  bus : List (BusCall × Bool)
  deriving DecidableEq, Repr

/-- Why the machine stops with a fault: never. The spec has no trap, and every failure it describes is an
event with a hold, a bubble or a no-op (60_exceptions.md R400, R401, R404), so no meaning and no step raises
a fault, and the type has no constructor (log 11). -/
inductive Fault where
  deriving DecidableEq, Repr

/-- Why an instruction has no meaning in the model. -/
inductive Refusal where
  /-- Raised only by an arm of `exec` whose instruction has no meaning yet; at present by none.
  Safe: the model stops where the hardware goes on. -/
  | notModelled (mnemonic : String)
  deriving DecidableEq, Repr

/-- The state before the first cycle, for a choice of the parameters, of the start registers, of memory
and of the collaborator's answers, which the spec leaves open (R49 to R54). -/
def State.launch (cfg : Config) (regs : Vector Word 32) (mem : Memory) (answers : List Bool) : State where
  cfg := cfg
  level := .cycle
  regs := regs
  pc := cfg.resetPc
  mem := mem
  dr := none
  xr := none
  mr := none
  wr := none
  btb := Vector.replicate 32 none
  icLines := []
  icFsm := .idle
  dcLines := []
  dcFsm := .idle
  halted := false
  events := []
  answers := answers
  bus := []

/-- The state after reset (R49 to R55). DESIGN CHOICE where the spec leaves a launch parameter open:
registers zero (log 4), memory with nothing listed (log 5), no answer given in advance (log 2), the
cycle level (log 1). -/
def State.reset : State := State.launch Config.default (Vector.replicate 32 0) [] []

end Sys2Proof.Machine
end

