-- ==== Sys2Proof/Machine/Ops.lean ====
section
/-! DEFINITION. The named operations over sparse tables, memory, registers, the event log and the
collaborator. There is no exception entry and no return from one in this file because the hardware has
neither (60_exceptions.md R400, R407, R408): the one shared operation that stands in their place is
`State.report`, which emits an event and changes nothing else. -/

namespace Sys2Proof.Machine

/-- What a meaning or a step answers. -/
abbrev Result := Host.Outcome State Fault Refusal

/-! ### Sparse tables: a list of (key, value) pairs with keys rising -/

/-- The value listed under a key. -/
def Assoc.lookup {α : Type} : List (Nat × α) → Nat → Option α
  | [], _ => none
  | (k, v) :: rest, key => if k = key then some v else Assoc.lookup rest key

/-- List a value under a key, replacing the one that is there. -/
def Assoc.insert {α : Type} : List (Nat × α) → Nat → α → List (Nat × α)
  | [], key, v => [(key, v)]
  | (k, w) :: rest, key, v =>
    if key < k then (key, v) :: (k, w) :: rest
    else if key = k then (key, v) :: rest
    else (k, w) :: Assoc.insert rest key v

/-- List nothing under a key. -/
def Assoc.erase {α : Type} : List (Nat × α) → Nat → List (Nat × α)
  | [], _ => []
  | (k, w) :: rest, key => if k = key then rest else (k, w) :: Assoc.erase rest key

/-- Keys strictly rising. -/
abbrev Assoc.sorted {α : Type} (l : List (Nat × α)) : Prop := l.Pairwise (fun p q => p.1 < q.1)

/-! ### Backing memory (R23, R60, R61) -/

/-- The byte at an address. -/
def Memory.byte (m : Memory) (a : Word) : Byte := (Assoc.lookup m a.toNat).getD Memory.unlisted

/-- Set the byte at an address, keeping the canonical form. -/
def Memory.setByte (m : Memory) (a : Word) (b : Byte) : Memory :=
  if b = Memory.unlisted then Assoc.erase m a.toNat else Assoc.insert m a.toNat b

/-- The `n` bytes at `a`, `a + 1`, ... as a little-endian unsigned number (R61, R65). -/
def Memory.read (m : Memory) (a : Word) : Nat → Nat
  | 0 => 0
  | n + 1 => (m.byte a).toNat + 256 * Memory.read m (a + 1) n

/-- Write the low `n` bytes of `v` at `a`, `a + 1`, ..., least significant byte first (R41, R66). -/
def Memory.write (m : Memory) (a : Word) : Nat → Word → Memory
  | 0, _ => m
  | n + 1, v => Memory.write (m.setByte a (v.setWidth 8)) (a + 1) n (v >>> 8)

/-- `MemRead(addr, n)` (R65), for `n` at most 8. -/
def Memory.readWord (m : Memory) (a : Word) (n : Nat) : Word := BitVec.ofNat 64 (m.read a n)

/-- The low `n` bytes of a value, the upper bits zero: the `value` argument of `write_memory` (R41). -/
def lowBytes (n : Nat) (v : Word) : Word := (v.setWidth (8 * n)).setWidth 64

/-- Natural alignment, `addr mod n = 0` (R62). -/
def aligned (a : Word) (n : Nat) : Bool := a.toNat % n == 0

/-! ### Registers (R20, R21) -/

/-- The register file. -/
abbrev RegFile := Vector Word 32

/-- A read of the register file: index 0 is 0 (R21). -/
def RegFile.read (g : RegFile) (r : Reg) : Word := if r = 0 then 0 else g.get r

/-- A write of the register file: not performed for index 0 (R21). -/
def RegFile.write (g : RegFile) (r : Reg) (v : Word) : RegFile := if r = 0 then g else g.set r v

/-- `read_register(i)` (R43). -/
def State.readReg (s : State) (r : Reg) : Word := RegFile.read s.regs r

/-- `write_register(i, v)` (R44). -/
def State.writeReg (s : State) (r : Reg) (v : Word) : State := { s with regs := RegFile.write s.regs r v }

/-! ### Events and retirement (R48, R255) -/

/-- Emit an event. -/
def State.report (s : State) (e : Event) : State := { s with events := e :: s.events }

/-- The instruction at `pc` is done and the next one is at `npc`: emit `retire(pc, tag)` and go on. -/
def State.retireTo (s : State) (tag : Tag) (npc : Word) : State :=
  { s.report (.retire s.pc tag) with pc := npc }

/-- Write `v` to `x[rd]` and go on at the next word: how every instruction with a result and no
transfer of control ends (R150, R170, R190, R200). -/
def State.complete (s : State) (tag : Tag) (rd : Reg) (v : Word) : Result :=
  .next ((s.writeReg rd v).retireTo tag (s.pc + 4))

/-! ### The collaborator (R40 to R42, R373) -/

/-- Make a call to the collaborator's memory: take the next answer, or a free one when none is left
(log 2), and record the call. -/
def State.ask (s : State) (call : BusCall) : Bool × State :=
  match s.answers with
  | [] =>
    let a := Config.collaboratorAnswer s.bus.length
    (a, { s with bus := (call, a) :: s.bus })
  | a :: rest => (a, { s with answers := rest, bus := (call, a) :: s.bus })

/-! ### Fetch and decode faults at the architectural level (R90, R240, R403) -/

/-- The instruction word at `pc` in backing memory (R61, R90, R268). -/
def State.fetchWord (s : State) : InstrWord := BitVec.ofNat 32 (s.mem.read s.pc 4)

/-- The architectural effect of a word outside the supported set (R240): under NOP it retires as a no-op
and is reported; under HALT it is reported and the core is halted, without retiring (R403). -/
def State.decodeFault (s : State) (iw : InstrWord) : State :=
  match s.cfg.decodeFaultPolicy with
  | .nop => (s.retireTo .decodeFault (s.pc + 4)).report (.decodeFault iw s.pc)
  | .halt => { s.report (.decodeFault iw s.pc) with halted := true }

end Sys2Proof.Machine
end

