-- ==== Sys2Proof/Machine/Caches.lean ====
section
/-! DEFINITION. The two caches and their fill controllers (53_caches.md), and the architectural memory
primitives over them (20_memory.md R64 to R66). -/

namespace Sys2Proof.Machine

/-! ### Access widths (R64) -/

/-- The number of bytes a load or store accesses (R64); 0 for a tag that makes no access. -/
def accessBytes : Tag → Nat
  | .lb | .lbu | .sb => 1
  | .lh | .lhu | .sh => 2
  | .lw | .lwu | .sw => 4
  | .ld | .sd => 8
  | .addi | .slti | .sltiu | .xori | .ori | .andi | .slli | .srli | .srai
  | .addiw | .slliw | .srliw | .sraiw
  | .add | .sub | .sll | .slt | .sltu | .xor | .srl | .sra | .or | .and
  | .addw | .subw | .sllw | .srlw | .sraw | .mul | .div | .rem | .lui | .auipc
  | .beq | .bne | .blt | .bge | .bltu | .bgeu | .jal | .jalr
  | .fence | .fenceI | .ecall | .ebreak
  | .csrrw | .csrrs | .csrrc | .csrrwi | .csrrsi | .csrrci | .decodeFault => 0

/-- The value a load writes, from the bytes it read, lowest byte in bits 7:0 and any bits above the access
width ignored: sign-extended for `lb lh lw`, zero-extended for `lbu lhu lwu`, whole for `ld`
(R130 to R137, R257). Every other tag loads nothing. -/
def loadValue (tag : Tag) (raw : Word) : Word :=
  match tag with
  | .lb => (raw.setWidth 8).signExtend 64
  | .lh => (raw.setWidth 16).signExtend 64
  | .lw => (raw.setWidth 32).signExtend 64
  | .ld => raw
  | .lbu => (raw.setWidth 8).setWidth 64
  | .lhu => (raw.setWidth 16).setWidth 64
  | .lwu => (raw.setWidth 32).setWidth 64
  | .sb | .sh | .sw | .sd
  | .addi | .slti | .sltiu | .xori | .ori | .andi | .slli | .srli | .srai
  | .addiw | .slliw | .srliw | .sraiw
  | .add | .sub | .sll | .slt | .sltu | .xor | .srl | .sra | .or | .and
  | .addw | .subw | .sllw | .srlw | .sraw | .mul | .div | .rem | .lui | .auipc
  | .beq | .bne | .blt | .bge | .bltu | .bgeu | .jal | .jalr
  | .fence | .fenceI | .ecall | .ebreak
  | .csrrw | .csrrs | .csrrc | .csrrwi | .csrrsi | .csrrci | .decodeFault => 0

/-! ### Instruction cache (R350 to R355) -/

/-- `a[12:4]`. -/
def icIndex (a : Word) : Nat := (a.extractLsb' 4 9).toNat
/-- `a[63:13]`. -/
def icTag (a : Word) : BitVec 51 := a.extractLsb' 13 51
/-- `{a[63:4], 4'b0}`, the address of the 16-byte line. -/
def icBase (a : Word) : Word := a.extractLsb' 4 60 ++ 0#4
/-- `a[3:2]`, which of the four words. -/
def icWord (a : Word) : Fin 4 := (a.extractLsb' 2 2).toFin

/-- Lookup (R351): the line of an address, when it is valid and its tag is the address's. -/
def icLookup (lines : List (Nat × IcLine)) (a : Word) : Option IcLine :=
  match Assoc.lookup lines (icIndex a) with
  | some line => if line.tag = icTag a then some line else none
  | none => none

/-- The line a fill installs: its tag and word `k` = `data[32k+31:32k]` (R355). -/
def icFillLine (base : Word) (data : BitVec 128) : IcLine where
  tag := icTag base
  words := #v[data.extractLsb' 0 32, data.extractLsb' 32 32, data.extractLsb' 64 32, data.extractLsb' 96 32]

/-- Phase 1 begins (R353, R358): ask for the 16 bytes of the line of `a`. -/
def icIssue (s : State) (a : Word) : Bool × State :=
  let base := icBase a
  match s.ask (.readMemory base 16) with
  | (true, s) => (true, { s with icFsm := .wait base (BitVec.ofNat 128 (s.mem.read base 16)) })
  | (false, s) => (false, s.report (.memFault .iFillFail base))

/-- One cycle of the instruction-cache fill controller (R354, R355). -/
def icFillStep (s : State) : State :=
  match s.icFsm with
  | .idle => s
  | .wait base data =>
    match s.ask (.memoryReady base) with
    | (true, s) => { s with icFsm := .commit base data }
    | (false, s) => s
  | .commit base data =>
    { s with icLines := Assoc.insert s.icLines (icIndex base) (icFillLine base data), icFsm := .idle }

/-! ### Data cache (R360 to R369) -/

/-- `a[13:3]`. -/
def dcIndex (a : Word) : Nat := (a.extractLsb' 3 11).toNat
/-- `a[63:14]`. -/
def dcTag (a : Word) : BitVec 50 := a.extractLsb' 14 50
/-- `{a[63:3], 3'b0}`, the address of the 8-byte line. -/
def dcBase (a : Word) : Word := a.extractLsb' 3 61 ++ 0#3
/-- `a[2:0]`. -/
def dcOffset (a : Word) : Nat := (a.extractLsb' 0 3).toNat

/-- Lookup (R361): the line of an address, when it is valid and its tag is the address's. -/
def dcLookup (lines : List (Nat × DcLine)) (a : Word) : Option DcLine :=
  match Assoc.lookup lines (dcIndex a) with
  | some line => if line.tag = dcTag a then some line else none
  | none => none

/-- The bytes of a line from the offset of `a` on (R361, decision D38). -/
def dcRaw (line : DcLine) (a : Word) : Word := line.data >>> (8 * dcOffset a)

/-- The bytes of a line with the `n` from offset `off` on replaced by the low bytes of `v` (R366). -/
def replaceBytes (data : Word) (off n : Nat) (v : Word) : Word :=
  let mask : Word := BitVec.ofNat 64 (2 ^ (8 * n) - 1) <<< (8 * off)
  (data &&& ~~~mask) ||| ((v <<< (8 * off)) &&& mask)

/-- Phase 1 begins (R362, R369): ask for the 8 bytes of the line of `a`. -/
def dcIssue (s : State) (a : Word) : Bool × State :=
  let base := dcBase a
  match s.ask (.readMemory base 8) with
  | (true, s) => (true, { s with dcFsm := .wait base (s.mem.readWord base 8) })
  | (false, s) => (false, s.report (.memFault .readFail base))

/-- Phase 1 continues (R363). -/
def dcPoll (s : State) (base : Word) (data : BitVec 64) : State :=
  match s.ask (.memoryReady base) with
  | (true, s) => { s with dcFsm := .commit base data }
  | (false, s) => s

/-- Phase 2 (R364): install the line. -/
def dcCommit (s : State) (base : Word) (data : BitVec 64) : State :=
  { s with
    dcLines := Assoc.insert s.dcLines (dcIndex base) { tag := dcTag base, data := data }
    dcFsm := .idle }

/-- Write through, no allocate (R66, R366, R367): backing memory always, the data-cache line when it is
there. -/
def State.storeThrough (s : State) (a : Word) (n : Nat) (v : Word) : State :=
  { s with
    mem := s.mem.write a n v
    dcLines :=
      match dcLookup s.dcLines a with
      | some line =>
        Assoc.insert s.dcLines (dcIndex a) { line with data := replaceBytes line.data (dcOffset a) n v }
      | none => s.dcLines }

/-- `MemWrite(addr, n, v)` (R66) at the architectural level: the store takes effect, and the call that
performs it is recorded as answered with success (premise (ii) of R268, log 9). -/
def State.memWrite (s : State) (a : Word) (n : Nat) (v : Word) : State :=
  { s.storeThrough a n v with bus := (.writeMemory a (lowBytes n v) n, true) :: s.bus }

end Sys2Proof.Machine
end

