-- ==== Sys2Proof/Machine/Operands.lean ====
section
/-! DEFINITION. The operand forms: the values an instruction takes from its fields and registers, and the
addresses it computes (R69, R93 to R98, R210, R217, R218). -/

namespace Sys2Proof.Machine

/-- A sign-extended immediate or offset (R13, R93, R95, R96, R98). -/
def sextImm {n : Nat} (imm : BitVec n) : Word := imm.signExtend 64

/-- A shift amount (R94). -/
def shiftAmount {n : Nat} (shamt : BitVec n) : Word := shamt.zeroExtend 64

/-- The effective address of a load or store: base plus displacement, modulo 2^64 (R69, R130, R138). -/
def State.effAddr (s : State) (rs1 : Reg) (imm : BitVec 12) : Word := s.readReg rs1 + sextImm imm

/-- The address after the instruction at `p`, modulo 2^64 (R22): where a link register points (R217). -/
def nextWord (p : Word) : Word := p + 4

/-- A pc-relative target (R210, R217). -/
def relTarget (p imm : Word) : Word := p + imm

/-- The target of `jalr`: the sum with bit 0 cleared (R218). -/
def jalrTarget (base imm : Word) : Word := (base + imm).extractLsb' 1 63 ++ 0#1

end Sys2Proof.Machine
end

