-- ==== Sys2Proof/Machine/Alu.lean ====
section
/-! DEFINITION. The values that Execute computes: one function for each operation, used by the meanings of
the instructions and by the Execute stage alike (R261). No operation sets a flag (R24). -/

namespace Sys2Proof.Machine

/-- `sext_32(v[31:0])` (R12, R150). -/
def sext32 (v : Word) : Word := (v.setWidth 32).signExtend 64

/-- A comparison's result, 1 or 0. -/
def boolWord (c : Bool) : Word := if c then 1 else 0

/-! ### Arithmetic and logic (R151 to R156, R171 to R180) -/

def Alu.add (a b : Word) : Word := a + b
def Alu.sub (a b : Word) : Word := a - b
/-- Signed comparison (R152, R174). -/
def Alu.slt (a b : Word) : Word := boolWord (decide (a.toInt < b.toInt))
/-- Unsigned comparison (R153, R175). -/
def Alu.sltu (a b : Word) : Word := boolWord (decide (a.toNat < b.toNat))
def Alu.xor (a b : Word) : Word := a ^^^ b
def Alu.or (a b : Word) : Word := a ||| b
def Alu.and (a b : Word) : Word := a &&& b
/-- Only `b[5:0]` counts (R157, R173). -/
def Alu.sll (a b : Word) : Word := a <<< (b.extractLsb' 0 6).toNat
def Alu.srl (a b : Word) : Word := a >>> (b.extractLsb' 0 6).toNat
/-- Copies of bit 63 enter (R159, R178). -/
def Alu.sra (a b : Word) : Word := a.sshiftRight (b.extractLsb' 0 6).toNat

/-! ### 32-bit forms: truncate, compute, sign-extend (R160 to R163, R181 to R185) -/

def Alu.addw (a b : Word) : Word := sext32 (a + b)
def Alu.subw (a b : Word) : Word := sext32 (a - b)
/-- Only `b[4:0]` counts (R161, R183). -/
def Alu.sllw (a b : Word) : Word := ((a.setWidth 32) <<< (b.extractLsb' 0 5).toNat).signExtend 64
def Alu.srlw (a b : Word) : Word := ((a.setWidth 32) >>> (b.extractLsb' 0 5).toNat).signExtend 64
/-- Copies of bit 31 of the low word enter (R163, R185). -/
def Alu.sraw (a b : Word) : Word :=
  ((a.setWidth 32).sshiftRight (b.extractLsb' 0 5).toNat).signExtend 64

/-! ### Multiply, divide, remainder (R190 to R194) -/

/-- The low 64 bits of the product (R191). -/
def Alu.mul (a b : Word) : Word := BitVec.ofNat 64 (a.toNat * b.toNat)

/-- The quotient (R192, R193): all ones for a zero divisor; signed and rounded toward zero, or unsigned,
by `DIVREM_SIGNED`. The signed overflow narrows to the most negative number, as R193 says. -/
def Alu.div (cfg : Config) (a b : Word) : Word :=
  if b = 0 then BitVec.allOnes 64
  else if cfg.divremSigned then BitVec.ofInt 64 (a.toInt.tdiv b.toInt)
  else BitVec.ofNat 64 (a.toNat / b.toNat)

/-- The remainder (R193, R194): the dividend for a zero divisor; with the sign of the dividend, or
unsigned, by `DIVREM_SIGNED`. -/
def Alu.rem (cfg : Config) (a b : Word) : Word :=
  if b = 0 then a
  else if cfg.divremSigned then BitVec.ofInt 64 (a.toInt.tmod b.toInt)
  else BitVec.ofNat 64 (a.toNat % b.toNat)

/-! ### Branch conditions (R211 to R216) -/

def Cond.eq (a b : Word) : Bool := decide (a = b)
def Cond.ne (a b : Word) : Bool := decide (a ≠ b)
def Cond.lt (a b : Word) : Bool := decide (a.toInt < b.toInt)
def Cond.ge (a b : Word) : Bool := decide (b.toInt ≤ a.toInt)
def Cond.ltu (a b : Word) : Bool := decide (a.toNat < b.toNat)
def Cond.geu (a b : Word) : Bool := decide (b.toNat ≤ a.toNat)

end Sys2Proof.Machine
end

