-- ==== Sys2Proof/Machine/AluImmediate.lean ====
section
/-! DEFINITION. Register-immediate arithmetic (41_alu_immediate.md). -/

namespace Sys2Proof.Machine

/-- `addi rd, rs1, imm` (R151). -/
def execAddi (rd rs1 : Reg) (imm : BitVec 12) (s : State) : Result :=
  s.complete .addi rd (Alu.add (s.readReg rs1) (sextImm imm))

/-- `slti rd, rs1, imm` (R152). -/
def execSlti (rd rs1 : Reg) (imm : BitVec 12) (s : State) : Result :=
  s.complete .slti rd (Alu.slt (s.readReg rs1) (sextImm imm))

/-- `sltiu rd, rs1, imm` (R153). -/
def execSltiu (rd rs1 : Reg) (imm : BitVec 12) (s : State) : Result :=
  s.complete .sltiu rd (Alu.sltu (s.readReg rs1) (sextImm imm))

/-- `xori rd, rs1, imm` (R154). -/
def execXori (rd rs1 : Reg) (imm : BitVec 12) (s : State) : Result :=
  s.complete .xori rd (Alu.xor (s.readReg rs1) (sextImm imm))

/-- `ori rd, rs1, imm` (R155). -/
def execOri (rd rs1 : Reg) (imm : BitVec 12) (s : State) : Result :=
  s.complete .ori rd (Alu.or (s.readReg rs1) (sextImm imm))

/-- `andi rd, rs1, imm` (R156). -/
def execAndi (rd rs1 : Reg) (imm : BitVec 12) (s : State) : Result :=
  s.complete .andi rd (Alu.and (s.readReg rs1) (sextImm imm))

/-- `slli rd, rs1, shamt` (R157). -/
def execSlli (rd rs1 : Reg) (shamt : BitVec 6) (s : State) : Result :=
  s.complete .slli rd (Alu.sll (s.readReg rs1) (shiftAmount shamt))

/-- `srli rd, rs1, shamt` (R158). -/
def execSrli (rd rs1 : Reg) (shamt : BitVec 6) (s : State) : Result :=
  s.complete .srli rd (Alu.srl (s.readReg rs1) (shiftAmount shamt))

/-- `srai rd, rs1, shamt` (R159). -/
def execSrai (rd rs1 : Reg) (shamt : BitVec 6) (s : State) : Result :=
  s.complete .srai rd (Alu.sra (s.readReg rs1) (shiftAmount shamt))

/-- `addiw rd, rs1, imm` (R160). -/
def execAddiw (rd rs1 : Reg) (imm : BitVec 12) (s : State) : Result :=
  s.complete .addiw rd (Alu.addw (s.readReg rs1) (sextImm imm))

/-- `slliw rd, rs1, shamt` (R161). -/
def execSlliw (rd rs1 : Reg) (shamt : BitVec 5) (s : State) : Result :=
  s.complete .slliw rd (Alu.sllw (s.readReg rs1) (shiftAmount shamt))

/-- `srliw rd, rs1, shamt` (R162). -/
def execSrliw (rd rs1 : Reg) (shamt : BitVec 5) (s : State) : Result :=
  s.complete .srliw rd (Alu.srlw (s.readReg rs1) (shiftAmount shamt))

/-- `sraiw rd, rs1, shamt` (R163). -/
def execSraiw (rd rs1 : Reg) (shamt : BitVec 5) (s : State) : Result :=
  s.complete .sraiw rd (Alu.sraw (s.readReg rs1) (shiftAmount shamt))

end Sys2Proof.Machine
end

