-- ==== Sys2Proof/Machine/AluRegister.lean ====
section
/-! DEFINITION. Register-register arithmetic (42_alu_register.md). -/

namespace Sys2Proof.Machine

/-- `add rd, rs1, rs2` (R171). -/
def execAdd (rd rs1 rs2 : Reg) (s : State) : Result :=
  s.complete .add rd (Alu.add (s.readReg rs1) (s.readReg rs2))

/-- `sub rd, rs1, rs2` (R172). -/
def execSub (rd rs1 rs2 : Reg) (s : State) : Result :=
  s.complete .sub rd (Alu.sub (s.readReg rs1) (s.readReg rs2))

/-- `sll rd, rs1, rs2` (R173). -/
def execSll (rd rs1 rs2 : Reg) (s : State) : Result :=
  s.complete .sll rd (Alu.sll (s.readReg rs1) (s.readReg rs2))

/-- `slt rd, rs1, rs2` (R174). -/
def execSlt (rd rs1 rs2 : Reg) (s : State) : Result :=
  s.complete .slt rd (Alu.slt (s.readReg rs1) (s.readReg rs2))

/-- `sltu rd, rs1, rs2` (R175). -/
def execSltu (rd rs1 rs2 : Reg) (s : State) : Result :=
  s.complete .sltu rd (Alu.sltu (s.readReg rs1) (s.readReg rs2))

/-- `xor rd, rs1, rs2` (R176). -/
def execXor (rd rs1 rs2 : Reg) (s : State) : Result :=
  s.complete .xor rd (Alu.xor (s.readReg rs1) (s.readReg rs2))

/-- `srl rd, rs1, rs2` (R177). -/
def execSrl (rd rs1 rs2 : Reg) (s : State) : Result :=
  s.complete .srl rd (Alu.srl (s.readReg rs1) (s.readReg rs2))

/-- `sra rd, rs1, rs2` (R178). -/
def execSra (rd rs1 rs2 : Reg) (s : State) : Result :=
  s.complete .sra rd (Alu.sra (s.readReg rs1) (s.readReg rs2))

/-- `or rd, rs1, rs2` (R179). -/
def execOr (rd rs1 rs2 : Reg) (s : State) : Result :=
  s.complete .or rd (Alu.or (s.readReg rs1) (s.readReg rs2))

/-- `and rd, rs1, rs2` (R180). -/
def execAnd (rd rs1 rs2 : Reg) (s : State) : Result :=
  s.complete .and rd (Alu.and (s.readReg rs1) (s.readReg rs2))

/-- `addw rd, rs1, rs2` (R181). -/
def execAddw (rd rs1 rs2 : Reg) (s : State) : Result :=
  s.complete .addw rd (Alu.addw (s.readReg rs1) (s.readReg rs2))

/-- `subw rd, rs1, rs2` (R182). -/
def execSubw (rd rs1 rs2 : Reg) (s : State) : Result :=
  s.complete .subw rd (Alu.subw (s.readReg rs1) (s.readReg rs2))

/-- `sllw rd, rs1, rs2` (R183). -/
def execSllw (rd rs1 rs2 : Reg) (s : State) : Result :=
  s.complete .sllw rd (Alu.sllw (s.readReg rs1) (s.readReg rs2))

/-- `srlw rd, rs1, rs2` (R184). -/
def execSrlw (rd rs1 rs2 : Reg) (s : State) : Result :=
  s.complete .srlw rd (Alu.srlw (s.readReg rs1) (s.readReg rs2))

/-- `sraw rd, rs1, rs2` (R185). -/
def execSraw (rd rs1 rs2 : Reg) (s : State) : Result :=
  s.complete .sraw rd (Alu.sraw (s.readReg rs1) (s.readReg rs2))

end Sys2Proof.Machine
end

