-- ==== Sys2Proof/Machine/Control.lean ====
section
/-! DEFINITION. Branches and jumps (45_control_transfer.md). -/

namespace Sys2Proof.Machine

/-- What every conditional branch does (R210): go to the target when the condition holds, else to the
next word. -/
def State.branch (s : State) (tag : Tag) (taken : Bool) (offset : BitVec 13) : Result :=
  .next (s.retireTo tag (if taken then relTarget s.pc (sextImm offset) else nextWord s.pc))

/-- What both jumps do: write the return address to `x[rd]` and go to the target (R217, R218). -/
def State.jump (s : State) (tag : Tag) (rd : Reg) (target : Word) : Result :=
  .next ((s.writeReg rd (nextWord s.pc)).retireTo tag target)

/-- `beq rs1, rs2, offset` (R211). -/
def execBeq (rs1 rs2 : Reg) (offset : BitVec 13) (s : State) : Result :=
  s.branch .beq (Cond.eq (s.readReg rs1) (s.readReg rs2)) offset

/-- `bne rs1, rs2, offset` (R212). -/
def execBne (rs1 rs2 : Reg) (offset : BitVec 13) (s : State) : Result :=
  s.branch .bne (Cond.ne (s.readReg rs1) (s.readReg rs2)) offset

/-- `blt rs1, rs2, offset` (R213). -/
def execBlt (rs1 rs2 : Reg) (offset : BitVec 13) (s : State) : Result :=
  s.branch .blt (Cond.lt (s.readReg rs1) (s.readReg rs2)) offset

/-- `bge rs1, rs2, offset` (R214). -/
def execBge (rs1 rs2 : Reg) (offset : BitVec 13) (s : State) : Result :=
  s.branch .bge (Cond.ge (s.readReg rs1) (s.readReg rs2)) offset

/-- `bltu rs1, rs2, offset` (R215). -/
def execBltu (rs1 rs2 : Reg) (offset : BitVec 13) (s : State) : Result :=
  s.branch .bltu (Cond.ltu (s.readReg rs1) (s.readReg rs2)) offset

/-- `bgeu rs1, rs2, offset` (R216). -/
def execBgeu (rs1 rs2 : Reg) (offset : BitVec 13) (s : State) : Result :=
  s.branch .bgeu (Cond.geu (s.readReg rs1) (s.readReg rs2)) offset

/-- `jal rd, offset` (R217). -/
def execJal (rd : Reg) (offset : BitVec 21) (s : State) : Result :=
  s.jump .jal rd (relTarget s.pc (sextImm offset))

/-- `jalr rd, imm(rs1)` (R218): the target uses the old `x[rs1]`. -/
def execJalr (rd rs1 : Reg) (imm : BitVec 12) (s : State) : Result :=
  s.jump .jalr rd (jalrTarget (s.readReg rs1) (sextImm imm))

end Sys2Proof.Machine
end

