-- ==== Sys2Proof/Machine/LoadStore.lean ====
section
/-! DEFINITION. Loads and stores (40_loads_stores.md). -/

namespace Sys2Proof.Machine

/-- What every load does (R130): compute the address; when it is naturally aligned, read, extend and write
`x[rd]`; when it is not, report it and make no progress (R62, log 11). -/
def State.load (s : State) (tag : Tag) (rd rs1 : Reg) (imm : BitVec 12) : Result :=
  let a := s.effAddr rs1 imm
  let n := accessBytes tag
  if aligned a n then s.complete tag rd (loadValue tag (s.mem.readWord a n))
  else .next (s.report (.memFault .dataMisaligned a))

/-- What every store does (R138): compute the address; when it is naturally aligned, write the low bytes of
`x[rs2]`; when it is not, report it and make no progress (R62, log 11). -/
def State.store (s : State) (tag : Tag) (rs2 rs1 : Reg) (imm : BitVec 12) : Result :=
  let a := s.effAddr rs1 imm
  let n := accessBytes tag
  if aligned a n then .next ((s.memWrite a n (s.readReg rs2)).retireTo tag (s.pc + 4))
  else .next (s.report (.memFault .dataMisaligned a))

/-- `lb rd, imm(rs1)` (R131). -/
def execLb (rd rs1 : Reg) (imm : BitVec 12) (s : State) : Result := s.load .lb rd rs1 imm

/-- `lh rd, imm(rs1)` (R132). -/
def execLh (rd rs1 : Reg) (imm : BitVec 12) (s : State) : Result := s.load .lh rd rs1 imm

/-- `lw rd, imm(rs1)` (R133). -/
def execLw (rd rs1 : Reg) (imm : BitVec 12) (s : State) : Result := s.load .lw rd rs1 imm

/-- `ld rd, imm(rs1)` (R134). -/
def execLd (rd rs1 : Reg) (imm : BitVec 12) (s : State) : Result := s.load .ld rd rs1 imm

/-- `lbu rd, imm(rs1)` (R135). -/
def execLbu (rd rs1 : Reg) (imm : BitVec 12) (s : State) : Result := s.load .lbu rd rs1 imm

/-- `lhu rd, imm(rs1)` (R136). -/
def execLhu (rd rs1 : Reg) (imm : BitVec 12) (s : State) : Result := s.load .lhu rd rs1 imm

/-- `lwu rd, imm(rs1)` (R137). -/
def execLwu (rd rs1 : Reg) (imm : BitVec 12) (s : State) : Result := s.load .lwu rd rs1 imm

/-- `sb rs2, imm(rs1)` (R139). -/
def execSb (rs2 rs1 : Reg) (imm : BitVec 12) (s : State) : Result := s.store .sb rs2 rs1 imm

/-- `sh rs2, imm(rs1)` (R140). -/
def execSh (rs2 rs1 : Reg) (imm : BitVec 12) (s : State) : Result := s.store .sh rs2 rs1 imm

/-- `sw rs2, imm(rs1)` (R141). -/
def execSw (rs2 rs1 : Reg) (imm : BitVec 12) (s : State) : Result := s.store .sw rs2 rs1 imm

/-- `sd rs2, imm(rs1)` (R142). -/
def execSd (rs2 rs1 : Reg) (imm : BitVec 12) (s : State) : Result := s.store .sd rs2 rs1 imm

end Sys2Proof.Machine
end

