-- ==== Sys2Proof/Machine/MulDiv.lean ====
section
/-! DEFINITION. Multiply, divide, remainder (43_muldiv.md). -/

namespace Sys2Proof.Machine

/-- `mul rd, rs1, rs2` (R191). -/
def execMul (rd rs1 rs2 : Reg) (s : State) : Result :=
  s.complete .mul rd (Alu.mul (s.readReg rs1) (s.readReg rs2))

/-- `div rd, rs1, rs2` (R192, R193). -/
def execDiv (rd rs1 rs2 : Reg) (s : State) : Result :=
  s.complete .div rd (Alu.div s.cfg (s.readReg rs1) (s.readReg rs2))

/-- `rem rd, rs1, rs2` (R194, R193). -/
def execRem (rd rs1 rs2 : Reg) (s : State) : Result :=
  s.complete .rem rd (Alu.rem s.cfg (s.readReg rs1) (s.readReg rs2))

end Sys2Proof.Machine
end

