-- ==== Sys2Proof/Machine/System.lean ====
section
/-! DEFINITION. Fence, environment and CSR instructions (46_system.md): decoded, architecturally no-ops. -/

namespace Sys2Proof.Machine

/-- What every instruction of this file does (R230): nothing, and go on at the next word. -/
def State.noOp (s : State) (tag : Tag) : Result := .next (s.retireTo tag (s.pc + 4))

/-- `fence` (R231). -/
def execFence (_imm : BitVec 12) (_rs1 _rd : Reg) (s : State) : Result := s.noOp .fence

/-- `fence.i` (R232). -/
def execFenceI (_imm : BitVec 12) (_rs1 _rd : Reg) (s : State) : Result := s.noOp .fenceI

/-- `ecall` (R233). -/
def execEcall (s : State) : Result := s.noOp .ecall

/-- `ebreak` (R235). -/
def execEbreak (s : State) : Result := s.noOp .ebreak

/-- `csrrw rd, csr, rs1` (R236, R234). -/
def execCsrrw (_rd : Reg) (_csr : BitVec 12) (_rs1 : Reg) (s : State) : Result := s.noOp .csrrw

/-- `csrrs rd, csr, rs1` (R237, R234). -/
def execCsrrs (_rd : Reg) (_csr : BitVec 12) (_rs1 : Reg) (s : State) : Result := s.noOp .csrrs

/-- `csrrc rd, csr, rs1` (R238, R234). -/
def execCsrrc (_rd : Reg) (_csr : BitVec 12) (_rs1 : Reg) (s : State) : Result := s.noOp .csrrc

/-- `csrrwi rd, csr, uimm` (R239, R234). -/
def execCsrrwi (_rd : Reg) (_csr : BitVec 12) (_uimm : BitVec 5) (s : State) : Result := s.noOp .csrrwi

/-- `csrrsi rd, csr, uimm` (R241, R234). -/
def execCsrrsi (_rd : Reg) (_csr : BitVec 12) (_uimm : BitVec 5) (s : State) : Result := s.noOp .csrrsi

/-- `csrrci rd, csr, uimm` (R242, R234). -/
def execCsrrci (_rd : Reg) (_csr : BitVec 12) (_uimm : BitVec 5) (s : State) : Result := s.noOp .csrrci

end Sys2Proof.Machine
end

