-- ==== Sys2Proof/Machine/Upper.lean ====
section
/-! DEFINITION. Upper-immediate instructions (44_upper_immediate.md). -/

namespace Sys2Proof.Machine

/-- `lui rd, imm20` (R201). -/
def execLui (rd : Reg) (imm20 : BitVec 20) (s : State) : Result :=
  s.complete .lui rd (uImmediate s.cfg imm20)

/-- `auipc rd, imm20` (R202). -/
def execAuipc (rd : Reg) (imm20 : BitVec 20) (s : State) : Result :=
  s.complete .auipc rd (relTarget s.pc (uImmediate s.cfg imm20))

end Sys2Proof.Machine
end

