-- ==== Sys2Proof/Machine/Hazard.lean ====
section
/-! DEFINITION. The hazard detector and the forwarding multiplexer (51_hazards_forwarding.md). -/

namespace Sys2Proof.Machine

/-- A load in Execute writes a register that the decoded instruction reads (R300, R301; the store-source
case of R302 is the `rs2` term). -/
def readsLoadResult (x : DecodedInstr) (d : Decoded) : Bool :=
  x.tag.isLoad && x.rd != 0 &&
    ((d.usesRs1 && d.rs1 == x.rd) || (d.usesRs2 && d.rs2 == x.rd))

/-- `stall`: the load-use hazard of R301, on the current `DR` and `XR`. -/
def loadUseStall (s : State) : Bool :=
  match s.dr, s.xr with
  | some f, some x => readsLoadResult x (decodeOperands s.cfg f.iw)
  | _, _ => false

/-- `forward_tag` (R33, R306): the register whose value is offered from `MR`, 0 for none. -/
def forwardTag (m : ExecutedInstr) : Reg := if m.wr && !m.tag.isLoad then m.rd else 0

/-- The value `WR` offers for a register, or else the one Decode read (R304, last two lines). -/
def fwdFromWr (s : State) (r : Reg) (v : Word) : Word :=
  match s.wr with
  | some w => if w.wr && w.rd == r then w.result else v
  | none => v

/-- The forwarding multiplexer `fwd(r, v)` (R304, R305): register 0 is 0; `MR` before `WR` before the
value read in Decode; a load never forwards from `MR`. -/
def fwd (s : State) (r : Reg) (v : Word) : Word :=
  if r = 0 then 0
  else
    match s.mr with
    | some m => if m.wr && m.rd == r && !m.tag.isLoad then m.result else fwdFromWr s r v
    | none => fwdFromWr s r v

end Sys2Proof.Machine
end

