-- ==== Sys2Proof/Machine/Predictor.lean ====
section
/-! DEFINITION. The branch target buffer: prediction at Fetch and resolution at Execute
(52_branch_predictor.md). -/

namespace Sys2Proof.Machine

/-! ### At Fetch (R321 to R325) -/

/-- `is_cond_branch(iw)` (R321). -/
def isCondBranch (iw : InstrWord) : Bool :=
  InstrWord.opcode iw == 0b1100011#7 &&
    (InstrWord.funct3 iw == 0b000#3 || InstrWord.funct3 iw == 0b001#3 || InstrWord.funct3 iw == 0b100#3 ||
      InstrWord.funct3 iw == 0b101#3 || InstrWord.funct3 iw == 0b110#3 || InstrWord.funct3 iw == 0b111#3)

/-- `backward(iw)` (R321): the sign of the B-immediate. -/
def isBackward (iw : InstrWord) : Bool := iw.getLsbD 31

/-- What the scan of the table ends at (R322). -/
inductive BtbScan where
  /-- An entry with the tag looked for. -/
  | hit (entry : BtbEntry)
  /-- The first empty slot. -/
  | empty (index : Nat)
  /-- Neither, in the whole table (R324). -/
  | full
  deriving DecidableEq, Repr

/-- The linear scan of R322 from slot `i` on. -/
def Btb.scanFrom (pc : Word) : List (Option BtbEntry) → Nat → BtbScan
  | [], _ => .full
  | none :: _, i => .empty i
  | some e :: rest, i => if e.tag = pc then .hit e else Btb.scanFrom pc rest (i + 1)

/-- The scan from slot 0 (R322). -/
def Btb.scan (btb : Btb) (pc : Word) : BtbScan := Btb.scanFrom pc btb.toList 0

/-- What Fetch gets from the predictor. -/
structure Prediction where
  btb : Btb
  pred : Bool
  npc : Word
  deriving DecidableEq, Repr

/-- `predict(pc, iw)` (R321 to R325): a backward conditional branch consults the table, allocates its
entry if there is an empty slot, and follows a known target. -/
def predict (btb : Btb) (pc : Word) (iw : InstrWord) : Prediction :=
  if isCondBranch iw && isBackward iw then
    match Btb.scan btb pc with
    | .hit { target := some target, .. } => { btb, pred := true, npc := target }
    | .hit { target := none, .. } => { btb, pred := false, npc := nextWord pc }
    | .empty i =>
      { btb := btb.setIfInBounds i (some { tag := pc, target := none }), pred := false, npc := nextWord pc }
    | .full => { btb, pred := false, npc := nextWord pc }
  else { btb, pred := false, npc := nextWord pc }

/-! ### At Execute (R326) -/

/-- The slot and the entry whose tag is `pc`, from slot `i` on. -/
def Btb.findFrom (pc : Word) : List (Option BtbEntry) → Nat → Option (Nat × BtbEntry)
  | [], _ => none
  | none :: rest, i => Btb.findFrom pc rest (i + 1)
  | some e :: rest, i => if e.tag = pc then some (i, e) else Btb.findFrom pc rest (i + 1)

/-- The entry of a branch, if it has one. -/
def Btb.find (btb : Btb) (pc : Word) : Option (Nat × BtbEntry) := Btb.findFrom pc btb.toList 0

/-- Resolution of the branch at `pc`, whose true next pc is `tnpc` (R326): the table afterwards and the
flag `wrong_prediction`. -/
def resolve (btb : Btb) (pc tnpc : Word) : Btb × Bool :=
  match Btb.find btb pc with
  | none => (btb, false)
  | some (i, { tag, target := none }) => (btb.setIfInBounds i (some { tag, target := some tnpc }), false)
  | some (i, { tag, target := some target }) =>
    if target = tnpc then (btb, false)
    else (btb.setIfInBounds i (some { tag, target := some tnpc }), true)

end Sys2Proof.Machine
end

