-- ==== Sys2Proof/Machine/Pipeline.lean ====
section
/-! DEFINITION. The pipeline controller and the five stages: `advance_cycle()` (50_pipeline_controller.md). -/

namespace Sys2Proof.Machine

/-! ### Writeback (R254) -/

/-- Writeback: the only writer of the register file. -/
def writeback (s : State) : State :=
  match s.wr with
  | some w => if w.wr then s.writeReg w.rd w.result else s
  | none => s

/-! ### Memory (R256 to R258) -/

/-- What the Memory stage leaves: the state, `hold_all`, `WR_next`, and for the flags of R33 whether a
data-cache read miss or fill is the cause of the hold and whether a fill was issued in this cycle. -/
structure MemoryOut where
  state : State
  hold : Bool
  wrNext : Option CompletedInstr
  dMiss : Bool
  issued : Bool
  deriving DecidableEq, Repr

/-- `WR_next` of the instruction in `MR`, with its register write and result. -/
def ExecutedInstr.completed (m : ExecutedInstr) (rd : Reg) (wr : Bool) (result : Word) : CompletedInstr :=
  { pc := m.pc, iw := m.iw, tag := m.tag, rd := rd, wr := wr, result := result }

/-- A load in Memory (R257). -/
def loadStage (s : State) (m : ExecutedInstr) : MemoryOut :=
  if aligned m.addr (accessBytes m.tag) then
    match s.dcFsm with
    | .idle =>
      match dcLookup s.dcLines m.addr with
      | some line =>
        { state := s, hold := false, dMiss := false, issued := false
          wrNext := some (m.completed m.rd true (loadValue m.tag (dcRaw line m.addr))) }
      | none =>
        let r := dcIssue s m.addr
        { state := r.2, hold := true, wrNext := none, dMiss := true, issued := r.1 }
    | .wait base data =>
      { state := dcPoll s base data, hold := true, wrNext := none, dMiss := true, issued := false }
    | .commit base data =>
      { state := dcCommit s base data, hold := true, wrNext := none, dMiss := true, issued := false }
  else
    { state := s.report (.memFault .dataMisaligned m.addr), hold := true, wrNext := none
      dMiss := false, issued := false }

/-- A store in Memory (R258). -/
def storeStage (s : State) (m : ExecutedInstr) : MemoryOut :=
  let n := accessBytes m.tag
  if aligned m.addr n then
    match s.ask (.writeMemory m.addr (lowBytes n m.sdata) n) with
    | (true, s) =>
      { state := s.storeThrough m.addr n m.sdata, hold := false, dMiss := false, issued := false
        wrNext := some (m.completed 0 false 0) }
    | (false, s) =>
      { state := s.report (.memFault .writeFail m.addr), hold := true, wrNext := none
        dMiss := false, issued := false }
  else
    { state := s.report (.memFault .dataMisaligned m.addr), hold := true, wrNext := none
      dMiss := false, issued := false }

/-- The Memory stage (R256): a load, a store, or an instruction that passes through. -/
def memoryStage (s : State) : MemoryOut :=
  match s.mr with
  | none => { state := s, hold := false, wrNext := none, dMiss := false, issued := false }
  | some m =>
    if m.tag.isLoad then loadStage s m
    else if m.tag.isStore then storeStage s m
    else
      { state := s, hold := false, dMiss := false, issued := false
        wrNext := some (m.completed m.rd m.wr m.result) }

/-! ### The retire event (R255) -/

/-- The instruction in `WR` leaves the pipeline; a `DECODE_FAULT` is reported as it does. -/
def retireStage (s : State) : State :=
  match s.wr with
  | some w =>
    let s := s.report (.retire w.pc w.tag)
    if w.tag = .decodeFault then s.report (.decodeFault w.iw w.pc) else s
  | none => s

/-! ### Execute (R259 to R262) -/

/-- The `result` column of R261, for the instruction at `p` with operands `a`, `b` and immediate `imm`. -/
def executeResult (cfg : Config) (tag : Tag) (p a b imm : Word) : Word :=
  match tag with
  | .addi => Alu.add a imm
  | .slti => Alu.slt a imm
  | .sltiu => Alu.sltu a imm
  | .xori => Alu.xor a imm
  | .ori => Alu.or a imm
  | .andi => Alu.and a imm
  | .slli => Alu.sll a imm
  | .srli => Alu.srl a imm
  | .srai => Alu.sra a imm
  | .addiw => Alu.addw a imm
  | .slliw => Alu.sllw a imm
  | .srliw => Alu.srlw a imm
  | .sraiw => Alu.sraw a imm
  | .add => Alu.add a b
  | .sub => Alu.sub a b
  | .sll => Alu.sll a b
  | .slt => Alu.slt a b
  | .sltu => Alu.sltu a b
  | .xor => Alu.xor a b
  | .srl => Alu.srl a b
  | .sra => Alu.sra a b
  | .or => Alu.or a b
  | .and => Alu.and a b
  | .addw => Alu.addw a b
  | .subw => Alu.subw a b
  | .sllw => Alu.sllw a b
  | .srlw => Alu.srlw a b
  | .sraw => Alu.sraw a b
  | .mul => Alu.mul a b
  | .div => Alu.div cfg a b
  | .rem => Alu.rem cfg a b
  | .lui => imm
  | .auipc => relTarget p imm
  | .jal | .jalr => nextWord p
  | .lb | .lh | .lw | .ld | .lbu | .lhu | .lwu | .sb | .sh | .sw | .sd
  | .beq | .bne | .blt | .bge | .bltu | .bgeu
  | .fence | .fenceI | .ecall | .ebreak
  | .csrrw | .csrrs | .csrrc | .csrrwi | .csrrsi | .csrrci | .decodeFault => 0

/-- The condition of a branch (R211 to R216), `none` for every other tag. -/
def branchCondition (tag : Tag) (a b : Word) : Option Bool :=
  match tag with
  | .beq => some (Cond.eq a b)
  | .bne => some (Cond.ne a b)
  | .blt => some (Cond.lt a b)
  | .bge => some (Cond.ge a b)
  | .bltu => some (Cond.ltu a b)
  | .bgeu => some (Cond.geu a b)
  | .lb | .lh | .lw | .ld | .lbu | .lhu | .lwu | .sb | .sh | .sw | .sd
  | .addi | .slti | .sltiu | .xori | .ori | .andi | .slli | .srli | .srai
  | .addiw | .slliw | .srliw | .sraiw
  | .add | .sub | .sll | .slt | .sltu | .xor | .srl | .sra | .or | .and
  | .addw | .subw | .sllw | .srlw | .sraw | .mul | .div | .rem | .lui | .auipc
  | .jal | .jalr | .fence | .fenceI | .ecall | .ebreak
  | .csrrw | .csrrs | .csrrc | .csrrwi | .csrrsi | .csrrci | .decodeFault => none

/-- The true next pc of a control transfer (R262), `none` for every other tag. -/
def trueNextPc (tag : Tag) (p a b imm : Word) : Option Word :=
  match branchCondition tag a b with
  | some taken => some (if taken then relTarget p imm else nextWord p)
  | none =>
    if tag = .jal then some (relTarget p imm)
    else if tag = .jalr then some (jalrTarget a imm)
    else none

/-- What the Execute stage leaves: the state, `MR_next`, and `tnpc` when it redirects. -/
structure ExecuteOut where
  state : State
  mrNext : Option ExecutedInstr
  redirect : Option Word
  deriving DecidableEq, Repr

/-- `a` of R260. -/
def operandA (s : State) (x : DecodedInstr) : Word := if x.usesRs1 then fwd s x.rs1 x.v1 else 0
/-- `b` of R260. -/
def operandB (s : State) (x : DecodedInstr) : Word := if x.usesRs2 then fwd s x.rs2 x.v2 else 0

/-- `MR_next` of the instruction in `XR` (R259, R261). -/
def DecodedInstr.executed (x : DecodedInstr) (cfg : Config) (a b : Word) (branch wrongPrediction : Bool) :
    ExecutedInstr where
  pc := x.pc
  iw := x.iw
  tag := x.tag
  rd := x.rd
  wr := x.wr
  result := executeResult cfg x.tag x.pc a b x.imm
  addr := if x.tag.isLoad || x.tag.isStore then a + x.imm else 0
  sdata := if x.tag.isStore then b else 0
  branch := branch
  wrongPrediction := wrongPrediction

/-- Execute (R259, R262): a branch is resolved in the BTB (R326); a control transfer that continues
elsewhere than Fetch went redirects `pc` (R327). -/
def executeStage (s : State) : ExecuteOut :=
  match s.xr with
  | none => { state := s, mrNext := none, redirect := none }
  | some x =>
    let a := operandA s x
    let b := operandB s x
    match trueNextPc x.tag x.pc a b x.imm with
    | none => { state := s, mrNext := some (x.executed s.cfg a b false false), redirect := none }
    | some tnpc =>
      let r := if x.tag.isBranch then resolve s.btb x.pc tnpc else (s.btb, false)
      if tnpc = x.predNpc then
        { state := { s with btb := r.1 }
          mrNext := some (x.executed s.cfg a b false r.2), redirect := none }
      else
        { state := { s with btb := r.1, pc := tnpc }
          mrNext := some (x.executed s.cfg a b true r.2), redirect := some tnpc }

/-! ### Decode (R263) -/

/-- `XR_next` of the word in `DR`, its registers read after this cycle's Writeback (R308). -/
def FetchedInstr.decoded (s : State) (f : FetchedInstr) : DecodedInstr :=
  let d := decodeOperands s.cfg f.iw
  { pc := f.pc, iw := f.iw, tag := d.tag, rd := d.rd, rs1 := d.rs1, rs2 := d.rs2
    usesRs1 := d.usesRs1, usesRs2 := d.usesRs2, wr := d.wr, imm := d.imm
    v1 := s.readReg d.rs1, v2 := s.readReg d.rs2, pred := f.pred, predNpc := f.predNpc }

/-- Decode: `XR_next`, a bubble on a stall or a redirect. -/
def decodeStage (s : State) (redirect : Bool) : Option DecodedInstr :=
  if loadUseStall s || redirect then none else s.dr.map (FetchedInstr.decoded s)

/-! ### Fetch (R264) -/

/-- What the Fetch stage leaves: the state, `DR_next`, and for the flags of R33 whether it missed and
whether a fill was issued. -/
structure FetchOut where
  state : State
  drNext : Option FetchedInstr
  missed : Bool
  issued : Bool
  deriving DecidableEq, Repr

/-- Fetch (R264); `idle0` says that the instruction fill controller was idle at the start of the cycle. -/
def fetchStage (s : State) (redirect stall idle0 : Bool) : FetchOut :=
  if redirect then { state := s, drNext := none, missed := false, issued := false }
  else if stall then { state := s, drNext := s.dr, missed := false, issued := false }
  else if !idle0 then { state := s, drNext := none, missed := false, issued := false }
  else if aligned s.pc 4 then
    match icLookup s.icLines s.pc with
    | some line =>
      let iw := line.words.get (icWord s.pc)
      let p := predict s.btb s.pc iw
      { state := { s with btb := p.btb, pc := p.npc }, missed := false, issued := false
        drNext := some { pc := s.pc, iw := iw, pred := p.pred, predNpc := p.npc } }
    | none =>
      let r := icIssue s s.pc
      { state := r.2, drNext := none, missed := true, issued := r.1 }
  else
    { state := s.report (.memFault .fetchMisaligned s.pc), drNext := none, missed := false, issued := false }

/-! ### The cycle (R250 to R253, R265) -/

/-- What one cycle leaves: the next state and the combinational signals of R252 and R33. -/
structure CycleOut where
  state : State
  holdAll : Bool
  redirect : Option Word
  stall : Bool
  iCacheStall : Bool
  dCacheStall : Bool
  firstCacheStall : Bool
  deriving DecidableEq, Repr

/-- `HALT` stops the machine at the start of the cycle in which a `DECODE_FAULT` is in `WR` (R250, R403). -/
def haltingInstr (s : State) : Option CompletedInstr :=
  match s.cfg.decodeFaultPolicy, s.wr with
  | .halt, some w => if w.tag = .decodeFault then some w else none
  | _, _ => none

/-- The part of the cycle before `hold_all` is known (R250): Writeback, then Memory. -/
def memoryPhase (s : State) : MemoryOut := memoryStage (writeback s)

/-- The state after Writeback, Memory and the instruction fill controller, which step in every cycle. -/
def afterFillStep (s : State) : State := icFillStep (memoryPhase s).state

/-- The part of the cycle that `hold_all` suppresses, up to Execute: the retire event, then Execute. -/
def executePhase (s : State) : ExecuteOut := executeStage (retireStage (afterFillStep s))

/-- Decode and Fetch, after Execute. -/
def fetchPhase (s : State) : FetchOut :=
  let x := executePhase s
  fetchStage x.state x.redirect.isSome (loadUseStall x.state) (decide (s.icFsm = .idle))

/-- The latch (R265): all four stage registers at once. -/
def latch (s : State) (dr : Option FetchedInstr) (xr : Option DecodedInstr) (mr : Option ExecutedInstr)
    (wr : Option CompletedInstr) : State :=
  { s with dr := dr, xr := xr, mr := mr, wr := wr }

/-- The stages of a cycle of a core that is not halted and does not halt (R250). -/
def runStages (s : State) : CycleOut :=
  let m := memoryPhase s
  let held := icFillStep m.state
  if m.hold then
    { state := held, holdAll := true, redirect := none, stall := false
      iCacheStall := decide (s.icFsm ≠ .idle), dCacheStall := m.dMiss, firstCacheStall := m.issued }
  else
    let x := executeStage (retireStage held)
    let stall := loadUseStall x.state
    let f := fetchStage x.state x.redirect.isSome stall (decide (s.icFsm = .idle))
    { state := latch f.state f.drNext (decodeStage x.state x.redirect.isSome) x.mrNext m.wrNext
      holdAll := false, redirect := x.redirect, stall := stall
      iCacheStall := decide (s.icFsm ≠ .idle) || f.missed, dCacheStall := false
      firstCacheStall := f.issued }

/-- A cycle in which nothing is evaluated. `i_cache_stall` is as R33 words it, "`IC.fsm != Idle` at the start
of the cycle", though Fetch delivers no bubble in such a cycle (R371): DESIGN CHOICE (log 21). -/
def CycleOut.still (s : State) : CycleOut :=
  { state := s, holdAll := false, redirect := none, stall := false
    iCacheStall := decide (s.icFsm ≠ .idle), dCacheStall := false, firstCacheStall := false }

/-- One cycle with its signals (R250): nothing when halted; the halt of R403; else the five stages. -/
def runCycle (s : State) : CycleOut :=
  if s.halted then CycleOut.still s
  else
    match haltingInstr s with
    | some w => CycleOut.still { s.report (.decodeFault w.iw w.pc) with halted := true }
    | none => runStages s

/-- `advance_cycle()` (R47, R250). -/
def advanceCycle (s : State) : State := (runCycle s).state

end Sys2Proof.Machine
end

