-- ==== Sys2Proof/Machine/Flags.lean ====
section
/-! DEFINITION. Flags. The instruction set has none: no instruction reads or writes a condition code
(10_state.md R24). What SIM calls flags are eight names for conditions of the pipeline, which R33 defines;
none of them is state. Each is given here for the cycle that starts in a state. -/

namespace Sys2Proof.Machine

/-- `stall` (R33, R301): Decode finds a load-use or store-source hazard this cycle. -/
def flagStall (s : State) : Bool := (runCycle s).stall

/-- `branch` (R33, R262): the control transfer in `MR` redirected `pc` when it was in Execute. -/
def flagBranch (s : State) : Bool :=
  match s.mr with
  | some m => m.branch
  | none => false

/-- `wrong_prediction` (R33, R326). -/
def flagWrongPrediction (s : State) : Bool :=
  match s.mr with
  | some m => m.wrongPrediction
  | none => false

/-- `branch_prediction` (R33, R325), of the instruction in Decode. -/
def flagBranchPredictionDecode (s : State) : Bool :=
  match s.dr with
  | some f => f.pred
  | none => false

/-- `branch_prediction` (R33, R325), of the instruction in Execute. -/
def flagBranchPredictionExecute (s : State) : Bool :=
  match s.xr with
  | some x => x.pred
  | none => false

/-- `forward_tag` (R33, R306): 0 when nothing is offered from `MR`. -/
def flagForwardTag (s : State) : Reg :=
  match s.mr with
  | some m => forwardTag m
  | none => 0

/-- `i_cache_stall` (R33): a fill is in progress at the start of the cycle, or Fetch misses in it; so also in a
cycle in which Fetch is not evaluated, held, halting or halted (R371 leaves that open; log 21). -/
def flagICacheStall (s : State) : Bool := (runCycle s).iCacheStall

/-- `d_cache_stall` (R33, R371): `hold_all` because of a data-cache read miss or fill. -/
def flagDCacheStall (s : State) : Bool := (runCycle s).dCacheStall

/-- `first_cache_stall` (R33, R353, R362): a fill is issued in this cycle (log 19). -/
def flagFirstCacheStall (s : State) : Bool := (runCycle s).firstCacheStall

end Sys2Proof.Machine
end

