-- ==== Sys2Proof/Machine/Step.lean ====
section
/-! DEFINITION. The step: one instruction at the architectural level, one clock cycle at the cycle level
(00_scope.md R9; log 1). -/

namespace Sys2Proof.Machine

/-- One step of the architectural machine (R268): fetch the word at `pc` from memory, decode it, apply its
rule. A misaligned `pc` is reported and nothing else happens (R63); a halted machine stays as it is (R403). -/
def instrStep (s : State) : Host.Outcome State Fault Refusal :=
  if s.halted then .next s
  else if aligned s.pc 4 then
    match decodeWord s.fetchWord with
    | .ok i => exec i s
    | .error _ => .next (s.decodeFault s.fetchWord)
  else .next (s.report (.memFault .fetchMisaligned s.pc))

/-- One step of the machine, at the level its state selects. -/
def step (s : State) : Host.Outcome State Fault Refusal :=
  match s.level with
  | .architectural => instrStep s
  | .cycle => .next (advanceCycle s)

/-- The state with the instruction whose bits are `w` (numbered as spec/opcode_table.json numbers them, zero
from bit `nbits` up) placed where the next step fetches: its four bytes in memory at `pc`, the
architectural level selected, the machine running and `pc` a multiple of 4 (log 16). -/
def State.withFetchWord (s : State) (nbits w : Nat) : State :=
  let p : Word := s.pc.extractLsb' 2 62 ++ 0#2
  { s.storeThrough p 4 (BitVec.ofNat 64 (w % 2 ^ nbits)) with
    pc := p
    level := .architectural
    halted := false }

end Sys2Proof.Machine
end

