-- ==== Sys2Proof/Machine/Run.lean ====
section
/-! DEFINITION. Runs, and where a run ends (50_pipeline_controller.md R269): the hardware has no end-of-run
signal, so the predicate is the model's own. -/

namespace Sys2Proof.Machine

/-- `k` cycles. -/
def runCycles : Nat → State → State
  | 0, s => s
  | k + 1, s => runCycles k (advanceCycle s)

/-- `k` steps of the model. -/
def runSteps : Nat → State → State
  | 0, t => t
  | k + 1, t =>
    match step t with
    | .next t' => runSteps k t'
    | .fault _ => t
    | .refused _ => t

/-- The word of `jal x0, 0`, a jump to itself that links nothing: how the spec's programs end (R269). -/
def selfJump : InstrWord := 0x0000006f

/-- The step that starts in `s` ends the run: DESIGN CHOICE (log 22), as R269 asks for one. At the cycle level
`jal x0, 0` retires in this cycle, or `HALT` stops the core in it or before; at the architectural level the
instruction at `pc` is `jal x0, 0`, or the machine is halted. -/
def endsRun (s : State) : Bool :=
  match s.level with
  | .architectural => s.halted || (aligned s.pc 4 && s.fetchWord == selfJump)
  | .cycle =>
    s.halted || (haltingInstr s).isSome || (!(runCycle s).holdAll && s.wr.any (fun w => w.iw == selfJump))

/-- The state in which a run from `s` ends: after the first step that ends it; `none` when `fuel` steps do
not reach one. -/
def runToEnd : Nat → State → Option State
  | 0, _ => none
  | fuel + 1, s =>
    match step s with
    | .next t => if endsRun s then some t else runToEnd fuel t
    | .fault _ => none
    | .refused _ => none

end Sys2Proof.Machine
end

