-- ==== Sys2Proof/Safety.lean ====
section
/-! DEFINITION. What the claims are stated in: the invariants of the machine, and the architectural state
that a state of the pipeline stands for (50_pipeline_controller.md R266 to R268). -/

namespace Sys2Proof.Machine

/-! ### The opcode table (30_encoding.md section 4) -/

/-- A row of the table: a word is this instruction when it agrees with `value` in the bits of `mask`. -/
structure OpcodeRow where
  value : InstrWord
  mask : InstrWord
  tag : Tag
  deriving DecidableEq, Repr

/-- The 62 rows of spec/opcode_table.json (its `match`, `mask` and `mnemonic`). -/
def opcodeRows : List OpcodeRow :=
  [⟨0x00000003, 0x0000707f, .lb⟩,
   ⟨0x00001003, 0x0000707f, .lh⟩,
   ⟨0x00002003, 0x0000707f, .lw⟩,
   ⟨0x00003003, 0x0000707f, .ld⟩,
   ⟨0x00004003, 0x0000707f, .lbu⟩,
   ⟨0x00005003, 0x0000707f, .lhu⟩,
   ⟨0x00006003, 0x0000707f, .lwu⟩,
   ⟨0x00000023, 0x0000707f, .sb⟩,
   ⟨0x00001023, 0x0000707f, .sh⟩,
   ⟨0x00002023, 0x0000707f, .sw⟩,
   ⟨0x00003023, 0x0000707f, .sd⟩,
   ⟨0x00000013, 0x0000707f, .addi⟩,
   ⟨0x00002013, 0x0000707f, .slti⟩,
   ⟨0x00003013, 0x0000707f, .sltiu⟩,
   ⟨0x00004013, 0x0000707f, .xori⟩,
   ⟨0x00006013, 0x0000707f, .ori⟩] ++
  [⟨0x00007013, 0x0000707f, .andi⟩,
   ⟨0x00001013, 0xfc00707f, .slli⟩,
   ⟨0x00005013, 0xfc00707f, .srli⟩,
   ⟨0x40005013, 0xfc00707f, .srai⟩,
   ⟨0x0000001b, 0x0000707f, .addiw⟩,
   ⟨0x0000101b, 0xfe00707f, .slliw⟩,
   ⟨0x0000501b, 0xfe00707f, .srliw⟩,
   ⟨0x4000501b, 0xfe00707f, .sraiw⟩,
   ⟨0x00000033, 0xfe00707f, .add⟩,
   ⟨0x40000033, 0xfe00707f, .sub⟩,
   ⟨0x00001033, 0xfe00707f, .sll⟩,
   ⟨0x00002033, 0xfe00707f, .slt⟩,
   ⟨0x00003033, 0xfe00707f, .sltu⟩,
   ⟨0x00004033, 0xfe00707f, .xor⟩,
   ⟨0x00005033, 0xfe00707f, .srl⟩,
   ⟨0x40005033, 0xfe00707f, .sra⟩] ++
  [⟨0x00006033, 0xfe00707f, .or⟩,
   ⟨0x00007033, 0xfe00707f, .and⟩,
   ⟨0x0000003b, 0xfe00707f, .addw⟩,
   ⟨0x4000003b, 0xfe00707f, .subw⟩,
   ⟨0x0000103b, 0xfe00707f, .sllw⟩,
   ⟨0x0000503b, 0xfe00707f, .srlw⟩,
   ⟨0x4000503b, 0xfe00707f, .sraw⟩,
   ⟨0x02000033, 0xfe00707f, .mul⟩,
   ⟨0x02004033, 0xfe00707f, .div⟩,
   ⟨0x02006033, 0xfe00707f, .rem⟩,
   ⟨0x00000037, 0x0000007f, .lui⟩,
   ⟨0x00000017, 0x0000007f, .auipc⟩,
   ⟨0x00000063, 0x0000707f, .beq⟩,
   ⟨0x00001063, 0x0000707f, .bne⟩,
   ⟨0x00004063, 0x0000707f, .blt⟩,
   ⟨0x00005063, 0x0000707f, .bge⟩] ++
  [⟨0x00006063, 0x0000707f, .bltu⟩,
   ⟨0x00007063, 0x0000707f, .bgeu⟩,
   ⟨0x0000006f, 0x0000007f, .jal⟩,
   ⟨0x00000067, 0x0000707f, .jalr⟩,
   ⟨0x0000000f, 0x0000707f, .fence⟩,
   ⟨0x0000100f, 0x0000707f, .fenceI⟩,
   ⟨0x00000073, 0xffffffff, .ecall⟩,
   ⟨0x00100073, 0xffffffff, .ebreak⟩,
   ⟨0x00001073, 0x0000707f, .csrrw⟩,
   ⟨0x00002073, 0x0000707f, .csrrs⟩,
   ⟨0x00003073, 0x0000707f, .csrrc⟩,
   ⟨0x00005073, 0x0000707f, .csrrwi⟩,
   ⟨0x00006073, 0x0000707f, .csrrsi⟩,
   ⟨0x00007073, 0x0000707f, .csrrci⟩]

/-- The word agrees with the row. -/
abbrev OpcodeRow.accepts (row : OpcodeRow) (iw : InstrWord) : Prop := iw &&& row.mask = row.value

/-! ### Invariants that every step keeps -/

/-- The address of line `i` of the data cache with a tag: `{tag, i, 3'b000}` (R73). -/
def dcLineAddr (i : Nat) (tag : BitVec 50) : Word := tag ++ BitVec.ofNat 11 i ++ 0#3

/-- The address of line `i` of the instruction cache with a tag: `{tag, i, 4'b0000}` (R35). -/
def icLineAddr (i : Nat) (tag : BitVec 51) : Word := tag ++ BitVec.ofNat 9 i ++ 0#4

/-- The line address and fill buffer of a fill in progress. -/
def FillFsm.pending {n : Nat} : FillFsm n → Option (Word × BitVec n)
  | .idle => none
  | .wait base data => some (base, data)
  | .commit base data => some (base, data)

/-- A multiple of 2. -/
def even (a : Word) : Bool := !a.getLsbD 0

/-- The access of the instruction in `MR` is one that never completes (R62). -/
def ExecutedInstr.misaligned (m : ExecutedInstr) : Bool :=
  (m.tag.isLoad || m.tag.isStore) && !aligned m.addr (accessBytes m.tag)

/-- Register 0 is never overwritten (R21). -/
abbrev State.RegsOk (s : State) : Prop := s.regs.get 0 = 0

/-- Memory has its canonical form. -/
abbrev State.MemOk (s : State) : Prop := Memory.wf s.mem

/-- Every valid instruction line has an index below 512, and a fill is for a line address (R35, R36). -/
abbrev State.IcOk (s : State) : Prop :=
  Assoc.sorted s.icLines ∧ (∀ p ∈ s.icLines, p.1 < 512) ∧
    ∀ base ∈ s.icFsm.pending.map Prod.fst, icBase base = base

/-- Data-cache transparency (R73): every valid line, of an index below 2048, equals the 8 bytes of memory
at its address; a fill in progress holds the bytes of memory at its base, and its load is in `MR`. -/
abbrev State.DcOk (s : State) : Prop :=
  Assoc.sorted s.dcLines ∧
    (∀ p ∈ s.dcLines, p.1 < 2048 ∧ p.2.data = s.mem.readWord (dcLineAddr p.1 p.2.tag) 8) ∧
    ∀ f ∈ s.dcFsm.pending, dcBase f.1 = f.1 ∧ f.2 = s.mem.readWord f.1 8 ∧ s.level = .cycle ∧
      s.mr.any (fun m => m.tag.isLoad && !m.misaligned && dcBase m.addr == f.1) = true

/-- The branch target buffer (R332 (a), (b)): the allocated entries are a prefix, their tags are pairwise
distinct and word addresses, and a known target is even. -/
abbrev State.BtbOk (s : State) : Prop :=
  s.btb.toList.Pairwise (fun p q => q.isSome → p.isSome) ∧
    ((s.btb.toList.filterMap id).map BtbEntry.tag).Nodup ∧
    ∀ e ∈ s.btb.toList.filterMap id, aligned e.tag 4 = true ∧ ∀ t ∈ e.target, even t = true

/-- What Fetch latches with a word (R28, R321, R325): a word address, and where Fetch went next, `pc + 4`
unless the word is a predicted backward conditional branch. -/
abbrev fetchedOk (pc : Word) (iw : InstrWord) (pred : Bool) (predNpc : Word) : Prop :=
  aligned pc 4 = true ∧ even predNpc = true ∧
    (if pred then isCondBranch iw = true ∧ isBackward iw = true else predNpc = nextWord pc)

/-- The stage registers hold what the decoder gives for their instruction words (R29 to R31, R100). -/
abbrev State.StagesOk (s : State) : Prop :=
  (∀ f ∈ s.dr, fetchedOk f.pc f.iw f.pred f.predNpc) ∧
    (∀ x ∈ s.xr, fetchedOk x.pc x.iw x.pred x.predNpc ∧
      ({ tag := x.tag, rd := x.rd, rs1 := x.rs1, rs2 := x.rs2, imm := x.imm, usesRs1 := x.usesRs1,
         usesRs2 := x.usesRs2, wr := x.wr } : Decoded) = decodeOperands s.cfg x.iw) ∧
    (∀ m ∈ s.mr, m.tag = (decodeOperands s.cfg m.iw).tag ∧ m.rd = (decodeOperands s.cfg m.iw).rd ∧
      m.wr = (decodeOperands s.cfg m.iw).wr) ∧
    ∀ w ∈ s.wr, w.tag = (decodeOperands s.cfg w.iw).tag ∧ w.rd = (decodeOperands s.cfg w.iw).rd ∧
      w.wr = (decodeOperands s.cfg w.iw).wr

/-- The invariant of the machine, kept by every step at either level. -/
abbrev State.Inv (s : State) : Prop :=
  s.RegsOk ∧ s.MemOk ∧ s.IcOk ∧ s.DcOk ∧ s.BtbOk ∧ s.StagesOk ∧ even s.pc = true

/-! ### What an instruction leaves as it was -/

/-- The parts of the state that no instruction's architectural effect touches (R9, R24 to R26): parameters,
stage registers, predictor, instruction cache, fill controllers, `halted` and the answers to come. -/
abbrev State.SameCore (s t : State) : Prop :=
  t.cfg = s.cfg ∧ t.level = s.level ∧ t.dr = s.dr ∧ t.xr = s.xr ∧ t.mr = s.mr ∧ t.wr = s.wr ∧
    t.btb = s.btb ∧ t.icLines = s.icLines ∧ t.icFsm = s.icFsm ∧ t.dcFsm = s.dcFsm ∧
    t.halted = s.halted ∧ t.answers = s.answers

/-- Every byte of memory, every data-cache line and the call log are as they were. -/
abbrev State.SameMemory (s t : State) : Prop :=
  (∀ a, t.mem.byte a = s.mem.byte a) ∧ t.mem = s.mem ∧ t.dcLines = s.dcLines ∧ t.bus = s.bus

/-- `t` is `s` after an instruction with this tag that writes `v` to `x[rd]` (to no register when `rd` is 0)
and goes on at `npc`: its retire event is logged and everything else is as it was. -/
abbrev State.Wrote (s t : State) (tag : Tag) (rd : Reg) (v npc : Word) : Prop :=
  (∀ r, t.readReg r = if r = rd ∧ r ≠ 0 then v else s.readReg r) ∧ t.pc = npc ∧
    t.events = .retire s.pc tag :: s.events ∧ s.SameMemory t ∧ s.SameCore t

/-- `t` is `s` after a store of the low `n` bytes of `v` at `a`: byte `i` of `v` is at `a + i` for `i < n`,
every other byte of memory reads as before, and registers and core are as they were. -/
abbrev State.Stored (s t : State) (tag : Tag) (a : Word) (n : Nat) (v : Word) : Prop :=
  (∀ i, i < n → t.mem.byte (a + BitVec.ofNat 64 i) = v.extractLsb' (8 * i) 8) ∧
    (∀ x, (∀ i, i < n → x ≠ a + BitVec.ofNat 64 i) → t.mem.byte x = s.mem.byte x) ∧
    (∀ r, t.readReg r = s.readReg r) ∧ t.pc = s.pc + 4 ∧
    t.events = .retire s.pc tag :: s.events ∧
    t.bus = (.writeMemory a (BitVec.ofNat 64 (v.toNat % 2 ^ (8 * n))) n, true) :: s.bus ∧ s.SameCore t

/-- The core runs this cycle: it is not halted and does not halt (R250). -/
abbrev State.Runs (s : State) : Prop := s.halted = false ∧ haltingInstr s = none

/-! ### The architectural state a pipeline state stands for (R267, R268)

The instruction in `WR` has still to write its register, the one in `MR` to access memory and then to write
its register; both are on the true path and final (R267). The instructions in `XR` and `DR` have done
nothing yet. Under `HALT` a decode fault in `WR` or `MR` stops the core before anything younger has an effect
(R403). -/

/-- The value the instruction in `MR` will write: a load's is read from memory (R65). -/
def pendingResult (s : State) (m : ExecutedInstr) : Word :=
  if m.tag.isLoad then loadValue m.tag (s.mem.readWord m.addr (accessBytes m.tag)) else m.result

/-- The register file once the instruction in `WR` has written. -/
def regsAfterWr (s : State) : RegFile :=
  match s.wr with
  | some w => if w.wr then RegFile.write s.regs w.rd w.result else s.regs
  | none => s.regs

/-- The register file once the instructions in `WR` and `MR` have written; one that never completes
writes nothing. -/
def committedRegs (s : State) : RegFile :=
  match s.mr with
  | some m =>
    if m.wr && !m.misaligned then RegFile.write (regsAfterWr s) m.rd (pendingResult s m) else regsAfterWr s
  | none => regsAfterWr s

/-- Memory once the store in `MR`, if there is one and it is aligned, has been performed. -/
def committedMem (s : State) : Memory :=
  match s.mr with
  | some m =>
    if m.tag.isStore && !m.misaligned then s.mem.write m.addr (accessBytes m.tag) m.sdata else s.mem
  | none => s.mem

/-- The address of the oldest instruction that has had no effect yet: the one in `MR` if it never
completes, else the one in `XR`, else in `DR`, else the one Fetch will look up. -/
def committedPc (s : State) : Word :=
  if s.mr.any ExecutedInstr.misaligned then (s.mr.map ExecutedInstr.pc).getD s.pc
  else
    match s.xr, s.dr with
    | some x, _ => x.pc
    | none, some f => f.pc
    | none, none => s.pc

/-- The events that the retirement of an instruction emits, newest first (R255, R402). -/
def retireEvents (pc : Word) (iw : InstrWord) (tag : Tag) : List Event :=
  if tag = .decodeFault then [.decodeFault iw pc, .retire pc tag] else [.retire pc tag]

/-- An event about the program, not about a memory operation that failed. -/
def Event.ofProgram : Event → Bool
  | .retire .. => true
  | .decodeFault .. => true
  | .memFault .. => false

/-- The retire and decode-fault events emitted so far. -/
def programEvents (s : State) : List Event := s.events.filter Event.ofProgram

/-- The events of the retirement of the instruction in `WR`. -/
def writebackEvents (s : State) : List Event :=
  match s.wr with
  | some w => retireEvents w.pc w.iw w.tag
  | none => []

/-- The events emitted so far with those of the instructions in `WR` and `MR`. -/
def committedEvents (s : State) : List Event :=
  (match s.mr with
    | some m => if m.misaligned then [] else retireEvents m.pc m.iw m.tag
    | none => []) ++ writebackEvents s ++ programEvents s

/-- A `write_memory` call that returned success. -/
def successfulStore : BusCall × Bool → Option BusCall
  | (.writeMemory a v n, true) => some (.writeMemory a v n)
  | (.writeMemory .., false) => none
  | (.readMemory .., _) => none
  | (.memoryReady .., _) => none

/-- The `write_memory` calls that returned success so far, newest first (R268). -/
def storeCalls (s : State) : List BusCall := s.bus.filterMap successfulStore

/-- The same with that of the store in `MR`. -/
def committedStores (s : State) : List BusCall :=
  match s.mr with
  | some m =>
    if m.tag.isStore && !m.misaligned then
      .writeMemory m.addr (lowBytes (accessBytes m.tag) m.sdata) (accessBytes m.tag) :: storeCalls s
    else storeCalls s
  | none => storeCalls s

/-- What R268 compares: registers, memory, the address of the next instruction, the retire and
decode-fault events, and the successful stores. -/
structure ArchView where
  regs : RegFile
  mem : Memory
  pc : Word
  events : List Event
  stores : List BusCall
  deriving DecidableEq, Repr

/-- The view of a state of the architectural machine. -/
def State.archView (s : State) : ArchView where
  regs := s.regs
  mem := s.mem
  pc := s.pc
  events := programEvents s
  stores := storeCalls s

/-- The address and word of the decode fault that stops the core under `HALT` (R403): the one in `WR`, which
halts it in this cycle or has halted it, else the one in `MR`. -/
def stopping (s : State) : Option (Word × InstrWord) :=
  match haltingInstr s, s.mr with
  | some w, _ => some (w.pc, w.iw)
  | none, some m =>
    if s.cfg.decodeFaultPolicy = .halt ∧ m.tag = .decodeFault then some (m.pc, m.iw) else none
  | none, none => none

/-- The view of a state of the pipeline; of one that is stopping, what is older than the decode fault, and the
report of the fault, made when the core halts. -/
def State.committedView (s : State) : ArchView :=
  match stopping s with
  | none =>
    { regs := committedRegs s, mem := committedMem s, pc := committedPc s, events := committedEvents s
      stores := committedStores s }
  | some (pc, iw) =>
    { regs := regsAfterWr s, mem := s.mem, pc := pc, stores := storeCalls s
      events := (if s.halted then [] else [.decodeFault iw pc]) ++
        (if (haltingInstr s).isSome then [] else writebackEvents s) ++ programEvents s }

/-- In this cycle Execute evaluates an instruction: the core runs, nothing holds, and `XR` is no bubble. -/
def executesInstr (s : State) : Bool := decide s.Runs && !(runCycle s).holdAll && s.xr.isSome

/-! ### Invariants of the refinement (R309, R329, R268 (i)) -/

/-- In-flight instructions follow one another where Fetch went: `DR` at `XR.pred_npc`, `pc` at
`DR.pred_npc` (R28, R264). -/
abbrev State.FlowOk (s : State) : Prop :=
  (∀ f ∈ s.dr, s.pc = f.predNpc) ∧ ∀ x ∈ s.xr, (s.dr.map FetchedInstr.pc).getD s.pc = x.predNpc

/-- Execute computes on the program-order values of its source registers (R309). -/
abbrev State.OperandsOk (s : State) : Prop :=
  ∀ x ∈ s.xr, (x.usesRs1 = true → fwd s x.rs1 x.v1 = RegFile.read (committedRegs s) x.rs1) ∧
    (x.usesRs2 = true → fwd s x.rs2 x.v2 = RegFile.read (committedRegs s) x.rs2)

/-- The instruction word at an address. -/
def Memory.instrAt (m : Memory) (a : Word) : InstrWord := BitVec.ofNat 32 (m.read a 4)

/-- The instruction cache, the instruction fill buffer and the words in `DR` and `XR` agree with memory
(R352; kept as long as the program does not store into code, R72). -/
abbrev State.CodeOk (s : State) : Prop :=
  (∀ p ∈ s.icLines, ∀ k : Fin 4, p.2.words.get k =
      s.mem.instrAt (icLineAddr p.1 p.2.tag + BitVec.ofNat 64 (4 * k.val))) ∧
    (∀ f ∈ s.icFsm.pending, f.2 = BitVec.ofNat 128 (s.mem.read f.1 16)) ∧
    (∀ f ∈ s.dr, f.iw = s.mem.instrAt f.pc) ∧ ∀ x ∈ s.xr, x.iw = s.mem.instrAt x.pc

/-- The invariant of the pipeline, under either policy; a halted core still has in `WR` the decode fault that
halted it (R403). -/
abbrev State.RefInv (s : State) : Prop :=
  s.Inv ∧ s.FlowOk ∧ s.OperandsOk ∧ s.CodeOk ∧ s.level = .cycle ∧
    (s.halted = true → (haltingInstr s).isSome = true)

/-- Premise (i) of R268 in the cycle that starts in `s`: the store about to be performed is not to a line
that is in the instruction cache, is being filled, or holds an instruction in `DR` or `XR`. -/
abbrev State.NoCodeStore (s : State) : Prop :=
  s.Runs → ∀ m ∈ s.mr, m.tag.isStore = true →
    icLookup s.icLines m.addr = none ∧
      (∀ base ∈ s.icFsm.pending.map Prod.fst, base ≠ icBase m.addr) ∧
      (∀ f ∈ s.dr, icBase f.pc ≠ icBase m.addr) ∧ ∀ x ∈ s.xr, icBase x.pc ≠ icBase m.addr

/-- How many instructions Execute evaluates in the first `n` cycles. -/
def executedCount : Nat → State → Nat
  | 0, _ => 0
  | n + 1, s => (if executesInstr s then 1 else 0) + executedCount n (advanceCycle s)

/-- The stuck states (R62, R63, R403, R404): the core is halted or halts; a misaligned access is in `MR`; or
`pc` is no word address and nothing older that could redirect it is in flight. -/
abbrev State.Stuck (s : State) : Prop :=
  ¬s.Runs ∨ s.mr.any ExecutedInstr.misaligned = true ∨
    (s.xr = none ∧ s.dr = none ∧ aligned s.pc 4 = false)

/-- The program goes on at `p` for ever: there is `jal x0, 0`, and it is what Execute comes to next. -/
abbrev State.LoopsAt (s : State) (p : Word) : Prop := committedPc s = p ∧ s.mem.instrAt p = selfJump

/-- After a `jal x0, 0` in `MR` or `WR` only copies of it follow (R269). -/
abbrev State.EndOk (s : State) : Prop :=
  (∀ m ∈ s.mr, m.iw = selfJump → s.LoopsAt m.pc) ∧
    ∀ w ∈ s.wr, w.iw = selfJump → s.LoopsAt w.pc ∧ ∀ m ∈ s.mr, m.iw = selfJump ∧ m.pc = w.pc

/-- What Fetch followed for an instruction in flight is what the branch target buffer still says about it
(R325, R327): the known target of its entry if it is a backward conditional branch, else the next word. -/
abbrev predictionStands (btb : Btb) (pc : Word) (iw : InstrWord) (predNpc : Word) : Prop :=
  isCondBranch iw = true → isBackward iw = true →
    match Btb.find btb pc with
    | some (_, { target := some target, .. }) => predNpc = target
    | some (_, { target := none, .. }) => predNpc = nextWord pc
    | none => predNpc = nextWord pc

/-- The predictions of the instructions in `DR` and `XR` stand; those without an entry met a full table. -/
abbrev State.PredictOk (s : State) : Prop :=
  (∀ f ∈ s.dr, predictionStands s.btb f.pc f.iw f.predNpc ∧
      (isCondBranch f.iw = true → isBackward f.iw = true → Btb.find s.btb f.pc = none →
        s.btb.toList.all Option.isSome = true)) ∧
    ∀ x ∈ s.xr, predictionStands s.btb x.pc x.iw x.predNpc ∧
      (isCondBranch x.iw = true → isBackward x.iw = true → Btb.find s.btb x.pc = none →
        s.btb.toList.all Option.isSome = true)

/-! ### Words, numbers and bytes written out (R11, R13, R61, R92) -/

/-- `iw[hi:lo]` as a number (R11). -/
def InstrWord.bits (iw : InstrWord) (hi lo : Nat) : Nat := iw.toNat / 2 ^ lo % 2 ^ (hi + 1 - lo)

/-- The R format, its fields at their places (R92). -/
def wordR (funct7 : Nat) (rs2 rs1 : Reg) (funct3 : Nat) (rd : Reg) (opcode : Nat) : InstrWord :=
  BitVec.ofNat 32 (funct7 * 2 ^ 25 + rs2.val * 2 ^ 20 + rs1.val * 2 ^ 15 + funct3 * 2 ^ 12 + rd.val * 2 ^ 7
    + opcode)

/-- The I format; the immediate and the `rs1` field as numbers (R92). -/
def wordI (imm rs1 funct3 : Nat) (rd : Reg) (opcode : Nat) : InstrWord :=
  BitVec.ofNat 32 (imm * 2 ^ 20 + rs1 * 2 ^ 15 + funct3 * 2 ^ 12 + rd.val * 2 ^ 7 + opcode)

/-- The S format (R92): `imm[11:5]` and `imm[4:0]`. -/
def wordS (imm : BitVec 12) (rs2 rs1 : Reg) (funct3 opcode : Nat) : InstrWord :=
  BitVec.ofNat 32 (imm.toNat / 2 ^ 5 * 2 ^ 25 + rs2.val * 2 ^ 20 + rs1.val * 2 ^ 15 + funct3 * 2 ^ 12
    + imm.toNat % 2 ^ 5 * 2 ^ 7 + opcode)

/-- The B format (R92): `imm[12]`, `imm[10:5]`, `imm[4:1]`, `imm[11]`. -/
def wordB (imm : BitVec 13) (rs2 rs1 : Reg) (funct3 opcode : Nat) : InstrWord :=
  BitVec.ofNat 32 (imm.toNat / 2 ^ 12 % 2 * 2 ^ 31 + imm.toNat / 2 ^ 5 % 2 ^ 6 * 2 ^ 25 + rs2.val * 2 ^ 20
    + rs1.val * 2 ^ 15 + funct3 * 2 ^ 12 + imm.toNat / 2 % 2 ^ 4 * 2 ^ 8 + imm.toNat / 2 ^ 11 % 2 * 2 ^ 7
    + opcode)

/-- The U format (R92). -/
def wordU (imm20 : BitVec 20) (rd : Reg) (opcode : Nat) : InstrWord :=
  BitVec.ofNat 32 (imm20.toNat * 2 ^ 12 + rd.val * 2 ^ 7 + opcode)

/-- The J format (R92): `imm[20]`, `imm[10:1]`, `imm[11]`, `imm[19:12]`. -/
def wordJ (imm : BitVec 21) (rd : Reg) (opcode : Nat) : InstrWord :=
  BitVec.ofNat 32 (imm.toNat / 2 ^ 20 % 2 * 2 ^ 31 + imm.toNat / 2 % 2 ^ 10 * 2 ^ 21
    + imm.toNat / 2 ^ 11 % 2 * 2 ^ 20 + imm.toNat / 2 ^ 12 % 2 ^ 8 * 2 ^ 12 + rd.val * 2 ^ 7 + opcode)

/-- A number modulo 2^64. -/
def wrap64 (z : Int) : Word := BitVec.ofInt 64 z

/-- The low `n` bits of a number read as two's complement (`sext_N`, R12, R13). -/
def signedLow (n : Nat) (z : Int) : Int := Int.bmod z (2 ^ n)

/-- `MemRead(a, n)` as R61 writes it out: the sum of `mem[a+i] << (8*i)`. -/
def memNat (m : Memory) (a : Word) (n : Nat) : Nat :=
  ∑ i ∈ Finset.range n, (m.byte (a + BitVec.ofNat 64 i)).toNat * 2 ^ (8 * i)

/-- The value a load gives for the number its bytes spell: `lb lh lw` sign-extend, the others do not
(R130 to R137). -/
def loadedNat (tag : Tag) (raw : Nat) : Word :=
  if tag = .lb ∨ tag = .lh ∨ tag = .lw then wrap64 (signedLow (8 * accessBytes tag) raw)
  else BitVec.ofNat 64 raw

/-- The word is the instruction, and executing it ends in a next state with the property. -/
abbrev Executes (iw : InstrWord) (i : Instr) (s : State) (P : State → Prop) : Prop :=
  decodeWord iw = .ok i ∧ ∃ t, exec i s = .next t ∧ P t

/-- The encoding formats of the table of R100, the I format split by its three immediates. -/
inductive Format where
  | r | i | shift6 | shift5 | s | b | u | j | noOp
  deriving DecidableEq, Repr

/-- The row of the table of R100 that a tag belongs to. -/
def Tag.format : Tag → Format
  | .add | .sub | .sll | .slt | .sltu | .xor | .srl | .sra | .or | .and
  | .addw | .subw | .sllw | .srlw | .sraw | .mul | .div | .rem => .r
  | .lb | .lh | .lw | .ld | .lbu | .lhu | .lwu
  | .addi | .slti | .sltiu | .xori | .ori | .andi | .addiw | .jalr => .i
  | .slli | .srli | .srai => .shift6
  | .slliw | .srliw | .sraiw => .shift5
  | .sb | .sh | .sw | .sd => .s
  | .beq | .bne | .blt | .bge | .bltu | .bgeu => .b
  | .lui | .auipc => .u
  | .jal => .j
  | .fence | .fenceI | .ecall | .ebreak | .csrrw | .csrrs | .csrrc | .csrrwi | .csrrsi | .csrrci
  | .decodeFault => .noOp

/-! ### Control transfers in Execute (R262) -/

/-- The condition of a branch holds for `a` and `b` (R211 to R216). -/
abbrev branchTaken (tag : Tag) (a b : Word) : Prop :=
  (tag = .beq ∧ a = b) ∨ (tag = .bne ∧ a ≠ b) ∨ (tag = .blt ∧ a.toInt < b.toInt) ∨
    (tag = .bge ∧ a.toInt ≥ b.toInt) ∨ (tag = .bltu ∧ a.toNat < b.toNat) ∨
    (tag = .bgeu ∧ a.toNat ≥ b.toNat)

/-- A branch, `jal` or `jalr`. -/
abbrev transfersControl (tag : Tag) : Prop := tag.isBranch = true ∨ tag = .jal ∨ tag = .jalr

/-- `tnpc` of a control transfer at `p` (R262), in numbers. -/
def transferTarget (tag : Tag) (p a b imm : Word) : Word :=
  if tag = .jalr then wrap64 ((a.toInt + imm.toInt) / 2 * 2)
  else if tag = .jal ∨ branchTaken tag a b then wrap64 (p.toNat + imm.toInt)
  else wrap64 (p.toNat + 4)

/-- In the cycle that starts in `s`, Fetch looks up `pc`: the core runs, nothing holds, redirects or stalls,
and the instruction fill controller was idle at the start (R264). -/
abbrev State.FetchLooks (s : State) : Prop :=
  s.Runs ∧ (runCycle s).holdAll = false ∧ (runCycle s).redirect = none ∧ (runCycle s).stall = false ∧
    s.icFsm = .idle

/-- The line of a valid instruction-cache entry for `a` (R350, R351), in numbers. -/
abbrev IcHolds (lines : List (Nat × IcLine)) (a : Word) (line : IcLine) : Prop :=
  Assoc.lookup lines (a.toNat / 2 ^ 4 % 2 ^ 9) = some line ∧ line.tag.toNat = a.toNat / 2 ^ 13

/-- The line of a valid data-cache entry for `a` (R360, R361), in numbers. -/
abbrev DcHolds (lines : List (Nat × DcLine)) (a : Word) (line : DcLine) : Prop :=
  Assoc.lookup lines (a.toNat / 2 ^ 3 % 2 ^ 11) = some line ∧ line.tag.toNat = a.toNat / 2 ^ 14

/-- The value of register `r` that Execute uses when Decode read `v` is `a` (R304, R305): 0 for register 0,
else the result in `MR` unless it is a load's, else that in `WR`, else `v`. -/
abbrev State.Forwards (s : State) (r : Reg) (v a : Word) : Prop :=
  let fromMr := ∃ m, s.mr = some m ∧ m.wr = true ∧ m.rd = r ∧ m.tag.isLoad = false
  let fromWr := ∃ w, s.wr = some w ∧ w.wr = true ∧ w.rd = r
  (r = 0 → a = 0) ∧
    (r ≠ 0 → fromMr → ∃ m, s.mr = some m ∧ a = m.result) ∧
    (r ≠ 0 → ¬fromMr → fromWr → ∃ w, s.wr = some w ∧ a = w.result) ∧
    (r ≠ 0 → ¬fromMr → ¬fromWr → a = v)

end Sys2Proof.Machine
end

