-- ==== Sys2Proof/Certificates/Slice0/Obligations.lean ====
section
/-! DEFINITION. The statements for the provers, from the numbered rules of the spec. A statement about one
instruction names the word that spells it, the next state in numbers, and everything that stays as it was
(`Wrote`, `Stored`). A statement about a cycle is about `runCycle s`, whose state is `advanceCycle s`. -/

open Sys2Proof Sys2Proof.Machine

/-! ### Decoding and encoding (30_encoding.md) -/

/-- R116 and the examples of files 40 to 46: words of every family decode to what they spell. -/
def Obligations.SampleWordsDecode : Prop :=
  decodeWord 0x405303b3 = .ok (.sub 7 6 5) ∧ decodeWord 0xfe011ce3 = .ok (.bne 2 0 0x1ff8) ∧
    (decodeOperands Config.default 0).tag = .decodeFault ∧
    decodeWord 0xfff30283 = .ok (.lb 5 6 0xfff) ∧ decodeWord 0xfe731f23 = .ok (.sh 7 6 0xffe) ∧
    decodeWord 0x00a00293 = .ok (.addi 5 0 10) ∧ decodeWord 0x43f35293 = .ok (.srai 5 6 63) ∧
    decodeWord 0x01f3129b = .ok (.slliw 5 6 31) ∧ decodeWord 0x407302bb = .ok (.subw 5 6 7) ∧
    decodeWord 0x027342b3 = .ok (.div 5 6 7) ∧ decodeWord 0x123452b7 = .ok (.lui 5 0x12345) ∧
    decodeWord 0x010000ef = .ok (.jal 1 16) ∧ decodeWord 0x300352f3 = .ok (.csrrwi 5 0x300 6)

/-- R102 to R111, R115: a word gets the tag of the row of the opcode table it agrees with, and
`DECODE_FAULT` with every field zero when it agrees with none; at most one row applies (R100). -/
def Obligations.DecoderFollowsOpcodeTable : Prop :=
  ∀ (cfg : Config) (iw : InstrWord),
    (∀ row ∈ opcodeRows, row.accepts iw → (decodeOperands cfg iw).tag = row.tag) ∧
    (∀ row ∈ opcodeRows, ∀ row' ∈ opcodeRows, row.accepts iw → row'.accepts iw → row = row') ∧
    ((∀ row ∈ opcodeRows, ¬row.accepts iw) →
      decodeOperands cfg iw =
        { tag := .decodeFault, rd := 0, rs1 := 0, rs2 := 0, imm := 0,
          usesRs1 := false, usesRs2 := false, wr := false })

/-- R93 to R100: the fields of the decoded operand set, by format, from the bits of the word; nothing but the
word and `U_IMM_SIGN_EXTEND` matters. -/
def Obligations.OperandsByFormat : Prop :=
  ∀ (cfg : Config) (iw : InstrWord),
    let d := decodeOperands cfg iw
    let b := InstrWord.bits iw
    (∀ cfg' : Config, cfg'.uImmSignExtend = cfg.uImmSignExtend → decodeOperands cfg' iw = d) ∧
    match Tag.format d.tag with
    | .r => d.rd.val = b 11 7 ∧ d.rs1.val = b 19 15 ∧ d.rs2.val = b 24 20 ∧
        d.usesRs1 = true ∧ d.usesRs2 = true ∧ d.wr = true ∧ d.imm = 0
    | .i => d.rd.val = b 11 7 ∧ d.rs1.val = b 19 15 ∧ d.rs2 = 0 ∧
        d.usesRs1 = true ∧ d.usesRs2 = false ∧ d.wr = true ∧
        d.imm.toInt = signedLow 12 (b 31 20) ∧ -2048 ≤ d.imm.toInt ∧ d.imm.toInt ≤ 2047
    | .shift6 => d.rd.val = b 11 7 ∧ d.rs1.val = b 19 15 ∧ d.rs2 = 0 ∧
        d.usesRs1 = true ∧ d.usesRs2 = false ∧ d.wr = true ∧ d.imm.toNat = b 25 20 ∧ d.imm.toNat ≤ 63
    | .shift5 => d.rd.val = b 11 7 ∧ d.rs1.val = b 19 15 ∧ d.rs2 = 0 ∧
        d.usesRs1 = true ∧ d.usesRs2 = false ∧ d.wr = true ∧ d.imm.toNat = b 24 20 ∧ d.imm.toNat ≤ 31
    | .s => d.rd = 0 ∧ d.rs1.val = b 19 15 ∧ d.rs2.val = b 24 20 ∧
        d.usesRs1 = true ∧ d.usesRs2 = true ∧ d.wr = false ∧
        d.imm.toInt = signedLow 12 (b 31 25 * 2 ^ 5 + b 11 7)
    | .b => d.rd = 0 ∧ d.rs1.val = b 19 15 ∧ d.rs2.val = b 24 20 ∧
        d.usesRs1 = true ∧ d.usesRs2 = true ∧ d.wr = false ∧
        d.imm.toInt = signedLow 13 (b 31 31 * 2 ^ 12 + b 7 7 * 2 ^ 11 + b 30 25 * 2 ^ 5 + b 11 8 * 2) ∧
        d.imm.toInt % 2 = 0 ∧ -4096 ≤ d.imm.toInt ∧ d.imm.toInt ≤ 4094
    | .u => d.rd.val = b 11 7 ∧ d.rs1 = 0 ∧ d.rs2 = 0 ∧
        d.usesRs1 = false ∧ d.usesRs2 = false ∧ d.wr = true ∧
        (cfg.uImmSignExtend = false → d.imm.toNat = b 31 12 * 2 ^ 12) ∧
        (cfg.uImmSignExtend = true → d.imm.toInt = signedLow 32 (b 31 12 * 2 ^ 12))
    | .j => d.rd.val = b 11 7 ∧ d.rs1 = 0 ∧ d.rs2 = 0 ∧
        d.usesRs1 = false ∧ d.usesRs2 = false ∧ d.wr = true ∧
        d.imm.toInt = signedLow 21 (b 31 31 * 2 ^ 20 + b 19 12 * 2 ^ 12 + b 20 20 * 2 ^ 11 + b 30 21 * 2) ∧
        d.imm.toInt % 2 = 0 ∧ -1048576 ≤ d.imm.toInt ∧ d.imm.toInt ≤ 1048574
    | .noOp => d.rd = 0 ∧ d.rs1 = 0 ∧ d.rs2 = 0 ∧
        d.usesRs1 = false ∧ d.usesRs2 = false ∧ d.wr = false ∧ d.imm = 0

/-- R90, R92: every well-formed instruction, with every operand at every value its fields admit, is read back
from its word and from its bytes. -/
def Obligations.DecodeOfEncode : Prop :=
  ∀ (i : Instr), i.wellFormed = true →
    decodeWord (encode i) = .ok i ∧ ∀ rest, decodeBytes (encodeBytes i ++ rest) = .ok (i, rest)

/-- R100: a word that decodes is the word of the instruction it decodes to, which is well formed; the model
drops no bit of it, ignored fields included (log 15). -/
def Obligations.EncodeOfDecode : Prop :=
  ∀ (iw : InstrWord) (i : Instr), decodeWord iw = .ok i → i.wellFormed = true ∧ encode i = iw

/-! ### Instructions, one in program order (files 40 to 46) -/

/-- R131 to R137: an aligned load writes the bytes at its address, extended, and nothing else. That it leaves
the data cache as it was is the model's reading at the architectural level (log 13); the hardware's load goes
through the cache (R130). -/
def Obligations.LoadsWriteExtendedBytes : Prop :=
  ∀ (s : State) (rd rs1 : Reg) (imm : BitVec 12),
    let a := wrap64 ((s.readReg rs1).toNat + imm.toInt)
    let w := fun f => wordI imm.toNat rs1.val f rd 0b0000011
    let raw := memNat s.mem a
    Executes (w 0b000) (.lb rd rs1 imm) s
      (fun t => s.Wrote t .lb rd (wrap64 (signedLow 8 (raw 1))) (s.pc + 4)) ∧
    Executes (w 0b100) (.lbu rd rs1 imm) s
      (fun t => s.Wrote t .lbu rd (BitVec.ofNat 64 (raw 1)) (s.pc + 4)) ∧
    (a.toNat % 2 = 0 →
      Executes (w 0b001) (.lh rd rs1 imm) s
        (fun t => s.Wrote t .lh rd (wrap64 (signedLow 16 (raw 2))) (s.pc + 4)) ∧
      Executes (w 0b101) (.lhu rd rs1 imm) s
        (fun t => s.Wrote t .lhu rd (BitVec.ofNat 64 (raw 2)) (s.pc + 4))) ∧
    (a.toNat % 4 = 0 →
      Executes (w 0b010) (.lw rd rs1 imm) s
        (fun t => s.Wrote t .lw rd (wrap64 (signedLow 32 (raw 4))) (s.pc + 4)) ∧
      Executes (w 0b110) (.lwu rd rs1 imm) s
        (fun t => s.Wrote t .lwu rd (BitVec.ofNat 64 (raw 4)) (s.pc + 4))) ∧
    (a.toNat % 8 = 0 →
      Executes (w 0b011) (.ld rd rs1 imm) s
        (fun t => s.Wrote t .ld rd (BitVec.ofNat 64 (raw 8)) (s.pc + 4)))

/-- R139 to R142: an aligned store writes the low bytes of `x[rs2]` at its address, least significant
first, and no other byte, register or part of the core. That the call is logged as answered with success and
uses up no answer is the model's choice at the architectural level (logs 8, 9). -/
def Obligations.StoresWriteLowBytes : Prop :=
  ∀ (s : State) (rs2 rs1 : Reg) (imm : BitVec 12), s.MemOk →
    let a := s.effAddr rs1 imm
    let v := s.readReg rs2
    let w := fun f => wordS imm rs2 rs1 f 0b0100011
    a = wrap64 ((s.readReg rs1).toNat + imm.toInt) ∧
    Executes (w 0b000) (.sb rs2 rs1 imm) s (fun t => s.Stored t .sb a 1 v) ∧
    (a.toNat % 2 = 0 → Executes (w 0b001) (.sh rs2 rs1 imm) s (fun t => s.Stored t .sh a 2 v)) ∧
    (a.toNat % 4 = 0 → Executes (w 0b010) (.sw rs2 rs1 imm) s (fun t => s.Stored t .sw a 4 v)) ∧
    (a.toNat % 8 = 0 → Executes (w 0b011) (.sd rs2 rs1 imm) s (fun t => s.Stored t .sd a 8 v))

/-- The model's reading of R62 and R63 at the architectural level (log 11): a load or store whose address is
not a multiple of its width, and an instruction address that is not a multiple of 4, is reported and nothing
else changes, so it is met again. -/
def Obligations.MisalignedAccessMakesNoProgress : Prop :=
  (∀ (s : State) (i : Instr) (r rs1 : Reg) (imm : BitVec 12) (n : Nat),
    (i = .lh r rs1 imm ∧ n = 2) ∨ (i = .lhu r rs1 imm ∧ n = 2) ∨ (i = .sh r rs1 imm ∧ n = 2) ∨
      (i = .lw r rs1 imm ∧ n = 4) ∨ (i = .lwu r rs1 imm ∧ n = 4) ∨ (i = .sw r rs1 imm ∧ n = 4) ∨
      (i = .ld r rs1 imm ∧ n = 8) ∨ (i = .sd r rs1 imm ∧ n = 8) →
    let a := wrap64 ((s.readReg rs1).toNat + imm.toInt)
    a.toNat % n ≠ 0 →
      exec i s = .next { s with events := .memFault .dataMisaligned a :: s.events }) ∧
  ∀ s : State, s.level = .architectural → s.halted = false → s.pc.toNat % 4 ≠ 0 →
    step s = .next { s with events := .memFault .fetchMisaligned s.pc :: s.events }

/-- R151 to R156: `addi slti sltiu xori ori andi`. -/
def Obligations.AluImmediateResults : Prop :=
  ∀ (s : State) (rd rs1 : Reg) (imm : BitVec 12),
    let a := s.readReg rs1
    let w := fun f => wordI imm.toNat rs1.val f rd 0b0010011
    Executes (w 0b000) (.addi rd rs1 imm) s
      (fun t => s.Wrote t .addi rd (wrap64 (a.toNat + imm.toInt)) (s.pc + 4)) ∧
    Executes (w 0b010) (.slti rd rs1 imm) s
      (fun t => s.Wrote t .slti rd (if a.toInt < imm.toInt then 1 else 0) (s.pc + 4)) ∧
    Executes (w 0b011) (.sltiu rd rs1 imm) s
      (fun t => s.Wrote t .sltiu rd (if a.toNat < imm.toInt % 2 ^ 64 then 1 else 0) (s.pc + 4)) ∧
    (∃ v : Word, (∀ j < 64, v.getLsbD j = (a.getLsbD j ^^ imm.getLsbD (min j 11))) ∧
      Executes (w 0b100) (.xori rd rs1 imm) s (fun t => s.Wrote t .xori rd v (s.pc + 4))) ∧
    (∃ v : Word, (∀ j < 64, v.getLsbD j = (a.getLsbD j || imm.getLsbD (min j 11))) ∧
      Executes (w 0b110) (.ori rd rs1 imm) s (fun t => s.Wrote t .ori rd v (s.pc + 4))) ∧
    (∃ v : Word, (∀ j < 64, v.getLsbD j = (a.getLsbD j && imm.getLsbD (min j 11))) ∧
      Executes (w 0b111) (.andi rd rs1 imm) s (fun t => s.Wrote t .andi rd v (s.pc + 4)))

/-- R157 to R159: `slli srli srai`; with other upper bits the word is a decode fault (R157). -/
def Obligations.ShiftImmediateResults : Prop :=
  (∀ (s : State) (rd rs1 : Reg) (shamt : BitVec 6),
    let a := s.readReg rs1
    let k := shamt.toNat
    let w := fun f6 f => wordI (f6 * 2 ^ 6 + k) rs1.val f rd 0b0010011
    Executes (w 0b000000 0b001) (.slli rd rs1 shamt) s
      (fun t => s.Wrote t .slli rd (BitVec.ofNat 64 (a.toNat * 2 ^ k)) (s.pc + 4)) ∧
    Executes (w 0b000000 0b101) (.srli rd rs1 shamt) s
      (fun t => s.Wrote t .srli rd (BitVec.ofNat 64 (a.toNat / 2 ^ k)) (s.pc + 4)) ∧
    Executes (w 0b010000 0b101) (.srai rd rs1 shamt) s
      (fun t => s.Wrote t .srai rd (wrap64 (a.toInt / 2 ^ k)) (s.pc + 4))) ∧
  ∀ (cfg : Config) (iw : InstrWord), InstrWord.bits iw 6 0 = 0b0010011 →
    (InstrWord.bits iw 14 12 = 0b001 → InstrWord.bits iw 31 26 ≠ 0 →
      (decodeOperands cfg iw).tag = .decodeFault) ∧
    (InstrWord.bits iw 14 12 = 0b101 → InstrWord.bits iw 31 26 ≠ 0 → InstrWord.bits iw 31 26 ≠ 0b010000 →
      (decodeOperands cfg iw).tag = .decodeFault)

/-- R160 to R163: `addiw slliw srliw sraiw`; with other upper bits the word is a decode fault (R161). -/
def Obligations.WordImmediateResults : Prop :=
  (∀ (s : State) (rd rs1 : Reg) (imm : BitVec 12),
    Executes (wordI imm.toNat rs1.val 0b000 rd 0b0011011) (.addiw rd rs1 imm) s
      (fun t => s.Wrote t .addiw rd
        (wrap64 (signedLow 32 ((s.readReg rs1).toNat + imm.toInt))) (s.pc + 4))) ∧
  (∀ (s : State) (rd rs1 : Reg) (shamt : BitVec 5),
    let a := (s.readReg rs1).toNat
    let k := shamt.toNat
    let w := fun f7 f => wordI (f7 * 2 ^ 5 + k) rs1.val f rd 0b0011011
    Executes (w 0b0000000 0b001) (.slliw rd rs1 shamt) s
      (fun t => s.Wrote t .slliw rd (wrap64 (signedLow 32 ((a * 2 ^ k : Nat) : Int))) (s.pc + 4)) ∧
    Executes (w 0b0000000 0b101) (.srliw rd rs1 shamt) s
      (fun t => s.Wrote t .srliw rd
        (wrap64 (signedLow 32 ((a % 2 ^ 32 / 2 ^ k : Nat) : Int))) (s.pc + 4)) ∧
    Executes (w 0b0100000 0b101) (.sraiw rd rs1 shamt) s
      (fun t => s.Wrote t .sraiw rd (wrap64 (signedLow 32 (a : Int) / 2 ^ k)) (s.pc + 4))) ∧
  ∀ (cfg : Config) (iw : InstrWord), InstrWord.bits iw 6 0 = 0b0011011 →
    (InstrWord.bits iw 14 12 = 0b001 → InstrWord.bits iw 31 25 ≠ 0 →
      (decodeOperands cfg iw).tag = .decodeFault) ∧
    (InstrWord.bits iw 14 12 = 0b101 → InstrWord.bits iw 31 25 ≠ 0 → InstrWord.bits iw 31 25 ≠ 0b0100000 →
      (decodeOperands cfg iw).tag = .decodeFault)

/-- R171 to R180: `add sub sll slt sltu xor srl sra or and`. -/
def Obligations.AluRegisterResults : Prop :=
  ∀ (s : State) (rd rs1 rs2 : Reg),
    let a := s.readReg rs1
    let b := s.readReg rs2
    let k := b.toNat % 64
    let w := fun f7 f => wordR f7 rs2 rs1 f rd 0b0110011
    Executes (w 0b0000000 0b000) (.add rd rs1 rs2) s
      (fun t => s.Wrote t .add rd (wrap64 (a.toInt + b.toInt)) (s.pc + 4)) ∧
    Executes (w 0b0100000 0b000) (.sub rd rs1 rs2) s
      (fun t => s.Wrote t .sub rd (wrap64 (a.toInt - b.toInt)) (s.pc + 4)) ∧
    Executes (w 0b0000000 0b001) (.sll rd rs1 rs2) s
      (fun t => s.Wrote t .sll rd (BitVec.ofNat 64 (a.toNat * 2 ^ k)) (s.pc + 4)) ∧
    Executes (w 0b0000000 0b010) (.slt rd rs1 rs2) s
      (fun t => s.Wrote t .slt rd (if a.toInt < b.toInt then 1 else 0) (s.pc + 4)) ∧
    Executes (w 0b0000000 0b011) (.sltu rd rs1 rs2) s
      (fun t => s.Wrote t .sltu rd (if a.toNat < b.toNat then 1 else 0) (s.pc + 4)) ∧
    (∃ v : Word, (∀ j < 64, v.getLsbD j = (a.getLsbD j ^^ b.getLsbD j)) ∧
      Executes (w 0b0000000 0b100) (.xor rd rs1 rs2) s (fun t => s.Wrote t .xor rd v (s.pc + 4))) ∧
    Executes (w 0b0000000 0b101) (.srl rd rs1 rs2) s
      (fun t => s.Wrote t .srl rd (BitVec.ofNat 64 (a.toNat / 2 ^ k)) (s.pc + 4)) ∧
    Executes (w 0b0100000 0b101) (.sra rd rs1 rs2) s
      (fun t => s.Wrote t .sra rd (wrap64 (a.toInt / 2 ^ k)) (s.pc + 4)) ∧
    (∃ v : Word, (∀ j < 64, v.getLsbD j = (a.getLsbD j || b.getLsbD j)) ∧
      Executes (w 0b0000000 0b110) (.or rd rs1 rs2) s (fun t => s.Wrote t .or rd v (s.pc + 4))) ∧
    (∃ v : Word, (∀ j < 64, v.getLsbD j = (a.getLsbD j && b.getLsbD j)) ∧
      Executes (w 0b0000000 0b111) (.and rd rs1 rs2) s (fun t => s.Wrote t .and rd v (s.pc + 4)))

/-- R181 to R185: `addw subw sllw srlw sraw`. -/
def Obligations.WordRegisterResults : Prop :=
  ∀ (s : State) (rd rs1 rs2 : Reg),
    let a := (s.readReg rs1).toNat
    let b := (s.readReg rs2).toNat
    let k := b % 32
    let w := fun f7 f => wordR f7 rs2 rs1 f rd 0b0111011
    Executes (w 0b0000000 0b000) (.addw rd rs1 rs2) s
      (fun t => s.Wrote t .addw rd (wrap64 (signedLow 32 ((a : Int) + b))) (s.pc + 4)) ∧
    Executes (w 0b0100000 0b000) (.subw rd rs1 rs2) s
      (fun t => s.Wrote t .subw rd (wrap64 (signedLow 32 ((a : Int) - b))) (s.pc + 4)) ∧
    Executes (w 0b0000000 0b001) (.sllw rd rs1 rs2) s
      (fun t => s.Wrote t .sllw rd (wrap64 (signedLow 32 ((a * 2 ^ k : Nat) : Int))) (s.pc + 4)) ∧
    Executes (w 0b0000000 0b101) (.srlw rd rs1 rs2) s
      (fun t => s.Wrote t .srlw rd
        (wrap64 (signedLow 32 ((a % 2 ^ 32 / 2 ^ k : Nat) : Int))) (s.pc + 4)) ∧
    Executes (w 0b0100000 0b101) (.sraw rd rs1 rs2) s
      (fun t => s.Wrote t .sraw rd (wrap64 (signedLow 32 (a : Int) / 2 ^ k)) (s.pc + 4))

/-- R191: `mul` writes the low 64 bits of the product, the same for signed and unsigned operands. -/
def Obligations.MultiplyResult : Prop :=
  ∀ (s : State) (rd rs1 rs2 : Reg),
    let a := s.readReg rs1
    let b := s.readReg rs2
    wrap64 (a.toInt * b.toInt) = BitVec.ofNat 64 (a.toNat * b.toNat) ∧
    Executes (wordR 0b0000001 rs2 rs1 0b000 rd 0b0110011) (.mul rd rs1 rs2) s
      (fun t => s.Wrote t .mul rd (wrap64 (a.toInt * b.toInt)) (s.pc + 4))

/-- R192 to R194: `div` and `rem` under both settings of `DIVREM_SIGNED`: the quotient rounded toward zero
and the remainder with the dividend's sign, or the unsigned ones; all ones and the dividend for a zero
divisor; the overflow pair; and dividend = quotient * divisor + remainder. -/
def Obligations.DivideAndRemainderResults : Prop :=
  ∀ (s : State) (rd rs1 rs2 : Reg),
    let a := s.readReg rs1
    let b := s.readReg rs2
    ∃ q r : Word,
      Executes (wordR 0b0000001 rs2 rs1 0b100 rd 0b0110011) (.div rd rs1 rs2) s
        (fun t => s.Wrote t .div rd q (s.pc + 4)) ∧
      Executes (wordR 0b0000001 rs2 rs1 0b110 rd 0b0110011) (.rem rd rs1 rs2) s
        (fun t => s.Wrote t .rem rd r (s.pc + 4)) ∧
      (b = 0 → q = 0xFFFFFFFFFFFFFFFF ∧ r = a) ∧
      (b ≠ 0 → a = q * b + r) ∧
      (b ≠ 0 → s.cfg.divremSigned = false → r.toNat < b.toNat ∧ q.toNat = a.toNat / b.toNat) ∧
      (b ≠ 0 → s.cfg.divremSigned = true →
        (r = 0 ∨ (r.toInt < 0 ↔ a.toInt < 0)) ∧ r.toInt.natAbs < b.toInt.natAbs ∧
        (¬(a = 0x8000000000000000 ∧ b = 0xFFFFFFFFFFFFFFFF) → a.toInt = q.toInt * b.toInt + r.toInt) ∧
        (a = 0x8000000000000000 → b = 0xFFFFFFFFFFFFFFFF → q = 0x8000000000000000 ∧ r = 0))

/-- R201, R202: `lui` and `auipc` under both settings of `U_IMM_SIGN_EXTEND`. -/
def Obligations.UpperImmediateResults : Prop :=
  ∀ (s : State) (rd : Reg) (imm20 : BitVec 20),
    let z : Int := if s.cfg.uImmSignExtend then signedLow 32 (imm20.toNat * 2 ^ 12) else imm20.toNat * 2 ^ 12
    Executes (wordU imm20 rd 0b0110111) (.lui rd imm20) s
      (fun t => s.Wrote t .lui rd (wrap64 z) (s.pc + 4)) ∧
    Executes (wordU imm20 rd 0b0010111) (.auipc rd imm20) s
      (fun t => s.Wrote t .auipc rd (wrap64 (s.pc.toNat + z)) (s.pc + 4))

/-- R211 to R216: a branch goes to its own address plus the offset when its condition holds, else to the next
word, and writes no register. -/
def Obligations.BranchesContinueAtTarget : Prop :=
  ∀ (s : State) (rs1 rs2 : Reg) (offset : BitVec 13), offset.toNat % 2 = 0 →
    let a := s.readReg rs1
    let b := s.readReg rs2
    let w := fun f => wordB offset rs2 rs1 f 0b1100011
    let target := wrap64 (s.pc.toNat + offset.toInt)
    let next := wrap64 (s.pc.toNat + 4)
    Executes (w 0b000) (.beq rs1 rs2 offset) s
      (fun t => s.Wrote t .beq 0 0 (if a = b then target else next)) ∧
    Executes (w 0b001) (.bne rs1 rs2 offset) s
      (fun t => s.Wrote t .bne 0 0 (if a ≠ b then target else next)) ∧
    Executes (w 0b100) (.blt rs1 rs2 offset) s
      (fun t => s.Wrote t .blt 0 0 (if a.toInt < b.toInt then target else next)) ∧
    Executes (w 0b101) (.bge rs1 rs2 offset) s
      (fun t => s.Wrote t .bge 0 0 (if a.toInt ≥ b.toInt then target else next)) ∧
    Executes (w 0b110) (.bltu rs1 rs2 offset) s
      (fun t => s.Wrote t .bltu 0 0 (if a.toNat < b.toNat then target else next)) ∧
    Executes (w 0b111) (.bgeu rs1 rs2 offset) s
      (fun t => s.Wrote t .bgeu 0 0 (if a.toNat ≥ b.toNat then target else next))

/-- R217, R218: `jal` and `jalr` write the address of the next word to `x[rd]` and go to the target; `jalr`
uses the old `x[rs1]` and clears bit 0 of the sum. -/
def Obligations.JumpsLinkAndContinue : Prop :=
  (∀ (s : State) (rd : Reg) (offset : BitVec 21), offset.toNat % 2 = 0 →
    Executes (wordJ offset rd 0b1101111) (.jal rd offset) s
      (fun t => s.Wrote t .jal rd (wrap64 (s.pc.toNat + 4)) (wrap64 (s.pc.toNat + offset.toInt)))) ∧
  ∀ (s : State) (rd rs1 : Reg) (imm : BitVec 12),
    Executes (wordI imm.toNat rs1.val 0b000 rd 0b1100111) (.jalr rd rs1 imm) s
      (fun t => s.Wrote t .jalr rd (wrap64 (s.pc.toNat + 4))
        (wrap64 (((s.readReg rs1).toNat + imm.toInt) / 2 * 2)))

/-- R231 to R239, R241, R242: the fence, environment and CSR instructions change nothing but `pc`, whatever
their ignored fields are; a `csr*` leaves `x[rd]` as it was. -/
def Obligations.SystemInstructionsAreNoOps : Prop :=
  ∀ (s : State) (rd rs1 : Reg) (imm : BitVec 12) (uimm : BitVec 5),
    let done := fun tag t => s.Wrote t tag 0 0 (s.pc + 4)
    Executes (wordI imm.toNat rs1.val 0b000 rd 0b0001111) (.fence imm rs1 rd) s (done .fence) ∧
    Executes (wordI imm.toNat rs1.val 0b001 rd 0b0001111) (.fenceI imm rs1 rd) s (done .fenceI) ∧
    Executes 0x00000073 .ecall s (done .ecall) ∧
    Executes 0x00100073 .ebreak s (done .ebreak) ∧
    Executes (wordI imm.toNat rs1.val 0b001 rd 0b1110011) (.csrrw rd imm rs1) s (done .csrrw) ∧
    Executes (wordI imm.toNat rs1.val 0b010 rd 0b1110011) (.csrrs rd imm rs1) s (done .csrrs) ∧
    Executes (wordI imm.toNat rs1.val 0b011 rd 0b1110011) (.csrrc rd imm rs1) s (done .csrrc) ∧
    Executes (wordI imm.toNat uimm.toNat 0b101 rd 0b1110011) (.csrrwi rd imm uimm) s (done .csrrwi) ∧
    Executes (wordI imm.toNat uimm.toNat 0b110 rd 0b1110011) (.csrrsi rd imm uimm) s (done .csrrsi) ∧
    Executes (wordI imm.toNat uimm.toNat 0b111 rd 0b1110011) (.csrrci rd imm uimm) s (done .csrrci)

/-- R9, R24, R25, R267 over all instructions: what one instruction can change. No instruction touches the
core; only the decoded destination register can change; only a store changes memory or the data cache (that a
load leaves the data cache as it was is the model's reading at the architectural level, log 13). -/
def Obligations.InstructionFrame : Prop :=
  ∀ (i : Instr) (s t : State), exec i s = .next t →
    s.SameCore t ∧
    (∀ r : Reg, ((i.operands s.cfg).wr = false ∨ r ≠ (i.operands s.cfg).rd ∨ r = 0) →
      t.readReg r = s.readReg r) ∧
    (i.tag.isStore = false → s.SameMemory t) ∧
    (∃ e, t.events = e :: s.events) ∧
    ∀ x : Word, t.mem.byte x ≠ s.mem.byte x →
      ∃ (rs2 rs1 : Reg) (imm : BitVec 12),
        (i = .sb rs2 rs1 imm ∨ i = .sh rs2 rs1 imm ∨ i = .sw rs2 rs1 imm ∨ i = .sd rs2 rs1 imm) ∧
        (x - s.effAddr rs1 imm).toNat < accessBytes i.tag

/-- R61, R65, R66, R70: a load after an `sd` sees the bytes of the stored value, lowest address least
significant. -/
def Obligations.LoadsSeeTheStoredDoubleword : Prop :=
  ∀ (s : State) (rs2 rs1 : Reg) (imm : BitVec 12), s.MemOk → (s.effAddr rs1 imm).toNat % 8 = 0 →
    let v := (s.readReg rs2).toNat
    ∃ t, exec (.sd rs2 rs1 imm) s = .next t ∧
      ∀ (rd r : Reg) (d : BitVec 12) (j : Nat), rd ≠ 0 → j < 8 →
        t.effAddr r d = s.effAddr rs1 imm + BitVec.ofNat 64 j →
        (∃ u, exec (.lbu rd r d) t = .next u ∧ (u.readReg rd).toNat = v / 2 ^ (8 * j) % 2 ^ 8) ∧
        (j % 2 = 0 → ∃ u, exec (.lhu rd r d) t = .next u ∧ (u.readReg rd).toNat = v / 2 ^ (8 * j) % 2 ^ 16) ∧
        (j % 4 = 0 → ∃ u, exec (.lwu rd r d) t = .next u ∧ (u.readReg rd).toNat = v / 2 ^ (8 * j) % 2 ^ 32) ∧
        (j = 0 → ∃ u, exec (.ld rd r d) t = .next u ∧ (u.readReg rd).toNat = v)

/-! ### The step of the machine, and the end of a run (R9, R268, R269) -/

/-- At the architectural level a step runs the instruction that the four bytes at `pc` decode to (R90);
nothing is added around it. At the cycle level a step is a clock cycle (R250). That the field `level` selects
which of the two a step is, is the model's DESIGN CHOICE (log 1); that the bytes are those of memory as it is
now, not of the initial image that R268 names, is the model's reading (log 10). -/
def Obligations.StepRunsTheDecodedInstruction : Prop :=
  (∀ (s : State) (i : Instr) (rest : List Byte),
    s.level = .architectural → s.halted = false → s.pc.toNat % 4 = 0 →
    decodeBytes ([s.mem.byte s.pc, s.mem.byte (s.pc + 1), s.mem.byte (s.pc + 2), s.mem.byte (s.pc + 3)] ++ rest)
      = .ok (i, rest) →
    step s = exec i s) ∧
  ∀ s : State, s.level = .cycle → step s = .next (advanceCycle s)

/-- The model's way to place a program (log 16): an instruction placed by `withFetchWord` is the one the next
step runs, in the state that only differs in the level, the four bytes at `pc` and the alignment of `pc`. -/
def Obligations.PlacedInstructionRunsNext : Prop :=
  ∀ (s : State) (w : Nat) (i : Instr), s.MemOk → decodeTableWord 32 w = some i →
    let t := s.withFetchWord 32 w
    step t = exec i t ∧ t.regs = s.regs ∧ t.cfg = s.cfg ∧ t.pc.toNat = s.pc.toNat / 4 * 4 ∧
      ∀ x : Word, 4 ≤ (x - t.pc).toNat → t.mem.byte x = s.mem.byte x

/-- R240, R403 at the architectural level (log 12): under `NOP` a word outside the supported set is reported
and is a no-op; under `HALT` it is reported and the machine stands still from then on. -/
def Obligations.DecodeFaultIsReported : Prop :=
  ∀ (s : State) (e : DecodeError),
    s.level = .architectural → s.halted = false → s.pc.toNat % 4 = 0 →
    decodeWord (s.mem.instrAt s.pc) = .error e →
    let iw := s.mem.instrAt s.pc
    (s.cfg.decodeFaultPolicy = .nop →
      step s = .next { s with
        pc := s.pc + 4
        events := .decodeFault iw s.pc :: .retire s.pc .decodeFault :: s.events }) ∧
    (s.cfg.decodeFaultPolicy = .halt →
      let t := { s with halted := true, events := .decodeFault iw s.pc :: s.events }
      step s = .next t ∧ step t = .next t)

/-- R269, for the model's own predicate of the end of a run (log 22). At the architectural level the step that
ends a run leaves registers, memory and `pc`, and ends it again. At the cycle level, from the invariants: after
the cycle in which `jal x0, 0` retires, or in which `HALT` stops the core, registers and memory stay for ever;
a halted core stays whole, and of one that goes on only copies of the `jal` are in `MR` and `WR`, and only they
retire. -/
def Obligations.EndOfRunIsFinal : Prop :=
  (∀ s t : State, s.level = .architectural → endsRun s = true → step s = .next t →
    t.regs = s.regs ∧ t.mem = s.mem ∧ t.pc = s.pc ∧ endsRun t = true) ∧
  ∀ s : State, s.RefInv → s.EndOk →
    (s.NoCodeStore → (advanceCycle s).EndOk) ∧
    (endsRun s = true → ∀ k : Nat,
      let t := advanceCycle s
      let u := runCycles k t
      u.regs = t.regs ∧ u.mem = t.mem ∧ (t.halted = true → u = t) ∧
        (t.halted = false → ∃ w, s.wr = some w ∧ u.LoopsAt w.pc ∧
          (∀ m ∈ u.mr, m.iw = selfJump ∧ m.pc = w.pc) ∧ (∀ v ∈ u.wr, v.iw = selfJump ∧ v.pc = w.pc) ∧
          ∃ j, j ≤ k ∧ programEvents u = List.replicate j (.retire w.pc .jal) ++ programEvents t))

/-- R400, R405, R409: no condition stops the machine or traps: every step answers a next state. -/
def Obligations.EveryStepAnswersNext : Prop := ∀ s : State, ∃ t, step s = .next t

/-! ### Reset (10_state.md part D) -/

/-- R49 to R53: what reset leaves, for every choice of the open launch parameters; `State.reset` is one. -/
def Obligations.ResetValues : Prop :=
  (∀ (cfg : Config) (regs : RegFile) (mem : Memory) (ans : List Bool),
    let s := State.launch cfg regs mem ans
    s.dr = none ∧ s.xr = none ∧ s.mr = none ∧ s.wr = none ∧ (∀ i : Fin 32, s.btb.get i = none) ∧
      (∀ a, icLookup s.icLines a = none) ∧ (∀ a, dcLookup s.dcLines a = none) ∧
      s.icFsm = .idle ∧ s.dcFsm = .idle ∧ s.halted = false ∧ s.pc = cfg.resetPc ∧ s.readReg 0 = 0 ∧
      s.mem = mem ∧ ∀ r : Reg, r ≠ 0 → s.readReg r = regs.get r) ∧
  ∃ (cfg : Config) (regs : RegFile) (mem : Memory) (ans : List Bool),
    State.reset = State.launch cfg regs mem ans ∧ cfg.resetPc.toNat % 4 = 0

/-- R73, R332, R21 and the canonical form of memory, and with them the invariants of the refinement (R268) and
of the end of a run (R269), hold before the first cycle, for every launch whose memory is canonical, whose
register 0 holds 0 and whose `RESET_PC` is even; `State.reset` is one. -/
def Obligations.InvariantHoldsAtLaunch : Prop :=
  (∀ (cfg : Config) (regs : RegFile) (mem : Memory) (ans : List Bool),
    regs.get 0 = 0 → Memory.wf mem → even cfg.resetPc = true →
    let s := State.launch cfg regs mem ans
    s.Inv ∧ s.RefInv ∧ s.EndOk) ∧
  State.reset.Inv ∧ State.reset.RefInv ∧ State.reset.EndOk

/-- R21, R35 to R38, R73, R332 (a) (b), R100 and the canonical form of memory: the invariant of the machine
is kept by every step, at either level, from every state that has it. -/
def Obligations.InvariantKeptByEveryStep : Prop :=
  ∀ s t : State, s.Inv → step s = .next t → t.Inv

/-! ### Writeback, retirement and the latch (50_pipeline_controller.md) -/

/-- R254: in every cycle of a running core, held or not, the register file changes by Writeback's write of
`WR.result` to `x[WR.rd]` when `WR` is valid, writes and `rd` is not 0, and by nothing else. -/
def Obligations.WritebackIsTheOnlyRegisterWriter : Prop :=
  ∀ s : State,
    (s.Runs → (advanceCycle s).regs =
      match s.wr with
      | some w => if w.wr = true ∧ w.rd ≠ 0 then s.regs.set w.rd w.result else s.regs
      | none => s.regs) ∧
    (¬s.Runs → (advanceCycle s).regs = s.regs)

/-- R255, R402, R406: the instruction in `WR` retires in the cycle that does not hold, and a `DECODE_FAULT`
is reported then; no other cycle emits such an event. -/
def Obligations.RetireEventsOfACycle : Prop :=
  ∀ s : State, s.Runs →
    programEvents (advanceCycle s) =
      (if (runCycle s).holdAll then []
       else
        match s.wr with
        | some w => retireEvents w.pc w.iw w.tag
        | none => []) ++ programEvents s

/-- R265: a held cycle keeps the four stage registers, `pc`, the predictor and memory; any other latches the
four next values at once. -/
def Obligations.LatchAndHold : Prop :=
  ∀ s : State, s.Runs →
    let t := advanceCycle s
    ((runCycle s).holdAll = true →
      t.dr = s.dr ∧ t.xr = s.xr ∧ t.mr = s.mr ∧ t.wr = s.wr ∧ t.pc = s.pc ∧ t.btb = s.btb ∧
        t.mem = s.mem ∧ t.halted = s.halted ∧ t.cfg = s.cfg ∧ t.level = s.level ∧
        programEvents t = programEvents s) ∧
    ((runCycle s).holdAll = false →
      t.wr = (memoryPhase s).wrNext ∧ t.mr = (executePhase s).mrNext ∧
        t.xr = decodeStage (executePhase s).state (executePhase s).redirect.isSome ∧
        t.dr = (fetchPhase s).drNext)

/-- R39, R403: under `HALT` a `DECODE_FAULT` in `WR` is reported and halts the core before anything is
evaluated, and a halted core stays as it is for ever. -/
def Obligations.HaltPolicyFreezesTheCore : Prop :=
  ∀ (s : State) (k : Nat),
    (s.halted = true → runCycles k s = s) ∧
    ∀ w, s.halted = false → s.cfg.decodeFaultPolicy = .halt → s.wr = some w → w.tag = .decodeFault →
      runCycles (k + 1) s = { s with halted := true, events := .decodeFault w.iw w.pc :: s.events }

/-! ### Memory and the data cache (R256 to R258, R360 to R370) -/

/-- R256: a bubble passes a bubble on, and an instruction that is no load or store goes to `WR` as it is;
neither holds. -/
def Obligations.MemoryPassesOthersThrough : Prop :=
  ∀ s : State, s.Runs →
    (s.mr = none → (runCycle s).holdAll = false ∧ (advanceCycle s).wr = none) ∧
    ∀ m, s.mr = some m → m.tag.isLoad = false → m.tag.isStore = false →
      (runCycle s).holdAll = false ∧
        (advanceCycle s).wr =
          some { pc := m.pc, iw := m.iw, tag := m.tag, rd := m.rd, wr := m.wr, result := m.result }

/-- R361: an aligned load that hits takes the bytes of the line from its offset on, extends them and passes
to `WR` in the same cycle. -/
def Obligations.LoadHitCompletes : Prop :=
  ∀ (s : State) (m : ExecutedInstr) (line : DcLine),
    s.Runs → s.mr = some m → m.tag.isLoad = true → m.addr.toNat % accessBytes m.tag = 0 →
    s.dcFsm = .idle → DcHolds s.dcLines m.addr line →
    let n := accessBytes m.tag
    (runCycle s).holdAll = false ∧
      (advanceCycle s).wr =
        some { pc := m.pc, iw := m.iw, tag := m.tag, rd := m.rd, wr := true
               result := loadedNat m.tag (line.data.toNat / 2 ^ (8 * (m.addr.toNat % 8)) % 2 ^ (8 * n)) } ∧
      (advanceCycle s).dcLines = s.dcLines ∧ (advanceCycle s).dcFsm = .idle

/-- R362, R363, R364, R369: the fill protocol of a load that misses: the issue and its failure, the wait and
the commit; every one of these cycles holds, and in every one the load stays in `MR`. That a failed issue is
no `first_cache_stall` is the model's reading (log 19). -/
def Obligations.DataMissProtocol : Prop :=
  ∀ (s : State) (m : ExecutedInstr),
    s.Runs → s.mr = some m → m.tag.isLoad = true → m.addr.toNat % accessBytes m.tag = 0 →
    let t := advanceCycle s
    let base := BitVec.ofNat 64 (m.addr.toNat / 8 * 8)
    let icPoll := fun later => ∀ c ∈ later, ∃ b d, s.icFsm = .wait b d ∧ c.1 = BusCall.memoryReady b
    (s.dcFsm = .idle → (∀ line, ¬DcHolds s.dcLines m.addr line) →
      (runCycle s).holdAll = true ∧ t.mr = some m ∧ t.dcLines = s.dcLines ∧
      ∃ ok later, t.bus = later ++ (.readMemory base 8, ok) :: s.bus ∧ icPoll later ∧
        (runCycle s).firstCacheStall = ok ∧
        (ok = true → t.dcFsm = .wait base (BitVec.ofNat 64 (memNat s.mem base 8)) ∧ t.events = s.events) ∧
        (ok = false → t.dcFsm = .idle ∧ t.events = .memFault .readFail base :: s.events)) ∧
    (∀ b data, s.dcFsm = .wait b data →
      (runCycle s).holdAll = true ∧ t.mr = some m ∧ t.dcLines = s.dcLines ∧
      ∃ ready later, t.bus = later ++ (.memoryReady b, ready) :: s.bus ∧ icPoll later ∧
        t.dcFsm = if ready then .commit b data else .wait b data) ∧
    (∀ b data, s.dcFsm = .commit b data →
      (runCycle s).holdAll = true ∧ t.mr = some m ∧ t.dcFsm = .idle ∧
      (∃ line, DcHolds t.dcLines b line ∧ line.data = data) ∧
      ∀ i, i ≠ b.toNat / 8 % 2048 → Assoc.lookup t.dcLines i = Assoc.lookup s.dcLines i)

/-- R366, R367, R368: an aligned store makes its call; on success memory has the bytes, a line that holds the
address is updated alike and no other line changes, and the store passes on in that cycle; on failure memory
and the cache are as they were and the store is held. -/
def Obligations.StoreWritesThrough : Prop :=
  ∀ (s : State) (m : ExecutedInstr),
    s.Runs → s.MemOk → s.mr = some m → m.tag.isStore = true → m.addr.toNat % accessBytes m.tag = 0 →
    let t := advanceCycle s
    let n := accessBytes m.tag
    let v := m.sdata
    ∃ ok later, t.bus = later ++ (.writeMemory m.addr (BitVec.ofNat 64 (v.toNat % 2 ^ (8 * n))) n, ok) :: s.bus ∧
      (ok = true →
        (runCycle s).holdAll = false ∧
        t.wr = some { pc := m.pc, iw := m.iw, tag := m.tag, rd := 0, wr := false, result := 0 } ∧
        (∀ x : Word, t.mem.byte x =
          let d := (x - m.addr).toNat
          if d < n then v.extractLsb' (8 * d) 8 else s.mem.byte x) ∧
        (∀ i, i ≠ m.addr.toNat / 8 % 2048 → Assoc.lookup t.dcLines i = Assoc.lookup s.dcLines i) ∧
        (∀ line, DcHolds s.dcLines m.addr line →
          ∃ line', DcHolds t.dcLines m.addr line' ∧ ∀ k, k < 8 →
            line'.data.extractLsb' (8 * k) 8 =
              (if m.addr.toNat % 8 ≤ k ∧ k < m.addr.toNat % 8 + n
               then v.extractLsb' (8 * (k - m.addr.toNat % 8)) 8 else line.data.extractLsb' (8 * k) 8)) ∧
        ((∀ line, ¬DcHolds s.dcLines m.addr line) → t.dcLines = s.dcLines)) ∧
      (ok = false →
        (runCycle s).holdAll = true ∧ t.mr = some m ∧ t.mem = s.mem ∧ t.dcLines = s.dcLines ∧
        t.events = .memFault .writeFail m.addr :: s.events)

/-- R62: a misaligned load or store in `MR` is reported and held in every cycle from then on; nothing in the
pipeline moves and nothing retires. -/
def Obligations.MisalignedAccessIsHeldForEver : Prop :=
  ∀ (s : State) (m : ExecutedInstr) (k : Nat),
    s.Runs → s.mr = some m → (m.tag.isLoad = true ∨ m.tag.isStore = true) →
    m.addr.toNat % accessBytes m.tag ≠ 0 →
    let t := runCycles k s
    (runCycle t).holdAll = true ∧ t.mr = some m ∧ t.xr = s.xr ∧ t.dr = s.dr ∧ t.wr = s.wr ∧ t.pc = s.pc ∧
      t.mem = s.mem ∧ t.events = List.replicate k (.memFault .dataMisaligned m.addr) ++ s.events

/-- R370 on the data side: a load that misses and whose fill is ready at poll `k + 1`, after `k` polls that
were not, holds the pipeline for `k + 3` cycles (issue, `k + 1` polls, commit) and completes in the next with
the bytes of memory. -/
def Obligations.DataMissCostsTwoMoreThanItsPolls : Prop :=
  ∀ (s : State) (m : ExecutedInstr) (k : Nat) (rest : List Bool),
    s.Runs → s.icFsm = .idle → s.mr = some m → m.tag.isLoad = true →
    m.addr.toNat % accessBytes m.tag = 0 → s.dcFsm = .idle → (∀ line, ¬DcHolds s.dcLines m.addr line) →
    s.answers = true :: (List.replicate k false ++ true :: rest) →
    (∀ j, j ≤ k + 2 → (runCycle (runCycles j s)).holdAll = true ∧ (runCycles j s).mr = some m) ∧
      (runCycle (runCycles (k + 3) s)).holdAll = false ∧ (runCycles (k + 3) s).answers = rest ∧
      (runCycles (k + 4) s).wr =
        some { pc := m.pc, iw := m.iw, tag := m.tag, rd := m.rd, wr := true
               result := loadedNat m.tag (memNat s.mem m.addr (accessBytes m.tag)) }

/-- R267: memory changes in a cycle only by the aligned store in `MR` whose call succeeded. -/
def Obligations.OnlyTheStoreInMemoryWritesMemory : Prop :=
  ∀ s : State, (advanceCycle s).mem ≠ s.mem →
    ∃ m, s.mr = some m ∧ m.tag.isStore = true ∧ m.addr.toNat % accessBytes m.tag = 0 ∧
      (.writeMemory m.addr (lowBytes (accessBytes m.tag) m.sdata) (accessBytes m.tag), true) ∈
        (advanceCycle s).bus

/-! ### Execute, forwarding, control transfers (R259 to R262, R304, R326 to R328) -/

/-- R304: Execute takes each source from `MR`, unless the producer there is a load, else from `WR`, else from
what Decode read, and 0 for register 0; shown on the difference that a `sub` leaves in `MR`. -/
def Obligations.ForwardingFeedsExecute : Prop :=
  ∀ (s : State) (x : DecodedInstr) (a b : Word),
    s.Runs → (runCycle s).holdAll = false → s.xr = some x → x.usesRs1 = true → x.usesRs2 = true →
    s.Forwards x.rs1 x.v1 a → s.Forwards x.rs2 x.v2 b →
    operandA s x = a ∧ operandB s x = b ∧
      (x.tag = .sub → (advanceCycle s).mr.map ExecutedInstr.result = some (wrap64 (a.toInt - b.toInt)))

/-- R259, R260, R261: what Execute leaves in `MR`: the instruction with its tag and destination, the address
of a load or store, the data of a store, and 0 as the result of those, of branches and of no-ops. -/
def Obligations.ExecuteFillsMemoryRegister : Prop :=
  ∀ s : State, s.Runs → (runCycle s).holdAll = false →
    (s.xr = none → (advanceCycle s).mr = none ∧ (runCycle s).redirect = none) ∧
    ∀ (x : DecodedInstr) (a b : Word), s.xr = some x →
      (x.usesRs1 = true → s.Forwards x.rs1 x.v1 a) → (x.usesRs1 = false → a = 0) →
      (x.usesRs2 = true → s.Forwards x.rs2 x.v2 b) → (x.usesRs2 = false → b = 0) →
      ∃ m, (advanceCycle s).mr = some m ∧ m.pc = x.pc ∧ m.iw = x.iw ∧ m.tag = x.tag ∧ m.rd = x.rd ∧ m.wr = x.wr ∧
        m.addr = (if x.tag.isLoad = true ∨ x.tag.isStore = true then wrap64 (a.toInt + x.imm.toInt) else 0) ∧
        m.sdata = (if x.tag.isStore = true then b else 0) ∧
        (x.tag.isLoad = true ∨ x.tag.isStore = true ∨ x.tag.isBranch = true ∨ Tag.format x.tag = .noOp →
          m.result = 0) ∧
        (x.tag = .jal ∨ x.tag = .jalr → m.result = wrap64 (x.pc.toNat + 4)) ∧
        (x.tag = .lui → m.result = x.imm) ∧
        (x.tag = .auipc → m.result = wrap64 (x.pc.toNat + x.imm.toInt))

/-- R262, R327, R328: a branch or jump in Execute redirects exactly when its true next pc is not where Fetch
went after it; then `pc` goes there and the two younger instructions are squashed, while the transfer itself
goes on; no other instruction redirects. -/
def Obligations.TransfersResolveInExecute : Prop :=
  ∀ (s : State) (x : DecodedInstr),
    s.Runs → (runCycle s).holdAll = false → s.xr = some x →
    let t := advanceCycle s
    let tnpc := transferTarget x.tag x.pc (operandA s x) (operandB s x) x.imm
    ∃ m, t.mr = some m ∧ m.pc = x.pc ∧ m.tag = x.tag ∧
      (transfersControl x.tag →
        (runCycle s).redirect = (if tnpc = x.predNpc then none else some tnpc) ∧
        m.branch = decide (tnpc ≠ x.predNpc)) ∧
      (¬transfersControl x.tag →
        (runCycle s).redirect = none ∧ m.branch = false ∧ m.wrongPrediction = false) ∧
      (∀ target, (runCycle s).redirect = some target →
        t.pc = target ∧ t.xr = none ∧ t.dr = none ∧ t.btb = (executePhase s).state.btb ∧
          (s.icFsm = .idle → t.icFsm = .idle) ∧ t.icLines = (afterFillStep s).icLines)

/-- R326: the resolution of a branch in the branch target buffer, in the cycle it is in Execute: no entry,
an unset target, the same target, another target. -/
def Obligations.BranchResolutionUpdatesItsEntry : Prop :=
  ∀ (s : State) (x : DecodedInstr),
    s.Runs → (runCycle s).holdAll = false → s.xr = some x →
    let tnpc := transferTarget x.tag x.pc (operandA s x) (operandB s x) x.imm
    let table := (executePhase s).state.btb
    ∃ m, (advanceCycle s).mr = some m ∧
      (x.tag.isBranch = false → table = s.btb ∧ m.wrongPrediction = false) ∧
      (x.tag.isBranch = true →
        ((∀ i e, s.btb.get i = some e → e.tag ≠ x.pc) → table = s.btb ∧ m.wrongPrediction = false) ∧
        ∀ i e, s.btb.get i = some e → e.tag = x.pc →
          (∀ j e', j < i → s.btb.get j = some e' → e'.tag ≠ x.pc) →
          (e.target = none →
            table = s.btb.set i (some { tag := x.pc, target := some tnpc }) ∧ m.wrongPrediction = false) ∧
          (e.target = some tnpc → table = s.btb ∧ m.wrongPrediction = false) ∧
          (∀ u, e.target = some u → u ≠ tnpc →
            table = s.btb.set i (some { tag := x.pc, target := some tnpc }) ∧ m.wrongPrediction = true))

/-! ### Decode and the load-use hazard (R263, R300 to R303, R308) -/

/-- R263, R308: Decode hands on the decoded word with its registers as this cycle's Writeback left them; a
bubble when `DR` is one, on a stall and on a redirect. -/
def Obligations.DecodeReadsAfterWriteback : Prop :=
  ∀ s : State, s.Runs → (runCycle s).holdAll = false →
    let t := advanceCycle s
    (s.dr = none → t.xr = none ∧ (runCycle s).stall = false) ∧
    ∀ f, s.dr = some f →
      let d := decodeOperands s.cfg f.iw
      ((runCycle s).stall = true ∨ (runCycle s).redirect.isSome = true → t.xr = none) ∧
      ((runCycle s).stall = false → (runCycle s).redirect = none →
        t.xr = some
          { pc := f.pc, iw := f.iw, tag := d.tag, rd := d.rd, rs1 := d.rs1, rs2 := d.rs2
            usesRs1 := d.usesRs1, usesRs2 := d.usesRs2, wr := d.wr, imm := d.imm
            v1 := t.readReg d.rs1, v2 := t.readReg d.rs2, pred := f.pred, predNpc := f.predNpc } ∧
        ∀ w, s.wr = some w → w.wr = true → w.rd ≠ 0 →
          (d.rs1 = w.rd → t.readReg d.rs1 = w.result) ∧ (d.rs2 = w.rd → t.readReg d.rs2 = w.result))

/-- R301, R303: `stall` is asserted exactly when the load in Execute writes a register, not `x0`, that the
instruction in Decode reads; it keeps `DR` and `pc`, sends a bubble to Execute and stops Fetch, the load
moves on, and no second stall follows at once. -/
def Obligations.LoadUseHazardStallsOneCycle : Prop :=
  ∀ s : State, s.Runs → (runCycle s).holdAll = false →
    let t := advanceCycle s
    ((runCycle s).stall = true ↔
      ∃ f x, s.dr = some f ∧ s.xr = some x ∧ x.tag.isLoad = true ∧ x.rd ≠ 0 ∧
        (((decodeOperands s.cfg f.iw).usesRs1 = true ∧ (decodeOperands s.cfg f.iw).rs1 = x.rd) ∨
          ((decodeOperands s.cfg f.iw).usesRs2 = true ∧ (decodeOperands s.cfg f.iw).rs2 = x.rd))) ∧
    ((runCycle s).stall = true →
      t.xr = none ∧ t.dr = s.dr ∧ t.pc = s.pc ∧ t.btb = s.btb ∧ (s.icFsm = .idle → t.icFsm = .idle) ∧
        (∀ x, s.xr = some x → t.mr.map ExecutedInstr.pc = some x.pc) ∧ (runCycle t).stall = false)

/-! ### Fetch, the predictor and the instruction cache (R264, R320 to R325, R350 to R358) -/

/-- R352, R321, R322, R323, R324: a hit delivers the word; a backward conditional branch consults the table
as Execute left it in this cycle: a known target is followed, an unresolved entry is not, a new branch gets
the first empty slot, and a full table is left alone. -/
def Obligations.FetchHitDeliversAndPredicts : Prop :=
  ∀ (s : State) (line : IcLine),
    s.FetchLooks → s.pc.toNat % 4 = 0 → IcHolds s.icLines s.pc line →
    let t := advanceCycle s
    let iw := line.words.get (Fin.ofNat 4 (s.pc.toNat / 4))
    let table := (executePhase s).state.btb
    let backward := InstrWord.bits iw 6 0 = 0b1100011 ∧ InstrWord.bits iw 14 12 ≠ 0b010 ∧
      InstrWord.bits iw 14 12 ≠ 0b011 ∧ InstrWord.bits iw 31 31 = 1
    let unpredicted := t.dr = some { pc := s.pc, iw := iw, pred := false, predNpc := wrap64 (s.pc.toNat + 4) }
      ∧ t.pc = wrap64 (s.pc.toNat + 4)
    let missesBelow := fun (n : Nat) => ∀ j : Fin 32, j.val < n → ∃ e, table.get j = some e ∧ e.tag ≠ s.pc
    t.icFsm = .idle ∧ t.icLines = s.icLines ∧
      (¬backward → unpredicted ∧ t.btb = table) ∧
      (backward →
        (∀ (i : Fin 32) (e : BtbEntry), missesBelow i.val → table.get i = some e → e.tag = s.pc →
          t.btb = table ∧
          (e.target = none → unpredicted) ∧
          ∀ target, e.target = some target →
            t.dr = some { pc := s.pc, iw := iw, pred := true, predNpc := target } ∧ t.pc = target) ∧
        (∀ i : Fin 32, missesBelow i.val → table.get i = none →
          unpredicted ∧ t.btb = table.set i (some { tag := s.pc, target := none })) ∧
        (missesBelow 32 → unpredicted ∧ t.btb = table))

/-- R353, R358: a miss asks for the 16 bytes of the line; on success they are captured and the wait begins,
on failure the controller stays idle and the failure is reported; in both cases Fetch delivers a bubble and
`pc` stays, and readiness is not polled: the only other call of the cycle is that of a store in `MR`. That a
failed issue is no `first_cache_stall` is the model's reading (log 19). -/
def Obligations.FetchMissIssuesTheFill : Prop :=
  ∀ s : State, s.FetchLooks → s.pc.toNat % 4 = 0 → (∀ line, ¬IcHolds s.icLines s.pc line) →
    let t := advanceCycle s
    let base := BitVec.ofNat 64 (s.pc.toNat / 16 * 16)
    t.dr = none ∧ t.pc = s.pc ∧ t.icLines = s.icLines ∧
      ∃ ok earlier, t.bus = (.readMemory base 16, ok) :: (earlier ++ s.bus) ∧
        (∀ c ∈ earlier, ∃ m, s.mr = some m ∧
          c = (BusCall.writeMemory m.addr (lowBytes (accessBytes m.tag) m.sdata) (accessBytes m.tag), true)) ∧
        earlier.length ≤ 1 ∧ (runCycle s).firstCacheStall = ok ∧
        (ok = true → t.icFsm = .wait base (BitVec.ofNat 128 (memNat t.mem base 16))) ∧
        (ok = false → t.icFsm = .idle ∧ ∃ older, t.events = .memFault .iFillFail base :: older)

/-- R354, R355: the instruction fill controller steps in every cycle of a running core, held or not: a poll
for each cycle of the wait, then the line with word `k` in bits `32k+31:32k` of the data; Fetch delivers a
bubble meanwhile unless a stall keeps `DR`. -/
def Obligations.InstructionFillSteps : Prop :=
  ∀ (s : State) (base : Word) (data : BitVec 128), s.Runs →
    let t := advanceCycle s
    (s.icFsm = .wait base data ∨ s.icFsm = .commit base data →
      (runCycle s).holdAll = false → (runCycle s).stall = false → t.dr = none) ∧
    (s.icFsm = .wait base data →
      t.icLines = s.icLines ∧
      ∃ ready before, t.bus = (.memoryReady base, ready) :: before ∧
        t.icFsm = if ready then .commit base data else .wait base data) ∧
    (s.icFsm = .commit base data →
      t.icFsm = .idle ∧
      (∃ line, IcHolds t.icLines base line ∧
        ∀ k : Fin 4, (line.words.get k).toNat = data.toNat / 2 ^ (32 * k.val) % 2 ^ 32) ∧
      ∀ i, i ≠ base.toNat / 16 % 512 → Assoc.lookup t.icLines i = Assoc.lookup s.icLines i)

/-- R63: at an address that is not a multiple of 4 Fetch delivers a bubble, leaves `pc`, starts no fill and
reports it; only a redirect moves `pc` away. -/
def Obligations.FetchStopsAtMisalignedAddress : Prop :=
  ∀ s : State, s.pc.toNat % 4 ≠ 0 →
    let t := advanceCycle s
    (s.FetchLooks →
      t.dr = none ∧ t.pc = s.pc ∧ t.icFsm = .idle ∧ t.icLines = s.icLines ∧
        ∃ older, t.events = .memFault .fetchMisaligned s.pc :: older) ∧
    (t.pc ≠ s.pc → (runCycle s).redirect = some t.pc)

/-- R374: a valid line stays valid; an instruction line changes only by a fill of its index, a data line only
by a fill of its index or a store that hits it. -/
def Obligations.LinesAreNeverInvalidated : Prop :=
  ∀ (s : State) (i : Nat),
    let t := advanceCycle s
    ((Assoc.lookup s.icLines i).isSome = true → (Assoc.lookup t.icLines i).isSome = true) ∧
    ((Assoc.lookup s.dcLines i).isSome = true → (Assoc.lookup t.dcLines i).isSome = true) ∧
    (Assoc.lookup t.icLines i ≠ Assoc.lookup s.icLines i →
      ∃ base data, s.icFsm = .commit base data ∧ i = base.toNat / 16 % 512) ∧
    (Assoc.lookup t.dcLines i ≠ Assoc.lookup s.dcLines i →
      (∃ base data, s.dcFsm = .commit base data ∧ i = base.toNat / 8 % 2048) ∨
      ∃ m line, s.mr = some m ∧ m.tag.isStore = true ∧ i = m.addr.toNat / 8 % 2048 ∧
        DcHolds s.dcLines m.addr line)

/-- R371 (log 19): `first_cache_stall` is true in exactly the cycle in which a controller leaves `Idle`, and
`d_cache_stall` only in a cycle that holds. -/
def Obligations.FirstCacheStallIsTheIssue : Prop :=
  ∀ s : State,
    let t := advanceCycle s
    ((runCycle s).firstCacheStall = true ↔
      (s.dcFsm = .idle ∧ t.dcFsm ≠ .idle) ∨ (s.icFsm = .idle ∧ t.icFsm ≠ .idle)) ∧
    ((runCycle s).dCacheStall = true → (runCycle s).holdAll = true)

/-- R320, R332 (a) (d): an entry of the branch target buffer is never evicted, and a known target stays
known. -/
def Obligations.BtbEntriesPersist : Prop :=
  ∀ (s : State) (i : Fin 32) (e : BtbEntry), s.btb.get i = some e →
    ∃ e', (advanceCycle s).btb.get i = some e' ∧ e'.tag = e.tag ∧
      (e.target.isSome = true → e'.target.isSome = true)

/-- R327's derived sentence for the branches Fetch predicts, the backward ones (R321; no other has an entry,
R332 (c)): `wrong_prediction` implies a redirect, from the invariant that the prediction Fetch followed is still
what the table says, which every cycle keeps. -/
def Obligations.WrongPredictionRedirects : Prop :=
  ∀ s : State, s.Inv → s.FlowOk → s.PredictOk → s.level = .cycle →
    (advanceCycle s).FlowOk ∧ (advanceCycle s).PredictOk ∧
    ∀ x m, s.Runs → (runCycle s).holdAll = false → s.xr = some x → isBackward x.iw = true →
      (advanceCycle s).mr = some m → m.wrongPrediction = true → (runCycle s).redirect.isSome = true

/-! ### The first cycles (R432) -/

/-- R432, with a memory that answers the first two calls at once: no register is written and nothing retires
before cycle 7, memory is not written before cycle 6, the instruction at `RESET_PC` is in `DR` after cycle 3,
and, when it is no load or store (nor a fault under `HALT`), retires in cycle 7 unless that cycle is held by the
instruction after it. -/
def Obligations.FirstCyclesAfterReset : Prop :=
  ∀ (cfg : Config) (regs : RegFile) (mem : Memory) (rest : List Bool), cfg.resetPc.toNat % 4 = 0 →
    let s := fun k => runCycles k (State.launch cfg regs mem (true :: true :: rest))
    let iw := mem.instrAt cfg.resetPc
    let d := decodeOperands cfg iw
    (∀ k, k ≤ 7 → (s k).regs = regs ∧ programEvents (s k) = []) ∧
      (∀ k, k ≤ 6 → (s k).mem = mem) ∧
      (∀ k, k ≤ 3 → ∀ i : Fin 32, (s k).btb.get i = none) ∧
      (∃ f, (s 4).dr = some f ∧ f.pc = cfg.resetPc ∧ f.iw = iw) ∧
      (d.tag.isLoad = false → d.tag.isStore = false → (d.tag ≠ .decodeFault ∨ cfg.decodeFaultPolicy = .nop) →
        (runCycle (s 7)).holdAll = false →
        programEvents (s 8) = retireEvents cfg.resetPc iw d.tag)

/-! ### The pipeline and the architectural machine (R268, R309, R373) -/

/-- R373's fairness and premise (ii) of R268: from every state with the machine's invariant, when 8 of the
answers to come are true, however they are spread, Execute evaluates one more instruction and uses up at most 8
of them on the way, or the pipeline gets stuck (R404); and a stuck pipeline evaluates no instruction ever
again. -/
def Obligations.ExecuteEvaluatesAnotherInstruction : Prop :=
  (∀ s : State, s.Inv → s.level = .cycle → 8 ≤ s.answers.count true →
    ∃ n, let u := runCycles n s
      (executedCount n s = 1 ∧ s.answers.count true ≤ u.answers.count true + 8) ∨
        (executedCount n s = 0 ∧ u.Stuck)) ∧
  ∀ (s : State) (k : Nat), s.Stuck → executedCount k s = 0

/-- R309, R329, R352: as long as no store goes to code in flight or in the instruction cache, every cycle
keeps the invariant of the refinement, under either policy; in particular Execute computes on the program-order
values of its source registers. -/
def Obligations.RefinementInvariantKept : Prop :=
  ∀ s : State, s.RefInv → s.NoCodeStore → (advanceCycle s).RefInv

/-- R268 for one cycle, under either policy: when Execute evaluates an instruction the architectural machine
runs that one instruction, and in every other cycle the architectural view stays; the architectural machine is
halted exactly when the pipeline has evaluated a decode fault that stops it (R403, log 12). -/
def Obligations.EveryCycleIsAtMostOneInstruction : Prop :=
  ∀ s t : State, s.RefInv → s.NoCodeStore →
    t.level = .architectural → t.halted = (stopping s).isSome → t.cfg = s.cfg → t.archView = s.committedView →
    let s' := advanceCycle s
    (executesInstr s = true →
      ∃ t', step t = .next t' ∧ t'.archView = s'.committedView ∧
        t'.level = .architectural ∧ t'.halted = (stopping s').isSome ∧ t'.cfg = s'.cfg) ∧
    (executesInstr s = false →
      t.archView = s'.committedView ∧ t.halted = (stopping s').isSome ∧ t.cfg = s'.cfg)

/-- R268, both halves, for every launch, under either policy. After any number of cycles in which no store goes
to code, the registers, memory, next address, retire events and stores that the pipeline has committed to are
those of the architectural machine after as many instructions as Execute has evaluated. And the pipeline gets
through every instruction: when the answers to come hold 8 times `k` true ones, there is a number of cycles
after which what it has committed to is what the architectural machine has after `k` steps, either by
evaluating `k` instructions or because both are stuck before. -/
def Obligations.PipelineRefinesTheArchitecture : Prop :=
  ∀ (cfg : Config) (regs : RegFile) (mem : Memory) (ans : List Bool),
    regs.get 0 = 0 → Memory.wf mem → even cfg.resetPc = true →
    let s := State.launch cfg regs mem ans
    let t := { s with level := .architectural }
    let noCodeStore := fun n => ∀ j, j < n → (runCycles j s).NoCodeStore
    (∀ n, noCodeStore n →
      (runSteps (executedCount n s) t).archView = (runCycles n s).committedView) ∧
    ∀ k, 8 * k ≤ ans.count true →
      ∃ n, (executedCount n s = k ∨ (executedCount n s < k ∧ (runCycles n s).Stuck)) ∧
        (noCodeStore n → (runSteps k t).archView = (runCycles n s).committedView)

/-- R373 (results do not depend on the oracle): two runs of one program under different answers of the
collaborator agree whenever Execute has evaluated as many instructions in both. -/
def Obligations.ResultsDoNotDependOnMemoryTiming : Prop :=
  ∀ (cfg : Config) (regs : RegFile) (mem : Memory) (ans ans' : List Bool) (n n' : Nat),
    regs.get 0 = 0 → Memory.wf mem → even cfg.resetPc = true →
    let s := State.launch cfg regs mem ans
    let s' := State.launch cfg regs mem ans'
    (∀ j, j < n → (runCycles j s).NoCodeStore) → (∀ j, j < n' → (runCycles j s').NoCodeStore) →
    executedCount n s = executedCount n' s' →
    (runCycles n s).committedView = (runCycles n' s').committedView
end

