-- ==== Sys2Proof/Laws/State.lean ====
section
/-! SUPPORT. One lemma for each field of State and each shared update: what the update leaves in the field. -/

namespace Sys2Proof.Machine

section report
variable (s : State) (e : Event)
@[simp] theorem State.report_cfg : (s.report e).cfg = s.cfg := rfl
@[simp] theorem State.report_level : (s.report e).level = s.level := rfl
@[simp] theorem State.report_regs : (s.report e).regs = s.regs := rfl
@[simp] theorem State.report_pc : (s.report e).pc = s.pc := rfl
@[simp] theorem State.report_mem : (s.report e).mem = s.mem := rfl
@[simp] theorem State.report_dr : (s.report e).dr = s.dr := rfl
@[simp] theorem State.report_xr : (s.report e).xr = s.xr := rfl
@[simp] theorem State.report_mr : (s.report e).mr = s.mr := rfl
@[simp] theorem State.report_wr : (s.report e).wr = s.wr := rfl
@[simp] theorem State.report_btb : (s.report e).btb = s.btb := rfl
@[simp] theorem State.report_icLines : (s.report e).icLines = s.icLines := rfl
@[simp] theorem State.report_icFsm : (s.report e).icFsm = s.icFsm := rfl
@[simp] theorem State.report_dcLines : (s.report e).dcLines = s.dcLines := rfl
@[simp] theorem State.report_dcFsm : (s.report e).dcFsm = s.dcFsm := rfl
@[simp] theorem State.report_halted : (s.report e).halted = s.halted := rfl
@[simp] theorem State.report_events : (s.report e).events = e :: s.events := rfl
@[simp] theorem State.report_answers : (s.report e).answers = s.answers := rfl
@[simp] theorem State.report_bus : (s.report e).bus = s.bus := rfl
end report

section retireTo
variable (s : State) (tag : Tag) (npc : Word)
@[simp] theorem State.retireTo_cfg : (s.retireTo tag npc).cfg = s.cfg := rfl
@[simp] theorem State.retireTo_level : (s.retireTo tag npc).level = s.level := rfl
@[simp] theorem State.retireTo_regs : (s.retireTo tag npc).regs = s.regs := rfl
@[simp] theorem State.retireTo_pc : (s.retireTo tag npc).pc = npc := rfl
@[simp] theorem State.retireTo_mem : (s.retireTo tag npc).mem = s.mem := rfl
@[simp] theorem State.retireTo_dr : (s.retireTo tag npc).dr = s.dr := rfl
@[simp] theorem State.retireTo_xr : (s.retireTo tag npc).xr = s.xr := rfl
@[simp] theorem State.retireTo_mr : (s.retireTo tag npc).mr = s.mr := rfl
@[simp] theorem State.retireTo_wr : (s.retireTo tag npc).wr = s.wr := rfl
@[simp] theorem State.retireTo_btb : (s.retireTo tag npc).btb = s.btb := rfl
@[simp] theorem State.retireTo_icLines : (s.retireTo tag npc).icLines = s.icLines := rfl
@[simp] theorem State.retireTo_icFsm : (s.retireTo tag npc).icFsm = s.icFsm := rfl
@[simp] theorem State.retireTo_dcLines : (s.retireTo tag npc).dcLines = s.dcLines := rfl
@[simp] theorem State.retireTo_dcFsm : (s.retireTo tag npc).dcFsm = s.dcFsm := rfl
@[simp] theorem State.retireTo_halted : (s.retireTo tag npc).halted = s.halted := rfl
@[simp] theorem State.retireTo_events : (s.retireTo tag npc).events = .retire s.pc tag :: s.events := rfl
@[simp] theorem State.retireTo_answers : (s.retireTo tag npc).answers = s.answers := rfl
@[simp] theorem State.retireTo_bus : (s.retireTo tag npc).bus = s.bus := rfl
end retireTo

section writeReg
variable (s : State) (r : Reg) (v : Word)
@[simp] theorem State.writeReg_cfg : (s.writeReg r v).cfg = s.cfg := rfl
@[simp] theorem State.writeReg_level : (s.writeReg r v).level = s.level := rfl
@[simp] theorem State.writeReg_regs : (s.writeReg r v).regs = RegFile.write s.regs r v := rfl
@[simp] theorem State.writeReg_pc : (s.writeReg r v).pc = s.pc := rfl
@[simp] theorem State.writeReg_mem : (s.writeReg r v).mem = s.mem := rfl
@[simp] theorem State.writeReg_dr : (s.writeReg r v).dr = s.dr := rfl
@[simp] theorem State.writeReg_xr : (s.writeReg r v).xr = s.xr := rfl
@[simp] theorem State.writeReg_mr : (s.writeReg r v).mr = s.mr := rfl
@[simp] theorem State.writeReg_wr : (s.writeReg r v).wr = s.wr := rfl
@[simp] theorem State.writeReg_btb : (s.writeReg r v).btb = s.btb := rfl
@[simp] theorem State.writeReg_icLines : (s.writeReg r v).icLines = s.icLines := rfl
@[simp] theorem State.writeReg_icFsm : (s.writeReg r v).icFsm = s.icFsm := rfl
@[simp] theorem State.writeReg_dcLines : (s.writeReg r v).dcLines = s.dcLines := rfl
@[simp] theorem State.writeReg_dcFsm : (s.writeReg r v).dcFsm = s.dcFsm := rfl
@[simp] theorem State.writeReg_halted : (s.writeReg r v).halted = s.halted := rfl
@[simp] theorem State.writeReg_events : (s.writeReg r v).events = s.events := rfl
@[simp] theorem State.writeReg_answers : (s.writeReg r v).answers = s.answers := rfl
@[simp] theorem State.writeReg_bus : (s.writeReg r v).bus = s.bus := rfl
end writeReg

section storeThrough
variable (s : State) (a : Word) (n : Nat) (v : Word)
@[simp] theorem State.storeThrough_cfg : (s.storeThrough a n v).cfg = s.cfg := rfl
@[simp] theorem State.storeThrough_level : (s.storeThrough a n v).level = s.level := rfl
@[simp] theorem State.storeThrough_regs : (s.storeThrough a n v).regs = s.regs := rfl
@[simp] theorem State.storeThrough_pc : (s.storeThrough a n v).pc = s.pc := rfl
@[simp] theorem State.storeThrough_mem : (s.storeThrough a n v).mem = s.mem.write a n v := rfl
@[simp] theorem State.storeThrough_dr : (s.storeThrough a n v).dr = s.dr := rfl
@[simp] theorem State.storeThrough_xr : (s.storeThrough a n v).xr = s.xr := rfl
@[simp] theorem State.storeThrough_mr : (s.storeThrough a n v).mr = s.mr := rfl
@[simp] theorem State.storeThrough_wr : (s.storeThrough a n v).wr = s.wr := rfl
@[simp] theorem State.storeThrough_btb : (s.storeThrough a n v).btb = s.btb := rfl
@[simp] theorem State.storeThrough_icLines : (s.storeThrough a n v).icLines = s.icLines := rfl
@[simp] theorem State.storeThrough_icFsm : (s.storeThrough a n v).icFsm = s.icFsm := rfl
@[simp] theorem State.storeThrough_dcFsm : (s.storeThrough a n v).dcFsm = s.dcFsm := rfl
@[simp] theorem State.storeThrough_halted : (s.storeThrough a n v).halted = s.halted := rfl
@[simp] theorem State.storeThrough_events : (s.storeThrough a n v).events = s.events := rfl
@[simp] theorem State.storeThrough_answers : (s.storeThrough a n v).answers = s.answers := rfl
@[simp] theorem State.storeThrough_bus : (s.storeThrough a n v).bus = s.bus := rfl
end storeThrough

section memWrite
variable (s : State) (a : Word) (n : Nat) (v : Word)
@[simp] theorem State.memWrite_cfg : (s.memWrite a n v).cfg = s.cfg := rfl
@[simp] theorem State.memWrite_level : (s.memWrite a n v).level = s.level := rfl
@[simp] theorem State.memWrite_regs : (s.memWrite a n v).regs = s.regs := rfl
@[simp] theorem State.memWrite_pc : (s.memWrite a n v).pc = s.pc := rfl
@[simp] theorem State.memWrite_mem : (s.memWrite a n v).mem = s.mem.write a n v := rfl
@[simp] theorem State.memWrite_dr : (s.memWrite a n v).dr = s.dr := rfl
@[simp] theorem State.memWrite_xr : (s.memWrite a n v).xr = s.xr := rfl
@[simp] theorem State.memWrite_mr : (s.memWrite a n v).mr = s.mr := rfl
@[simp] theorem State.memWrite_wr : (s.memWrite a n v).wr = s.wr := rfl
@[simp] theorem State.memWrite_btb : (s.memWrite a n v).btb = s.btb := rfl
@[simp] theorem State.memWrite_icLines : (s.memWrite a n v).icLines = s.icLines := rfl
@[simp] theorem State.memWrite_icFsm : (s.memWrite a n v).icFsm = s.icFsm := rfl
@[simp] theorem State.memWrite_dcLines : (s.memWrite a n v).dcLines = (s.storeThrough a n v).dcLines := rfl
@[simp] theorem State.memWrite_dcFsm : (s.memWrite a n v).dcFsm = s.dcFsm := rfl
@[simp] theorem State.memWrite_halted : (s.memWrite a n v).halted = s.halted := rfl
@[simp] theorem State.memWrite_events : (s.memWrite a n v).events = s.events := rfl
@[simp] theorem State.memWrite_answers : (s.memWrite a n v).answers = s.answers := rfl
@[simp] theorem State.memWrite_bus : (s.memWrite a n v).bus = (.writeMemory a (lowBytes n v) n, true) :: s.bus := rfl
end memWrite

section latch
variable (s : State) (dr : Option FetchedInstr) (xr : Option DecodedInstr) (mr : Option ExecutedInstr) (wr : Option CompletedInstr)
@[simp] theorem latch_cfg : (latch s dr xr mr wr).cfg = s.cfg := rfl
@[simp] theorem latch_level : (latch s dr xr mr wr).level = s.level := rfl
@[simp] theorem latch_regs : (latch s dr xr mr wr).regs = s.regs := rfl
@[simp] theorem latch_pc : (latch s dr xr mr wr).pc = s.pc := rfl
@[simp] theorem latch_mem : (latch s dr xr mr wr).mem = s.mem := rfl
@[simp] theorem latch_dr : (latch s dr xr mr wr).dr = dr := rfl
@[simp] theorem latch_xr : (latch s dr xr mr wr).xr = xr := rfl
@[simp] theorem latch_mr : (latch s dr xr mr wr).mr = mr := rfl
@[simp] theorem latch_wr : (latch s dr xr mr wr).wr = wr := rfl
@[simp] theorem latch_btb : (latch s dr xr mr wr).btb = s.btb := rfl
@[simp] theorem latch_icLines : (latch s dr xr mr wr).icLines = s.icLines := rfl
@[simp] theorem latch_icFsm : (latch s dr xr mr wr).icFsm = s.icFsm := rfl
@[simp] theorem latch_dcLines : (latch s dr xr mr wr).dcLines = s.dcLines := rfl
@[simp] theorem latch_dcFsm : (latch s dr xr mr wr).dcFsm = s.dcFsm := rfl
@[simp] theorem latch_halted : (latch s dr xr mr wr).halted = s.halted := rfl
@[simp] theorem latch_events : (latch s dr xr mr wr).events = s.events := rfl
@[simp] theorem latch_answers : (latch s dr xr mr wr).answers = s.answers := rfl
@[simp] theorem latch_bus : (latch s dr xr mr wr).bus = s.bus := rfl
end latch

section ask
variable (s : State) (call : BusCall)
@[simp] theorem State.ask_cfg : (s.ask call).2.cfg = s.cfg := by
  unfold State.ask; split <;> rfl
@[simp] theorem State.ask_level : (s.ask call).2.level = s.level := by
  unfold State.ask; split <;> rfl
@[simp] theorem State.ask_regs : (s.ask call).2.regs = s.regs := by
  unfold State.ask; split <;> rfl
@[simp] theorem State.ask_pc : (s.ask call).2.pc = s.pc := by
  unfold State.ask; split <;> rfl
@[simp] theorem State.ask_mem : (s.ask call).2.mem = s.mem := by
  unfold State.ask; split <;> rfl
@[simp] theorem State.ask_dr : (s.ask call).2.dr = s.dr := by
  unfold State.ask; split <;> rfl
@[simp] theorem State.ask_xr : (s.ask call).2.xr = s.xr := by
  unfold State.ask; split <;> rfl
@[simp] theorem State.ask_mr : (s.ask call).2.mr = s.mr := by
  unfold State.ask; split <;> rfl
@[simp] theorem State.ask_wr : (s.ask call).2.wr = s.wr := by
  unfold State.ask; split <;> rfl
@[simp] theorem State.ask_btb : (s.ask call).2.btb = s.btb := by
  unfold State.ask; split <;> rfl
@[simp] theorem State.ask_icLines : (s.ask call).2.icLines = s.icLines := by
  unfold State.ask; split <;> rfl
@[simp] theorem State.ask_icFsm : (s.ask call).2.icFsm = s.icFsm := by
  unfold State.ask; split <;> rfl
@[simp] theorem State.ask_dcLines : (s.ask call).2.dcLines = s.dcLines := by
  unfold State.ask; split <;> rfl
@[simp] theorem State.ask_dcFsm : (s.ask call).2.dcFsm = s.dcFsm := by
  unfold State.ask; split <;> rfl
@[simp] theorem State.ask_halted : (s.ask call).2.halted = s.halted := by
  unfold State.ask; split <;> rfl
@[simp] theorem State.ask_events : (s.ask call).2.events = s.events := by
  unfold State.ask; split <;> rfl
@[simp] theorem State.ask_bus : (s.ask call).2.bus = (call, (s.ask call).1) :: s.bus := by
  unfold State.ask; split <;> rfl
@[simp] theorem State.ask_answers : (s.ask call).2.answers = s.answers.tail := by
  unfold State.ask; split <;> simp_all
end ask

/-- The state after a call, given its answer: everything but the answers to come and the call log is as
before. -/
theorem State.ask_eq (s : State) (call : BusCall) :
    (s.ask call).2 = { s with answers := s.answers.tail, bus := (call, (s.ask call).1) :: s.bus } := by
  unfold State.ask; split <;> simp_all

/-- With an answer given in advance, that is the answer. -/
theorem State.ask_cons {s : State} {a : Bool} {rest : List Bool} (h : s.answers = a :: rest) (call : BusCall) :
    s.ask call = (a, { s with answers := rest, bus := (call, a) :: s.bus }) := by
  unfold State.ask; rw [h]

end Sys2Proof.Machine
end

