-- ==== Sys2Proof/Laws/Memory.lean ====
section
/-! SUPPORT. Sparse tables, memory and the register file: reads after writes, and the canonical form. -/

namespace Sys2Proof.Machine

/-! ### Sparse tables -/

section Assoc
variable {α : Type}

@[simp] theorem Assoc.lookup_nil (key : Nat) : Assoc.lookup ([] : List (Nat × α)) key = none := rfl

@[simp] theorem Assoc.lookup_cons (k : Nat) (v : α) (rest : List (Nat × α)) (key : Nat) :
    Assoc.lookup ((k, v) :: rest) key = if k = key then some v else Assoc.lookup rest key := rfl

theorem Assoc.lookup_insert (l : List (Nat × α)) (key : Nat) (v : α) (k : Nat) :
    Assoc.lookup (Assoc.insert l key v) k = if key = k then some v else Assoc.lookup l k := by
  induction l with
  | nil => rfl
  | cons p rest ih =>
    obtain ⟨k0, w⟩ := p
    simp only [Assoc.insert]
    split
    · simp
    · split
      · rename_i h; subst h; simp only [Assoc.lookup_cons]; split <;> rfl
      · simp only [Assoc.lookup_cons, ih]
        split
        · rename_i h1 h2 h3; subst h3; rw [if_neg h2]
        · rfl

theorem Assoc.mem_of_lookup {l : List (Nat × α)} {key : Nat} {v : α} (h : Assoc.lookup l key = some v) :
    (key, v) ∈ l := by
  induction l with
  | nil => simp at h
  | cons p rest ih =>
    obtain ⟨k, w⟩ := p
    simp only [Assoc.lookup_cons] at h
    split at h
    · rename_i hk; subst hk; simp_all
    · exact List.mem_cons_of_mem _ (ih h)

theorem Assoc.lookup_of_mem {l : List (Nat × α)} (hs : Assoc.sorted l) {key : Nat} {v : α}
    (h : (key, v) ∈ l) : Assoc.lookup l key = some v := by
  induction l with
  | nil => simp at h
  | cons p rest ih =>
    obtain ⟨k, w⟩ := p
    obtain ⟨h1, h2⟩ := List.pairwise_cons.1 hs
    rcases List.mem_cons.1 h with h | h
    · cases h; simp
    · have := h1 _ h
      simp only [Assoc.lookup_cons]
      rw [if_neg (by simp at this; omega)]
      exact ih h2 h

theorem Assoc.mem_insert {l : List (Nat × α)} {key : Nat} {v : α} {p : Nat × α}
    (h : p ∈ Assoc.insert l key v) : p = (key, v) ∨ p ∈ l := by
  induction l with
  | nil => simp [Assoc.insert] at h; simp [h]
  | cons q rest ih =>
    obtain ⟨k, w⟩ := q
    simp only [Assoc.insert] at h
    split at h
    · simpa using h
    · split at h
      · rcases List.mem_cons.1 h with h | h
        · exact .inl h
        · exact .inr (List.mem_cons_of_mem _ h)
      · rcases List.mem_cons.1 h with h | h
        · exact .inr (h ▸ List.mem_cons_self)
        · exact (ih h).imp_right (List.mem_cons_of_mem _)

/-- After an insertion into a sorted table, an entry is the new one or an old one under another key. -/
theorem Assoc.mem_insert_sorted {l : List (Nat × α)} (hs : Assoc.sorted l) {key : Nat} {v : α}
    {p : Nat × α} (h : p ∈ Assoc.insert l key v) : p = (key, v) ∨ (p ∈ l ∧ p.1 ≠ key) := by
  induction l with
  | nil => simp [Assoc.insert] at h; simp [h]
  | cons q rest ih =>
    obtain ⟨k, w⟩ := q
    obtain ⟨h1, h2⟩ := List.pairwise_cons.1 hs
    simp only [Assoc.insert] at h
    split at h
    · rename_i hk
      rcases List.mem_cons.1 h with h | h
      · exact .inl h
      · refine .inr ⟨h, ?_⟩
        rcases List.mem_cons.1 h with h | h
        · subst h; simp; omega
        · have := h1 _ h; simp at this; omega
    · split at h
      · rename_i hk
        rcases List.mem_cons.1 h with h | h
        · exact .inl h
        · have := h1 _ h
          exact .inr ⟨List.mem_cons_of_mem _ h, by simp at this; omega⟩
      · rename_i hk1 hk2
        rcases List.mem_cons.1 h with h | h
        · subst h; exact .inr ⟨List.mem_cons_self, by simp; omega⟩
        · exact (ih h2 h).imp_right fun ⟨a, b⟩ => ⟨List.mem_cons_of_mem _ a, b⟩

theorem Assoc.sorted_insert {l : List (Nat × α)} (hs : Assoc.sorted l) (key : Nat) (v : α) :
    Assoc.sorted (Assoc.insert l key v) := by
  induction l with
  | nil => simp [Assoc.insert, Assoc.sorted]
  | cons q rest ih =>
    obtain ⟨k, w⟩ := q
    obtain ⟨h1, h2⟩ := List.pairwise_cons.1 hs
    simp only [Assoc.insert]
    split
    · refine List.pairwise_cons.2 ⟨fun p hp => ?_, hs⟩
      rcases List.mem_cons.1 hp with hp | hp
      · subst hp; assumption
      · have := h1 _ hp; simp at this ⊢; omega
    · split
      · rename_i hk
        exact List.pairwise_cons.2 ⟨fun p hp => by have := h1 _ hp; simp at this ⊢; omega, h2⟩
      · refine List.pairwise_cons.2 ⟨fun p hp => ?_, ih h2⟩
        rcases Assoc.mem_insert hp with hp | hp
        · subst hp; simp; omega
        · exact h1 _ hp

theorem Assoc.mem_of_mem_erase {l : List (Nat × α)} {key : Nat} {p : Nat × α}
    (h : p ∈ Assoc.erase l key) : p ∈ l := by
  induction l with
  | nil => simp [Assoc.erase] at h
  | cons q rest ih =>
    obtain ⟨k, w⟩ := q
    simp only [Assoc.erase] at h
    split at h
    · exact List.mem_cons_of_mem _ h
    · rcases List.mem_cons.1 h with h | h
      · exact h ▸ List.mem_cons_self
      · exact List.mem_cons_of_mem _ (ih h)

theorem Assoc.sorted_erase {l : List (Nat × α)} (hs : Assoc.sorted l) (key : Nat) :
    Assoc.sorted (Assoc.erase l key) := by
  induction l with
  | nil => simp [Assoc.erase, Assoc.sorted]
  | cons q rest ih =>
    obtain ⟨k, w⟩ := q
    obtain ⟨h1, h2⟩ := List.pairwise_cons.1 hs
    simp only [Assoc.erase]
    split
    · exact h2
    · exact List.pairwise_cons.2 ⟨fun p hp => h1 _ (Assoc.mem_of_mem_erase hp), ih h2⟩

theorem Assoc.lookup_none {l : List (Nat × α)} {key : Nat} (h : ∀ p ∈ l, p.1 ≠ key) :
    Assoc.lookup l key = none := by
  induction l with
  | nil => rfl
  | cons q rest ih =>
    obtain ⟨k, w⟩ := q
    simp only [Assoc.lookup_cons]
    rw [if_neg (h (k, w) List.mem_cons_self)]
    exact ih fun p hp => h p (List.mem_cons_of_mem _ hp)

theorem Assoc.lookup_erase {l : List (Nat × α)} (hs : Assoc.sorted l) (key k : Nat) :
    Assoc.lookup (Assoc.erase l key) k = if key = k then none else Assoc.lookup l k := by
  induction l with
  | nil => simp [Assoc.erase]
  | cons q rest ih =>
    obtain ⟨k0, w⟩ := q
    obtain ⟨h1, h2⟩ := List.pairwise_cons.1 hs
    simp only [Assoc.erase]
    split
    · rename_i hk
      subst hk
      split
      · rename_i hk; subst hk
        exact Assoc.lookup_none fun p hp => by have := h1 p hp; simp at this; omega
      · rename_i hk; simp [hk]
    · rename_i hk
      simp only [Assoc.lookup_cons, ih h2]
      split
      · rename_i hk2; subst hk2; rw [if_neg (Ne.symm hk)]
      · rfl

end Assoc

/-! ### One byte of memory -/

theorem Memory.wf_sorted {m : Memory} (h : Memory.wf m) : Assoc.sorted m := h.1

theorem Memory.wf_nil : Memory.wf [] := by simp [Memory.wf]

theorem Memory.wf_setByte {m : Memory} (h : Memory.wf m) (a : Word) (b : Byte) :
    Memory.wf (m.setByte a b) := by
  unfold Memory.setByte
  split
  · exact ⟨Assoc.sorted_erase h.1 _, fun p hp => h.2 p (Assoc.mem_of_mem_erase hp)⟩
  · rename_i hb
    refine ⟨Assoc.sorted_insert h.1 _ _, fun p hp => ?_⟩
    rcases Assoc.mem_insert hp with hp | hp
    · subst hp; exact ⟨a.isLt, hb⟩
    · exact h.2 p hp

theorem Memory.byte_setByte {m : Memory} (h : Memory.wf m) (a x : Word) (b : Byte) :
    (m.setByte a b).byte x = if a = x then b else m.byte x := by
  unfold Memory.setByte Memory.byte
  split
  · rename_i hb
    rw [Assoc.lookup_erase h.1]
    simp only [← BitVec.toNat_inj]
    split <;> simp_all
  · rw [Assoc.lookup_insert]
    by_cases hx : a = x
    · simp [hx]
    · rw [if_neg hx, if_neg (fun h => hx (BitVec.toNat_inj.1 h))]

/-! ### Several bytes of memory -/

theorem Memory.wf_write {m : Memory} (h : Memory.wf m) (a : Word) (n : Nat) (v : Word) :
    Memory.wf (m.write a n v) := by
  induction n generalizing m a v with
  | zero => exact h
  | succ n ih => exact ih (Memory.wf_setByte h _ _) _ _

/-- What memory holds after a store (R66): byte `i` of the value at `a + i` for `i < n`, every other byte as
before. -/
theorem Memory.byte_write {m : Memory} (h : Memory.wf m) (a : Word) {n : Nat} (hn : n ≤ 2 ^ 64) (v x : Word) :
    (m.write a n v).byte x =
      if (x - a).toNat < n then (v >>> (8 * (x - a).toNat)).setWidth 8 else m.byte x := by
  induction n generalizing m a v with
  | zero => simp [Memory.write]
  | succ n ih =>
    rw [Memory.write, ih (Memory.wf_setByte h _ _) _ (by omega), Memory.byte_setByte h]
    by_cases hx : a = x
    · subst hx
      have h1 : (a - (a + 1)).toNat = 2 ^ 64 - 1 := by simp
      rw [if_neg (by omega)]
      simp
    · have hpos : (x - a).toNat ≠ 0 := by
        intro h0
        apply hx
        have : x - a = 0 := BitVec.eq_of_toNat_eq (by simpa using h0)
        bv_omega
      have h1 : (x - (a + 1)).toNat = (x - a).toNat - 1 := by bv_omega
      rw [h1, if_neg hx]
      by_cases hlt : (x - a).toNat < n + 1
      · rw [if_pos (by omega), if_pos hlt, ← BitVec.shiftRight_add]
        congr 2; omega
      · rw [if_neg (by omega), if_neg hlt]

/-- A read depends only on the bytes read. -/
theorem Memory.read_congr {m m' : Memory} {a : Word} {n : Nat}
    (h : ∀ i, i < n → m.byte (a + BitVec.ofNat 64 i) = m'.byte (a + BitVec.ofNat 64 i)) :
    m.read a n = m'.read a n := by
  induction n generalizing a with
  | zero => rfl
  | succ n ih =>
    simp only [Memory.read]
    have h0 := h 0 (by omega)
    simp only [BitVec.add_zero] at h0
    rw [h0, ih]
    intro i hi
    have := h (i + 1) (by omega)
    have e : a + BitVec.ofNat 64 (i + 1) = a + 1 + BitVec.ofNat 64 i := by
      rw [Nat.add_comm, BitVec.ofNat_add, BitVec.add_assoc]; rfl
    rwa [e] at this

theorem Memory.read_lt (m : Memory) (a : Word) (n : Nat) : m.read a n < 2 ^ (8 * n) := by
  induction n generalizing a with
  | zero => simp [Memory.read]
  | succ n ih =>
    have h1 := (m.byte a).isLt
    have h2 := ih (a + 1)
    simp only [Memory.read, Nat.mul_add, Nat.pow_add]
    omega

/-- Little-endian (R61): bit `j` of a read is bit `j mod 8` of byte `j / 8`. -/
theorem Memory.testBit_read (m : Memory) (a : Word) (n j : Nat) (hj : j < 8 * n) :
    (m.read a n).testBit j = (m.byte (a + BitVec.ofNat 64 (j / 8))).getLsbD (j % 8) := by
  induction n generalizing a j with
  | zero => omega
  | succ n ih =>
    have hb := (m.byte a).isLt
    have e : m.read a (n + 1) = 2 ^ 8 * m.read (a + 1) n + (m.byte a).toNat := by
      simp only [Memory.read]; omega
    rw [e, Nat.testBit_two_pow_mul_add _ hb]
    split
    · rename_i h
      simp [Nat.div_eq_of_lt h, Nat.mod_eq_of_lt h, BitVec.getLsbD]
    · rename_i h
      rw [ih _ _ (by omega)]
      have e1 : (j - 8) / 8 = j / 8 - 1 := by omega
      have e2 : (j - 8) % 8 = j % 8 := by omega
      have e3 : a + 1 + BitVec.ofNat 64 (j / 8 - 1) = a + BitVec.ofNat 64 (j / 8) := by
        have : j / 8 = 1 + (j / 8 - 1) := by omega
        conv => rhs; rw [this, BitVec.ofNat_add]
        rw [BitVec.add_assoc]; rfl
      rw [e1, e2, e3]

/-- Byte `i` of a word read from memory. -/
theorem Memory.getLsbD_readWord (m : Memory) (a : Word) {n : Nat} (j : Nat) (hj : j < 8 * n) (h64 : j < 64) :
    (m.readWord a n).getLsbD j = (m.byte (a + BitVec.ofNat 64 (j / 8))).getLsbD (j % 8) := by
  simp only [Memory.readWord, BitVec.getLsbD_ofNat, h64, decide_true, Bool.true_and]
  exact Memory.testBit_read m a n j hj

/-! ### Registers -/

@[simp] theorem RegFile.read_zero (g : RegFile) : RegFile.read g 0 = 0 := by simp [RegFile.read]

@[simp] theorem RegFile.write_zero (g : RegFile) (v : Word) : RegFile.write g 0 v = g := by
  simp [RegFile.write]

/-- A read after a write: the written value for the register written, unless it is register 0 (R21). -/
theorem RegFile.read_write (g : RegFile) (rd r : Reg) (v : Word) :
    RegFile.read (RegFile.write g rd v) r = if r = rd ∧ r ≠ 0 then v else RegFile.read g r := by
  unfold RegFile.read RegFile.write
  by_cases hr : r = 0
  · simp [hr]
  · simp only [hr, if_false, ne_eq, not_false_eq_true, and_true]
    by_cases hd : rd = 0
    · rw [if_pos hd, if_neg (by rintro rfl; exact hr hd)]
    · rw [if_neg hd]
      by_cases h : r = rd
      · subst h; simp [Vector.get_eq_getElem]
      · rw [if_neg h, Vector.get_eq_getElem, Vector.get_eq_getElem, Vector.getElem_set_ne]
        exact fun e => h (Fin.ext e.symm)

/-- A write keeps register 0 zero (R21). -/
theorem RegFile.get_zero_write {g : RegFile} (h : g.get 0 = 0) (rd : Reg) (v : Word) :
    (RegFile.write g rd v).get 0 = 0 := by
  unfold RegFile.write
  split
  · exact h
  · rename_i hd
    rw [Vector.get_eq_getElem, Vector.getElem_set_ne]
    · rw [← Vector.get_eq_getElem]; exact h
    · exact fun e => hd (Fin.ext e)

/-- Writing the same value twice is writing it once (R254: idempotent re-presentation). -/
theorem RegFile.write_write (g : RegFile) (rd : Reg) (v : Word) :
    RegFile.write (RegFile.write g rd v) rd v = RegFile.write g rd v := by
  unfold RegFile.write; split
  · rfl
  · simp [Vector.set_set]

end Sys2Proof.Machine
end

