-- ==== Sys2Proof/Laws/Caches.lean ====
section
/-! SUPPORT. Cache geometry, and the two facts data-cache transparency (R73) rests on: a store changes a line
as it changes memory, and a load sees in a line what it would read from memory. -/

namespace Sys2Proof.Machine

/-! ### Geometry -/

theorem dcLineAddr_index_tag (a : Word) : dcLineAddr (dcIndex a) (dcTag a) = dcBase a := by
  unfold dcLineAddr dcIndex dcTag dcBase
  rw [BitVec.ofNat_toNat, BitVec.setWidth_eq]
  ext i hi
  simp only [BitVec.getElem_append, BitVec.getElem_extractLsb', BitVec.getElem_zero]
  split
  · rfl
  · split
    · rfl
    · congr 1; omega

theorem icLineAddr_index_tag (a : Word) : icLineAddr (icIndex a) (icTag a) = icBase a := by
  unfold icLineAddr icIndex icTag icBase
  rw [BitVec.ofNat_toNat, BitVec.setWidth_eq]
  ext i hi
  simp only [BitVec.getElem_append, BitVec.getElem_extractLsb', BitVec.getElem_zero]
  split
  · rfl
  · split
    · rfl
    · congr 1; omega

theorem dcIndex_lt (a : Word) : dcIndex a < 2048 := (a.extractLsb' 3 11).isLt

theorem icIndex_lt (a : Word) : icIndex a < 512 := (a.extractLsb' 4 9).isLt

theorem dcOffset_lt (a : Word) : dcOffset a < 8 := (a.extractLsb' 0 3).isLt

theorem dcOffset_eq (a : Word) : dcOffset a = a.toNat % 8 := by
  simp [dcOffset, BitVec.extractLsb'_toNat]

theorem dcBase_toNat (a : Word) : (dcBase a).toNat = 8 * (a.toNat / 8) := by
  have := a.isLt
  simp only [dcBase, BitVec.toNat_append, BitVec.extractLsb'_toNat, BitVec.toNat_ofNat,
    Nat.shiftRight_eq_div_pow, Nat.shiftLeft_eq]
  simp
  omega

theorem icBase_toNat (a : Word) : (icBase a).toNat = 16 * (a.toNat / 16) := by
  have := a.isLt
  simp only [icBase, BitVec.toNat_append, BitVec.extractLsb'_toNat, BitVec.toNat_ofNat,
    Nat.shiftRight_eq_div_pow, Nat.shiftLeft_eq]
  simp
  omega

@[simp] theorem dcBase_dcBase (a : Word) : dcBase (dcBase a) = dcBase a := by
  apply BitVec.eq_of_toNat_eq; simp only [dcBase_toNat]; omega

@[simp] theorem icBase_icBase (a : Word) : icBase (icBase a) = icBase a := by
  apply BitVec.eq_of_toNat_eq; simp only [icBase_toNat]; omega

theorem dcBase_eq_of_index_tag {a b : Word} (hi : dcIndex a = dcIndex b) (ht : dcTag a = dcTag b) :
    dcBase a = dcBase b := by
  rw [← dcLineAddr_index_tag, ← dcLineAddr_index_tag, hi, ht]

theorem dcTag_dcLineAddr (i : Nat) (tag : BitVec 50) : dcTag (dcLineAddr i tag) = tag := by
  unfold dcTag dcLineAddr
  ext j hj
  simp only [BitVec.getElem_extractLsb', BitVec.getLsbD_append]
  rw [if_neg (by omega), if_neg (by omega)]
  simp [BitVec.getLsbD_eq_getElem hj, show 14 + j - 3 - 11 = j by omega]

theorem dcIndex_dcLineAddr {i : Nat} (hi : i < 2048) (tag : BitVec 50) :
    dcIndex (dcLineAddr i tag) = i := by
  unfold dcIndex dcLineAddr
  have : (tag ++ BitVec.ofNat 11 i ++ 0#3).extractLsb' 3 11 = BitVec.ofNat 11 i := by
    ext j hj
    simp only [BitVec.getElem_extractLsb', BitVec.getLsbD_append]
    rw [if_neg (by omega), if_pos (by omega)]
    simp [BitVec.getLsbD_eq_getElem, show 3 + j - 3 = j by omega, hj]
  rw [this, BitVec.toNat_ofNat, Nat.mod_eq_of_lt (by omega)]

theorem dcBase_dcLineAddr {i : Nat} (hi : i < 2048) (tag : BitVec 50) :
    dcBase (dcLineAddr i tag) = dcLineAddr i tag := by
  rw [← dcLineAddr_index_tag, dcIndex_dcLineAddr hi, dcTag_dcLineAddr]

/-- The access sizes of R64. -/
def accessSize (n : Nat) : Prop := n = 1 ∨ n = 2 ∨ n = 4 ∨ n = 8

theorem accessBytes_load {tag : Tag} (h : tag.isLoad = true) : accessSize (accessBytes tag) := by
  cases tag <;> simp_all [Tag.isLoad, accessBytes, accessSize]

theorem accessBytes_store {tag : Tag} (h : tag.isStore = true) : accessSize (accessBytes tag) := by
  cases tag <;> simp_all [Tag.isStore, accessBytes, accessSize]

/-- A naturally aligned access lies within one 8-byte line (R361). -/
theorem dcOffset_add_le {a : Word} {n : Nat} (hn : accessSize n) (ha : aligned a n = true) :
    dcOffset a + n ≤ 8 := by
  rw [dcOffset_eq]
  simp only [aligned, beq_iff_eq] at ha
  rcases hn with rfl | rfl | rfl | rfl <;> omega

/-! ### Stores (R366, R367) -/

theorem getLsbD_replaceBytes (data v : Word) (off n : Nat) {j : Nat} (hj : j < 64) :
    (replaceBytes data off n v).getLsbD j =
      if 8 * off ≤ j ∧ j < 8 * (off + n) then v.getLsbD (j - 8 * off) else data.getLsbD j := by
  simp only [replaceBytes, BitVec.getLsbD_or, BitVec.getLsbD_and, BitVec.getLsbD_not,
    BitVec.getLsbD_shiftLeft, BitVec.getLsbD_ofNat, Nat.testBit_two_pow_sub_one, hj, decide_true,
    Bool.true_and]
  by_cases h1 : j < 8 * off
  · rw [if_neg (by omega)]; simp [h1]
  · by_cases h2 : j < 8 * (off + n)
    · rw [if_pos ⟨by omega, h2⟩]
      simp [h1, show j - 8 * off < 64 by omega, show j - 8 * off < 8 * n by omega]
    · rw [if_neg (by omega)]
      simp [h1, show ¬ j - 8 * off < 8 * n by omega]

/-- A byte is among the `n` stored at an aligned address exactly when it is in that 8-byte line, at one of
the offsets written. -/
theorem sub_toNat_lt_iff {a b : Word} {n i : Nat} (hn : accessSize n) (ha : aligned a n = true)
    (hb : dcBase b = b) (hi : i < 8) :
    (b + BitVec.ofNat 64 i - a).toNat < n ↔
      dcBase a = b ∧ dcOffset a ≤ i ∧ i < dcOffset a + n := by
  have hle := dcOffset_add_le hn ha
  rw [dcOffset_eq] at hle ⊢
  have hbn := congrArg BitVec.toNat hb
  have han := dcBase_toNat a
  rw [dcBase_toNat] at hbn
  have e : dcBase a = b ↔ 8 * (a.toNat / 8) = b.toNat := by
    rw [← han]; exact ⟨fun h => h ▸ rfl, BitVec.eq_of_toNat_eq⟩
  rw [e]
  have h1 := a.isLt
  have h2 := b.isLt
  have e2 : (b + BitVec.ofNat 64 i - a).toNat = (2 ^ 64 - a.toNat + (b.toNat + i)) % 2 ^ 64 := by
    simp [BitVec.toNat_sub, BitVec.toNat_add]
  rw [e2]
  constructor
  · intro h
    rcases Nat.lt_or_ge (2 ^ 64 - a.toNat + (b.toNat + i)) (2 ^ 64) with hl | hl
    · rw [Nat.mod_eq_of_lt hl] at h; omega
    · rw [Nat.mod_eq_sub_mod hl, Nat.mod_eq_of_lt (by omega)] at h
      omega
  · rintro ⟨h3, h4, h5⟩
    rw [Nat.mod_eq_sub_mod (by omega), Nat.mod_eq_of_lt (by omega)]
    omega

/-- A store changes the 8 bytes of a line as it changes the line (R366), and leaves every other line's bytes
alone. -/
theorem Memory.readWord_write {m : Memory} (h : Memory.wf m) {a b : Word} {n : Nat} (hn : accessSize n)
    (ha : aligned a n = true) (hb : dcBase b = b) (v : Word) :
    (m.write a n v).readWord b 8 =
      if dcBase a = b then replaceBytes (m.readWord b 8) (dcOffset a) n v else m.readWord b 8 := by
  have hle := dcOffset_add_le hn ha
  apply BitVec.eq_of_getLsbD_eq
  intro j hj
  rw [Memory.getLsbD_readWord _ _ _ (by omega) hj,
    Memory.byte_write h _ (by rcases hn with rfl | rfl | rfl | rfl <;> omega)]
  simp only [sub_toNat_lt_iff hn ha hb (show j / 8 < 8 by omega)]
  by_cases he : dcBase a = b
  · simp only [he, true_and]
    rw [if_pos trivial, getLsbD_replaceBytes _ _ _ _ hj]
    by_cases hr : dcOffset a ≤ j / 8 ∧ j / 8 < dcOffset a + n
    · rw [if_pos hr, if_pos (by omega)]
      have hi := (sub_toNat_lt_iff hn ha hb (show j / 8 < 8 by omega)).2 ⟨he, hr⟩
      have hs : (b + BitVec.ofNat 64 (j / 8) - a).toNat = j / 8 - dcOffset a := by
        have h1 := a.isLt
        have h2 := b.isLt
        have hbn := congrArg BitVec.toNat he
        rw [dcBase_toNat] at hbn
        rw [dcOffset_eq] at hr ⊢
        have e2 : (b + BitVec.ofNat 64 (j / 8) - a).toNat = (2 ^ 64 - a.toNat + (b.toNat + j / 8)) % 2 ^ 64 := by
          simp [BitVec.toNat_sub, BitVec.toNat_add]
        rw [e2, Nat.mod_eq_sub_mod (by omega), Nat.mod_eq_of_lt (by omega)]
        omega
      rw [hs, BitVec.getLsbD_setWidth]
      simp only [BitVec.getLsbD_ushiftRight, show j % 8 < 8 by omega, decide_true, Bool.true_and]
      congr 1; omega
    · rw [if_neg hr, if_neg (by omega), Memory.getLsbD_readWord _ _ _ (by omega) hj]
  · simp only [he, false_and, if_false]
    rw [Memory.getLsbD_readWord _ _ _ (by omega) hj]

/-! ### Loads (R361) -/

/-- The bytes of a line from the offset of an aligned address on are the bytes of memory there. -/
theorem getLsbD_dcRaw {m : Memory} {line : DcLine} {a : Word} {n : Nat} (hn : accessSize n)
    (ha : aligned a n = true) (hl : line.data = m.readWord (dcBase a) 8) {j : Nat} (hj : j < 8 * n) :
    (dcRaw line a).getLsbD j = (m.readWord a n).getLsbD j := by
  have hle := dcOffset_add_le hn ha
  rw [dcRaw, hl, BitVec.getLsbD_ushiftRight, Memory.getLsbD_readWord _ _ _ (by omega) (by omega),
    Memory.getLsbD_readWord _ _ _ hj (by omega)]
  have e1 : (8 * dcOffset a + j) / 8 = dcOffset a + j / 8 := by omega
  have e2 : (8 * dcOffset a + j) % 8 = j % 8 := by omega
  have e3 : dcBase a + BitVec.ofNat 64 (dcOffset a + j / 8) = a + BitVec.ofNat 64 (j / 8) := by
    rw [BitVec.ofNat_add, ← BitVec.add_assoc]
    congr 1
    apply BitVec.eq_of_toNat_eq
    have := a.isLt
    rw [BitVec.toNat_add, dcBase_toNat, dcOffset_eq, BitVec.toNat_ofNat]
    omega
  rw [e1, e2, e3]

/-- The value of a load depends on the bytes it reads only. -/
theorem loadValue_congr {tag : Tag} (h : tag.isLoad = true) {r r' : Word}
    (hr : ∀ j, j < 8 * accessBytes tag → r.getLsbD j = r'.getLsbD j) : loadValue tag r = loadValue tag r' := by
  have key : ∀ w, w = 8 * accessBytes tag → r.setWidth w = r'.setWidth w := by
    rintro w rfl
    apply BitVec.eq_of_getLsbD_eq
    intro i hi
    simp only [BitVec.getLsbD_setWidth, hi, decide_true, Bool.true_and]
    exact hr i hi
  cases tag <;> simp only [Tag.isLoad, Bool.false_eq_true] at h <;> simp only [loadValue, accessBytes] at key ⊢
  all_goals first
    | rw [key 8 rfl]
    | rw [key 16 rfl]
    | rw [key 32 rfl]
    | simpa using key 64 rfl

/-- A load hit returns what the load would read from memory (R73, R361). -/
theorem loadValue_dcRaw {m : Memory} {line : DcLine} {a : Word} {tag : Tag} (ht : tag.isLoad = true)
    (ha : aligned a (accessBytes tag) = true) (hl : line.data = m.readWord (dcBase a) 8) :
    loadValue tag (dcRaw line a) = loadValue tag (m.readWord a (accessBytes tag)) :=
  loadValue_congr ht fun _ hj => getLsbD_dcRaw (accessBytes_load ht) ha hl hj

end Sys2Proof.Machine
end

