-- ==== Sys2Proof/Laws/Decode.lean ====
section
/-! SUPPORT. The fields of an encoded word: for each format, each field reads back what was put there. -/

namespace Sys2Proof

/-! ### A field of a concatenation -/

theorem extract_append_high {w v : Nat} (x : BitVec w) (y : BitVec v) {lo : Nat} (n : Nat) (h : v ≤ lo) :
    (x ++ y).extractLsb' lo n = x.extractLsb' (lo - v) n := by
  ext i hi
  simp only [BitVec.getElem_extractLsb', BitVec.getLsbD_append]
  rw [if_neg (by omega)]
  congr 1; omega

theorem extract_append_low {w v : Nat} (x : BitVec w) (y : BitVec v) {lo n : Nat} (h : lo + n ≤ v) :
    (x ++ y).extractLsb' lo n = y.extractLsb' lo n := by
  ext i hi
  simp only [BitVec.getElem_extractLsb', BitVec.getLsbD_append]
  rw [if_pos (by omega)]

theorem extract_self {w : Nat} (x : BitVec w) : x.extractLsb' 0 w = x := by
  ext i hi
  simp

theorem InstrWord.regAt_of {iw : InstrWord} {lo : Nat} {r : Reg} (h : iw.extractLsb' lo 5 = Reg.bits r) :
    InstrWord.regAt iw lo = r := by
  rw [InstrWord.regAt, h]; rfl

@[simp] theorem Reg.bits_toFin (b : BitVec 5) : Reg.bits b.toFin = b := rfl

/-! ### The immediates that the format splits -/

theorem sImmediate_parts (imm : BitVec 12) : imm.extractLsb' 5 7 ++ imm.extractLsb' 0 5 = imm := by
  ext i hi
  simp only [BitVec.getElem_append, BitVec.getElem_extractLsb']
  split
  · simp [BitVec.getLsbD_eq_getElem hi]
  · rw [show 5 + (i - 5) = i by omega, BitVec.getLsbD_eq_getElem hi]

theorem bOffset_parts {offset : BitVec 13} (h : evenOffset offset = true) :
    offset.extractLsb' 12 1 ++ offset.extractLsb' 11 1 ++ offset.extractLsb' 5 6 ++ offset.extractLsb' 1 4 ++
      0#1 = offset := by
  simp only [evenOffset, Bool.not_eq_eq_eq_not, Bool.not_true] at h
  apply BitVec.eq_of_getLsbD_eq
  intro i hi
  simp only [BitVec.getLsbD_append, BitVec.getLsbD_extractLsb', BitVec.getLsbD_zero]
  split_ifs with h1 h2 h3 h4
  · rw [show i = 0 by omega, h]
  all_goals simp only [show ∀ k n : Nat, (k < n) = (k + 1 ≤ n) from fun _ _ => rfl]
  · rw [decide_eq_true (by omega), Bool.true_and]; congr 1; omega
  · rw [decide_eq_true (by omega), Bool.true_and]; congr 1; omega
  · rw [decide_eq_true (by omega), Bool.true_and]; congr 1; omega
  · rw [decide_eq_true (by omega), Bool.true_and]; congr 1; omega

theorem jOffset_parts {offset : BitVec 21} (h : evenOffset offset = true) :
    offset.extractLsb' 20 1 ++ offset.extractLsb' 12 8 ++ offset.extractLsb' 11 1 ++
      offset.extractLsb' 1 10 ++ 0#1 = offset := by
  simp only [evenOffset, Bool.not_eq_eq_eq_not, Bool.not_true] at h
  apply BitVec.eq_of_getLsbD_eq
  intro i hi
  simp only [BitVec.getLsbD_append, BitVec.getLsbD_extractLsb', BitVec.getLsbD_zero]
  split_ifs with h1 h2 h3 h4
  · rw [show i = 0 by omega, h]
  all_goals simp only [show ∀ k n : Nat, (k < n) = (k + 1 ≤ n) from fun _ _ => rfl]
  · rw [decide_eq_true (by omega), Bool.true_and]; congr 1; omega
  · rw [decide_eq_true (by omega), Bool.true_and]; congr 1; omega
  · rw [decide_eq_true (by omega), Bool.true_and]; congr 1; omega
  · rw [decide_eq_true (by omega), Bool.true_and]; congr 1; omega

/-! ### The R format -/

section R
variable (funct7 : BitVec 7) (rs2 rs1 : Reg) (funct3 : BitVec 3) (rd : Reg) (opcode : BitVec 7)

@[simp] theorem encodeR_opcode : InstrWord.opcode (encodeR funct7 rs2 rs1 funct3 rd opcode) = opcode := by
  simp (disch := omega) only [InstrWord.opcode, encodeR, extract_append_low, extract_self]

@[simp] theorem encodeR_funct3 : InstrWord.funct3 (encodeR funct7 rs2 rs1 funct3 rd opcode) = funct3 := by
  simp (disch := omega) only [InstrWord.funct3, encodeR, extract_append_high, extract_append_low, Nat.reduceSub, extract_self]

@[simp] theorem encodeR_funct7 : InstrWord.funct7 (encodeR funct7 rs2 rs1 funct3 rd opcode) = funct7 := by
  simp (disch := omega) only [InstrWord.funct7, encodeR, extract_append_high, Nat.reduceSub, extract_self]

@[simp] theorem encodeR_rd : InstrWord.rd (encodeR funct7 rs2 rs1 funct3 rd opcode) = rd := by
  apply InstrWord.regAt_of
  simp (disch := omega) only [encodeR, extract_append_high, extract_append_low, Nat.reduceSub, extract_self]

@[simp] theorem encodeR_rs1 : InstrWord.rs1 (encodeR funct7 rs2 rs1 funct3 rd opcode) = rs1 := by
  apply InstrWord.regAt_of
  simp (disch := omega) only [encodeR, extract_append_high, extract_append_low, Nat.reduceSub, extract_self]

@[simp] theorem encodeR_rs2 : InstrWord.rs2 (encodeR funct7 rs2 rs1 funct3 rd opcode) = rs2 := by
  apply InstrWord.regAt_of
  simp (disch := omega) only [encodeR, extract_append_high, extract_append_low, Nat.reduceSub, extract_self]

end R

/-! ### The I format -/

section I
variable (imm : BitVec 12) (rs1 : BitVec 5) (funct3 : BitVec 3) (rd : Reg) (opcode : BitVec 7)

@[simp] theorem encodeI_opcode : InstrWord.opcode (encodeI imm rs1 funct3 rd opcode) = opcode := by
  simp (disch := omega) only [InstrWord.opcode, encodeI, extract_append_low, extract_self]

@[simp] theorem encodeI_funct3 : InstrWord.funct3 (encodeI imm rs1 funct3 rd opcode) = funct3 := by
  simp (disch := omega) only [InstrWord.funct3, encodeI, extract_append_high, extract_append_low, Nat.reduceSub, extract_self]

@[simp] theorem encodeI_rd : InstrWord.rd (encodeI imm rs1 funct3 rd opcode) = rd := by
  apply InstrWord.regAt_of
  simp (disch := omega) only [encodeI, extract_append_high, extract_append_low, Nat.reduceSub, extract_self]

@[simp] theorem encodeI_iField : InstrWord.iField (encodeI imm rs1 funct3 rd opcode) = imm := by
  simp (disch := omega) only [InstrWord.iField, encodeI, extract_append_high, Nat.reduceSub, extract_self]

@[simp] theorem encodeI_uimm : InstrWord.uimm (encodeI imm rs1 funct3 rd opcode) = rs1 := by
  simp (disch := omega) only [InstrWord.uimm, encodeI, extract_append_high, extract_append_low, Nat.reduceSub, extract_self]

@[simp] theorem encodeI_rs1 (r : Reg) : InstrWord.rs1 (encodeI imm (Reg.bits r) funct3 rd opcode) = r := by
  apply InstrWord.regAt_of
  simp (disch := omega) only [encodeI, extract_append_high, extract_append_low, Nat.reduceSub,
    extract_self]

/-- Any part of the immediate field, for the shifts (R94, R104, R106). -/
theorem encodeI_extract_imm {lo n : Nat} (h : 20 ≤ lo) :
    (encodeI imm rs1 funct3 rd opcode).extractLsb' lo n = imm.extractLsb' (lo - 20) n := by
  simp (disch := omega) only [encodeI, extract_append_high]
  congr 1

end I

/-! ### The S format -/

section S
variable (imm : BitVec 12) (rs2 rs1 : Reg) (funct3 : BitVec 3) (opcode : BitVec 7)

@[simp] theorem encodeS_opcode : InstrWord.opcode (encodeS imm rs2 rs1 funct3 opcode) = opcode := by
  simp (disch := omega) only [InstrWord.opcode, encodeS, extract_append_low, extract_self]

@[simp] theorem encodeS_funct3 : InstrWord.funct3 (encodeS imm rs2 rs1 funct3 opcode) = funct3 := by
  simp (disch := omega) only [InstrWord.funct3, encodeS, extract_append_high, extract_append_low, Nat.reduceSub, extract_self]

@[simp] theorem encodeS_rs1 : InstrWord.rs1 (encodeS imm rs2 rs1 funct3 opcode) = rs1 := by
  apply InstrWord.regAt_of
  simp (disch := omega) only [encodeS, extract_append_high, extract_append_low, Nat.reduceSub, extract_self]

@[simp] theorem encodeS_rs2 : InstrWord.rs2 (encodeS imm rs2 rs1 funct3 opcode) = rs2 := by
  apply InstrWord.regAt_of
  simp (disch := omega) only [encodeS, extract_append_high, extract_append_low, Nat.reduceSub, extract_self]

@[simp] theorem encodeS_sField : InstrWord.sField (encodeS imm rs2 rs1 funct3 opcode) = imm := by
  simp (disch := omega) only [InstrWord.sField, encodeS, extract_append_high, extract_append_low, Nat.reduceSub, extract_self]
  exact sImmediate_parts imm

end S

/-! ### The B format -/

section B
variable (offset : BitVec 13) (rs2 rs1 : Reg) (funct3 : BitVec 3) (opcode : BitVec 7)

@[simp] theorem encodeB_opcode : InstrWord.opcode (encodeB offset rs2 rs1 funct3 opcode) = opcode := by
  simp (disch := omega) only [InstrWord.opcode, encodeB, extract_append_low, extract_self]

@[simp] theorem encodeB_funct3 : InstrWord.funct3 (encodeB offset rs2 rs1 funct3 opcode) = funct3 := by
  simp (disch := omega) only [InstrWord.funct3, encodeB, extract_append_high, extract_append_low, Nat.reduceSub, extract_self]

@[simp] theorem encodeB_rs1 : InstrWord.rs1 (encodeB offset rs2 rs1 funct3 opcode) = rs1 := by
  apply InstrWord.regAt_of
  simp (disch := omega) only [encodeB, extract_append_high, extract_append_low, Nat.reduceSub, extract_self]

@[simp] theorem encodeB_rs2 : InstrWord.rs2 (encodeB offset rs2 rs1 funct3 opcode) = rs2 := by
  apply InstrWord.regAt_of
  simp (disch := omega) only [encodeB, extract_append_high, extract_append_low, Nat.reduceSub, extract_self]

@[simp] theorem encodeB_bField (h : evenOffset offset = true) :
    InstrWord.bField (encodeB offset rs2 rs1 funct3 opcode) = offset := by
  simp (disch := omega) only [InstrWord.bField, encodeB, extract_append_high, extract_append_low, Nat.reduceSub, extract_self]
  exact bOffset_parts h

end B

/-! ### The U format -/

section U
variable (imm20 : BitVec 20) (rd : Reg) (opcode : BitVec 7)

@[simp] theorem encodeU_opcode : InstrWord.opcode (encodeU imm20 rd opcode) = opcode := by
  simp (disch := omega) only [InstrWord.opcode, encodeU, extract_append_low, extract_self]

@[simp] theorem encodeU_rd : InstrWord.rd (encodeU imm20 rd opcode) = rd := by
  apply InstrWord.regAt_of
  simp (disch := omega) only [encodeU, extract_append_high, extract_append_low, Nat.reduceSub, extract_self]

@[simp] theorem encodeU_uField : InstrWord.uField (encodeU imm20 rd opcode) = imm20 := by
  simp (disch := omega) only [InstrWord.uField, encodeU, extract_append_high, Nat.reduceSub, extract_self]

end U

/-! ### The J format -/

section J
variable (offset : BitVec 21) (rd : Reg) (opcode : BitVec 7)

@[simp] theorem encodeJ_opcode : InstrWord.opcode (encodeJ offset rd opcode) = opcode := by
  simp (disch := omega) only [InstrWord.opcode, encodeJ, extract_append_low, extract_self]

@[simp] theorem encodeJ_rd : InstrWord.rd (encodeJ offset rd opcode) = rd := by
  apply InstrWord.regAt_of
  simp (disch := omega) only [encodeJ, extract_append_high, extract_append_low, Nat.reduceSub, extract_self]

@[simp] theorem encodeJ_jField (h : evenOffset offset = true) :
    InstrWord.jField (encodeJ offset rd opcode) = offset := by
  simp (disch := omega) only [InstrWord.jField, encodeJ, extract_append_high, extract_append_low, Nat.reduceSub, extract_self]
  exact jOffset_parts h

end J
/-! ### The shifts (R94, R104, R106) -/

section Shift
variable (rs1 : BitVec 5) (funct3 : BitVec 3) (rd : Reg) (opcode : BitVec 7)

@[simp] theorem encodeI_funct6 (f s : BitVec 6) :
    InstrWord.funct6 (encodeI (f ++ s) rs1 funct3 rd opcode) = f := by
  rw [InstrWord.funct6, encodeI_extract_imm _ _ _ _ _ (by omega)]
  simp (disch := omega) only [Nat.reduceSub, extract_append_high, extract_self]

@[simp] theorem encodeI_shamt6 (f s : BitVec 6) :
    InstrWord.shamt6 (encodeI (f ++ s) rs1 funct3 rd opcode) = s := by
  rw [InstrWord.shamt6, encodeI_extract_imm _ _ _ _ _ (by omega)]
  simp (disch := omega) only [Nat.reduceSub, extract_append_low, extract_self]

@[simp] theorem encodeI_funct7 (f : BitVec 7) (s : BitVec 5) :
    InstrWord.funct7 (encodeI (f ++ s) rs1 funct3 rd opcode) = f := by
  rw [InstrWord.funct7, encodeI_extract_imm _ _ _ _ _ (by omega)]
  simp (disch := omega) only [Nat.reduceSub, extract_append_high, extract_self]

@[simp] theorem encodeI_shamt5 (f : BitVec 7) (s : BitVec 5) :
    InstrWord.shamt5 (encodeI (f ++ s) rs1 funct3 rd opcode) = s := by
  rw [InstrWord.shamt5, encodeI_extract_imm _ _ _ _ _ (by omega)]
  simp (disch := omega) only [Nat.reduceSub, extract_append_low, extract_self]

end Shift

/-! ### What the decoder gives is well formed -/

theorem evenOffset_append_zero {n : Nat} (x : BitVec n) : evenOffset (x ++ 0#1) = true := by
  simp [evenOffset, BitVec.getElem_append]

theorem evenOffset_bField (iw : InstrWord) : evenOffset (InstrWord.bField iw) = true :=
  evenOffset_append_zero _

theorem evenOffset_jField (iw : InstrWord) : evenOffset (InstrWord.jField iw) = true :=
  evenOffset_append_zero _

end Sys2Proof
end

