-- ==== Sys2Proof/Laws/Exec.lean ====
section
/-! SUPPORT. What each shared operation of the meanings can do, said once: the next state of an instruction that
writes a register, branches, jumps, loads, stores or does nothing, and the report of a misaligned access. -/

namespace Sys2Proof.Machine

/-- A register read after a register write (R21, R43, R44). -/
theorem State.readReg_of_regs {s t : State} {rd : Reg} {v : Word} (h : t.regs = RegFile.write s.regs rd v)
    (r : Reg) : t.readReg r = if r = rd ∧ r ≠ 0 then v else s.readReg r := by
  unfold State.readReg
  rw [h, RegFile.read_write]

theorem State.wrote_of_write (s : State) (tag : Tag) (rd : Reg) (v npc : Word) :
    s.Wrote ((s.writeReg rd v).retireTo tag npc) tag rd v npc :=
  ⟨State.readReg_of_regs rfl, rfl, rfl, ⟨fun _ => rfl, rfl, rfl, rfl⟩,
    ⟨rfl, rfl, rfl, rfl, rfl, rfl, rfl, rfl, rfl, rfl, rfl, rfl⟩⟩

theorem State.wrote_of_retire (s : State) (tag : Tag) (npc : Word) : s.Wrote (s.retireTo tag npc) tag 0 0 npc :=
  ⟨State.readReg_of_regs (RegFile.write_zero s.regs 0).symm, rfl, rfl, ⟨fun _ => rfl, rfl, rfl, rfl⟩,
    ⟨rfl, rfl, rfl, rfl, rfl, rfl, rfl, rfl, rfl, rfl, rfl, rfl⟩⟩

/-- An instruction with a result (R150, R170, R190, R200). -/
theorem State.complete_wrote (s : State) (tag : Tag) (rd : Reg) (v : Word) :
    ∃ t, s.complete tag rd v = .next t ∧ s.Wrote t tag rd v (s.pc + 4) :=
  ⟨_, rfl, s.wrote_of_write tag rd v _⟩

/-- A conditional branch (R210). -/
theorem State.branch_wrote (s : State) (tag : Tag) (taken : Bool) (offset : BitVec 13) :
    ∃ t, s.branch tag taken offset = .next t ∧
      s.Wrote t tag 0 0 (if taken then relTarget s.pc (sextImm offset) else nextWord s.pc) :=
  ⟨_, rfl, s.wrote_of_retire tag _⟩

/-- A jump (R217, R218). -/
theorem State.jump_wrote (s : State) (tag : Tag) (rd : Reg) (target : Word) :
    ∃ t, s.jump tag rd target = .next t ∧ s.Wrote t tag rd (nextWord s.pc) target :=
  ⟨_, rfl, s.wrote_of_write tag rd _ _⟩

/-- An instruction with no effect (R230). -/
theorem State.noOp_wrote (s : State) (tag : Tag) :
    ∃ t, s.noOp tag = .next t ∧ s.Wrote t tag 0 0 (s.pc + 4) :=
  ⟨_, rfl, s.wrote_of_retire tag _⟩

/-- An aligned load (R130). -/
theorem State.load_wrote {s : State} {tag : Tag} {rs1 : Reg} {imm : BitVec 12}
    (ha : aligned (s.effAddr rs1 imm) (accessBytes tag) = true) (rd : Reg) :
    ∃ t, s.load tag rd rs1 imm = .next t ∧
      s.Wrote t tag rd (loadValue tag (s.mem.readWord (s.effAddr rs1 imm) (accessBytes tag))) (s.pc + 4) := by
  simp only [State.load, ha, if_true]
  exact s.complete_wrote tag rd _

/-- A misaligned load (R62, log 11). -/
theorem State.load_misaligned {s : State} {tag : Tag} {rs1 : Reg} {imm : BitVec 12}
    (ha : aligned (s.effAddr rs1 imm) (accessBytes tag) = false) (rd : Reg) :
    s.load tag rd rs1 imm = .next (s.report (.memFault .dataMisaligned (s.effAddr rs1 imm))) := by
  simp [State.load, ha]

/-- An aligned store (R138). -/
theorem State.store_next {s : State} {tag : Tag} {rs1 : Reg} {imm : BitVec 12}
    (ha : aligned (s.effAddr rs1 imm) (accessBytes tag) = true) (rs2 : Reg) :
    s.store tag rs2 rs1 imm =
      .next ((s.memWrite (s.effAddr rs1 imm) (accessBytes tag) (s.readReg rs2)).retireTo tag (s.pc + 4)) := by
  simp [State.store, ha]

/-- A misaligned store (R62, log 11). -/
theorem State.store_misaligned {s : State} {tag : Tag} {rs1 : Reg} {imm : BitVec 12}
    (ha : aligned (s.effAddr rs1 imm) (accessBytes tag) = false) (rs2 : Reg) :
    s.store tag rs2 rs1 imm = .next (s.report (.memFault .dataMisaligned (s.effAddr rs1 imm))) := by
  simp [State.store, ha]

/-- `MemRead` as the sum that R61 writes out is the recursive read. -/
theorem memNat_eq_read (m : Memory) (a : Word) (n : Nat) : memNat m a n = m.read a n := by
  induction n generalizing a with
  | zero => rfl
  | succ n ih =>
    rw [memNat, Finset.sum_range_succ', Memory.read, ← ih (a + 1), memNat, Finset.mul_sum, Nat.add_comm]
    congr 1
    · simp
    · refine Finset.sum_congr rfl fun i _ => ?_
      rw [show a + BitVec.ofNat 64 (i + 1) = a + 1 + BitVec.ofNat 64 i by
        apply BitVec.eq_of_toNat_eq; simp [BitVec.toNat_add, BitVec.toNat_ofNat]; omega]
      ring

end Sys2Proof.Machine
end

