-- ==== Sys2Proof/Laws/PerInstr.lean ====
section
/-! SUPPORT. Facts for all instructions, one lemma for each constructor of Instr. -/

namespace Sys2Proof.Laws

/-- The major opcode of each tag's row (30_encoding.md R101 to R111). -/
def majorOpcode : Tag → BitVec 7
  | .lb | .lh | .lw | .ld | .lbu | .lhu | .lwu => 0b0000011
  | .fence | .fenceI => 0b0001111
  | .addi | .slti | .sltiu | .xori | .ori | .andi | .slli | .srli | .srai => 0b0010011
  | .auipc => 0b0010111
  | .addiw | .slliw | .srliw | .sraiw => 0b0011011
  | .sb | .sh | .sw | .sd => 0b0100011
  | .add | .sub | .sll | .slt | .sltu | .xor | .srl | .sra | .or | .and | .mul | .div | .rem => 0b0110011
  | .lui => 0b0110111
  | .addw | .subw | .sllw | .srlw | .sraw => 0b0111011
  | .beq | .bne | .blt | .bge | .bltu | .bgeu => 0b1100011
  | .jalr => 0b1100111
  | .jal => 0b1101111
  | .ecall | .ebreak | .csrrw | .csrrs | .csrrc | .csrrwi | .csrrsi | .csrrci => 0b1110011
  | .decodeFault => 0

/-- The word of the instruction has its major opcode in bits 6:0 (R91, R101). -/
def MajorOpcode.Statement (i : Instr) : Prop :=
  InstrWord.opcode (encode i) = majorOpcode i.tag

theorem MajorOpcode.lb (rd rs1 : Reg) (imm : BitVec 12) : MajorOpcode.Statement (.lb rd rs1 imm) :=
  encodeI_opcode ..
theorem MajorOpcode.lh (rd rs1 : Reg) (imm : BitVec 12) : MajorOpcode.Statement (.lh rd rs1 imm) :=
  encodeI_opcode ..
theorem MajorOpcode.lw (rd rs1 : Reg) (imm : BitVec 12) : MajorOpcode.Statement (.lw rd rs1 imm) :=
  encodeI_opcode ..
theorem MajorOpcode.ld (rd rs1 : Reg) (imm : BitVec 12) : MajorOpcode.Statement (.ld rd rs1 imm) :=
  encodeI_opcode ..
theorem MajorOpcode.lbu (rd rs1 : Reg) (imm : BitVec 12) : MajorOpcode.Statement (.lbu rd rs1 imm) :=
  encodeI_opcode ..
theorem MajorOpcode.lhu (rd rs1 : Reg) (imm : BitVec 12) : MajorOpcode.Statement (.lhu rd rs1 imm) :=
  encodeI_opcode ..
theorem MajorOpcode.lwu (rd rs1 : Reg) (imm : BitVec 12) : MajorOpcode.Statement (.lwu rd rs1 imm) :=
  encodeI_opcode ..
theorem MajorOpcode.sb (rs2 rs1 : Reg) (imm : BitVec 12) : MajorOpcode.Statement (.sb rs2 rs1 imm) :=
  encodeS_opcode ..
theorem MajorOpcode.sh (rs2 rs1 : Reg) (imm : BitVec 12) : MajorOpcode.Statement (.sh rs2 rs1 imm) :=
  encodeS_opcode ..
theorem MajorOpcode.sw (rs2 rs1 : Reg) (imm : BitVec 12) : MajorOpcode.Statement (.sw rs2 rs1 imm) :=
  encodeS_opcode ..
theorem MajorOpcode.sd (rs2 rs1 : Reg) (imm : BitVec 12) : MajorOpcode.Statement (.sd rs2 rs1 imm) :=
  encodeS_opcode ..
theorem MajorOpcode.addi (rd rs1 : Reg) (imm : BitVec 12) : MajorOpcode.Statement (.addi rd rs1 imm) :=
  encodeI_opcode ..
theorem MajorOpcode.slti (rd rs1 : Reg) (imm : BitVec 12) : MajorOpcode.Statement (.slti rd rs1 imm) :=
  encodeI_opcode ..
theorem MajorOpcode.sltiu (rd rs1 : Reg) (imm : BitVec 12) : MajorOpcode.Statement (.sltiu rd rs1 imm) :=
  encodeI_opcode ..
theorem MajorOpcode.xori (rd rs1 : Reg) (imm : BitVec 12) : MajorOpcode.Statement (.xori rd rs1 imm) :=
  encodeI_opcode ..
theorem MajorOpcode.ori (rd rs1 : Reg) (imm : BitVec 12) : MajorOpcode.Statement (.ori rd rs1 imm) :=
  encodeI_opcode ..
theorem MajorOpcode.andi (rd rs1 : Reg) (imm : BitVec 12) : MajorOpcode.Statement (.andi rd rs1 imm) :=
  encodeI_opcode ..
theorem MajorOpcode.slli (rd rs1 : Reg) (shamt : BitVec 6) : MajorOpcode.Statement (.slli rd rs1 shamt) :=
  encodeI_opcode ..
theorem MajorOpcode.srli (rd rs1 : Reg) (shamt : BitVec 6) : MajorOpcode.Statement (.srli rd rs1 shamt) :=
  encodeI_opcode ..
theorem MajorOpcode.srai (rd rs1 : Reg) (shamt : BitVec 6) : MajorOpcode.Statement (.srai rd rs1 shamt) :=
  encodeI_opcode ..
theorem MajorOpcode.addiw (rd rs1 : Reg) (imm : BitVec 12) : MajorOpcode.Statement (.addiw rd rs1 imm) :=
  encodeI_opcode ..
theorem MajorOpcode.slliw (rd rs1 : Reg) (shamt : BitVec 5) : MajorOpcode.Statement (.slliw rd rs1 shamt) :=
  encodeI_opcode ..
theorem MajorOpcode.srliw (rd rs1 : Reg) (shamt : BitVec 5) : MajorOpcode.Statement (.srliw rd rs1 shamt) :=
  encodeI_opcode ..
theorem MajorOpcode.sraiw (rd rs1 : Reg) (shamt : BitVec 5) : MajorOpcode.Statement (.sraiw rd rs1 shamt) :=
  encodeI_opcode ..
theorem MajorOpcode.add (rd rs1 rs2 : Reg) : MajorOpcode.Statement (.add rd rs1 rs2) :=
  encodeR_opcode ..
theorem MajorOpcode.sub (rd rs1 rs2 : Reg) : MajorOpcode.Statement (.sub rd rs1 rs2) :=
  encodeR_opcode ..
theorem MajorOpcode.sll (rd rs1 rs2 : Reg) : MajorOpcode.Statement (.sll rd rs1 rs2) :=
  encodeR_opcode ..
theorem MajorOpcode.slt (rd rs1 rs2 : Reg) : MajorOpcode.Statement (.slt rd rs1 rs2) :=
  encodeR_opcode ..
theorem MajorOpcode.sltu (rd rs1 rs2 : Reg) : MajorOpcode.Statement (.sltu rd rs1 rs2) :=
  encodeR_opcode ..
theorem MajorOpcode.xor (rd rs1 rs2 : Reg) : MajorOpcode.Statement (.xor rd rs1 rs2) :=
  encodeR_opcode ..
theorem MajorOpcode.srl (rd rs1 rs2 : Reg) : MajorOpcode.Statement (.srl rd rs1 rs2) :=
  encodeR_opcode ..
theorem MajorOpcode.sra (rd rs1 rs2 : Reg) : MajorOpcode.Statement (.sra rd rs1 rs2) :=
  encodeR_opcode ..
theorem MajorOpcode.or (rd rs1 rs2 : Reg) : MajorOpcode.Statement (.or rd rs1 rs2) :=
  encodeR_opcode ..
theorem MajorOpcode.and (rd rs1 rs2 : Reg) : MajorOpcode.Statement (.and rd rs1 rs2) :=
  encodeR_opcode ..
theorem MajorOpcode.addw (rd rs1 rs2 : Reg) : MajorOpcode.Statement (.addw rd rs1 rs2) :=
  encodeR_opcode ..
theorem MajorOpcode.subw (rd rs1 rs2 : Reg) : MajorOpcode.Statement (.subw rd rs1 rs2) :=
  encodeR_opcode ..
theorem MajorOpcode.sllw (rd rs1 rs2 : Reg) : MajorOpcode.Statement (.sllw rd rs1 rs2) :=
  encodeR_opcode ..
theorem MajorOpcode.srlw (rd rs1 rs2 : Reg) : MajorOpcode.Statement (.srlw rd rs1 rs2) :=
  encodeR_opcode ..
theorem MajorOpcode.sraw (rd rs1 rs2 : Reg) : MajorOpcode.Statement (.sraw rd rs1 rs2) :=
  encodeR_opcode ..
theorem MajorOpcode.mul (rd rs1 rs2 : Reg) : MajorOpcode.Statement (.mul rd rs1 rs2) :=
  encodeR_opcode ..
theorem MajorOpcode.div (rd rs1 rs2 : Reg) : MajorOpcode.Statement (.div rd rs1 rs2) :=
  encodeR_opcode ..
theorem MajorOpcode.rem (rd rs1 rs2 : Reg) : MajorOpcode.Statement (.rem rd rs1 rs2) :=
  encodeR_opcode ..
theorem MajorOpcode.lui (rd : Reg) (imm20 : BitVec 20) : MajorOpcode.Statement (.lui rd imm20) :=
  encodeU_opcode ..
theorem MajorOpcode.auipc (rd : Reg) (imm20 : BitVec 20) : MajorOpcode.Statement (.auipc rd imm20) :=
  encodeU_opcode ..
theorem MajorOpcode.beq (rs1 rs2 : Reg) (offset : BitVec 13) : MajorOpcode.Statement (.beq rs1 rs2 offset) :=
  encodeB_opcode ..
theorem MajorOpcode.bne (rs1 rs2 : Reg) (offset : BitVec 13) : MajorOpcode.Statement (.bne rs1 rs2 offset) :=
  encodeB_opcode ..
theorem MajorOpcode.blt (rs1 rs2 : Reg) (offset : BitVec 13) : MajorOpcode.Statement (.blt rs1 rs2 offset) :=
  encodeB_opcode ..
theorem MajorOpcode.bge (rs1 rs2 : Reg) (offset : BitVec 13) : MajorOpcode.Statement (.bge rs1 rs2 offset) :=
  encodeB_opcode ..
theorem MajorOpcode.bltu (rs1 rs2 : Reg) (offset : BitVec 13) : MajorOpcode.Statement (.bltu rs1 rs2 offset) :=
  encodeB_opcode ..
theorem MajorOpcode.bgeu (rs1 rs2 : Reg) (offset : BitVec 13) : MajorOpcode.Statement (.bgeu rs1 rs2 offset) :=
  encodeB_opcode ..
theorem MajorOpcode.jal (rd : Reg) (offset : BitVec 21) : MajorOpcode.Statement (.jal rd offset) :=
  encodeJ_opcode ..
theorem MajorOpcode.jalr (rd rs1 : Reg) (imm : BitVec 12) : MajorOpcode.Statement (.jalr rd rs1 imm) :=
  encodeI_opcode ..
theorem MajorOpcode.fence (imm : BitVec 12) (rs1 rd : Reg) : MajorOpcode.Statement (.fence imm rs1 rd) :=
  encodeI_opcode ..
theorem MajorOpcode.fenceI (imm : BitVec 12) (rs1 rd : Reg) : MajorOpcode.Statement (.fenceI imm rs1 rd) :=
  encodeI_opcode ..
theorem MajorOpcode.ecall : MajorOpcode.Statement .ecall :=
  rfl
theorem MajorOpcode.ebreak : MajorOpcode.Statement .ebreak :=
  rfl
theorem MajorOpcode.csrrw (rd : Reg) (csr : BitVec 12) (rs1 : Reg) : MajorOpcode.Statement (.csrrw rd csr rs1) :=
  encodeI_opcode ..
theorem MajorOpcode.csrrs (rd : Reg) (csr : BitVec 12) (rs1 : Reg) : MajorOpcode.Statement (.csrrs rd csr rs1) :=
  encodeI_opcode ..
theorem MajorOpcode.csrrc (rd : Reg) (csr : BitVec 12) (rs1 : Reg) : MajorOpcode.Statement (.csrrc rd csr rs1) :=
  encodeI_opcode ..
theorem MajorOpcode.csrrwi (rd : Reg) (csr : BitVec 12) (uimm : BitVec 5) : MajorOpcode.Statement (.csrrwi rd csr uimm) :=
  encodeI_opcode ..
theorem MajorOpcode.csrrsi (rd : Reg) (csr : BitVec 12) (uimm : BitVec 5) : MajorOpcode.Statement (.csrrsi rd csr uimm) :=
  encodeI_opcode ..
theorem MajorOpcode.csrrci (rd : Reg) (csr : BitVec 12) (uimm : BitVec 5) : MajorOpcode.Statement (.csrrci rd csr uimm) :=
  encodeI_opcode ..

end Sys2Proof.Laws
end

