-- ==== Sys2Proof/Laws/Pipeline.lean ====
section
/-! SUPPORT. What a cycle and each of its parts can do, said once: which fields each part leaves, the cases of
the cycle, of the Memory stage and of Fetch, and the signals of each case. -/

namespace Sys2Proof.Machine


/-! ### `writeback` leaves every field but: regs -/

@[simp] theorem writeback_cfg (s : State) : (writeback s).cfg = s.cfg := by
  unfold writeback; split <;> [split <;> rfl; rfl]
@[simp] theorem writeback_level (s : State) : (writeback s).level = s.level := by
  unfold writeback; split <;> [split <;> rfl; rfl]
@[simp] theorem writeback_pc (s : State) : (writeback s).pc = s.pc := by
  unfold writeback; split <;> [split <;> rfl; rfl]
@[simp] theorem writeback_mem (s : State) : (writeback s).mem = s.mem := by
  unfold writeback; split <;> [split <;> rfl; rfl]
@[simp] theorem writeback_dr (s : State) : (writeback s).dr = s.dr := by
  unfold writeback; split <;> [split <;> rfl; rfl]
@[simp] theorem writeback_xr (s : State) : (writeback s).xr = s.xr := by
  unfold writeback; split <;> [split <;> rfl; rfl]
@[simp] theorem writeback_mr (s : State) : (writeback s).mr = s.mr := by
  unfold writeback; split <;> [split <;> rfl; rfl]
@[simp] theorem writeback_wr (s : State) : (writeback s).wr = s.wr := by
  unfold writeback; split <;> [split <;> rfl; rfl]
@[simp] theorem writeback_btb (s : State) : (writeback s).btb = s.btb := by
  unfold writeback; split <;> [split <;> rfl; rfl]
@[simp] theorem writeback_icLines (s : State) : (writeback s).icLines = s.icLines := by
  unfold writeback; split <;> [split <;> rfl; rfl]
@[simp] theorem writeback_icFsm (s : State) : (writeback s).icFsm = s.icFsm := by
  unfold writeback; split <;> [split <;> rfl; rfl]
@[simp] theorem writeback_dcLines (s : State) : (writeback s).dcLines = s.dcLines := by
  unfold writeback; split <;> [split <;> rfl; rfl]
@[simp] theorem writeback_dcFsm (s : State) : (writeback s).dcFsm = s.dcFsm := by
  unfold writeback; split <;> [split <;> rfl; rfl]
@[simp] theorem writeback_halted (s : State) : (writeback s).halted = s.halted := by
  unfold writeback; split <;> [split <;> rfl; rfl]
@[simp] theorem writeback_events (s : State) : (writeback s).events = s.events := by
  unfold writeback; split <;> [split <;> rfl; rfl]
@[simp] theorem writeback_answers (s : State) : (writeback s).answers = s.answers := by
  unfold writeback; split <;> [split <;> rfl; rfl]
@[simp] theorem writeback_bus (s : State) : (writeback s).bus = s.bus := by
  unfold writeback; split <;> [split <;> rfl; rfl]

/-- Writeback writes `WR.result` when `WR` is valid and writes (R254). -/
@[simp] theorem writeback_regs (s : State) : (writeback s).regs =
    match s.wr with
    | some w => if w.wr then RegFile.write s.regs w.rd w.result else s.regs
    | none => s.regs := by
  rcases hw : s.wr with _ | w
  · simp [writeback, hw]
  · simp only [writeback, hw]; split <;> rfl


/-! ### `retireStage` leaves every field but: events -/

@[simp] theorem retireStage_cfg (s : State) : (retireStage s).cfg = s.cfg := by
  unfold retireStage; split <;> [(dsimp only; split <;> rfl); rfl]
@[simp] theorem retireStage_level (s : State) : (retireStage s).level = s.level := by
  unfold retireStage; split <;> [(dsimp only; split <;> rfl); rfl]
@[simp] theorem retireStage_regs (s : State) : (retireStage s).regs = s.regs := by
  unfold retireStage; split <;> [(dsimp only; split <;> rfl); rfl]
@[simp] theorem retireStage_pc (s : State) : (retireStage s).pc = s.pc := by
  unfold retireStage; split <;> [(dsimp only; split <;> rfl); rfl]
@[simp] theorem retireStage_mem (s : State) : (retireStage s).mem = s.mem := by
  unfold retireStage; split <;> [(dsimp only; split <;> rfl); rfl]
@[simp] theorem retireStage_dr (s : State) : (retireStage s).dr = s.dr := by
  unfold retireStage; split <;> [(dsimp only; split <;> rfl); rfl]
@[simp] theorem retireStage_xr (s : State) : (retireStage s).xr = s.xr := by
  unfold retireStage; split <;> [(dsimp only; split <;> rfl); rfl]
@[simp] theorem retireStage_mr (s : State) : (retireStage s).mr = s.mr := by
  unfold retireStage; split <;> [(dsimp only; split <;> rfl); rfl]
@[simp] theorem retireStage_wr (s : State) : (retireStage s).wr = s.wr := by
  unfold retireStage; split <;> [(dsimp only; split <;> rfl); rfl]
@[simp] theorem retireStage_btb (s : State) : (retireStage s).btb = s.btb := by
  unfold retireStage; split <;> [(dsimp only; split <;> rfl); rfl]
@[simp] theorem retireStage_icLines (s : State) : (retireStage s).icLines = s.icLines := by
  unfold retireStage; split <;> [(dsimp only; split <;> rfl); rfl]
@[simp] theorem retireStage_icFsm (s : State) : (retireStage s).icFsm = s.icFsm := by
  unfold retireStage; split <;> [(dsimp only; split <;> rfl); rfl]
@[simp] theorem retireStage_dcLines (s : State) : (retireStage s).dcLines = s.dcLines := by
  unfold retireStage; split <;> [(dsimp only; split <;> rfl); rfl]
@[simp] theorem retireStage_dcFsm (s : State) : (retireStage s).dcFsm = s.dcFsm := by
  unfold retireStage; split <;> [(dsimp only; split <;> rfl); rfl]
@[simp] theorem retireStage_halted (s : State) : (retireStage s).halted = s.halted := by
  unfold retireStage; split <;> [(dsimp only; split <;> rfl); rfl]
@[simp] theorem retireStage_answers (s : State) : (retireStage s).answers = s.answers := by
  unfold retireStage; split <;> [(dsimp only; split <;> rfl); rfl]
@[simp] theorem retireStage_bus (s : State) : (retireStage s).bus = s.bus := by
  unfold retireStage; split <;> [(dsimp only; split <;> rfl); rfl]

/-- The events of the retirement of the instruction in `WR` (R255). -/
theorem retireStage_events (s : State) : (retireStage s).events =
    (match s.wr with
      | some w => retireEvents w.pc w.iw w.tag
      | none => []) ++ s.events := by
  rcases hw : s.wr with _ | w
  · simp [retireStage, hw]
  · simp only [retireStage, retireEvents, hw]; split <;> rfl


/-- The cases of the instruction fill controller (R354, R355). -/
theorem icFillStep_idle {s : State} (h : s.icFsm = .idle) : icFillStep s = s := by
  simp [icFillStep, h]
theorem icFillStep_wait {s : State} {base : Word} {data : BitVec 128} (h : s.icFsm = .wait base data) :
    icFillStep s =
      if (s.ask (.memoryReady base)).1 then { (s.ask (.memoryReady base)).2 with icFsm := .commit base data }
      else (s.ask (.memoryReady base)).2 := by
  rcases hq : s.ask (.memoryReady base) with ⟨b, q⟩
  cases b <;> simp [icFillStep, h, hq]
theorem icFillStep_commit {s : State} {base : Word} {data : BitVec 128} (h : s.icFsm = .commit base data) :
    icFillStep s = { s with
      icLines := Assoc.insert s.icLines (icIndex base) (icFillLine base data), icFsm := .idle } := by
  simp [icFillStep, h]


/-! ### `icFillStep` leaves every field but: icLines, icFsm, answers, bus -/

@[simp] theorem icFillStep_cfg (s : State) : (icFillStep s).cfg = s.cfg := by
  rcases h : s.icFsm with _ | ⟨_, _⟩ | ⟨_, _⟩ <;> [rw [icFillStep_idle h]; (rw [icFillStep_wait h]; split <;> simp); rw [icFillStep_commit h]]
@[simp] theorem icFillStep_level (s : State) : (icFillStep s).level = s.level := by
  rcases h : s.icFsm with _ | ⟨_, _⟩ | ⟨_, _⟩ <;> [rw [icFillStep_idle h]; (rw [icFillStep_wait h]; split <;> simp); rw [icFillStep_commit h]]
@[simp] theorem icFillStep_regs (s : State) : (icFillStep s).regs = s.regs := by
  rcases h : s.icFsm with _ | ⟨_, _⟩ | ⟨_, _⟩ <;> [rw [icFillStep_idle h]; (rw [icFillStep_wait h]; split <;> simp); rw [icFillStep_commit h]]
@[simp] theorem icFillStep_pc (s : State) : (icFillStep s).pc = s.pc := by
  rcases h : s.icFsm with _ | ⟨_, _⟩ | ⟨_, _⟩ <;> [rw [icFillStep_idle h]; (rw [icFillStep_wait h]; split <;> simp); rw [icFillStep_commit h]]
@[simp] theorem icFillStep_mem (s : State) : (icFillStep s).mem = s.mem := by
  rcases h : s.icFsm with _ | ⟨_, _⟩ | ⟨_, _⟩ <;> [rw [icFillStep_idle h]; (rw [icFillStep_wait h]; split <;> simp); rw [icFillStep_commit h]]
@[simp] theorem icFillStep_dr (s : State) : (icFillStep s).dr = s.dr := by
  rcases h : s.icFsm with _ | ⟨_, _⟩ | ⟨_, _⟩ <;> [rw [icFillStep_idle h]; (rw [icFillStep_wait h]; split <;> simp); rw [icFillStep_commit h]]
@[simp] theorem icFillStep_xr (s : State) : (icFillStep s).xr = s.xr := by
  rcases h : s.icFsm with _ | ⟨_, _⟩ | ⟨_, _⟩ <;> [rw [icFillStep_idle h]; (rw [icFillStep_wait h]; split <;> simp); rw [icFillStep_commit h]]
@[simp] theorem icFillStep_mr (s : State) : (icFillStep s).mr = s.mr := by
  rcases h : s.icFsm with _ | ⟨_, _⟩ | ⟨_, _⟩ <;> [rw [icFillStep_idle h]; (rw [icFillStep_wait h]; split <;> simp); rw [icFillStep_commit h]]
@[simp] theorem icFillStep_wr (s : State) : (icFillStep s).wr = s.wr := by
  rcases h : s.icFsm with _ | ⟨_, _⟩ | ⟨_, _⟩ <;> [rw [icFillStep_idle h]; (rw [icFillStep_wait h]; split <;> simp); rw [icFillStep_commit h]]
@[simp] theorem icFillStep_btb (s : State) : (icFillStep s).btb = s.btb := by
  rcases h : s.icFsm with _ | ⟨_, _⟩ | ⟨_, _⟩ <;> [rw [icFillStep_idle h]; (rw [icFillStep_wait h]; split <;> simp); rw [icFillStep_commit h]]
@[simp] theorem icFillStep_dcLines (s : State) : (icFillStep s).dcLines = s.dcLines := by
  rcases h : s.icFsm with _ | ⟨_, _⟩ | ⟨_, _⟩ <;> [rw [icFillStep_idle h]; (rw [icFillStep_wait h]; split <;> simp); rw [icFillStep_commit h]]
@[simp] theorem icFillStep_dcFsm (s : State) : (icFillStep s).dcFsm = s.dcFsm := by
  rcases h : s.icFsm with _ | ⟨_, _⟩ | ⟨_, _⟩ <;> [rw [icFillStep_idle h]; (rw [icFillStep_wait h]; split <;> simp); rw [icFillStep_commit h]]
@[simp] theorem icFillStep_halted (s : State) : (icFillStep s).halted = s.halted := by
  rcases h : s.icFsm with _ | ⟨_, _⟩ | ⟨_, _⟩ <;> [rw [icFillStep_idle h]; (rw [icFillStep_wait h]; split <;> simp); rw [icFillStep_commit h]]
@[simp] theorem icFillStep_events (s : State) : (icFillStep s).events = s.events := by
  rcases h : s.icFsm with _ | ⟨_, _⟩ | ⟨_, _⟩ <;> [rw [icFillStep_idle h]; (rw [icFillStep_wait h]; split <;> simp); rw [icFillStep_commit h]]

/-- An issue and a poll by the answer of their call (R353, R358, R362, R363, R369). -/
theorem icIssue_eq (s : State) (a : Word) :
    icIssue s a =
      let r := s.ask (.readMemory (icBase a) 16)
      if r.1 then (true, { r.2 with icFsm := .wait (icBase a) (BitVec.ofNat 128 (s.mem.read (icBase a) 16)) })
      else (false, r.2.report (.memFault .iFillFail (icBase a))) := by
  dsimp only
  rcases hq : s.ask (.readMemory (icBase a) 16) with ⟨b, q⟩
  have hm : q.mem = s.mem := by simpa [hq] using s.ask_mem (.readMemory (icBase a) 16)
  cases b <;> simp [icIssue, hq, hm]
theorem dcIssue_eq (s : State) (a : Word) :
    dcIssue s a =
      let r := s.ask (.readMemory (dcBase a) 8)
      if r.1 then (true, { r.2 with dcFsm := .wait (dcBase a) (s.mem.readWord (dcBase a) 8) })
      else (false, r.2.report (.memFault .readFail (dcBase a))) := by
  dsimp only
  rcases hq : s.ask (.readMemory (dcBase a) 8) with ⟨b, q⟩
  have hm : q.mem = s.mem := by simpa [hq] using s.ask_mem (.readMemory (dcBase a) 8)
  cases b <;> simp [dcIssue, hq, hm]
theorem dcPoll_eq (s : State) (base : Word) (data : BitVec 64) :
    dcPoll s base data =
      let r := s.ask (.memoryReady base)
      if r.1 then { r.2 with dcFsm := .commit base data } else r.2 := by
  dsimp only
  rcases hq : s.ask (.memoryReady base) with ⟨b, q⟩
  cases b <;> simp [dcPoll, hq]


/-! ### `icIssue` leaves every field but: icFsm, events, answers, bus -/

@[simp] theorem icIssue_cfg (s : State) (a : Word) : ((icIssue s a).2).cfg = s.cfg := by
  rw [icIssue_eq]; dsimp only; split <;> simp
@[simp] theorem icIssue_level (s : State) (a : Word) : ((icIssue s a).2).level = s.level := by
  rw [icIssue_eq]; dsimp only; split <;> simp
@[simp] theorem icIssue_regs (s : State) (a : Word) : ((icIssue s a).2).regs = s.regs := by
  rw [icIssue_eq]; dsimp only; split <;> simp
@[simp] theorem icIssue_pc (s : State) (a : Word) : ((icIssue s a).2).pc = s.pc := by
  rw [icIssue_eq]; dsimp only; split <;> simp
@[simp] theorem icIssue_mem (s : State) (a : Word) : ((icIssue s a).2).mem = s.mem := by
  rw [icIssue_eq]; dsimp only; split <;> simp
@[simp] theorem icIssue_dr (s : State) (a : Word) : ((icIssue s a).2).dr = s.dr := by
  rw [icIssue_eq]; dsimp only; split <;> simp
@[simp] theorem icIssue_xr (s : State) (a : Word) : ((icIssue s a).2).xr = s.xr := by
  rw [icIssue_eq]; dsimp only; split <;> simp
@[simp] theorem icIssue_mr (s : State) (a : Word) : ((icIssue s a).2).mr = s.mr := by
  rw [icIssue_eq]; dsimp only; split <;> simp
@[simp] theorem icIssue_wr (s : State) (a : Word) : ((icIssue s a).2).wr = s.wr := by
  rw [icIssue_eq]; dsimp only; split <;> simp
@[simp] theorem icIssue_btb (s : State) (a : Word) : ((icIssue s a).2).btb = s.btb := by
  rw [icIssue_eq]; dsimp only; split <;> simp
@[simp] theorem icIssue_icLines (s : State) (a : Word) : ((icIssue s a).2).icLines = s.icLines := by
  rw [icIssue_eq]; dsimp only; split <;> simp
@[simp] theorem icIssue_dcLines (s : State) (a : Word) : ((icIssue s a).2).dcLines = s.dcLines := by
  rw [icIssue_eq]; dsimp only; split <;> simp
@[simp] theorem icIssue_dcFsm (s : State) (a : Word) : ((icIssue s a).2).dcFsm = s.dcFsm := by
  rw [icIssue_eq]; dsimp only; split <;> simp
@[simp] theorem icIssue_halted (s : State) (a : Word) : ((icIssue s a).2).halted = s.halted := by
  rw [icIssue_eq]; dsimp only; split <;> simp

/-! ### `dcIssue` leaves every field but: dcFsm, events, answers, bus -/

@[simp] theorem dcIssue_cfg (s : State) (a : Word) : ((dcIssue s a).2).cfg = s.cfg := by
  rw [dcIssue_eq]; dsimp only; split <;> simp
@[simp] theorem dcIssue_level (s : State) (a : Word) : ((dcIssue s a).2).level = s.level := by
  rw [dcIssue_eq]; dsimp only; split <;> simp
@[simp] theorem dcIssue_regs (s : State) (a : Word) : ((dcIssue s a).2).regs = s.regs := by
  rw [dcIssue_eq]; dsimp only; split <;> simp
@[simp] theorem dcIssue_pc (s : State) (a : Word) : ((dcIssue s a).2).pc = s.pc := by
  rw [dcIssue_eq]; dsimp only; split <;> simp
@[simp] theorem dcIssue_mem (s : State) (a : Word) : ((dcIssue s a).2).mem = s.mem := by
  rw [dcIssue_eq]; dsimp only; split <;> simp
@[simp] theorem dcIssue_dr (s : State) (a : Word) : ((dcIssue s a).2).dr = s.dr := by
  rw [dcIssue_eq]; dsimp only; split <;> simp
@[simp] theorem dcIssue_xr (s : State) (a : Word) : ((dcIssue s a).2).xr = s.xr := by
  rw [dcIssue_eq]; dsimp only; split <;> simp
@[simp] theorem dcIssue_mr (s : State) (a : Word) : ((dcIssue s a).2).mr = s.mr := by
  rw [dcIssue_eq]; dsimp only; split <;> simp
@[simp] theorem dcIssue_wr (s : State) (a : Word) : ((dcIssue s a).2).wr = s.wr := by
  rw [dcIssue_eq]; dsimp only; split <;> simp
@[simp] theorem dcIssue_btb (s : State) (a : Word) : ((dcIssue s a).2).btb = s.btb := by
  rw [dcIssue_eq]; dsimp only; split <;> simp
@[simp] theorem dcIssue_icLines (s : State) (a : Word) : ((dcIssue s a).2).icLines = s.icLines := by
  rw [dcIssue_eq]; dsimp only; split <;> simp
@[simp] theorem dcIssue_icFsm (s : State) (a : Word) : ((dcIssue s a).2).icFsm = s.icFsm := by
  rw [dcIssue_eq]; dsimp only; split <;> simp
@[simp] theorem dcIssue_dcLines (s : State) (a : Word) : ((dcIssue s a).2).dcLines = s.dcLines := by
  rw [dcIssue_eq]; dsimp only; split <;> simp
@[simp] theorem dcIssue_halted (s : State) (a : Word) : ((dcIssue s a).2).halted = s.halted := by
  rw [dcIssue_eq]; dsimp only; split <;> simp

/-! ### `dcPoll` leaves every field but: dcFsm, answers, bus -/

@[simp] theorem dcPoll_cfg (s : State) (base : Word) (data : BitVec 64) : (dcPoll s base data).cfg = s.cfg := by
  rw [dcPoll_eq]; dsimp only; split <;> simp
@[simp] theorem dcPoll_level (s : State) (base : Word) (data : BitVec 64) : (dcPoll s base data).level = s.level := by
  rw [dcPoll_eq]; dsimp only; split <;> simp
@[simp] theorem dcPoll_regs (s : State) (base : Word) (data : BitVec 64) : (dcPoll s base data).regs = s.regs := by
  rw [dcPoll_eq]; dsimp only; split <;> simp
@[simp] theorem dcPoll_pc (s : State) (base : Word) (data : BitVec 64) : (dcPoll s base data).pc = s.pc := by
  rw [dcPoll_eq]; dsimp only; split <;> simp
@[simp] theorem dcPoll_mem (s : State) (base : Word) (data : BitVec 64) : (dcPoll s base data).mem = s.mem := by
  rw [dcPoll_eq]; dsimp only; split <;> simp
@[simp] theorem dcPoll_dr (s : State) (base : Word) (data : BitVec 64) : (dcPoll s base data).dr = s.dr := by
  rw [dcPoll_eq]; dsimp only; split <;> simp
@[simp] theorem dcPoll_xr (s : State) (base : Word) (data : BitVec 64) : (dcPoll s base data).xr = s.xr := by
  rw [dcPoll_eq]; dsimp only; split <;> simp
@[simp] theorem dcPoll_mr (s : State) (base : Word) (data : BitVec 64) : (dcPoll s base data).mr = s.mr := by
  rw [dcPoll_eq]; dsimp only; split <;> simp
@[simp] theorem dcPoll_wr (s : State) (base : Word) (data : BitVec 64) : (dcPoll s base data).wr = s.wr := by
  rw [dcPoll_eq]; dsimp only; split <;> simp
@[simp] theorem dcPoll_btb (s : State) (base : Word) (data : BitVec 64) : (dcPoll s base data).btb = s.btb := by
  rw [dcPoll_eq]; dsimp only; split <;> simp
@[simp] theorem dcPoll_icLines (s : State) (base : Word) (data : BitVec 64) : (dcPoll s base data).icLines = s.icLines := by
  rw [dcPoll_eq]; dsimp only; split <;> simp
@[simp] theorem dcPoll_icFsm (s : State) (base : Word) (data : BitVec 64) : (dcPoll s base data).icFsm = s.icFsm := by
  rw [dcPoll_eq]; dsimp only; split <;> simp
@[simp] theorem dcPoll_dcLines (s : State) (base : Word) (data : BitVec 64) : (dcPoll s base data).dcLines = s.dcLines := by
  rw [dcPoll_eq]; dsimp only; split <;> simp
@[simp] theorem dcPoll_halted (s : State) (base : Word) (data : BitVec 64) : (dcPoll s base data).halted = s.halted := by
  rw [dcPoll_eq]; dsimp only; split <;> simp
@[simp] theorem dcPoll_events (s : State) (base : Word) (data : BitVec 64) : (dcPoll s base data).events = s.events := by
  rw [dcPoll_eq]; dsimp only; split <;> simp

/-! ### `dcCommit` leaves every field but: dcLines, dcFsm -/

@[simp] theorem dcCommit_cfg (s : State) (base : Word) (data : BitVec 64) : (dcCommit s base data).cfg = s.cfg := by
  rfl
@[simp] theorem dcCommit_level (s : State) (base : Word) (data : BitVec 64) : (dcCommit s base data).level = s.level := by
  rfl
@[simp] theorem dcCommit_regs (s : State) (base : Word) (data : BitVec 64) : (dcCommit s base data).regs = s.regs := by
  rfl
@[simp] theorem dcCommit_pc (s : State) (base : Word) (data : BitVec 64) : (dcCommit s base data).pc = s.pc := by
  rfl
@[simp] theorem dcCommit_mem (s : State) (base : Word) (data : BitVec 64) : (dcCommit s base data).mem = s.mem := by
  rfl
@[simp] theorem dcCommit_dr (s : State) (base : Word) (data : BitVec 64) : (dcCommit s base data).dr = s.dr := by
  rfl
@[simp] theorem dcCommit_xr (s : State) (base : Word) (data : BitVec 64) : (dcCommit s base data).xr = s.xr := by
  rfl
@[simp] theorem dcCommit_mr (s : State) (base : Word) (data : BitVec 64) : (dcCommit s base data).mr = s.mr := by
  rfl
@[simp] theorem dcCommit_wr (s : State) (base : Word) (data : BitVec 64) : (dcCommit s base data).wr = s.wr := by
  rfl
@[simp] theorem dcCommit_btb (s : State) (base : Word) (data : BitVec 64) : (dcCommit s base data).btb = s.btb := by
  rfl
@[simp] theorem dcCommit_icLines (s : State) (base : Word) (data : BitVec 64) : (dcCommit s base data).icLines = s.icLines := by
  rfl
@[simp] theorem dcCommit_icFsm (s : State) (base : Word) (data : BitVec 64) : (dcCommit s base data).icFsm = s.icFsm := by
  rfl
@[simp] theorem dcCommit_halted (s : State) (base : Word) (data : BitVec 64) : (dcCommit s base data).halted = s.halted := by
  rfl
@[simp] theorem dcCommit_events (s : State) (base : Word) (data : BitVec 64) : (dcCommit s base data).events = s.events := by
  rfl
@[simp] theorem dcCommit_answers (s : State) (base : Word) (data : BitVec 64) : (dcCommit s base data).answers = s.answers := by
  rfl
@[simp] theorem dcCommit_bus (s : State) (base : Word) (data : BitVec 64) : (dcCommit s base data).bus = s.bus := by
  rfl

/-! ### The Memory stage (R256 to R258) -/

/-- A bubble passes on (R256). -/
theorem memoryStage_bubble {s : State} (h : s.mr = none) :
    memoryStage s = { state := s, hold := false, wrNext := none, dMiss := false, issued := false } := by
  simp [memoryStage, h]

/-- A load is the load stage (R257). -/
theorem memoryStage_load {s : State} {m : ExecutedInstr} (h : s.mr = some m) (hl : m.tag.isLoad = true) :
    memoryStage s = loadStage s m := by simp [memoryStage, h, hl]

theorem Tag.not_load_of_store {t : Tag} (h : t.isStore = true) : t.isLoad = false := by
  cases t <;> simp_all [Tag.isStore, Tag.isLoad]

/-- A store is the store stage (R258). -/
theorem memoryStage_store {s : State} {m : ExecutedInstr} (h : s.mr = some m) (hs : m.tag.isStore = true) :
    memoryStage s = storeStage s m := by simp [memoryStage, h, hs, Tag.not_load_of_store hs]

/-- Any other instruction passes through (R256). -/
theorem memoryStage_other {s : State} {m : ExecutedInstr} (h : s.mr = some m) (hl : m.tag.isLoad = false)
    (hs : m.tag.isStore = false) :
    memoryStage s = { state := s, hold := false, dMiss := false, issued := false
                      wrNext := some (m.completed m.rd m.wr m.result) } := by
  simp [memoryStage, h, hl, hs]

/-- A store whose call is answered (R258). -/
theorem storeStage_aligned {s : State} {m : ExecutedInstr} (ha : aligned m.addr (accessBytes m.tag) = true) :
    let n := accessBytes m.tag
    let r := s.ask (.writeMemory m.addr (lowBytes n m.sdata) n)
    storeStage s m =
      if r.1 then
        { state := r.2.storeThrough m.addr n m.sdata, hold := false, dMiss := false, issued := false
          wrNext := some (m.completed 0 false 0) }
      else
        { state := r.2.report (.memFault .writeFail m.addr), hold := true, wrNext := none
          dMiss := false, issued := false } := by
  dsimp only
  rcases hq : s.ask (.writeMemory m.addr (lowBytes (accessBytes m.tag) m.sdata) (accessBytes m.tag)) with ⟨b, q⟩
  cases b <;> simp [storeStage, ha, hq]

/-! The Memory stage touches memory, the data cache, the event log and the call log only. -/

/-- What `loadStage` and `storeStage` may leave as the state: one of seven updates. -/
theorem memoryStage_state (s : State) :
    (memoryStage s).state = s ∨ (∃ a, (memoryStage s).state = (dcIssue s a).2) ∨
      (∃ b d, (memoryStage s).state = dcPoll s b d) ∨ (∃ b d, (memoryStage s).state = dcCommit s b d) ∨
      (∃ e, (memoryStage s).state = s.report (.memFault .dataMisaligned e)) ∨
      (∃ c a n v, (memoryStage s).state = (s.ask c).2.storeThrough a n v) ∨
      ∃ c a, (memoryStage s).state = (s.ask c).2.report (.memFault .writeFail a) := by
  rcases hm : s.mr with _ | m
  · exact .inl (by simp [memoryStage_bubble hm])
  cases hl : m.tag.isLoad
  · cases hs : m.tag.isStore
    · exact .inl (by simp [memoryStage_other hm hl hs])
    · rw [memoryStage_store hm hs]
      cases ha : aligned m.addr (accessBytes m.tag)
      · exact .inr (.inr (.inr (.inr (.inl ⟨m.addr, by simp [storeStage, ha]⟩))))
      · rw [storeStage_aligned ha]
        split
        · exact .inr (.inr (.inr (.inr (.inr (.inl ⟨_, _, _, _, rfl⟩)))))
        · exact .inr (.inr (.inr (.inr (.inr (.inr ⟨_, _, rfl⟩)))))
  · rw [memoryStage_load hm hl]
    unfold loadStage
    split
    · split
      · split
        · exact .inl rfl
        · exact .inr (.inl ⟨_, rfl⟩)
      · exact .inr (.inr (.inl ⟨_, _, rfl⟩))
      · exact .inr (.inr (.inr (.inl ⟨_, _, rfl⟩)))
    · exact .inr (.inr (.inr (.inr (.inl ⟨_, rfl⟩))))

@[simp] theorem memoryStage_cfg (s : State) : (memoryStage s).state.cfg = s.cfg := by
  rcases memoryStage_state s with h | ⟨_, h⟩ | ⟨_, _, h⟩ | ⟨_, _, h⟩ | ⟨_, h⟩ | ⟨_, _, _, _, h⟩ | ⟨_, _, h⟩ <;> rw [h] <;> simp
@[simp] theorem memoryStage_level (s : State) : (memoryStage s).state.level = s.level := by
  rcases memoryStage_state s with h | ⟨_, h⟩ | ⟨_, _, h⟩ | ⟨_, _, h⟩ | ⟨_, h⟩ | ⟨_, _, _, _, h⟩ | ⟨_, _, h⟩ <;> rw [h] <;> simp
@[simp] theorem memoryStage_regs (s : State) : (memoryStage s).state.regs = s.regs := by
  rcases memoryStage_state s with h | ⟨_, h⟩ | ⟨_, _, h⟩ | ⟨_, _, h⟩ | ⟨_, h⟩ | ⟨_, _, _, _, h⟩ | ⟨_, _, h⟩ <;> rw [h] <;> simp
@[simp] theorem memoryStage_pc (s : State) : (memoryStage s).state.pc = s.pc := by
  rcases memoryStage_state s with h | ⟨_, h⟩ | ⟨_, _, h⟩ | ⟨_, _, h⟩ | ⟨_, h⟩ | ⟨_, _, _, _, h⟩ | ⟨_, _, h⟩ <;> rw [h] <;> simp
@[simp] theorem memoryStage_dr (s : State) : (memoryStage s).state.dr = s.dr := by
  rcases memoryStage_state s with h | ⟨_, h⟩ | ⟨_, _, h⟩ | ⟨_, _, h⟩ | ⟨_, h⟩ | ⟨_, _, _, _, h⟩ | ⟨_, _, h⟩ <;> rw [h] <;> simp
@[simp] theorem memoryStage_xr (s : State) : (memoryStage s).state.xr = s.xr := by
  rcases memoryStage_state s with h | ⟨_, h⟩ | ⟨_, _, h⟩ | ⟨_, _, h⟩ | ⟨_, h⟩ | ⟨_, _, _, _, h⟩ | ⟨_, _, h⟩ <;> rw [h] <;> simp
@[simp] theorem memoryStage_mr (s : State) : (memoryStage s).state.mr = s.mr := by
  rcases memoryStage_state s with h | ⟨_, h⟩ | ⟨_, _, h⟩ | ⟨_, _, h⟩ | ⟨_, h⟩ | ⟨_, _, _, _, h⟩ | ⟨_, _, h⟩ <;> rw [h] <;> simp
@[simp] theorem memoryStage_wr (s : State) : (memoryStage s).state.wr = s.wr := by
  rcases memoryStage_state s with h | ⟨_, h⟩ | ⟨_, _, h⟩ | ⟨_, _, h⟩ | ⟨_, h⟩ | ⟨_, _, _, _, h⟩ | ⟨_, _, h⟩ <;> rw [h] <;> simp
@[simp] theorem memoryStage_btb (s : State) : (memoryStage s).state.btb = s.btb := by
  rcases memoryStage_state s with h | ⟨_, h⟩ | ⟨_, _, h⟩ | ⟨_, _, h⟩ | ⟨_, h⟩ | ⟨_, _, _, _, h⟩ | ⟨_, _, h⟩ <;> rw [h] <;> simp
@[simp] theorem memoryStage_icLines (s : State) : (memoryStage s).state.icLines = s.icLines := by
  rcases memoryStage_state s with h | ⟨_, h⟩ | ⟨_, _, h⟩ | ⟨_, _, h⟩ | ⟨_, h⟩ | ⟨_, _, _, _, h⟩ | ⟨_, _, h⟩ <;> rw [h] <;> simp
@[simp] theorem memoryStage_icFsm (s : State) : (memoryStage s).state.icFsm = s.icFsm := by
  rcases memoryStage_state s with h | ⟨_, h⟩ | ⟨_, _, h⟩ | ⟨_, _, h⟩ | ⟨_, h⟩ | ⟨_, _, _, _, h⟩ | ⟨_, _, h⟩ <;> rw [h] <;> simp
@[simp] theorem memoryStage_halted (s : State) : (memoryStage s).state.halted = s.halted := by
  rcases memoryStage_state s with h | ⟨_, h⟩ | ⟨_, _, h⟩ | ⟨_, _, h⟩ | ⟨_, h⟩ | ⟨_, _, _, _, h⟩ | ⟨_, _, h⟩ <;> rw [h] <;> simp

/-! ### Execute and Fetch -/

@[simp] theorem executeStage_cfg (s : State) : (executeStage s).state.cfg = s.cfg := by
  unfold executeStage; split <;> [rfl; (dsimp only; split <;> [rfl; (split <;> rfl)])]
@[simp] theorem executeStage_level (s : State) : (executeStage s).state.level = s.level := by
  unfold executeStage; split <;> [rfl; (dsimp only; split <;> [rfl; (split <;> rfl)])]
@[simp] theorem executeStage_regs (s : State) : (executeStage s).state.regs = s.regs := by
  unfold executeStage; split <;> [rfl; (dsimp only; split <;> [rfl; (split <;> rfl)])]
@[simp] theorem executeStage_mem (s : State) : (executeStage s).state.mem = s.mem := by
  unfold executeStage; split <;> [rfl; (dsimp only; split <;> [rfl; (split <;> rfl)])]
@[simp] theorem executeStage_dr (s : State) : (executeStage s).state.dr = s.dr := by
  unfold executeStage; split <;> [rfl; (dsimp only; split <;> [rfl; (split <;> rfl)])]
@[simp] theorem executeStage_xr (s : State) : (executeStage s).state.xr = s.xr := by
  unfold executeStage; split <;> [rfl; (dsimp only; split <;> [rfl; (split <;> rfl)])]
@[simp] theorem executeStage_mr (s : State) : (executeStage s).state.mr = s.mr := by
  unfold executeStage; split <;> [rfl; (dsimp only; split <;> [rfl; (split <;> rfl)])]
@[simp] theorem executeStage_wr (s : State) : (executeStage s).state.wr = s.wr := by
  unfold executeStage; split <;> [rfl; (dsimp only; split <;> [rfl; (split <;> rfl)])]
@[simp] theorem executeStage_icLines (s : State) : (executeStage s).state.icLines = s.icLines := by
  unfold executeStage; split <;> [rfl; (dsimp only; split <;> [rfl; (split <;> rfl)])]
@[simp] theorem executeStage_icFsm (s : State) : (executeStage s).state.icFsm = s.icFsm := by
  unfold executeStage; split <;> [rfl; (dsimp only; split <;> [rfl; (split <;> rfl)])]
@[simp] theorem executeStage_dcLines (s : State) : (executeStage s).state.dcLines = s.dcLines := by
  unfold executeStage; split <;> [rfl; (dsimp only; split <;> [rfl; (split <;> rfl)])]
@[simp] theorem executeStage_dcFsm (s : State) : (executeStage s).state.dcFsm = s.dcFsm := by
  unfold executeStage; split <;> [rfl; (dsimp only; split <;> [rfl; (split <;> rfl)])]
@[simp] theorem executeStage_halted (s : State) : (executeStage s).state.halted = s.halted := by
  unfold executeStage; split <;> [rfl; (dsimp only; split <;> [rfl; (split <;> rfl)])]
@[simp] theorem executeStage_events (s : State) : (executeStage s).state.events = s.events := by
  unfold executeStage; split <;> [rfl; (dsimp only; split <;> [rfl; (split <;> rfl)])]
@[simp] theorem executeStage_answers (s : State) : (executeStage s).state.answers = s.answers := by
  unfold executeStage; split <;> [rfl; (dsimp only; split <;> [rfl; (split <;> rfl)])]
@[simp] theorem executeStage_bus (s : State) : (executeStage s).state.bus = s.bus := by
  unfold executeStage; split <;> [rfl; (dsimp only; split <;> [rfl; (split <;> rfl)])]

/-- Execute moves `pc` only by a redirect (R262). -/
theorem executeStage_pc (s : State) : (executeStage s).state.pc = ((executeStage s).redirect).getD s.pc := by
  unfold executeStage; split <;> [rfl; (dsimp only; split <;> [rfl; (split <;> rfl)])]

/-- A bubble in `XR` passes on (R259). -/
theorem executeStage_bubble {s : State} (h : s.xr = none) :
    executeStage s = { state := s, mrNext := none, redirect := none } := by simp [executeStage, h]

/-- An instruction that transfers no control (R261). -/
theorem executeStage_plain {s : State} {x : DecodedInstr} (h : s.xr = some x)
    (ht : trueNextPc x.tag x.pc (operandA s x) (operandB s x) x.imm = none) :
    executeStage s =
      { state := s, redirect := none
        mrNext := some (x.executed s.cfg (operandA s x) (operandB s x) false false) } := by
  simp [executeStage, h, ht]

/-- A control transfer whose true next pc is `tnpc` (R262, R326, R327). -/
theorem executeStage_transfer {s : State} {x : DecodedInstr} {tnpc : Word} (h : s.xr = some x)
    (ht : trueNextPc x.tag x.pc (operandA s x) (operandB s x) x.imm = some tnpc) :
    executeStage s =
      let r := if x.tag.isBranch then resolve s.btb x.pc tnpc else (s.btb, false)
      if tnpc = x.predNpc then
        { state := { s with btb := r.1 }, redirect := none
          mrNext := some (x.executed s.cfg (operandA s x) (operandB s x) false r.2) }
      else
        { state := { s with btb := r.1, pc := tnpc }, redirect := some tnpc
          mrNext := some (x.executed s.cfg (operandA s x) (operandB s x) true r.2) } := by
  simp [executeStage, h, ht]

/-- What Fetch may leave as the state: nothing changed, a word delivered, a fill asked for, a report. -/
theorem fetchStage_state (s : State) (r st i : Bool) :
    (fetchStage s r st i).state = s ∨
      (∃ p : Prediction, (fetchStage s r st i).state = { s with btb := p.btb, pc := p.npc }) ∨
      (fetchStage s r st i).state = (icIssue s s.pc).2 ∨
      (fetchStage s r st i).state = s.report (.memFault .fetchMisaligned s.pc) := by
  unfold fetchStage
  split; · exact .inl rfl
  split; · exact .inl rfl
  split; · exact .inl rfl
  split
  · split
    · exact .inr (.inl ⟨_, rfl⟩)
    · exact .inr (.inr (.inl rfl))
  · exact .inr (.inr (.inr rfl))

@[simp] theorem fetchStage_cfg (s : State) (r st i : Bool) : (fetchStage s r st i).state.cfg = s.cfg := by
  rcases fetchStage_state s r st i with h | ⟨_, h⟩ | h | h <;> rw [h] <;> simp
@[simp] theorem fetchStage_level (s : State) (r st i : Bool) : (fetchStage s r st i).state.level = s.level := by
  rcases fetchStage_state s r st i with h | ⟨_, h⟩ | h | h <;> rw [h] <;> simp
@[simp] theorem fetchStage_regs (s : State) (r st i : Bool) : (fetchStage s r st i).state.regs = s.regs := by
  rcases fetchStage_state s r st i with h | ⟨_, h⟩ | h | h <;> rw [h] <;> simp
@[simp] theorem fetchStage_mem (s : State) (r st i : Bool) : (fetchStage s r st i).state.mem = s.mem := by
  rcases fetchStage_state s r st i with h | ⟨_, h⟩ | h | h <;> rw [h] <;> simp
@[simp] theorem fetchStage_dr (s : State) (r st i : Bool) : (fetchStage s r st i).state.dr = s.dr := by
  rcases fetchStage_state s r st i with h | ⟨_, h⟩ | h | h <;> rw [h] <;> simp
@[simp] theorem fetchStage_xr (s : State) (r st i : Bool) : (fetchStage s r st i).state.xr = s.xr := by
  rcases fetchStage_state s r st i with h | ⟨_, h⟩ | h | h <;> rw [h] <;> simp
@[simp] theorem fetchStage_mr (s : State) (r st i : Bool) : (fetchStage s r st i).state.mr = s.mr := by
  rcases fetchStage_state s r st i with h | ⟨_, h⟩ | h | h <;> rw [h] <;> simp
@[simp] theorem fetchStage_wr (s : State) (r st i : Bool) : (fetchStage s r st i).state.wr = s.wr := by
  rcases fetchStage_state s r st i with h | ⟨_, h⟩ | h | h <;> rw [h] <;> simp
@[simp] theorem fetchStage_icLines (s : State) (r st i : Bool) : (fetchStage s r st i).state.icLines = s.icLines := by
  rcases fetchStage_state s r st i with h | ⟨_, h⟩ | h | h <;> rw [h] <;> simp
@[simp] theorem fetchStage_dcLines (s : State) (r st i : Bool) : (fetchStage s r st i).state.dcLines = s.dcLines := by
  rcases fetchStage_state s r st i with h | ⟨_, h⟩ | h | h <;> rw [h] <;> simp
@[simp] theorem fetchStage_dcFsm (s : State) (r st i : Bool) : (fetchStage s r st i).state.dcFsm = s.dcFsm := by
  rcases fetchStage_state s r st i with h | ⟨_, h⟩ | h | h <;> rw [h] <;> simp
@[simp] theorem fetchStage_halted (s : State) (r st i : Bool) : (fetchStage s r st i).state.halted = s.halted := by
  rcases fetchStage_state s r st i with h | ⟨_, h⟩ | h | h <;> rw [h] <;> simp

/-! ### The cycle (R250, R265) -/

/-- A cycle of a core that does not run: nothing, or the halt of R403. -/
theorem runCycle_halted {s : State} (h : s.halted = true) : runCycle s = CycleOut.still s := by
  simp [runCycle, h]

theorem runCycle_halts {s : State} {w : CompletedInstr} (h : s.halted = false)
    (hw : haltingInstr s = some w) :
    runCycle s = CycleOut.still { s.report (.decodeFault w.iw w.pc) with halted := true } := by
  simp [runCycle, h, hw]

/-- A cycle of a running core is its five stages. -/
theorem runCycle_runs {s : State} (h : s.Runs) : runCycle s = runStages s := by
  simp [runCycle, h.1, h.2]

/-- A held cycle (R252, R265). -/
theorem runCycle_held {s : State} (h : s.Runs) (hm : (memoryPhase s).hold = true) :
    runCycle s =
      { state := afterFillStep s, holdAll := true, redirect := none, stall := false
        iCacheStall := decide (s.icFsm ≠ .idle), dCacheStall := (memoryPhase s).dMiss
        firstCacheStall := (memoryPhase s).issued } := by
  rw [runCycle_runs h]; simp [runStages, hm, afterFillStep]

/-- A cycle that is not held (R265). -/
theorem runCycle_latched {s : State} (h : s.Runs) (hm : (memoryPhase s).hold = false) :
    runCycle s =
      { state := latch (fetchPhase s).state (fetchPhase s).drNext
          (decodeStage (executePhase s).state (executePhase s).redirect.isSome)
          (executePhase s).mrNext (memoryPhase s).wrNext
        holdAll := false, redirect := (executePhase s).redirect
        stall := loadUseStall (executePhase s).state
        iCacheStall := decide (s.icFsm ≠ .idle) || (fetchPhase s).missed, dCacheStall := false
        firstCacheStall := (fetchPhase s).issued } := by
  rw [runCycle_runs h]; simp [runStages, hm, afterFillStep, executePhase, fetchPhase]

/-- `hold_all` of a running core is the Memory stage's. -/
theorem holdAll_eq {s : State} (h : s.Runs) : (runCycle s).holdAll = (memoryPhase s).hold := by
  cases hm : (memoryPhase s).hold
  · rw [runCycle_latched h hm]
  · rw [runCycle_held h hm]

/-- The cases of one cycle: halted, halting, held, latched. -/
theorem advanceCycle_cases (s : State) :
    (s.halted = true ∧ advanceCycle s = s) ∨
    (∃ w, s.halted = false ∧ haltingInstr s = some w ∧
      advanceCycle s = { s.report (.decodeFault w.iw w.pc) with halted := true }) ∨
    (s.Runs ∧ (memoryPhase s).hold = true ∧ advanceCycle s = afterFillStep s) ∨
    (s.Runs ∧ (memoryPhase s).hold = false ∧
      advanceCycle s = latch (fetchPhase s).state (fetchPhase s).drNext
        (decodeStage (executePhase s).state (executePhase s).redirect.isSome)
        (executePhase s).mrNext (memoryPhase s).wrNext) := by
  cases hh : s.halted
  · rcases hw : haltingInstr s with _ | w
    · have hr : s.Runs := ⟨hh, hw⟩
      cases hm : (memoryPhase s).hold
      · exact .inr (.inr (.inr ⟨hr, rfl, by simp [advanceCycle, runCycle_latched hr hm]⟩))
      · exact .inr (.inr (.inl ⟨hr, rfl, by simp [advanceCycle, runCycle_held hr hm]⟩))
    · exact .inr (.inl ⟨w, rfl, rfl, by simp [advanceCycle, runCycle_halts hh hw, CycleOut.still]⟩)
  · exact .inl ⟨rfl, by simp [advanceCycle, runCycle_halted hh, CycleOut.still]⟩

@[simp] theorem afterFillStep_cfg (s : State) : (afterFillStep s).cfg = s.cfg := by
  simp [afterFillStep, memoryPhase]
@[simp] theorem afterFillStep_level (s : State) : (afterFillStep s).level = s.level := by
  simp [afterFillStep, memoryPhase]
@[simp] theorem afterFillStep_pc (s : State) : (afterFillStep s).pc = s.pc := by
  simp [afterFillStep, memoryPhase]
@[simp] theorem afterFillStep_dr (s : State) : (afterFillStep s).dr = s.dr := by
  simp [afterFillStep, memoryPhase]
@[simp] theorem afterFillStep_xr (s : State) : (afterFillStep s).xr = s.xr := by
  simp [afterFillStep, memoryPhase]
@[simp] theorem afterFillStep_mr (s : State) : (afterFillStep s).mr = s.mr := by
  simp [afterFillStep, memoryPhase]
@[simp] theorem afterFillStep_wr (s : State) : (afterFillStep s).wr = s.wr := by
  simp [afterFillStep, memoryPhase]
@[simp] theorem afterFillStep_btb (s : State) : (afterFillStep s).btb = s.btb := by
  simp [afterFillStep, memoryPhase]
@[simp] theorem afterFillStep_halted (s : State) : (afterFillStep s).halted = s.halted := by
  simp [afterFillStep, memoryPhase]
@[simp] theorem executePhase_cfg (s : State) : (executePhase s).state.cfg = s.cfg := by
  simp [executePhase]
@[simp] theorem executePhase_level (s : State) : (executePhase s).state.level = s.level := by
  simp [executePhase]
@[simp] theorem executePhase_dr (s : State) : (executePhase s).state.dr = s.dr := by
  simp [executePhase]
@[simp] theorem executePhase_xr (s : State) : (executePhase s).state.xr = s.xr := by
  simp [executePhase]
@[simp] theorem executePhase_mr (s : State) : (executePhase s).state.mr = s.mr := by
  simp [executePhase]
@[simp] theorem executePhase_wr (s : State) : (executePhase s).state.wr = s.wr := by
  simp [executePhase]
@[simp] theorem executePhase_halted (s : State) : (executePhase s).state.halted = s.halted := by
  simp [executePhase]
@[simp] theorem fetchPhase_cfg (s : State) : (fetchPhase s).state.cfg = s.cfg := by
  simp [fetchPhase]
@[simp] theorem fetchPhase_level (s : State) : (fetchPhase s).state.level = s.level := by
  simp [fetchPhase]
@[simp] theorem fetchPhase_dr (s : State) : (fetchPhase s).state.dr = s.dr := by
  simp [fetchPhase]
@[simp] theorem fetchPhase_xr (s : State) : (fetchPhase s).state.xr = s.xr := by
  simp [fetchPhase]
@[simp] theorem fetchPhase_mr (s : State) : (fetchPhase s).state.mr = s.mr := by
  simp [fetchPhase]
@[simp] theorem fetchPhase_wr (s : State) : (fetchPhase s).state.wr = s.wr := by
  simp [fetchPhase]
@[simp] theorem fetchPhase_halted (s : State) : (fetchPhase s).state.halted = s.halted := by
  simp [fetchPhase]

/-- The register file after the Memory stage and the fill step is the one Writeback left. -/
@[simp] theorem afterFillStep_regs (s : State) : (afterFillStep s).regs = (writeback s).regs := by
  simp only [afterFillStep, memoryPhase, icFillStep_regs, memoryStage_regs]
@[simp] theorem executePhase_regs (s : State) : (executePhase s).state.regs = (writeback s).regs := by
  simp only [executePhase, executeStage_regs, retireStage_regs, afterFillStep_regs]
@[simp] theorem fetchPhase_regs (s : State) : (fetchPhase s).state.regs = (writeback s).regs := by
  simp only [fetchPhase, fetchStage_regs, executePhase_regs]
@[simp] theorem afterFillStep_mem (s : State) : (afterFillStep s).mem = (memoryPhase s).state.mem := by
  simp [afterFillStep]
@[simp] theorem executePhase_mem (s : State) : (executePhase s).state.mem = (memoryPhase s).state.mem := by
  simp [executePhase]
@[simp] theorem fetchPhase_mem (s : State) : (fetchPhase s).state.mem = (memoryPhase s).state.mem := by
  simp [fetchPhase]
@[simp] theorem executePhase_dcLines (s : State) :
    (executePhase s).state.dcLines = (memoryPhase s).state.dcLines := by
  simp [executePhase, afterFillStep]
@[simp] theorem fetchPhase_dcLines (s : State) :
    (fetchPhase s).state.dcLines = (memoryPhase s).state.dcLines := by
  simp [fetchPhase]
@[simp] theorem fetchPhase_dcFsm (s : State) : (fetchPhase s).state.dcFsm = (memoryPhase s).state.dcFsm := by
  simp [fetchPhase, executePhase, afterFillStep]
@[simp] theorem fetchPhase_icLines (s : State) : (fetchPhase s).state.icLines = (afterFillStep s).icLines := by
  simp [fetchPhase, executePhase]

/-- No cycle changes the parameters or the level. -/
@[simp] theorem advanceCycle_cfg (s : State) : (advanceCycle s).cfg = s.cfg := by
  rcases advanceCycle_cases s with ⟨_, h⟩ | ⟨_, _, _, h⟩ | ⟨_, _, h⟩ | ⟨_, _, h⟩ <;> rw [h] <;> simp
@[simp] theorem advanceCycle_level (s : State) : (advanceCycle s).level = s.level := by
  rcases advanceCycle_cases s with ⟨_, h⟩ | ⟨_, _, _, h⟩ | ⟨_, _, h⟩ | ⟨_, _, h⟩ <;> rw [h] <;> simp

end Sys2Proof.Machine
end

