-- ==== Sys2Proof/Laws/Run.lean ====
section
/-! SUPPORT. Runs of cycles: composition, and the fixed points. -/

namespace Sys2Proof.Machine

@[simp] theorem runCycles_zero (s : State) : runCycles 0 s = s := rfl
@[simp] theorem runCycles_succ (k : Nat) (s : State) : runCycles (k + 1) s = runCycles k (advanceCycle s) := rfl
@[simp] theorem executedCount_zero (s : State) : executedCount 0 s = 0 := rfl
theorem executedCount_succ (k : Nat) (s : State) :
    executedCount (k + 1) s = (if executesInstr s then 1 else 0) + executedCount k (advanceCycle s) := rfl
@[simp] theorem runSteps_zero (t : State) : runSteps 0 t = t := rfl
theorem runSteps_succ {t t' : State} (k : Nat) (h : step t = .next t') : runSteps (k + 1) t = runSteps k t' := by
  simp [runSteps, h]

theorem runCycles_add (j k : Nat) (s : State) : runCycles (j + k) s = runCycles k (runCycles j s) := by
  induction j generalizing s with
  | zero => simp
  | succ j ih => rw [Nat.succ_add, runCycles_succ, runCycles_succ, ih]

theorem executedCount_add (j k : Nat) (s : State) :
    executedCount (j + k) s = executedCount j s + executedCount k (runCycles j s) := by
  induction j generalizing s with
  | zero => simp
  | succ j ih => rw [Nat.succ_add, executedCount_succ, executedCount_succ, runCycles_succ, ih, Nat.add_assoc]

/-- What every cycle keeps, a run keeps. -/
theorem runCycles_induction {P : State → Prop} (h : ∀ s, P s → P (advanceCycle s)) (k : Nat) {s : State} (hs : P s) :
    P (runCycles k s) := by
  induction k generalizing s with
  | zero => exact hs
  | succ k ih => exact ih (h s hs)

theorem runCycles_fixed {s : State} (h : advanceCycle s = s) (k : Nat) : runCycles k s = s :=
  runCycles_induction (P := (· = s)) (fun _ ht => by rw [ht, h]) k rfl

end Sys2Proof.Machine
end

