-- ==== Sys2Proof/Tests/Slice0.lean ====
section
/-! SUPPORT. Tests: expected results from the spec's worked examples (the rule is named at each), the check that
ill-formed terms are refused, and for each statement of Certificates/Slice0/Obligations.lean that has hypotheses
a concrete state that meets them. -/

namespace Sys2Proof.Tests

open Sys2Proof.Machine

/-! ### Helpers -/

/-- A register file with the listed values and zeros elsewhere. -/
def regsOf (l : List (Reg × Word)) : RegFile :=
  l.foldl (fun g p => RegFile.write g p.1 p.2) (Vector.replicate 32 0)

/-- An architectural state at 0x1000 with the listed registers and bytes. -/
def arch (l : List (Reg × Word)) (m : Memory) : State :=
  { State.launch Config.default (regsOf l) m [] with level := .architectural }

/-- The state after an instruction. -/
def after (i : Instr) (s : State) : Option State :=
  match exec i s with
  | .next t => some t
  | .fault _ => none
  | .refused _ => none

/-- Register `r` after an instruction. -/
def regAfter (i : Instr) (s : State) (r : Reg) : Option Word := (after i s).map (State.readReg · r)

/-- `pc` after an instruction. -/
def pcAfter (i : Instr) (s : State) : Option Word := (after i s).map State.pc

/-- Memory after an instruction. -/
def memAfter (i : Instr) (s : State) : Option Memory := (after i s).map State.mem

/-- The decoded instruction of a word. -/
def decoded (iw : InstrWord) : Option Instr := (decodeWord iw).toOption

/-! ### WellFormed refuses a term with no encoding: the low zero bit of an offset (R96, R98) -/

theorem test_refuses_odd_beq_offset : (Instr.beq 1 2 0x001).wellFormed = false := by decide
theorem test_refuses_odd_bne_offset : (Instr.bne 1 2 0x1fff).wellFormed = false := by decide
theorem test_refuses_odd_blt_offset : (Instr.blt 1 2 0x801).wellFormed = false := by decide
theorem test_refuses_odd_bge_offset : (Instr.bge 1 2 0x003).wellFormed = false := by decide
theorem test_refuses_odd_bltu_offset : (Instr.bltu 1 2 0x005).wellFormed = false := by decide
theorem test_refuses_odd_bgeu_offset : (Instr.bgeu 1 2 0x1001).wellFormed = false := by decide
theorem test_refuses_odd_jal_offset : (Instr.jal 1 0x1fffff).wellFormed = false := by decide

/-! ### Decoding: words of the rules' examples (files 40 to 46) and of the table of 95_test_vectors.md 2.1 -/

theorem test_decode_loads :
    decoded 0xfff30283 = some (.lb 5 6 0xfff) ∧
    decoded 0x00231283 = some (.lh 5 6 2) ∧
    decoded 0x00432283 = some (.lw 5 6 4) ∧
    decoded 0x00013083 = some (.ld 1 2 0) ∧
    decoded 0xfff34283 = some (.lbu 5 6 0xfff) ∧
    decoded 0x00235283 = some (.lhu 5 6 2) ∧
    decoded 0x00436283 = some (.lwu 5 6 4) := by decide
theorem test_decode_stores :
    decoded 0x007300a3 = some (.sb 7 6 1) ∧
    decoded 0xfe731f23 = some (.sh 7 6 0xffe) ∧
    decoded 0x00732223 = some (.sw 7 6 4) ∧
    decoded 0x00733423 = some (.sd 7 6 8) := by decide
theorem test_decode_alu_immediate :
    decoded 0x00a00293 = some (.addi 5 0 10) ∧
    decoded 0xfff32293 = some (.slti 5 6 0xfff) ∧
    decoded 0xfff33293 = some (.sltiu 5 6 0xfff) ∧
    decoded 0xfff34293 = some (.xori 5 6 0xfff) ∧
    decoded 0x0f036293 = some (.ori 5 6 0x0f0) ∧
    decoded 0x0ff37293 = some (.andi 5 6 0x0ff) := by decide
theorem test_decode_shift_immediate :
    decoded 0x03f31293 = some (.slli 5 6 63) ∧
    decoded 0x03f35293 = some (.srli 5 6 63) ∧
    decoded 0x43f35293 = some (.srai 5 6 63) ∧
    decoded 0x0013029b = some (.addiw 5 6 1) ∧
    decoded 0x01f3129b = some (.slliw 5 6 31) ∧
    decoded 0x01f3529b = some (.srliw 5 6 31) ∧
    decoded 0x41f3529b = some (.sraiw 5 6 31) := by decide
theorem test_decode_alu_register :
    decoded 0x007302b3 = some (.add 5 6 7) ∧
    decoded 0x405303b3 = some (.sub 7 6 5) ∧
    decoded 0x007312b3 = some (.sll 5 6 7) ∧
    decoded 0x007322b3 = some (.slt 5 6 7) ∧
    decoded 0x007332b3 = some (.sltu 5 6 7) ∧
    decoded 0x007342b3 = some (.xor 5 6 7) ∧
    decoded 0x007352b3 = some (.srl 5 6 7) ∧
    decoded 0x407352b3 = some (.sra 5 6 7) ∧
    decoded 0x007362b3 = some (.or 5 6 7) ∧
    decoded 0x007372b3 = some (.and 5 6 7) := by decide
theorem test_decode_word_register :
    decoded 0x007302bb = some (.addw 5 6 7) ∧
    decoded 0x407302bb = some (.subw 5 6 7) ∧
    decoded 0x007312bb = some (.sllw 5 6 7) ∧
    decoded 0x007352bb = some (.srlw 5 6 7) ∧
    decoded 0x407352bb = some (.sraw 5 6 7) := by decide
theorem test_decode_muldiv :
    decoded 0x027302b3 = some (.mul 5 6 7) ∧
    decoded 0x027342b3 = some (.div 5 6 7) ∧
    decoded 0x027362b3 = some (.rem 5 6 7) := by decide
theorem test_decode_upper :
    decoded 0x123452b7 = some (.lui 5 0x12345) ∧
    decoded 0x00001297 = some (.auipc 5 1) := by decide
theorem test_decode_branches :
    decoded 0x00000463 = some (.beq 0 0 8) ∧
    decoded 0xfe011ce3 = some (.bne 2 0 0x1ff8) ∧
    decoded 0x00734463 = some (.blt 6 7 8) ∧
    decoded 0x00735463 = some (.bge 6 7 8) ∧
    decoded 0x00736463 = some (.bltu 6 7 8) ∧
    decoded 0x00737463 = some (.bgeu 6 7 8) := by decide
theorem test_decode_jumps :
    decoded 0x010000ef = some (.jal 1 16) ∧
    decoded 0x0000006f = some (.jal 0 0) ∧
    decoded 0x000280e7 = some (.jalr 1 5 0) ∧
    decoded 0x00008067 = some (.jalr 0 1 0) := by decide
theorem test_decode_system :
    decoded 0x0ff0000f = some (.fence 0x0ff 0 0) ∧
    decoded 0x0000100f = some (.fenceI 0 0 0) ∧
    decoded 0x00000073 = some (.ecall) ∧
    decoded 0x00100073 = some (.ebreak) ∧
    decoded 0x300312f3 = some (.csrrw 5 0x300 6) ∧
    decoded 0x300322f3 = some (.csrrs 5 0x300 6) ∧
    decoded 0x300332f3 = some (.csrrc 5 0x300 6) ∧
    decoded 0x300352f3 = some (.csrrwi 5 0x300 6) ∧
    decoded 0x300362f3 = some (.csrrsi 5 0x300 6) ∧
    decoded 0x300372f3 = some (.csrrci 5 0x300 6) := by decide
/-- R111, R115, R408: the zero and all-ones words, `mulh`, `mret`, `sret`, `uret`, `wfi`, an atomic, a shift
with a stray bit. -/
theorem test_decode_faults :
    [0x00000000, 0xffffffff, 0x027312b3, 0x30200073, 0x10200073, 0x00200073, 0x10500073, 0x0062b2af,
      0x0473129b, 0x02031293 + 0x04000000].all (fun iw => (decoded iw).isNone) = true := by decide
theorem test_decode_table_word : decodeTableWord 32 0x405303b3 = some (.sub 7 6 5) := by decide

/-! ### Instructions: the examples of their rules -/

theorem test_lb : regAfter (.lb 5 6 0xfff) (arch [(6, 0x2001)] [(0x2000, 0x80)]) 5 = some 0xFFFFFFFFFFFFFF80 := by decide
theorem test_lh : regAfter (.lh 5 6 2) (arch [(6, 0x2000)] [(0x2002, 0x34), (0x2003, 0x82)]) 5 = some 0xFFFFFFFFFFFF8234 := by decide
theorem test_lw : regAfter (.lw 5 6 4) (arch [(6, 0x2000)] [(0x2004, 0x78), (0x2005, 0x56), (0x2006, 0x34), (0x2007, 0xF2)]) 5 = some 0xFFFFFFFFF2345678 := by decide
theorem test_ld : regAfter (.ld 1 2 0) (arch [(2, 0x2000)] [(0x2000, 0x11), (0x2001, 0x22), (0x2002, 0x33), (0x2003, 0x44),
      (0x2004, 0x55), (0x2005, 0x66), (0x2006, 0x77), (0x2007, 0x88)]) 1 = some 0x8877665544332211 := by decide
theorem test_lbu : regAfter (.lbu 5 6 0xfff) (arch [(6, 0x2001)] [(0x2000, 0x80)]) 5 = some 0x80 := by decide
theorem test_lhu : regAfter (.lhu 5 6 2) (arch [(6, 0x2000)] [(0x2002, 0x34), (0x2003, 0x82)]) 5 = some 0x8234 := by decide
theorem test_lwu : regAfter (.lwu 5 6 4) (arch [(6, 0x2000)] [(0x2004, 0x78), (0x2005, 0x56), (0x2006, 0x34), (0x2007, 0xF2)]) 5 = some 0xF2345678 := by decide
theorem test_sb : memAfter (.sb 7 6 1) (arch [(6, 0x2000), (7, 0x1122334455667788)] []) = some [(0x2001, 0x88)] := by decide
theorem test_sh : memAfter (.sh 7 6 0xffe) (arch [(6, 0x2004), (7, 0x1122334455667788)] []) =
    some [(0x2002, 0x88), (0x2003, 0x77)] := by decide
theorem test_sw : memAfter (.sw 7 6 4) (arch [(6, 0x2000), (7, 0x1122334455667788)] []) =
    some [(0x2004, 0x88), (0x2005, 0x77), (0x2006, 0x66), (0x2007, 0x55)] := by decide
theorem test_sd : memAfter (.sd 7 6 8) (arch [(6, 0x2000), (7, 0x1122334455667788)] []) =
    some [(0x2008, 0x88), (0x2009, 0x77), (0x200a, 0x66), (0x200b, 0x55), (0x200c, 0x44), (0x200d, 0x33),
      (0x200e, 0x22), (0x200f, 0x11)] := by decide
/-- Storing what an unlisted byte reads as keeps the canonical form. -/
theorem test_store_zero_unlists : memAfter (.sb 0 6 0) (arch [(6, 0x2000)] [(0x2000, 0x80)]) = some [] := by decide
theorem test_addi : regAfter (.addi 5 6 1) (arch [(6, 0x7FFFFFFFFFFFFFFF)] []) 5 = some 0x8000000000000000 := by decide
theorem test_slti : regAfter (.slti 5 6 0xfff) (arch [(6, 0x8000000000000001)] []) 5 = some 1 := by decide
theorem test_sltiu : regAfter (.sltiu 5 6 0xfff) (arch [(6, 5)] []) 5 = some 1 := by decide
theorem test_xori : regAfter (.xori 5 6 0xfff) (arch [(6, 0xFF)] []) 5 = some 0xFFFFFFFFFFFFFF00 := by decide
theorem test_ori : regAfter (.ori 5 6 0x0f0) (arch [(6, 0x1000)] []) 5 = some 0x10F0 := by decide
theorem test_andi : regAfter (.andi 5 6 0x0ff) (arch [(6, 0x123456789ABCDEF0)] []) 5 = some 0xF0 := by decide
theorem test_slli : regAfter (.slli 5 6 63) (arch [(6, 3)] []) 5 = some 0x8000000000000000 := by decide
theorem test_srli : regAfter (.srli 5 6 63) (arch [(6, 0x8000000000000001)] []) 5 = some 1 := by decide
theorem test_srai : regAfter (.srai 5 6 1) (arch [(6, 0x8000000000000001)] []) 5 = some 0xC000000000000000 := by decide
theorem test_addiw : regAfter (.addiw 5 6 1) (arch [(6, 0x7FFFFFFF)] []) 5 = some 0xFFFFFFFF80000000 := by decide
theorem test_slliw : regAfter (.slliw 5 6 30) (arch [(6, 0xFFFFFFFF00000003)] []) 5 = some 0xFFFFFFFFC0000000 := by decide
theorem test_srliw : regAfter (.srliw 5 6 0) (arch [(6, 0x80000000)] []) 5 = some 0xFFFFFFFF80000000 := by decide
theorem test_sraiw : regAfter (.sraiw 5 6 1) (arch [(6, 0x180000000)] []) 5 = some 0xFFFFFFFFC0000000 := by decide
theorem test_add : regAfter (.add 5 6 7) (arch [(6, 0xFFFFFFFFFFFFFFFF), (7, 1)] []) 5 = some 0 := by decide
theorem test_sub : regAfter (.sub 7 6 5) (arch [(6, 15), (5, 10)] []) 7 = some 5 := by decide
theorem test_sll : regAfter (.sll 5 6 7) (arch [(6, 1), (7, 65)] []) 5 = some 2 := by decide
theorem test_slt : regAfter (.slt 5 6 7) (arch [(6, 1), (7, 0x8000000000000001)] []) 5 = some 0 := by decide
theorem test_sltu : regAfter (.sltu 5 6 7) (arch [(6, 1), (7, 0x8000000000000001)] []) 5 = some 1 := by decide
theorem test_xor : regAfter (.xor 5 6 7) (arch [(6, 0xFF00), (7, 0x0FF0)] []) 5 = some 0xF0F0 := by decide
theorem test_srl : regAfter (.srl 5 6 7) (arch [(6, 0x8000000000000001), (7, 63)] []) 5 = some 1 := by decide
theorem test_sra : regAfter (.sra 5 6 7) (arch [(6, 0x8000000000000001), (7, 127)] []) 5 = some 0xFFFFFFFFFFFFFFFF := by decide
theorem test_or : regAfter (.or 5 6 7) (arch [(6, 0xF0), (7, 0x0F)] []) 5 = some 0xFF := by decide
theorem test_and : regAfter (.and 5 6 7) (arch [(6, 0xFF), (7, 0x0F0F)] []) 5 = some 0x0F := by decide
theorem test_addw : regAfter (.addw 5 6 7) (arch [(6, 0x7FFFFFFF), (7, 1)] []) 5 = some 0xFFFFFFFF80000000 := by decide
theorem test_subw : regAfter (.subw 5 6 7) (arch [(6, 0x80000000), (7, 1)] []) 5 = some 0x7FFFFFFF := by decide
theorem test_sllw : regAfter (.sllw 5 6 7) (arch [(6, 1), (7, 63)] []) 5 = some 0xFFFFFFFF80000000 := by decide
theorem test_srlw : regAfter (.srlw 5 6 7) (arch [(6, 0x80000000), (7, 31)] []) 5 = some 1 := by decide
theorem test_sraw : regAfter (.sraw 5 6 7) (arch [(6, 0x80000000), (7, 4)] []) 5 = some 0xFFFFFFFFF8000000 := by decide
theorem test_mul : regAfter (.mul 5 6 7) (arch [(6, 7), (7, 0xFFFFFFFFFFFFFFFD)] []) 5 = some 0xFFFFFFFFFFFFFFEB := by decide
theorem test_div : regAfter (.div 5 6 7) (arch [(6, 0xFFFFFFFFFFFFFFF9), (7, 2)] []) 5 = some 0xFFFFFFFFFFFFFFFD := by decide
theorem test_div_overflow : regAfter (.div 5 6 7) (arch [(6, 0x8000000000000000), (7, 0xFFFFFFFFFFFFFFFF)] []) 5 = some 0x8000000000000000 := by decide
theorem test_rem : regAfter (.rem 5 6 7) (arch [(6, 0xFFFFFFFFFFFFFFF9), (7, 2)] []) 5 = some 0xFFFFFFFFFFFFFFFF := by decide
theorem test_rem_by_zero : regAfter (.rem 5 6 7) (arch [(6, 9)] []) 5 = some 9 := by decide
/-- R201 with the default parameter. -/
theorem test_lui : regAfter (.lui 5 0x80000) (arch [] []) 5 = some 0x80000000 := by decide
theorem test_auipc : regAfter (.auipc 5 1) (arch [] []) 5 = some 0x2000 := by decide
theorem test_beq : pcAfter (.beq 0 0 8) (arch [] []) = some 0x1008 := by decide
theorem test_bne : pcAfter (.bne 2 0 0x1ff8) (arch [(2, 3)] []) = some 0xff8 := by decide
theorem test_blt : pcAfter (.blt 6 7 8) (arch [(6, 0xFFFFFFFFFFFFFFFF)] []) = some 0x1008 := by decide
theorem test_bge : pcAfter (.bge 6 7 8) (arch [(6, 0xFFFFFFFFFFFFFFFF)] []) = some 0x1004 := by decide
theorem test_bltu : pcAfter (.bltu 6 7 8) (arch [(7, 0xFFFFFFFFFFFFFFFF)] []) = some 0x1008 := by decide
theorem test_bgeu : pcAfter (.bgeu 6 7 8) (arch [(6, 0xFFFFFFFFFFFFFFFF)] []) = some 0x1008 := by decide
theorem test_jal : pcAfter (.jal 1 16) (arch [] []) = some 0x1010 ∧
    regAfter (.jal 1 16) (arch [] []) 1 = some 0x1004 := by decide
/-- R218: the target uses the old `x[rs1]`, and bit 0 of the sum is cleared. -/
theorem test_jalr : pcAfter (.jalr 5 5 3) (arch [(5, 0x2000)] []) = some 0x2002 ∧
    regAfter (.jalr 5 5 3) (arch [(5, 0x2000)] []) 5 = some 0x1004 := by decide
theorem test_fence : pcAfter (.fence 0x0ff 0 0) (arch [] []) = some 0x1004 := by decide
theorem test_fence_i : pcAfter (.fenceI 0 0 0) (arch [] []) = some 0x1004 := by decide
theorem test_ecall : pcAfter (.ecall) (arch [] []) = some 0x1004 := by decide
theorem test_ebreak : pcAfter (.ebreak) (arch [] []) = some 0x1004 := by decide
theorem test_csrrw : regAfter (.csrrw 5 0x300 6) (arch [(5, 77), (6, 3)] []) 5 = some 77 := by decide
theorem test_csrrs : regAfter (.csrrs 5 0x300 6) (arch [(5, 77), (6, 3)] []) 5 = some 77 := by decide
theorem test_csrrc : regAfter (.csrrc 5 0x300 6) (arch [(5, 77), (6, 3)] []) 5 = some 77 := by decide
theorem test_csrrwi : regAfter (.csrrwi 5 0x300 6) (arch [(5, 77), (6, 3)] []) 5 = some 77 := by decide
theorem test_csrrsi : regAfter (.csrrsi 5 0x300 6) (arch [(5, 77), (6, 3)] []) 5 = some 77 := by decide
theorem test_csrrci : regAfter (.csrrci 5 0x300 6) (arch [(5, 77), (6, 3)] []) 5 = some 77 := by decide

/-- R21: a write to `x0` is not performed. -/
theorem test_x0_discards : regAfter (.addi 0 0 5) (arch [] []) 0 = some 0 := by decide

/-! ### Witnesses: for each statement with hypotheses, a concrete input that meets them, at boundary values
for each clause -/

/-- A running pipeline before its first cycle. -/
def pipe (l : List (Reg × Word)) (m : Memory) (ans : List Bool) : State :=
  State.launch Config.default (regsOf l) m ans

/-- An instruction in `MR` from 0x1000. -/
def mrOf (iw : InstrWord) (result addr sdata : Word) : ExecutedInstr :=
  let d := decodeOperands Config.default iw
  { pc := 0x1000, iw, tag := d.tag, rd := d.rd, wr := d.wr, result, addr, sdata, branch := false
    wrongPrediction := false }

/-- An instruction in `WR` from 0xffc. -/
def wrOf (iw : InstrWord) (result : Word) : CompletedInstr :=
  let d := decodeOperands Config.default iw
  { pc := 0xffc, iw, tag := d.tag, rd := d.rd, wr := d.wr, result }

/-- An instruction in `XR` from 0x1004. -/
def xrOf (iw : InstrWord) (v1 v2 : Word) (pred : Bool) (predNpc : Word) : DecodedInstr :=
  let d := decodeOperands Config.default iw
  { pc := 0x1004, iw, tag := d.tag, rd := d.rd, rs1 := d.rs1, rs2 := d.rs2, usesRs1 := d.usesRs1
    usesRs2 := d.usesRs2, wr := d.wr, imm := d.imm, v1, v2, pred, predNpc }

/-- An instruction in `DR` from 0x1008. -/
def drOf (iw : InstrWord) : FetchedInstr := { pc := 0x1008, iw, pred := false, predNpc := 0x100c }

/-! Decoding: a word the first and the last row accept, words no row accepts, a word of every format. -/

theorem test_witness_a_row_accepts :
    (⟨0x00000003, 0x0000707f, .lb⟩ : OpcodeRow) ∈ opcodeRows ∧
      (⟨0x00000003, 0x0000707f, .lb⟩ : OpcodeRow).accepts 0xfff30283 ∧
      (⟨0x00007073, 0x0000707f, .csrrci⟩ : OpcodeRow) ∈ opcodeRows ∧
      (⟨0x00007073, 0x0000707f, .csrrci⟩ : OpcodeRow).accepts 0xfffff073 := by decide
theorem test_witness_no_row_accepts :
    (∀ row ∈ opcodeRows, ¬row.accepts 0) ∧ ∀ row ∈ opcodeRows, ¬row.accepts 0xffffffff := by decide
theorem test_witness_formats :
    [0x405303b3, 0x80030283, 0x7ff28013, 0x43f35293, 0x41f3529b, 0xfe731f23, 0x80000063, 0xfffff2b7, 0x800000ef,
      0x00000073, 0].map (fun iw => Tag.format (decodeOperands Config.default iw).tag) =
    [.r, .i, .i, .shift6, .shift5, .s, .b, .u, .j, .noOp, .noOp] := by decide
theorem test_witness_u_settings :
    Config.default.uImmSignExtend = false ∧ { Config.default with uImmSignExtend := true }.uImmSignExtend = true := by
  decide
theorem test_witness_well_formed :
    (Instr.sub 31 0 31).wellFormed = true ∧ (Instr.beq 31 0 0x1000).wellFormed = true ∧
      (Instr.bne 0 31 0x0ffe).wellFormed = true ∧ (Instr.jal 31 0x100000).wellFormed = true ∧
      (Instr.jal 0 0x0ffffe).wellFormed = true ∧ (Instr.srai 0 31 63).wellFormed = true := by decide
theorem test_witness_decodes : decodeWord 0x405303b3 = .ok (.sub 7 6 5) := by decide
/-- The shift clauses: each first and last bad value of the upper bits around the good ones. -/
theorem test_witness_bad_shifts :
    (InstrWord.bits 0x04031293 6 0 = 0b0010011 ∧ InstrWord.bits 0x04031293 14 12 = 0b001 ∧
      InstrWord.bits 0x04031293 31 26 = 1) ∧
    (InstrWord.bits 0x44035293 6 0 = 0b0010011 ∧ InstrWord.bits 0x44035293 14 12 = 0b101 ∧
      InstrWord.bits 0x44035293 31 26 = 0b010001) ∧
    (InstrWord.bits 0x0203129b 6 0 = 0b0011011 ∧ InstrWord.bits 0x0203129b 14 12 = 0b001 ∧
      InstrWord.bits 0x0203129b 31 25 = 1) ∧
    (InstrWord.bits 0x4203529b 6 0 = 0b0011011 ∧ InstrWord.bits 0x4203529b 14 12 = 0b101 ∧
      InstrWord.bits 0x4203529b 31 25 = 0b0100001) := by decide

/-! Instructions. -/

/-- The top of memory: aligned for 2, 4 and 8 bytes, with the address computed by wrapping around. -/
theorem test_witness_loads :
    let a := wrap64 (((arch [(6, 0x0)] []).readReg 6).toNat + (0xff8 : BitVec 12).toInt)
    a = 0xFFFFFFFFFFFFFFF8 ∧ a.toNat % 2 = 0 ∧ a.toNat % 4 = 0 ∧ a.toNat % 8 = 0 := by decide
theorem test_witness_stores :
    (arch [(6, 0x0)] [(0x2000, 1)]).MemOk ∧ (arch [(6, 0x0)] [(0x2000, 1)]).effAddr 6 0xff8 = 0xFFFFFFFFFFFFFFF8 := by
  decide
theorem test_witness_misaligned :
    let a := fun (imm : BitVec 12) => wrap64 (((arch [(6, 0x2000)] []).readReg 6).toNat + imm.toInt)
    (a 0xfff).toNat % 2 ≠ 0 ∧ (a 2).toNat % 4 ≠ 0 ∧ (a 4).toNat % 8 ≠ 0 := by decide
theorem test_witness_even_offsets :
    (0x1000 : BitVec 13).toNat % 2 = 0 ∧ (0x0ffe : BitVec 13).toNat % 2 = 0 ∧
      (0x100000 : BitVec 21).toNat % 2 = 0 ∧ (0x0ffffe : BitVec 21).toNat % 2 = 0 := by decide
/-- The division clauses: a zero divisor, another under both settings, and the overflow pair. -/
theorem test_witness_division :
    let s := arch [(6, 0x8000000000000000), (7, 0xFFFFFFFFFFFFFFFF)] []
    let u := { s with cfg := { s.cfg with divremSigned := false } }
    s.readReg 5 = 0 ∧ s.readReg 7 ≠ 0 ∧ s.cfg.divremSigned = true ∧ u.cfg.divremSigned = false ∧ u.readReg 7 ≠ 0 ∧
      s.readReg 6 = 0x8000000000000000 ∧ s.readReg 7 = 0xFFFFFFFFFFFFFFFF ∧
      ¬(s.readReg 7 = 0x8000000000000000 ∧ s.readReg 6 = 0xFFFFFFFFFFFFFFFF) := by decide
/-- The frame: an instruction with and one without a destination, a store that changes a byte. -/
theorem test_witness_frame :
    let s := arch [(6, 0x2000), (7, 0x88)] []
    (after (.sb 7 6 1) s).isSome = true ∧ ((Instr.sb 7 6 1).operands s.cfg).wr = false ∧
      (Instr.sb 7 6 1).tag.isStore = true ∧ (Instr.addi 5 6 1).tag.isStore = false ∧
      (memAfter (.sb 7 6 1) s).map (Memory.byte · 0x2001) ≠ some (s.mem.byte 0x2001) := by decide
/-- Loads of each width at offsets 0 and, for the bytes, 7 of a stored doubleword. -/
theorem test_witness_stored_doubleword :
    let s := arch [(6, 0x2000), (7, 0x1122334455667788)] []
    s.MemOk ∧ (s.effAddr 6 8).toNat % 8 = 0 ∧
      (after (.sd 7 6 8) s).map (State.effAddr · 6 15) = some (s.effAddr 6 8 + BitVec.ofNat 64 7) ∧
      (after (.sd 7 6 8) s).map (State.effAddr · 6 8) = some (s.effAddr 6 8 + BitVec.ofNat 64 0) := by decide

/-! The step of the architectural machine. -/

theorem test_witness_step :
    let s := arch [] [(0x1000, 0x93), (0x1001, 0x02), (0x1002, 0xa0)]
    s.level = .architectural ∧ s.halted = false ∧ s.pc.toNat % 4 = 0 ∧
      decodeBytes ([s.mem.byte s.pc, s.mem.byte (s.pc + 1), s.mem.byte (s.pc + 2), s.mem.byte (s.pc + 3)] ++ []) =
        .ok (.addi 5 0 10, []) := by decide
theorem test_witness_cycle_level : State.reset.level = .cycle := by decide
theorem test_witness_placed :
    State.reset.MemOk ∧ decodeTableWord 32 0x405303b3 = some (.sub 7 6 5) ∧
      (4 : Nat) ≤ ((0xffc : Word) - (State.reset.withFetchWord 32 0x405303b3).pc).toNat := by decide
theorem test_witness_decode_fault :
    let s := arch [] []
    let h := { s with cfg := { s.cfg with decodeFaultPolicy := .halt } }
    s.level = .architectural ∧ s.halted = false ∧ s.pc.toNat % 4 = 0 ∧
      (∃ e, decodeWord (s.mem.instrAt s.pc) = .error e) ∧ s.cfg.decodeFaultPolicy = .nop ∧
      h.cfg.decodeFaultPolicy = .halt ∧ h.mem = s.mem ∧ h.pc = s.pc :=
  ⟨rfl, rfl, rfl, ⟨_, rfl⟩, rfl, rfl, rfl, rfl⟩
theorem test_witness_misaligned_pc :
    let s := { arch [] [] with pc := 0x1002 }
    s.level = .architectural ∧ s.halted = false ∧ s.pc.toNat % 4 ≠ 0 := by decide

/-! Launches and the invariants. -/

/-- The policy `HALT`. -/
def haltCfg : Config := { Config.default with decodeFaultPolicy := .halt }

/-- Under either policy, with 8 times one true answers among others. -/
theorem test_witness_launch :
    (regsOf [(1, 7)]).get 0 = 0 ∧ Memory.wf [(0x1000, 0x93)] ∧ even Config.default.resetPc = true ∧
      Config.default.resetPc.toNat % 4 = 0 ∧ even haltCfg.resetPc = true ∧
      8 * 1 ≤ (false :: List.replicate 8 true).count true := by decide

/-- A pipeline with an instruction in every stage register, both fill controllers at work, a valid line in
both caches and an entry in the branch target buffer. -/
def busy : State :=
  { pipe [(2, 0x2000)]
      ([(0x1000, 0x83), (0x1001, 0x30), (0x1002, 0x01), (0x1004, 0x93), (0x1005, 0x02), (0x1006, 0xa0)] ++
       [(0x1008, 0x93), (0x1009, 0x02), (0x100a, 0xa0), (0x2000, 5)]) [] with
    pc := 0x100c
    dr := some (drOf 0x00a00293)
    xr := some (xrOf 0x00a00293 0 0 false 0x1008)
    mr := some (mrOf 0x00013083 0 0x2000 0)
    wr := some (wrOf 0x007302b3 9)
    btb := (Vector.replicate 32 none).set 0 (some { tag := 0x1010, target := some 0x1000 })
    icLines := [(256, { tag := 0, words := #v[0x00013083, 0x00a00293, 0x00a00293, 0] })]
    icFsm := .wait 0x1010 0
    dcLines := [(0, { tag := 0, data := 0 })]
    dcFsm := .wait 0x2000 5 }

theorem test_witness_inv : busy.Inv :=
  ⟨by decide, by decide, ⟨by decide, by decide, by rintro _ ⟨⟩; decide⟩,
    ⟨by decide, by decide, by rintro _ ⟨⟩; decide⟩,
    ⟨by decide, by decide, by
      rw [show busy.btb.toList.filterMap id = [{ tag := 0x1010, target := some 0x1000 }] by decide]
      simp; decide⟩,
    ⟨by rintro _ ⟨⟩; decide, by rintro _ ⟨⟩; decide, by rintro _ ⟨⟩; decide, by rintro _ ⟨⟩; decide⟩, by decide⟩
theorem test_witness_ref_inv : busy.RefInv :=
  ⟨test_witness_inv, ⟨by rintro _ ⟨⟩; decide, by rintro _ ⟨⟩; decide⟩, by rintro _ ⟨⟩; decide,
    ⟨by decide, by rintro _ ⟨⟩; decide, by rintro _ ⟨⟩; decide, by rintro _ ⟨⟩; decide⟩, by decide, by decide⟩

/-- The same with a store to 0x2008 in `MR`, whose call succeeds. -/
def storing : State :=
  { busy with mr := some (mrOf 0x00513423 0 0x2008 7), dcFsm := .idle, answers := [true, true] }

theorem test_witness_ref_inv_storing : storing.RefInv :=
  ⟨⟨by decide, by decide, ⟨by decide, by decide, by rintro _ ⟨⟩; decide⟩,
      ⟨by decide, by decide, by rintro _ ⟨⟩⟩, test_witness_inv.2.2.2.2.1,
      ⟨by rintro _ ⟨⟩; decide, by rintro _ ⟨⟩; decide, by rintro _ ⟨⟩; decide, by rintro _ ⟨⟩; decide⟩, by decide⟩,
    ⟨by rintro _ ⟨⟩; decide, by rintro _ ⟨⟩; decide⟩, by rintro _ ⟨⟩; decide,
    ⟨by decide, by rintro _ ⟨⟩; decide, by rintro _ ⟨⟩; decide, by rintro _ ⟨⟩; decide⟩, by decide, by decide⟩
theorem test_witness_no_code_store : storing.NoCodeStore := by
  rintro - _ ⟨⟩ -
  exact ⟨by decide, by rintro _ ⟨⟩; decide, by rintro _ ⟨⟩; decide, by rintro _ ⟨⟩; decide⟩
/-- The same under `HALT`, with a decode fault in `MR`: the core is stopping. -/
def stoppingCore : State :=
  { busy with cfg := haltCfg, mr := some (mrOf 0 0 0 0), dcFsm := .idle, answers := [true, true] }

theorem test_witness_ref_inv_stopping : stoppingCore.RefInv :=
  ⟨⟨by decide, by decide, ⟨by decide, by decide, by rintro _ ⟨⟩; decide⟩,
      ⟨by decide, by decide, by rintro _ ⟨⟩⟩, test_witness_inv.2.2.2.2.1,
      ⟨by rintro _ ⟨⟩; decide, by rintro _ ⟨⟩; decide, by rintro _ ⟨⟩; decide, by rintro _ ⟨⟩; decide⟩, by decide⟩,
    ⟨by rintro _ ⟨⟩; decide, by rintro _ ⟨⟩; decide⟩, by rintro _ ⟨⟩; decide,
    ⟨by decide, by rintro _ ⟨⟩; decide, by rintro _ ⟨⟩; decide, by rintro _ ⟨⟩; decide⟩, by decide, by decide⟩
theorem test_witness_no_code_store_stopping : stoppingCore.NoCodeStore := by
  rintro - _ ⟨⟩ h
  exact absurd h (by decide)
/-- The architectural state with the view of a pipeline state. -/
def archOf (s : State) : State :=
  let v := s.committedView
  { s with level := .architectural, regs := v.regs, mem := v.mem, pc := v.pc, events := v.events
           bus := v.stores.map (·, true), halted := (stopping s).isSome }

/-- A cycle of each kind, and a core that is stopping. -/
theorem test_witness_one_instruction :
    (archOf storing).level = .architectural ∧ (archOf storing).halted = (stopping storing).isSome ∧
      (archOf storing).cfg = storing.cfg ∧ (archOf storing).archView = storing.committedView ∧
      executesInstr storing = true ∧ executesInstr busy = false ∧ stopping storing = none ∧
      (archOf stoppingCore).archView = stoppingCore.committedView ∧ (stopping stoppingCore).isSome = true ∧
      executesInstr stoppingCore = true := by decide
/-- Runs of 6 and 7 cycles in which Execute has evaluated one instruction, under different answers of the
memory; `MR` is empty before the last of them, so nothing is stored. -/
theorem test_witness_same_count :
    let s := pipe [] [] [true, true]
    let s' := pipe [] [] [true, false, true]
    executedCount 6 s = 1 ∧ executedCount 7 s' = 1 ∧ (∀ j, j < 6 → (runCycles j s).mr = none) ∧
      ∀ j, j < 7 → (runCycles j s').mr = none := by decide
theorem test_witness_no_store (s : State) (h : s.mr = none) : s.NoCodeStore := by
  intro _ m hm; rw [h] at hm; cases hm

/-! Progress and the end of a run. -/

/-- A state that is not stuck with 8 true answers to come, and one of each kind that is stuck. -/
theorem test_witness_progress :
    busy.level = .cycle ∧
      8 ≤ ({ busy with answers := false :: List.replicate 8 true } : State).answers.count true ∧ ¬busy.Stuck ∧
      ({ stoppingCore with wr := some (wrOf 0 0) } : State).Stuck ∧
      ({ busy with mr := some (mrOf 0x00013083 0 0x2004 0) } : State).Stuck ∧
      ({ busy with xr := none, dr := none, pc := 0x1002 } : State).Stuck := by decide

/-- A pipeline in which `jal x0, 0` at 0x1000 retires, with a copy of it in `MR`. -/
def ending : State :=
  { pipe [(1, 7)] [(0x1000, 0x6f)] [true] with
    mr := some (mrOf 0x0000006f 0x1004 0 0), wr := some { wrOf 0x0000006f 0x1004 with pc := 0x1000 } }

theorem test_witness_ending_ref_inv : ending.RefInv :=
  ⟨⟨by decide, by decide, ⟨by decide, by decide, by rintro _ ⟨⟩⟩, ⟨by decide, by decide, by rintro _ ⟨⟩⟩,
      ⟨by decide, by decide, by
        rw [show ending.btb.toList.filterMap id = [] by decide]
        simp⟩,
      ⟨by rintro _ ⟨⟩, by rintro _ ⟨⟩, by rintro _ ⟨⟩; decide, by rintro _ ⟨⟩; decide⟩, by decide⟩,
    ⟨by rintro _ ⟨⟩, by rintro _ ⟨⟩⟩, by rintro _ ⟨⟩,
    ⟨by decide, by rintro _ ⟨⟩, by rintro _ ⟨⟩, by rintro _ ⟨⟩⟩, by decide, by decide⟩
theorem test_witness_ending : ending.EndOk ∧ endsRun ending = true ∧ (advanceCycle ending).halted = false := by
  refine ⟨⟨?_, ?_⟩, by decide, by decide⟩
  · rintro _ ⟨⟩ -; decide
  · rintro _ ⟨⟩ -
    exact ⟨by decide, by rintro _ ⟨⟩; decide⟩
/-- The run ended by `HALT`; and at the architectural level, by `jal x0, 0` and by the halt. -/
theorem test_witness_ends_run :
    let s := arch [] [(0x1000, 0x6f)]
    endsRun ({ stoppingCore with wr := some (wrOf 0 0) } : State) = true ∧ s.level = .architectural ∧
      endsRun s = true ∧ endsRun { arch [] [] with halted := true } = true ∧ endsRun (arch [] []) = false := by
  decide
/-- `addi x5, x0, 10` and then `jal x0, 0` (R269): the run ends with the second step. -/
theorem test_run_to_end :
    let s := arch [] [(0x1000, 0x93), (0x1001, 0x02), (0x1002, 0xa0), (0x1004, 0x6f)]
    (runToEnd 2 s).map (fun t => (t.pc, t.readReg 5)) = some (0x1004, 10) ∧ runToEnd 1 s = none := by decide
/-- R33, P7 under `HALT`: the core has halted with `IC.fsm` in `Wait`; `i_cache_stall` is the condition of the
controller (log 21). -/
theorem test_i_cache_stall_halted :
    flagICacheStall { busy with halted := true } = true ∧
      flagICacheStall { busy with halted := true, icFsm := .idle } = false := by decide

/-! Cycles: a running core, held and not; the halt. -/

theorem test_witness_runs : busy.Runs ∧ storing.Runs := by decide
theorem test_witness_not_running : ¬({ busy with halted := true } : State).Runs := by decide
theorem test_witness_hold : (runCycle busy).holdAll = true ∧ (runCycle storing).holdAll = false := by decide
theorem test_witness_halts :
    let s := { busy with cfg := { busy.cfg with decodeFaultPolicy := .halt }, wr := some (wrOf 0 0) }
    s.halted = false ∧ s.cfg.decodeFaultPolicy = .halt ∧ s.wr = some (wrOf 0 0) ∧ (wrOf 0 0).tag = .decodeFault := by
  decide

/-! The data cache. -/

/-- A pipeline with one instruction in `MR` and everything else idle. -/
def inMemory (m : ExecutedInstr) (ans : List Bool) : State :=
  { pipe [] [(0x2000, 5)] ans with mr := some m }

/-- `ld x1, 0(x2)` and `sd x5, 8(x2)` in `MR`. -/
def aLoad (addr : Word) : ExecutedInstr := mrOf 0x00013083 0 addr 0
def aStore (addr v : Word) : ExecutedInstr := mrOf 0x00513423 0 addr v

theorem test_witness_passes :
    (pipe [] [] []).Runs ∧ (pipe [] [] []).mr = none ∧ (inMemory (mrOf 0x007302b3 9 0 0) []).Runs ∧
      (mrOf 0x007302b3 9 0 0).tag.isLoad = false ∧ (mrOf 0x007302b3 9 0 0).tag.isStore = false := by decide
theorem test_witness_load_hit :
    let s := { inMemory (aLoad 0x2000) [] with dcLines := [(1024, { tag := 0, data := 5 })] }
    s.Runs ∧ s.mr = some (aLoad 0x2000) ∧ (aLoad 0x2000).tag.isLoad = true ∧
      (aLoad 0x2000).addr.toNat % accessBytes (aLoad 0x2000).tag = 0 ∧ s.dcFsm = .idle ∧
      DcHolds s.dcLines (aLoad 0x2000).addr { tag := 0, data := 5 } := by decide
/-- The issue, the wait and the commit of a fill. -/
theorem test_witness_data_miss :
    let s := inMemory (aLoad 0x2000) [true]
    let w := { s with dcFsm := .wait 0x2000 5 }
    let c := { s with dcFsm := .commit 0x2000 5 }
    s.Runs ∧ w.Runs ∧ c.Runs ∧ s.mr = some (aLoad 0x2000) ∧ (aLoad 0x2000).tag.isLoad = true ∧
      (aLoad 0x2000).addr.toNat % accessBytes (aLoad 0x2000).tag = 0 ∧ s.dcFsm = .idle ∧ s.dcLines = [] ∧
      w.dcFsm = .wait 0x2000 5 ∧ c.dcFsm = .commit 0x2000 5 := by decide
/-- The issue that fails. -/
theorem test_witness_data_miss_fails :
    let s := inMemory (aLoad 0x2000) [false]
    s.Runs ∧ s.mr = some (aLoad 0x2000) ∧ s.dcFsm = .idle ∧ s.dcLines = [] ∧
      (advanceCycle s).bus = [(.readMemory 0x2000 8, false)] := by decide
theorem test_witness_no_line : ∀ line, ¬DcHolds (inMemory (aLoad 0x2000) []).dcLines 0x2000 line :=
  fun _ h => nomatch h.1
theorem test_witness_store_through :
    let s := { inMemory (aStore 0x2000 7) [true, true] with dcLines := [(1024, { tag := 0, data := 5 })] }
    s.Runs ∧ s.MemOk ∧ s.mr = some (aStore 0x2000 7) ∧ (aStore 0x2000 7).tag.isStore = true ∧
      (aStore 0x2000 7).addr.toNat % accessBytes (aStore 0x2000 7).tag = 0 ∧
      DcHolds s.dcLines (aStore 0x2000 7).addr { tag := 0, data := 5 } ∧
      (advanceCycle s).bus = [(.readMemory 0x1000 16, true), (.writeMemory 0x2000 7 8, true)] ∧
      (advanceCycle { s with answers := [false] }).bus = [(.writeMemory 0x2000 7 8, false)] := by decide
theorem test_witness_misaligned_held :
    (inMemory (aLoad 0x2004) []).Runs ∧ (aLoad 0x2004).tag.isLoad = true ∧
      (aLoad 0x2004).addr.toNat % accessBytes (aLoad 0x2004).tag ≠ 0 ∧ (inMemory (aStore 0x2001 7) []).Runs ∧
      (aStore 0x2001 7).tag.isStore = true ∧
      (aStore 0x2001 7).addr.toNat % accessBytes (aStore 0x2001 7).tag ≠ 0 := by decide
theorem test_witness_miss_cost :
    let s := fun k => inMemory (aLoad 0x2000) (true :: (List.replicate k false ++ true :: []))
    (s 0).Runs ∧ (s 0).icFsm = .idle ∧ (s 0).mr = some (aLoad 0x2000) ∧ (s 0).dcFsm = .idle ∧
      (s 0).answers = true :: (List.replicate 0 false ++ true :: []) ∧ (s 2).Runs ∧
      (s 2).answers = true :: (List.replicate 2 false ++ true :: []) := by decide
theorem test_witness_memory_changes :
    (advanceCycle (inMemory (aStore 0x2000 7) [true, true])).mem ≠ (inMemory (aStore 0x2000 7) [true, true]).mem := by
  decide

/-! Forwarding, Execute and control transfers. -/

/-- A pipeline with one instruction in `XR`, producers in `MR` and `WR`, and everything else idle. -/
def inExecute (x : DecodedInstr) (m : Option ExecutedInstr) (w : Option CompletedInstr) : State :=
  { pipe [] [] [true, true, true] with pc := 0x1008, xr := some x, mr := m, wr := w }

/-- `sub x7, x6, x5` with `x6` from `MR` and `x5` from `WR`; then both from Decode; and `sub x7, x0, x0`. -/
theorem test_witness_forwarding :
    let x := xrOf 0x405303b3 1 2 false 0x1008
    let s := inExecute x (some (mrOf 0x00a00313 10 0 0)) (some (wrOf 0x00700293 7))
    let s' := inExecute x none none
    let z := xrOf 0x400003b3 1 2 false 0x1008
    (s.Runs ∧ (runCycle s).holdAll = false ∧ s.xr = some x ∧ x.usesRs1 = true ∧ x.usesRs2 = true) ∧
      (x.rs1 ≠ 0 ∧ ∃ m, s.mr = some m ∧ m.wr = true ∧ m.rd = x.rs1 ∧ m.tag.isLoad = false) ∧
      (x.rs2 ≠ 0 ∧ (∀ m, s.mr = some m → m.rd ≠ x.rs2) ∧ ∃ w, s.wr = some w ∧ w.wr = true ∧ w.rd = x.rs2) ∧
      (s'.Runs ∧ (runCycle s').holdAll = false ∧ s'.mr = none ∧ s'.wr = none) ∧ z.rs1 = 0 ∧ z.usesRs1 = true := by
  refine ⟨by decide, ⟨by decide, _, rfl, by decide⟩, ⟨by decide, ?_, _, rfl, by decide⟩, by decide, by decide⟩
  rintro _ ⟨⟩; decide
theorem test_witness_forwards :
    State.Forwards (inExecute (xrOf 0x405303b3 1 2 false 0x1008) none none) 6 1 1 ∧
      State.Forwards (inExecute (xrOf 0x405303b3 1 2 false 0x1008) none none) 0 1 0 ∧
      State.Forwards (inExecute (xrOf 0x405303b3 1 2 false 0x1008) (some (mrOf 0x00a00313 10 0 0)) none) 6 1 10 := by
  simp [State.Forwards, inExecute, mrOf]
  decide
/-- A bubble, an instruction without sources, a store, a load and a jump in `XR`. -/
theorem test_witness_execute :
    let s := fun iw => inExecute (xrOf iw 8 9 false 0x1008) none none
    ((pipe [] [] [true]).xr = none ∧ (runCycle (pipe [] [] [true])).holdAll = false) ∧
      [0x00000073, 0x00513423, 0x00013083, 0x010000ef, 0x123452b7, 0x00001297].all
        (fun iw => decide ((s iw).Runs ∧ (runCycle (s iw)).holdAll = false)) = true ∧
      (xrOf 0x123452b7 8 9 false 0x1008).usesRs1 = false ∧ (xrOf 0x00513423 8 9 false 0x1008).usesRs2 = true := by
  decide
/-- A taken branch that was not predicted, one that goes on as predicted, a jump, and no transfer. -/
theorem test_witness_transfers :
    let s := fun iw v1 => inExecute (xrOf iw v1 0 false 0x1008) none none
    (runCycle (s 0xfe011ce3 1)).redirect = some 0xffc ∧ (runCycle (s 0xfe011ce3 0)).redirect = none ∧
      transfersControl (xrOf 0xfe011ce3 0 0 false 0x1008).tag ∧ (runCycle (s 0x010000ef 0)).redirect = some 0x1014 ∧
      ¬transfersControl (xrOf 0x00a00293 0 0 false 0x1008).tag ∧ (s 0xfe011ce3 1).Runs ∧
      (runCycle (s 0xfe011ce3 1)).holdAll = false := by decide
/-- The entry of a branch at 0x1004: none, in the last slot with an unset target, with the true one, with
another. -/
theorem test_witness_resolution :
    let x := xrOf 0xfe011ce3 1 0 false 0x1008
    let s := fun t => { inExecute x none none with
      btb := (Vector.replicate 32 none).set 31 (some { tag := 0x1004, target := t }) }
    ((inExecute x none none).Runs ∧ (runCycle (inExecute x none none)).holdAll = false ∧ x.tag.isBranch = true) ∧
      [none, some 0xffc, some 0x2000].all (fun t => decide ((s t).Runs ∧ (runCycle (s t)).holdAll = false ∧
        (s t).btb.get 31 = some { tag := x.pc, target := t })) = true ∧
      transferTarget x.tag x.pc (operandA (s none) x) (operandB (s none) x) x.imm = 0xffc ∧
      (xrOf 0x00a00293 0 0 false 0x1008).tag.isBranch = false := by decide
theorem test_witness_no_entry :
    ∀ i e, (inExecute (xrOf 0xfe011ce3 1 0 false 0x1008) none none).btb.get i = some e → e.tag ≠ 0x1004 := by
  intro i e h
  simp [inExecute, pipe, State.launch, Vector.get] at h
/-- A prediction that stands and turns out wrong: a backward branch predicted to 0xffc and not taken. -/
def mispredicted : State :=
  { inExecute (xrOf 0xfe011ce3 0 0 true 0xffc) none none with
    pc := 0xffc
    btb := (Vector.replicate 32 none).set 0 (some { tag := 0x1004, target := some 0xffc }) }

theorem test_witness_mispredicted_inv : mispredicted.Inv ∧ mispredicted.FlowOk ∧ mispredicted.PredictOk := by
  refine ⟨⟨by decide, by decide, ⟨by decide, by decide, by rintro _ ⟨⟩⟩, ⟨by decide, by decide, by rintro _ ⟨⟩⟩,
      ⟨by decide, by decide, ?_⟩,
      ⟨by rintro _ ⟨⟩, by rintro _ ⟨⟩; decide, by rintro _ ⟨⟩, by rintro _ ⟨⟩⟩, by decide⟩,
    ⟨by rintro _ ⟨⟩, by rintro _ ⟨⟩; decide⟩, by rintro _ ⟨⟩, ?_⟩
  · rw [show mispredicted.btb.toList.filterMap id = [{ tag := 0x1004, target := some 0xffc }] by decide]
    simp; decide
  · rintro _ ⟨⟩
    exact ⟨fun _ _ => rfl, fun _ _ h => absurd h (by decide)⟩
theorem test_witness_mispredicted :
    mispredicted.level = .cycle ∧ mispredicted.Runs ∧ (runCycle mispredicted).holdAll = false ∧
      isBackward 0xfe011ce3 = true ∧
      ((advanceCycle mispredicted).mr.map ExecutedInstr.wrongPrediction) = some true := by decide

/-! Decode and the load-use hazard. -/

/-- `DR` a bubble; a word that goes on, its `x6` from Writeback in the same cycle; a stall; a redirect. -/
theorem test_witness_decode :
    let s := { pipe [] [] [true] with dr := some (drOf 0x405303b3), wr := some (wrOf 0x00a00313 10), pc := 0x100c }
    let l := { s with xr := some (xrOf 0x00013303 0 0 false 0x1008) }
    let j := { s with xr := some (xrOf 0x010000ef 0 0 false 0x1008) }
    ((pipe [] [] [true]).dr = none ∧ (pipe [] [] [true]).Runs ∧ (runCycle (pipe [] [] [true])).holdAll = false) ∧
      (s.Runs ∧ (runCycle s).holdAll = false ∧ (runCycle s).stall = false ∧ (runCycle s).redirect = none ∧
        (wrOf 0x00a00313 10).wr = true ∧ (wrOf 0x00a00313 10).rd = 6 ∧
        (decodeOperands s.cfg 0x405303b3).rs1 = 6) ∧
      (l.Runs ∧ (runCycle l).holdAll = false ∧ (runCycle l).stall = true) ∧
      (j.Runs ∧ (runCycle j).holdAll = false ∧ (runCycle j).redirect = some 0x1014) := by decide

/-! Fetch. -/

/-- The line of 0x1000 with an `addi`, a backward `bne`, and two more words. -/
def codeLine : IcLine := { tag := 0, words := #v[0x00a00293, 0xfe011ce3, 0x00000013, 0x00000013] }

/-- A pipeline whose Fetch looks up `pc`, with that line in the instruction cache. -/
def fetching (pc : Word) (btb : Btb) : State :=
  { pipe [] [] [true] with pc := pc, icLines := [(256, codeLine)], btb := btb }

/-- A first and a last word of a line; a branch with a known target, with an unset one, new to a table with
an empty slot, and new to a full table. -/
theorem test_witness_fetch_hit :
    let e := fun t => (Vector.replicate 32 none).set 0 (some { tag := 0x1004, target := t })
    let full : Btb := Vector.replicate 32 (some { tag := 0x3000, target := none })
    (∀ s ∈ [fetching 0x1000 (e none), fetching 0x100c (e none), fetching 0x1004 (e (some 0xffc)),
        fetching 0x1004 (e none), fetching 0x1004 (Vector.replicate 32 none), fetching 0x1004 full],
      s.FetchLooks ∧ s.pc.toNat % 4 = 0 ∧ IcHolds s.icLines s.pc codeLine) ∧
    (executePhase (fetching 0x1004 (e (some 0xffc)))).state.btb.get 0 = some { tag := 0x1004, target := some 0xffc } ∧
    (executePhase (fetching 0x1004 (Vector.replicate 32 none))).state.btb.get 0 = none ∧
    (∀ j : Fin 32, (executePhase (fetching 0x1004 full)).state.btb.get j = some { tag := 0x3000, target := none }) ∧
    InstrWord.bits 0xfe011ce3 6 0 = 0b1100011 ∧ InstrWord.bits 0xfe011ce3 14 12 = 0b001 ∧
    InstrWord.bits 0xfe011ce3 31 31 = 1 := by decide
theorem test_witness_fetch_miss :
    (pipe [] [] [true]).FetchLooks ∧ (pipe [] [] [false]).FetchLooks ∧ (pipe [] [] [true]).pc.toNat % 4 = 0 := by
  decide
/-- A fetch miss in the cycle of a store in `MR`. -/
theorem test_witness_fetch_miss_with_store :
    (inMemory (aStore 0x2000 7) [true, false]).FetchLooks ∧
      (inMemory (aStore 0x2000 7) [true, false]).pc.toNat % 4 = 0 ∧
      (inMemory (aStore 0x2000 7) [true, false]).icLines = [] := by decide
theorem test_witness_no_instruction_line : ∀ line, ¬IcHolds (pipe [] [] [true]).icLines 0x1000 line :=
  fun _ h => nomatch h.1
/-- A wait and a commit, each in a cycle that is neither held nor stalled. -/
theorem test_witness_instruction_fill :
    let w := { pipe [] [] [true] with icFsm := .wait 0x1000 5 }
    let c := { pipe [] [] [] with icFsm := .commit 0x1000 5 }
    w.Runs ∧ c.Runs ∧ (runCycle w).holdAll = false ∧ (runCycle w).stall = false ∧ (runCycle c).holdAll = false ∧
      (runCycle c).stall = false := by decide
/-- A misaligned `pc`, alone and with a jump in `XR` that leads away from it. -/
theorem test_witness_fetch_stops :
    let s := { pipe [] [] [] with pc := 0x1002 }
    let j := { inExecute (xrOf 0x010000ef 0 0 false 0x1008) none none with pc := 0x1002 }
    s.pc.toNat % 4 ≠ 0 ∧ s.FetchLooks ∧ j.pc.toNat % 4 ≠ 0 ∧ (advanceCycle j).pc ≠ j.pc := by decide
/-- A data line replaced by a fill and one changed by a store; an instruction line installed. -/
theorem test_witness_lines_change :
    let c := { inMemory (aLoad 0x2000) [] with dcFsm := .commit 0x2000 5 }
    let st := { inMemory (aStore 0x2000 7) [true, true] with dcLines := [(1024, { tag := 0, data := 5 })] }
    let i := { pipe [] [] [] with icFsm := .commit 0x1000 5 }
    Assoc.lookup (advanceCycle c).dcLines 1024 ≠ Assoc.lookup c.dcLines 1024 ∧
      Assoc.lookup (advanceCycle st).dcLines 1024 ≠ Assoc.lookup st.dcLines 1024 ∧
      (Assoc.lookup st.dcLines 1024).isSome = true ∧ (Assoc.lookup busy.icLines 256).isSome = true ∧
      Assoc.lookup (advanceCycle i).icLines 256 ≠ Assoc.lookup i.icLines 256 := by decide
theorem test_witness_btb_entry : busy.btb.get 0 = some { tag := 0x1010, target := some 0x1000 } := by decide

/-! The first cycles: the instruction at 0x1000 of an empty memory is no load or store, and under `NOP` it
counts as done. -/

theorem test_witness_first_cycles :
    let d := decodeOperands Config.default (Memory.instrAt [] Config.default.resetPc)
    Config.default.resetPc.toNat % 4 = 0 ∧ d.tag.isLoad = false ∧ d.tag.isStore = false ∧ d.tag = .decodeFault ∧
      Config.default.decodeFaultPolicy = .nop ∧
      (runCycle (runCycles 7 (State.launch Config.default (regsOf []) [] [true, true]))).holdAll = false := by decide

end Sys2Proof.Tests
end

section
/-! SUPPORT. The step of the architectural machine (R9, R90): the cases of `instrStep`, and the word at `pc` as the
four bytes there. -/

namespace Sys2Proof.Machine

/-- The instruction word at an address is spelled by its four bytes, little-endian (R61, R90). -/
theorem Memory.instrAt_eq_wordOfBytes (m : Memory) (a : Word) :
    m.instrAt a = wordOfBytes (m.byte a) (m.byte (a + 1)) (m.byte (a + 2)) (m.byte (a + 3)) := by
  have h2 : a + 1 + 1 = a + 2 := by bv_omega
  have h3 : a + 2 + 1 = a + 3 := by bv_omega
  apply BitVec.eq_of_toNat_eq
  have b0 := (m.byte a).isLt
  have b1 := (m.byte (a + 1)).isLt
  have b2 := (m.byte (a + 2)).isLt
  simp only [instrAt, wordOfBytes, BitVec.toNat_append, BitVec.toNat_ofNat, Memory.read, h2, h3]
  rw [← Nat.shiftLeft_add_eq_or_of_lt b0, ← Nat.shiftLeft_add_eq_or_of_lt b1, ← Nat.shiftLeft_add_eq_or_of_lt b2]
  simp only [Nat.shiftLeft_eq]
  omega

theorem aligned_iff {a : Word} {n : Nat} : aligned a n = true ↔ a.toNat % n = 0 := by
  simp [aligned]

/-- A byte sequence decodes by the word that its first four bytes spell. -/
theorem decodeBytes_four (b0 b1 b2 b3 : Byte) (rest : List Byte) {i : Instr}
    (h : decodeBytes ([b0, b1, b2, b3] ++ rest) = .ok (i, rest)) : decodeWord (wordOfBytes b0 b1 b2 b3) = .ok i := by
  simp only [decodeBytes, List.cons_append] at h
  split at h
  · simp_all
  · cases h

theorem step_architectural {s : State} (hl : s.level = .architectural) : step s = instrStep s := by
  simp [step, hl]

theorem instrStep_of_decodes {s : State} {i : Instr} (hh : s.halted = false) (ha : aligned s.pc 4 = true)
    (hd : decodeWord (s.mem.instrAt s.pc) = .ok i) : instrStep s = exec i s := by
  simp only [Memory.instrAt] at hd
  simp [instrStep, hh, ha, State.fetchWord, hd]

theorem instrStep_of_decodeError {s : State} {e : DecodeError} (hh : s.halted = false) (ha : aligned s.pc 4 = true)
    (hd : decodeWord (s.mem.instrAt s.pc) = .error e) :
    instrStep s = .next (s.decodeFault (s.mem.instrAt s.pc)) := by
  simp only [Memory.instrAt] at hd ⊢
  simp [instrStep, hh, ha, State.fetchWord, hd]

theorem instrStep_halted {s : State} (hh : s.halted = true) : instrStep s = .next s := by
  simp [instrStep, hh]

/-- Settles O22: the four bytes at `pc` are the little-endian word that the step decodes. -/
theorem stepRunsTheDecodedInstruction : Obligations.StepRunsTheDecodedInstruction := by
  unfold Obligations.StepRunsTheDecodedInstruction
  refine ⟨fun s i rest hl hh hp hd => ?_, fun s hl => by simp [step, hl]⟩
  have hw := decodeBytes_four _ _ _ _ _ hd
  rw [← Memory.instrAt_eq_wordOfBytes] at hw
  rw [step_architectural hl, instrStep_of_decodes hh (aligned_iff.2 hp) hw]

end Sys2Proof.Machine
end

section
/-! SUPPORT. The architectural effect of an instruction, said once for all of them: it is what the entry of `MR`
that Execute makes of it performs (R259 to R262). Its four cases give the frame of every instruction. -/

namespace Sys2Proof.Machine

@[simp] theorem operands_tag (cfg : Config) (i : Instr) : (i.operands cfg).tag = i.tag := by
  cases i <;> rfl

/-- The decoded operand set of the instruction in `XR` (R29, R100). -/
def DecodedInstr.operandSet (x : DecodedInstr) : Decoded :=
  { tag := x.tag, rd := x.rd, rs1 := x.rs1, rs2 := x.rs2, imm := x.imm, usesRs1 := x.usesRs1,
    usesRs2 := x.usesRs2, wr := x.wr }

/-- An instruction as Decode hands it to Execute, at the `pc` of the architectural machine. -/
def decodedAt (i : Instr) (s : State) : DecodedInstr :=
  let d := i.operands s.cfg
  { pc := s.pc, iw := 0, tag := d.tag, rd := d.rd, rs1 := d.rs1, rs2 := d.rs2, usesRs1 := d.usesRs1,
    usesRs2 := d.usesRs2, wr := d.wr, imm := d.imm, v1 := 0, v2 := 0, pred := false, predNpc := 0 }

/-- `a` of R260, read from the registers of the architectural machine. -/
def DecodedInstr.valA (x : DecodedInstr) (s : State) : Word := if x.usesRs1 then s.readReg x.rs1 else 0

/-- `b` of R260, read from the registers of the architectural machine. -/
def DecodedInstr.valB (x : DecodedInstr) (s : State) : Word := if x.usesRs2 then s.readReg x.rs2 else 0

/-- Where the instruction goes on: its true next pc (R262), or the next word. -/
def DecodedInstr.nextPc (x : DecodedInstr) (s : State) : Word :=
  (trueNextPc x.tag x.pc (x.valA s) (x.valB s) x.imm).getD (nextWord x.pc)

/-- What the instruction in `MR` does to the architectural machine on its way out, with `npc` next: a misaligned
access is reported and nothing else; a store writes memory; any other writes its register, if it has one. -/
def ExecutedInstr.perform (m : ExecutedInstr) (npc : Word) (s : State) : State :=
  if m.misaligned then s.report (.memFault .dataMisaligned m.addr)
  else
    (if m.tag.isStore then s.memWrite m.addr (accessBytes m.tag) m.sdata
      else if m.wr then s.writeReg m.rd (pendingResult s m) else s).retireTo m.tag npc

/-- A load, whether or not its address is aligned (R62, R130). -/
theorem State.load_eq (s : State) (tag : Tag) (rd rs1 : Reg) (imm : BitVec 12) :
    s.load tag rd rs1 imm = .next
      (if !aligned (s.effAddr rs1 imm) (accessBytes tag) then
        s.report (.memFault .dataMisaligned (s.effAddr rs1 imm))
      else (s.writeReg rd (loadValue tag (s.mem.readWord (s.effAddr rs1 imm) (accessBytes tag)))).retireTo tag
        (nextWord s.pc)) := by
  cases ha : aligned (s.effAddr rs1 imm) (accessBytes tag)
  · exact State.load_misaligned ha rd
  · simp only [State.load, ha, if_true]; rfl

/-- A store, whether or not its address is aligned (R62, R138). -/
theorem State.store_eq (s : State) (tag : Tag) (rs2 rs1 : Reg) (imm : BitVec 12) :
    s.store tag rs2 rs1 imm = .next
      (if !aligned (s.effAddr rs1 imm) (accessBytes tag) then
        s.report (.memFault .dataMisaligned (s.effAddr rs1 imm))
      else (s.memWrite (s.effAddr rs1 imm) (accessBytes tag) (s.readReg rs2)).retireTo tag (nextWord s.pc)) := by
  cases ha : aligned (s.effAddr rs1 imm) (accessBytes tag)
  · exact State.store_misaligned ha rs2
  · exact State.store_next ha rs2

/-- Every instruction performs the entry of `MR` that Execute makes of it from the architectural registers. -/
theorem exec_eq_perform {i : Instr} {s : State} {x : DecodedInstr} (hx : x.operandSet = i.operands s.cfg)
    (hp : x.pc = s.pc) (branch wrongPrediction : Bool) :
    exec i s = .next
      ((x.executed s.cfg (x.valA s) (x.valB s) branch wrongPrediction).perform (x.nextPc s) s) := by
  obtain ⟨pc, iw, tag, rd, rs1, rs2, u1, u2, wr, imm, v1, v2, pred, predNpc⟩ := x
  obtain rfl : pc = s.pc := hp
  cases i
  case lb | lh | lw | ld | lbu | lhu | lwu => cases hx; exact State.load_eq ..
  case sb | sh | sw | sd => cases hx; exact State.store_eq ..
  all_goals cases hx; rfl


/-! ### The frame of an instruction -/

section perform
variable (m : ExecutedInstr) (npc : Word) (s : State)

/-- The four things an instruction can do. -/
theorem ExecutedInstr.perform_cases :
    (m.misaligned = true ∧ m.perform npc s = s.report (.memFault .dataMisaligned m.addr)) ∨
    (m.misaligned = false ∧ m.tag.isStore = true ∧
      m.perform npc s = (s.memWrite m.addr (accessBytes m.tag) m.sdata).retireTo m.tag npc) ∨
    (m.misaligned = false ∧ m.tag.isStore = false ∧ m.wr = true ∧
      m.perform npc s = (s.writeReg m.rd (pendingResult s m)).retireTo m.tag npc) ∨
    (m.misaligned = false ∧ m.tag.isStore = false ∧ m.wr = false ∧ m.perform npc s = s.retireTo m.tag npc) := by
  cases h : m.misaligned
  · cases hs : m.tag.isStore
    · cases hw : m.wr <;> simp [perform, h, hs, hw]
    · simp [perform, h, hs]
  · simp [perform, h]

theorem ExecutedInstr.perform_sameCore : s.SameCore (m.perform npc s) := by
  rcases m.perform_cases npc s with ⟨_, h⟩ | ⟨_, _, h⟩ | ⟨_, _, _, h⟩ | ⟨_, _, _, h⟩ <;> rw [h] <;>
    exact ⟨rfl, rfl, rfl, rfl, rfl, rfl, rfl, rfl, rfl, rfl, rfl, rfl⟩

theorem ExecutedInstr.perform_readReg {r : Reg} (hr : m.wr = false ∨ r ≠ m.rd ∨ r = 0) :
    (m.perform npc s).readReg r = s.readReg r := by
  rcases m.perform_cases npc s with ⟨_, h⟩ | ⟨_, _, h⟩ | ⟨_, _, hw, h⟩ | ⟨_, _, _, h⟩ <;> rw [h]
  · rfl
  · rfl
  · rw [hw] at hr
    rw [State.readReg_of_regs (s := s) rfl r, if_neg]
    rintro ⟨h1, h2⟩
    exact hr.elim (by simp) (fun h => h.elim (· h1) (h2 ·))
  · rfl

theorem ExecutedInstr.perform_sameMemory (hs : m.tag.isStore = false) : s.SameMemory (m.perform npc s) := by
  rcases m.perform_cases npc s with ⟨_, h⟩ | ⟨_, hs', _⟩ | ⟨_, _, _, h⟩ | ⟨_, _, _, h⟩
  · rw [h]; exact ⟨fun _ => rfl, rfl, rfl, rfl⟩
  · rw [hs] at hs'; cases hs'
  · rw [h]; exact ⟨fun _ => rfl, rfl, rfl, rfl⟩
  · rw [h]; exact ⟨fun _ => rfl, rfl, rfl, rfl⟩

theorem ExecutedInstr.perform_events : ∃ e, (m.perform npc s).events = e :: s.events := by
  rcases m.perform_cases npc s with ⟨_, h⟩ | ⟨_, _, h⟩ | ⟨_, _, _, h⟩ | ⟨_, _, _, h⟩ <;> rw [h] <;> exact ⟨_, rfl⟩

end perform

/-- Erasing a key leaves what is listed under the others, in a sorted table or not. -/
theorem Assoc.lookup_erase_ne {α : Type} (l : List (Nat × α)) {key k : Nat} (h : key ≠ k) :
    Assoc.lookup (Assoc.erase l key) k = Assoc.lookup l k := by
  induction l with
  | nil => rfl
  | cons p rest ih =>
    obtain ⟨k0, w⟩ := p
    simp only [Assoc.erase]
    split
    · rename_i hk; rw [Assoc.lookup_cons, if_neg (hk ▸ h)]
    · simp only [Assoc.lookup_cons, ih]

/-- Setting a byte leaves every other byte, in canonical form or not. -/
theorem Memory.byte_setByte_ne (m : Memory) {a x : Word} (b : Byte) (h : a ≠ x) : (m.setByte a b).byte x = m.byte x := by
  have hk : a.toNat ≠ x.toNat := fun e => h (BitVec.eq_of_toNat_eq e)
  unfold Memory.setByte Memory.byte
  split
  · rw [Assoc.lookup_erase_ne _ hk]
  · rw [Assoc.lookup_insert, if_neg hk]

/-- A write leaves the bytes outside the `n` from `a` on, in any memory. -/
theorem Memory.byte_write_outside (m : Memory) (a : Word) {n : Nat} (v : Word) {x : Word} (h : n ≤ (x - a).toNat) :
    (m.write a n v).byte x = m.byte x := by
  induction n generalizing m a v with
  | zero => rfl
  | succ n ih =>
    have hx : a ≠ x := by rintro rfl; simp at h
    rw [Memory.write, ih _ _ _ (by bv_omega), Memory.byte_setByte_ne _ _ hx]

/-- Only a store changes a byte, and only one it accesses. -/
theorem ExecutedInstr.perform_byte_ne {m : ExecutedInstr} {npc : Word} {s : State} {x : Word}
    (h : (m.perform npc s).mem.byte x ≠ s.mem.byte x) :
    m.tag.isStore = true ∧ (x - m.addr).toNat < accessBytes m.tag := by
  cases hs : m.tag.isStore
  · exact absurd ((m.perform_sameMemory npc s hs).1 x) h
  · refine ⟨rfl, Nat.lt_of_not_le fun hle => h ?_⟩
    rcases m.perform_cases npc s with ⟨_, h⟩ | ⟨_, _, h⟩ | ⟨_, hs', _, _⟩ | ⟨_, hs', _, _⟩
    · rw [h]; rfl
    · rw [h]; exact Memory.byte_write_outside _ _ _ hle
    · rw [hs] at hs'; cases hs'
    · rw [hs] at hs'; cases hs'

/-- The stores, with their operand sets (R107). -/
theorem isStore_cases {i : Instr} (h : i.tag.isStore = true) (cfg : Config) : ∃ (rs2 rs1 : Reg) (imm : BitVec 12),
    (i = .sb rs2 rs1 imm ∨ i = .sh rs2 rs1 imm ∨ i = .sw rs2 rs1 imm ∨ i = .sd rs2 rs1 imm) ∧
      i.operands cfg = .sbForm i.tag rs1 rs2 (sextImm imm) := by
  cases i
  case sb rs2 rs1 imm => exact ⟨rs2, rs1, imm, .inl rfl, rfl⟩
  case sh rs2 rs1 imm => exact ⟨rs2, rs1, imm, .inr (.inl rfl), rfl⟩
  case sw rs2 rs1 imm => exact ⟨rs2, rs1, imm, .inr (.inr (.inl rfl)), rfl⟩
  case sd rs2 rs1 imm => exact ⟨rs2, rs1, imm, .inr (.inr (.inr rfl)), rfl⟩
  all_goals cases h

/-- Settles O20: every instruction performs one of four effects, and each of them has the frame. -/
theorem instructionFrame : Obligations.InstructionFrame := by
  unfold Obligations.InstructionFrame
  intro i s t ht
  rw [exec_eq_perform (x := decodedAt i s) rfl rfl false false] at ht
  obtain rfl := Host.Outcome.next.inj ht
  have htag : (decodedAt i s).tag = i.tag := operands_tag s.cfg i
  refine ⟨ExecutedInstr.perform_sameCore .., fun r hr => ExecutedInstr.perform_readReg _ _ _ hr,
    fun hs => ExecutedInstr.perform_sameMemory _ _ _ ((congrArg Tag.isStore htag).trans hs),
    ExecutedInstr.perform_events .., fun x hx => ?_⟩
  obtain ⟨hs, hlt⟩ := ExecutedInstr.perform_byte_ne hx
  replace hs : i.tag.isStore = true := htag ▸ hs
  obtain ⟨rs2, rs1, imm, hi, ho⟩ := isStore_cases hs s.cfg
  refine ⟨rs2, rs1, imm, hi, ?_⟩
  have haddr : ((decodedAt i s).executed s.cfg ((decodedAt i s).valA s) ((decodedAt i s).valB s) false false).addr =
      s.effAddr rs1 imm := by
    simp [DecodedInstr.executed, DecodedInstr.valA, decodedAt, ho, Decoded.sbForm, hs, State.effAddr]
  rw [haddr] at hlt
  exact htag ▸ hlt

end Sys2Proof.Machine
end

section
/-! SUPPORT. What each part of a cycle leaves of the events and stores that R268 compares. -/

namespace Sys2Proof.Machine

theorem programEvents_congr {s t : State} (h : t.events = s.events) : programEvents t = programEvents s := by
  rw [programEvents, programEvents, h]

theorem storeCalls_congr {s t : State} (h : t.bus = s.bus) : storeCalls t = storeCalls s := by
  rw [storeCalls, storeCalls, h]

/-- A failed memory operation is no event about the program. -/
@[simp] theorem programEvents_report_memFault (s : State) (kind : MemFaultKind) (a : Word) :
    programEvents (s.report (.memFault kind a)) = programEvents s := rfl

@[simp] theorem programEvents_retireTo (s : State) (tag : Tag) (npc : Word) :
    programEvents (s.retireTo tag npc) = .retire s.pc tag :: programEvents s := rfl

@[simp] theorem programEvents_storeThrough (s : State) (a : Word) (n : Nat) (v : Word) :
    programEvents (s.storeThrough a n v) = programEvents s := rfl

@[simp] theorem programEvents_writeReg (s : State) (r : Reg) (v : Word) :
    programEvents (s.writeReg r v) = programEvents s := rfl

@[simp] theorem programEvents_memWrite (s : State) (a : Word) (n : Nat) (v : Word) :
    programEvents (s.memWrite a n v) = programEvents s := rfl

@[simp] theorem storeCalls_retireTo (s : State) (tag : Tag) (npc : Word) :
    storeCalls (s.retireTo tag npc) = storeCalls s := rfl

@[simp] theorem storeCalls_writeReg (s : State) (r : Reg) (v : Word) :
    storeCalls (s.writeReg r v) = storeCalls s := rfl

@[simp] theorem storeCalls_memWrite (s : State) (a : Word) (n : Nat) (v : Word) :
    storeCalls (s.memWrite a n v) = .writeMemory a (lowBytes n v) n :: storeCalls s := rfl

@[simp] theorem storeCalls_report (s : State) (e : Event) : storeCalls (s.report e) = storeCalls s := rfl

@[simp] theorem storeCalls_storeThrough (s : State) (a : Word) (n : Nat) (v : Word) :
    storeCalls (s.storeThrough a n v) = storeCalls s := rfl

@[simp] theorem programEvents_ask (s : State) (call : BusCall) : programEvents (s.ask call).2 = programEvents s :=
  programEvents_congr (s.ask_events call)

/-- A call adds to the successful stores exactly when it is one. -/
theorem storeCalls_ask (s : State) (call : BusCall) :
    storeCalls (s.ask call).2 = (successfulStore (call, (s.ask call).1)).toList ++ storeCalls s := by
  rw [storeCalls, State.ask_bus, List.filterMap_cons]
  cases successfulStore (call, (s.ask call).1) <;> rfl

@[simp] theorem storeCalls_ask_readMemory (s : State) (a : Word) (n : Nat) :
    storeCalls (s.ask (.readMemory a n)).2 = storeCalls s := storeCalls_ask ..

@[simp] theorem storeCalls_ask_memoryReady (s : State) (a : Word) :
    storeCalls (s.ask (.memoryReady a)).2 = storeCalls s := storeCalls_ask ..

/-! ### The cache controllers -/

@[simp] theorem programEvents_icIssue (s : State) (a : Word) : programEvents (icIssue s a).2 = programEvents s := by
  rw [icIssue_eq]; dsimp only
  split
  · exact programEvents_ask ..
  · rw [programEvents_report_memFault, programEvents_ask]

@[simp] theorem storeCalls_icIssue (s : State) (a : Word) : storeCalls (icIssue s a).2 = storeCalls s := by
  rw [icIssue_eq]; dsimp only
  split <;> exact storeCalls_ask_readMemory ..

@[simp] theorem programEvents_dcIssue (s : State) (a : Word) : programEvents (dcIssue s a).2 = programEvents s := by
  rw [dcIssue_eq]; dsimp only
  split
  · exact programEvents_ask ..
  · rw [programEvents_report_memFault, programEvents_ask]

@[simp] theorem storeCalls_dcIssue (s : State) (a : Word) : storeCalls (dcIssue s a).2 = storeCalls s := by
  rw [dcIssue_eq]; dsimp only
  split <;> exact storeCalls_ask_readMemory ..

@[simp] theorem storeCalls_dcPoll (s : State) (base : Word) (data : BitVec 64) :
    storeCalls (dcPoll s base data) = storeCalls s := by
  rw [dcPoll_eq]; dsimp only
  split <;> exact storeCalls_ask_memoryReady ..

@[simp] theorem storeCalls_icFillStep (s : State) : storeCalls (icFillStep s) = storeCalls s := by
  rcases h : s.icFsm with _ | ⟨base, data⟩ | ⟨base, data⟩
  · rw [icFillStep_idle h]
  · rw [icFillStep_wait h]
    split <;> exact storeCalls_ask_memoryReady ..
  · rw [icFillStep_commit h]; rfl

@[simp] theorem programEvents_fetchStage (s : State) (r st i : Bool) :
    programEvents (fetchStage s r st i).state = programEvents s := by
  rcases fetchStage_state s r st i with h | ⟨_, h⟩ | h | h <;> rw [h]
  · rfl
  · exact programEvents_icIssue s s.pc
  · rfl

@[simp] theorem storeCalls_fetchStage (s : State) (r st i : Bool) :
    storeCalls (fetchStage s r st i).state = storeCalls s := by
  rcases fetchStage_state s r st i with h | ⟨_, h⟩ | h | h <;> rw [h]
  · rfl
  · exact storeCalls_icIssue s s.pc
  · rfl

@[simp] theorem programEvents_memoryStage (s : State) : programEvents (memoryStage s).state = programEvents s := by
  rcases memoryStage_state s with h | ⟨_, h⟩ | ⟨_, _, h⟩ | ⟨_, _, h⟩ | ⟨_, h⟩ | ⟨_, _, _, _, h⟩ | ⟨_, _, h⟩ <;>
    rw [h]
  · exact programEvents_dcIssue ..
  · exact programEvents_congr (dcPoll_events ..)
  · rfl
  · rfl
  · exact programEvents_ask ..
  · exact programEvents_ask ..

/-! ### The Memory stage that holds, and the one that completes (R252, R256 to R258) -/

/-- A Memory stage that holds writes no memory and performs no store. -/
theorem memoryStage_held {s : State} (h : (memoryStage s).hold = true) :
    (memoryStage s).state.mem = s.mem ∧ storeCalls (memoryStage s).state = storeCalls s := by
  rcases hm : s.mr with _ | m
  · simp [memoryStage_bubble hm]
  cases hl : m.tag.isLoad
  · cases hs : m.tag.isStore
    · simp [memoryStage_other hm hl hs]
    · rw [memoryStage_store hm hs] at h ⊢
      cases ha : aligned m.addr (accessBytes m.tag)
      · exact ⟨by simp [storeStage, ha], by simp [storeStage, ha]⟩
      · rw [storeStage_aligned ha] at h ⊢
        split at h
        · cases h
        · rename_i hr
          simp only [Bool.not_eq_true] at hr
          rw [if_neg (by simp [hr])]
          refine ⟨State.ask_mem .., ?_⟩
          rw [storeCalls_report, storeCalls_ask, hr]; rfl
  · rw [memoryStage_load hm hl]
    unfold loadStage
    split
    · split
      · split <;> simp
      · simp
      · exact ⟨rfl, rfl⟩
    · exact ⟨rfl, rfl⟩

/-- A line found for an address is the line of memory there. -/
theorem dcLookup_data {s : State} (hd : s.DcOk) {a : Word} {line : DcLine} (h : dcLookup s.dcLines a = some line) :
    line.data = s.mem.readWord (dcBase a) 8 := by
  unfold dcLookup at h
  split at h
  · rename_i l hl
    split at h
    · rename_i ht
      cases h
      rw [(hd.2.1 _ (Assoc.mem_of_lookup hl)).2, ht, dcLineAddr_index_tag]
    · cases h
  · cases h

/-- What the instruction in `MR` is in `WR` once Memory is done with it. -/
structure ExecutedInstr.CompletedAs (m : ExecutedInstr) (s : State) (w : CompletedInstr) : Prop where
  pc : w.pc = m.pc
  iw : w.iw = m.iw
  tag : w.tag = m.tag
  wr : w.wr = m.wr
  result : m.wr = true → w.rd = m.rd ∧ w.result = pendingResult s m

theorem ExecutedInstr.completedAs_self (m : ExecutedInstr) (s : State) (hl : m.tag.isLoad = false) :
    m.CompletedAs s (m.completed m.rd m.wr m.result) :=
  ⟨rfl, rfl, rfl, rfl, fun _ => ⟨rfl, by simp [ExecutedInstr.completed, pendingResult, hl]⟩⟩

theorem ExecutedInstr.misaligned_of_access {m : ExecutedInstr} (h : (m.tag.isLoad || m.tag.isStore) = true) :
    m.misaligned = !aligned m.addr (accessBytes m.tag) := by
  rw [misaligned, h, Bool.true_and]

/-- A load that does not hold hit in the data cache, so it returns what memory holds (R73, R257). -/
theorem loadStage_completes {s : State} {m : ExecutedInstr} (hd : s.DcOk) (hl : m.tag.isLoad = true)
    (hw : m.wr = true) (h : (loadStage s m).hold = false) :
    m.misaligned = false ∧ (∃ w, (loadStage s m).wrNext = some w ∧ m.CompletedAs s w) ∧
      (loadStage s m).state = s := by
  unfold loadStage at h ⊢
  split at h
  · rename_i ha
    rw [if_pos ha]
    split at h
    · split at h
      · rename_i line hline
        refine ⟨by rw [ExecutedInstr.misaligned_of_access (by rw [hl]; rfl), ha]; rfl, ⟨_, rfl, ?_⟩, rfl⟩
        refine ⟨rfl, rfl, rfl, hw.symm, fun _ => ⟨rfl, ?_⟩⟩
        simp only [ExecutedInstr.completed, pendingResult, hl, if_true]
        exact loadValue_dcRaw hl ha (dcLookup_data hd hline)
      · cases h
    · cases h
    · cases h
  · cases h

/-- A store that does not hold was performed (R258, R366). -/
theorem storeStage_completes {s : State} {m : ExecutedInstr} (hs : m.tag.isStore = true) (hw : m.wr = false)
    (h : (storeStage s m).hold = false) :
    m.misaligned = false ∧ (∃ w, (storeStage s m).wrNext = some w ∧ m.CompletedAs s w) ∧
      (storeStage s m).state.mem = s.mem.write m.addr (accessBytes m.tag) m.sdata ∧
      storeCalls (storeStage s m).state =
        .writeMemory m.addr (lowBytes (accessBytes m.tag) m.sdata) (accessBytes m.tag) :: storeCalls s := by
  cases ha : aligned m.addr (accessBytes m.tag)
  · simp [storeStage, ha] at h
  · rw [storeStage_aligned ha] at h ⊢
    split at h
    · rename_i hr
      rw [if_pos hr]
      refine ⟨by rw [ExecutedInstr.misaligned_of_access (by simp [hs]), ha]; rfl, ⟨_, rfl, ?_⟩, ?_, ?_⟩
      · exact ⟨rfl, rfl, rfl, hw.symm, by simp [hw]⟩
      · rw [State.storeThrough_mem, State.ask_mem]
      · rw [storeCalls_storeThrough, storeCalls_ask, hr]; rfl
    · cases h

/-- The instruction in `MR` when Memory does not hold: it completes, and memory and the stores are those that
the state had committed to. -/
theorem memoryStage_completes {s : State} {m : ExecutedInstr} (hm : s.mr = some m) (hd : s.DcOk)
    (hload : m.tag.isLoad = true → m.wr = true) (hstore : m.tag.isStore = true → m.wr = false)
    (h : (memoryStage s).hold = false) :
    m.misaligned = false ∧ (∃ w, (memoryStage s).wrNext = some w ∧ m.CompletedAs s w) ∧
      (memoryStage s).state.mem = committedMem s ∧ storeCalls (memoryStage s).state = committedStores s := by
  cases hs : m.tag.isStore
  · simp only [committedMem, committedStores, hm, hs, Bool.false_and, Bool.false_eq_true, if_false]
    cases hl : m.tag.isLoad
    · rw [memoryStage_other hm hl hs]
      exact ⟨by simp [ExecutedInstr.misaligned, hl, hs], ⟨_, rfl, m.completedAs_self s hl⟩, rfl, rfl⟩
    · rw [memoryStage_load hm hl] at h ⊢
      obtain ⟨ha, hw, he⟩ := loadStage_completes hd hl (hload hl) h
      exact ⟨ha, hw, by rw [he], by rw [he]⟩
  · rw [memoryStage_store hm hs] at h ⊢
    obtain ⟨ha, hw, he⟩ := storeStage_completes hs (hstore hs) h
    simp only [committedMem, committedStores, hm, hs, ha, Bool.not_false, Bool.and_true, if_true]
    exact ⟨trivial, hw, he⟩

end Sys2Proof.Machine
end

section
/-! SUPPORT. What the tag of a decoded word says about it: whether it writes a register, and whether it can have
been predicted (R100, R321). -/

namespace Sys2Proof.Machine

/-- The instructions that write `x[rd]`, by their row of the table of R100. -/
def tagWrites (tag : Tag) : Bool :=
  match Tag.format tag with
  | .r | .i | .shift6 | .shift5 | .u | .j => true
  | .s | .b | .noOp => false

theorem operands_wr (cfg : Config) (i : Instr) : (i.operands cfg).wr = tagWrites i.tag := by
  cases i <;> rfl

theorem decodeOperands_ok {cfg : Config} {iw : InstrWord} {i : Instr} (h : decodeWord iw = .ok i) :
    decodeOperands cfg iw = i.operands cfg := by
  simp [decodeOperands, h]

theorem decodeOperands_error {cfg : Config} {iw : InstrWord} {e : DecodeError} (h : decodeWord iw = .error e) :
    decodeOperands cfg iw = .noOp .decodeFault := by
  simp [decodeOperands, h]

/-- Whether a decoded word writes a register is said by its tag. -/
theorem decodeOperands_wr (cfg : Config) (iw : InstrWord) :
    (decodeOperands cfg iw).wr = tagWrites (decodeOperands cfg iw).tag := by
  rcases h : decodeWord iw with e | i
  · rw [decodeOperands_error h]; rfl
  · rw [decodeOperands_ok h, operands_wr, operands_tag]

theorem tag_ne_decodeFault (i : Instr) : i.tag ≠ .decodeFault := by
  cases i <;> simp [Instr.tag]

theorem writes_of_isLoad {tag : Tag} (h : tag.isLoad = true) : tagWrites tag = true := by
  cases tag <;> simp_all [Tag.isLoad, Tag.format, tagWrites]

theorem writes_of_isStore {tag : Tag} (h : tag.isStore = true) : tagWrites tag = false := by
  cases tag <;> simp_all [Tag.isStore, Tag.format, tagWrites]

/-- What Fetch predicts as a conditional branch decodes as one (R321). -/
theorem isBranch_of_isCondBranch {iw : InstrWord} (h : isCondBranch iw = true) (cfg : Config) :
    (decodeOperands cfg iw).tag.isBranch = true := by
  simp only [isCondBranch, Bool.and_eq_true, Bool.or_eq_true, beq_iff_eq, or_assoc] at h
  obtain ⟨hop, hf⟩ := h
  have hw : decodeWord iw = decodeBranch iw := by simp [decodeWord, hop]
  rcases hf with hf | hf | hf | hf | hf | hf <;> simp [decodeOperands, hw, decodeBranch, hf] <;> rfl

theorem trueNextPc_ne_none_of_isBranch {tag : Tag} (h : tag.isBranch = true) (p a b imm : Word) :
    trueNextPc tag p a b imm ≠ none := by
  cases tag <;> simp_all [Tag.isBranch, trueNextPc, branchCondition]

/-- An instruction that transfers no control was followed by the next word (R321, R325). -/
theorem predNpc_of_no_transfer {cfg : Config} {x : DecodedInstr} {a b : Word}
    (hf : fetchedOk x.pc x.iw x.pred x.predNpc) (hx : x.operandSet = decodeOperands cfg x.iw)
    (ht : trueNextPc x.tag x.pc a b x.imm = none) : x.predNpc = nextWord x.pc := by
  obtain ⟨-, -, hp⟩ := hf
  split at hp
  · have htag : x.tag = (decodeOperands cfg x.iw).tag := congrArg Decoded.tag hx
    exact absurd ht (trueNextPc_ne_none_of_isBranch (htag ▸ isBranch_of_isCondBranch hp.1 cfg) _ _ _ _)
  · exact hp

/-! ### What the invariant says of the stage registers (R29, R30) -/

theorem State.Inv.mr_wr {s : State} (h : s.Inv) {m : ExecutedInstr} (hm : s.mr = some m) :
    m.wr = tagWrites m.tag := by
  obtain ⟨-, -, -, -, -, ⟨-, -, hmr, -⟩, -⟩ := h
  obtain ⟨ht, -, hw⟩ := hmr m hm
  rw [hw, ht, decodeOperands_wr]

theorem State.Inv.xr_decoded {s : State} (h : s.Inv) {x : DecodedInstr} (hx : s.xr = some x) :
    fetchedOk x.pc x.iw x.pred x.predNpc ∧ x.operandSet = decodeOperands s.cfg x.iw := by
  obtain ⟨-, -, -, -, -, ⟨-, hxr, -⟩, -⟩ := h
  exact hxr x hx

end Sys2Proof.Machine
end

section
/-! SUPPORT. Execute, Decode and Fetch in program order: what Execute makes of the instruction in `XR`, and the
address of the oldest instruction behind it before and after a cycle (R259 to R264). -/

namespace Sys2Proof.Machine

/-! ### The oldest instruction that is not in `MR` yet -/

/-- The address of the oldest instruction younger than `MR`: the one in `XR`, else in `DR`, else the one
Fetch will look up. -/
def frontPc (s : State) : Word := ((s.xr.map DecodedInstr.pc).or (s.dr.map FetchedInstr.pc)).getD s.pc

theorem committedPc_eq (s : State) :
    committedPc s = if s.mr.any ExecutedInstr.misaligned then (s.mr.map ExecutedInstr.pc).getD s.pc else frontPc s := by
  unfold committedPc frontPc
  rcases s.xr with _ | x <;> rcases s.dr with _ | f <;> rfl

/-- Fetch delivers the word at `pc`, or leaves `pc` where it is. -/
theorem fetchStage_front (s : State) (idle0 : Bool) :
    ((fetchStage s false false idle0).drNext.map FetchedInstr.pc).getD (fetchStage s false false idle0).state.pc =
      s.pc := by
  unfold fetchStage
  simp only [Bool.false_eq_true, if_false]
  split
  · rfl
  · split
    · split
      · rfl
      · exact icIssue_pc ..
    · rfl

theorem fetchStage_redirected (s : State) (stall idle0 : Bool) :
    fetchStage s true stall idle0 = { state := s, drNext := none, missed := false, issued := false } := rfl

theorem fetchStage_stalled (s : State) (idle0 : Bool) :
    fetchStage s false true idle0 = { state := s, drNext := s.dr, missed := false, issued := false } := rfl

theorem exists_of_loadUseStall {s : State} (h : loadUseStall s = true) : ∃ f, s.dr = some f := by
  rcases hd : s.dr with _ | f
  · simp [loadUseStall, hd] at h
  · exact ⟨f, rfl⟩

/-! ### Execute -/

/-- What Execute makes of the instruction in `XR` (R259 to R262): its `MR_next`, and a redirect when its true
next pc is not where Fetch went. -/
theorem executeStage_evaluates {s : State} {x : DecodedInstr} (h : s.xr = some x) :
    (∃ branch wrongPrediction, (executeStage s).mrNext =
      some (x.executed s.cfg (operandA s x) (operandB s x) branch wrongPrediction)) ∧
    (executeStage s).redirect.getD x.predNpc =
      (trueNextPc x.tag x.pc (operandA s x) (operandB s x) x.imm).getD x.predNpc := by
  rcases ht : trueNextPc x.tag x.pc (operandA s x) (operandB s x) x.imm with _ | tnpc
  · rw [executeStage_plain h ht]
    exact ⟨⟨_, _, rfl⟩, rfl⟩
  · rw [executeStage_transfer h ht]
    dsimp only
    split
    · rename_i hp
      exact ⟨⟨_, _, rfl⟩, hp.symm⟩
    · exact ⟨⟨_, _, rfl⟩, rfl⟩

/-- Execute's operands depend on `MR` and `WR` only (R304). -/
theorem fwd_congr {s t : State} (hm : t.mr = s.mr) (hw : t.wr = s.wr) (r : Reg) (v : Word) : fwd t r v = fwd s r v := by
  simp only [fwd, fwdFromWr, hm, hw]

theorem operandA_congr {s t : State} (hm : t.mr = s.mr) (hw : t.wr = s.wr) (x : DecodedInstr) :
    operandA t x = operandA s x := by
  rw [operandA, operandA, fwd_congr hm hw]

theorem operandB_congr {s t : State} (hm : t.mr = s.mr) (hw : t.wr = s.wr) (x : DecodedInstr) :
    operandB t x = operandB s x := by
  rw [operandB, operandB, fwd_congr hm hw]

/-- The same of Execute in its cycle, after Memory and the retirement: it uses the forwarded operands of the state
that the cycle starts in. -/
theorem executePhase_evaluates {s : State} {x : DecodedInstr} (hx : s.xr = some x) :
    (∃ branch wrongPrediction, (executePhase s).mrNext =
      some (x.executed s.cfg (operandA s x) (operandB s x) branch wrongPrediction)) ∧
    (executePhase s).redirect.getD x.predNpc =
      (trueNextPc x.tag x.pc (operandA s x) (operandB s x) x.imm).getD x.predNpc := by
  have h := executeStage_evaluates (s := retireStage (afterFillStep s)) (x := x) (by simp [hx])
  rwa [operandA_congr (s := s) (by simp) (by simp), operandB_congr (s := s) (by simp) (by simp), retireStage_cfg,
    afterFillStep_cfg] at h

theorem executePhase_bubble {s : State} (hx : s.xr = none) :
    (executePhase s).mrNext = none ∧ (executePhase s).redirect = none := by
  rw [executePhase, executeStage_bubble (by simp [hx])]
  exact ⟨rfl, rfl⟩

/-! ### A cycle that is not held -/

section latched
variable {s : State} (hr : s.Runs) (hh : (memoryPhase s).hold = false)
include hr hh

theorem advanceCycle_latched :
    advanceCycle s = latch (fetchPhase s).state (fetchPhase s).drNext
      (decodeStage (executePhase s).state (executePhase s).redirect.isSome)
      (executePhase s).mrNext (memoryPhase s).wrNext := by
  rw [advanceCycle, runCycle_latched hr hh]

/-- After a cycle that is not held, the oldest young instruction is the one Execute redirected to, else the one
that was behind it. -/
theorem frontPc_latched :
    frontPc (advanceCycle s) =
      (executePhase s).redirect.getD ((s.dr.map FetchedInstr.pc).getD s.pc) := by
  have hpc : (executePhase s).state.pc = (executePhase s).redirect.getD s.pc := by
    simp [executePhase, executeStage_pc]
  have hdr : (executePhase s).state.dr = s.dr := executePhase_dr s
  rw [advanceCycle_latched hr hh]
  simp only [frontPc, latch_xr, latch_dr, latch_pc, fetchPhase, decodeStage]
  rcases hx : (executePhase s).redirect with _ | p
  · rw [hx] at hpc
    cases hs : loadUseStall (executePhase s).state
    · rcases hd : s.dr with _ | f
      · simpa [hdr, hd, hpc] using fetchStage_front (executePhase s).state (decide (s.icFsm = .idle))
      · simp [hd, FetchedInstr.decoded]
    · obtain ⟨f, hf⟩ := exists_of_loadUseStall hs
      rw [hdr] at hf
      simp [fetchStage_stalled, hf]
  · rw [hx] at hpc
    simp [fetchStage_redirected, hpc]

end latched

end Sys2Proof.Machine
end

section
/-! SUPPORT. The view that a state of the pipeline has committed to, over one cycle (R265, R268, R403): kept when the
core is halted, halts, holds or is stopping; otherwise what it counted as committed has been done. -/

namespace Sys2Proof.Machine

/-! ### The decode fault that stops the core -/

theorem haltingInstr_congr {s t : State} (hc : t.cfg = s.cfg) (hw : t.wr = s.wr) : haltingInstr t = haltingInstr s := by
  simp only [haltingInstr, hc, hw]

theorem haltingInstr_of_wr {s : State} {w : CompletedInstr} (hw : s.wr = some w) :
    haltingInstr s = if s.cfg.decodeFaultPolicy = .halt ∧ w.tag = .decodeFault then some w else none := by
  cases hp : s.cfg.decodeFaultPolicy <;> simp [haltingInstr, hp, hw]

theorem haltingInstr_bubble {s : State} (hw : s.wr = none) : haltingInstr s = none := by
  cases hp : s.cfg.decodeFaultPolicy <;> simp [haltingInstr, hp, hw]

theorem stopping_congr {s t : State} (hc : t.cfg = s.cfg) (hw : t.wr = s.wr) (hm : t.mr = s.mr) :
    stopping t = stopping s := by
  simp only [stopping, haltingInstr_congr hc hw, hm, hc]

theorem stopping_of_halts {s : State} {w : CompletedInstr} (h : haltingInstr s = some w) :
    stopping s = some (w.pc, w.iw) := by
  simp [stopping, h]

theorem stopping_of_mr {s : State} {m : ExecutedInstr} (h : haltingInstr s = none) (hm : s.mr = some m) :
    stopping s =
      if s.cfg.decodeFaultPolicy = .halt ∧ m.tag = .decodeFault then some (m.pc, m.iw) else none := by
  simp [stopping, h, hm]

theorem stopping_bubble {s : State} (h : haltingInstr s = none) (hm : s.mr = none) : stopping s = none := by
  simp [stopping, h, hm]

/-- A core that is stopping and does not halt yet has the decode fault in `MR`. -/
theorem exists_of_stopping {s : State} {p : Word × InstrWord} (h : haltingInstr s = none) (hp : stopping s = some p) :
    ∃ m, s.mr = some m ∧ m.tag = .decodeFault := by
  rcases hm : s.mr with _ | m
  · rw [stopping_bubble h hm] at hp; cases hp
  · rw [stopping_of_mr h hm] at hp
    split at hp
    · rename_i hf; exact ⟨m, rfl, hf.2⟩
    · cases hp

/-! ### Registers, events and stores over the phases of a cycle -/

theorem writeback_regs_eq (s : State) : (writeback s).regs = regsAfterWr s := by
  rw [writeback_regs]; rfl

/-- Writeback may be evaluated again on the same `WR` (R254). -/
theorem regsAfterWr_writeback {s t : State} (hw : t.wr = s.wr) (hr : t.regs = regsAfterWr s) :
    regsAfterWr t = regsAfterWr s := by
  simp only [regsAfterWr, hw, hr]
  rcases s.wr with _ | w
  · rfl
  · dsimp only
    split
    · exact RegFile.write_write ..
    · rfl

theorem writebackEvents_congr {s t : State} (hw : t.wr = s.wr) : writebackEvents t = writebackEvents s := by
  simp only [writebackEvents, hw]

theorem programEvents_retireStage (s : State) :
    programEvents (retireStage s) = writebackEvents s ++ programEvents s := by
  rw [programEvents, retireStage_events]
  rcases hw : s.wr with _ | w
  · simp [writebackEvents, hw, programEvents]
  · simp only [writebackEvents, hw, retireEvents]
    split <;> rfl

@[simp] theorem programEvents_afterFillStep (s : State) : programEvents (afterFillStep s) = programEvents s := by
  rw [afterFillStep, programEvents_congr (icFillStep_events _), memoryPhase, programEvents_memoryStage]
  exact programEvents_congr (writeback_events s)

theorem programEvents_fetchPhase (s : State) :
    programEvents (fetchPhase s).state = writebackEvents s ++ programEvents s := by
  rw [fetchPhase, programEvents_fetchStage, executePhase, programEvents_congr (executeStage_events _),
    programEvents_retireStage, programEvents_afterFillStep, writebackEvents_congr (afterFillStep_wr s)]

theorem storeCalls_fetchPhase (s : State) :
    storeCalls (fetchPhase s).state = storeCalls (memoryPhase s).state := by
  rw [fetchPhase, storeCalls_fetchStage, executePhase, storeCalls_congr (executeStage_bus _),
    storeCalls_congr (retireStage_bus _), afterFillStep, storeCalls_icFillStep]

/-! ### Cycles that latch nothing -/

theorem State.DcOk.writeback {s : State} (h : s.DcOk) : (writeback s).DcOk := by
  simpa [State.DcOk] using h

/-- A held cycle keeps the view (R265). -/
theorem committedView_held {s : State} (hr : s.Runs) (hh : (memoryPhase s).hold = true) :
    (advanceCycle s).committedView = s.committedView ∧ stopping (advanceCycle s) = stopping s := by
  have he : advanceCycle s = afterFillStep s := by rw [advanceCycle, runCycle_held hr hh]
  obtain ⟨hmem, hst⟩ := memoryStage_held hh
  rw [he]
  have hmem' : (afterFillStep s).mem = s.mem := by rw [afterFillStep_mem, memoryPhase, hmem, writeback_mem]
  have hst' : storeCalls (afterFillStep s) = storeCalls s := by
    rw [afterFillStep, storeCalls_icFillStep, memoryPhase, hst]; exact storeCalls_congr (writeback_bus s)
  have hregs : regsAfterWr (afterFillStep s) = regsAfterWr s :=
    regsAfterWr_writeback (afterFillStep_wr s) (by rw [afterFillStep_regs, writeback_regs_eq])
  have hstop : stopping (afterFillStep s) = stopping s :=
    stopping_congr (afterFillStep_cfg s) (afterFillStep_wr s) (afterFillStep_mr s)
  have hhalt : haltingInstr (afterFillStep s) = haltingInstr s :=
    haltingInstr_congr (afterFillStep_cfg s) (afterFillStep_wr s)
  refine ⟨?_, hstop⟩
  simp only [State.committedView, hstop, hhalt, committedRegs, committedMem, committedPc, committedEvents,
    committedStores, pendingResult, writebackEvents, hregs, hmem', hst', programEvents_afterFillStep,
    afterFillStep_mr, afterFillStep_wr, afterFillStep_xr, afterFillStep_dr, afterFillStep_pc, afterFillStep_halted]

/-- The halt of R403 reports the decode fault that the view has counted already. -/
theorem committedView_halts {s : State} {w : CompletedInstr} (hh : s.halted = false) (hw : haltingInstr s = some w) :
    (advanceCycle s).committedView = s.committedView ∧ stopping (advanceCycle s) = stopping s := by
  have he : advanceCycle s = { s.report (.decodeFault w.iw w.pc) with halted := true } := by
    rw [advanceCycle, runCycle_halts hh hw]; rfl
  have hw' : haltingInstr (advanceCycle s) = some w := by rw [← hw, he]; exact haltingInstr_congr rfl rfl
  refine ⟨?_, by rw [stopping_of_halts hw', stopping_of_halts hw]⟩
  simp only [State.committedView, stopping_of_halts hw', stopping_of_halts hw, hw', hw]
  simp [he, hh, regsAfterWr, storeCalls, programEvents]
  rfl

/-- A cycle of a halted core. -/
theorem advanceCycle_halted {s : State} (hh : s.halted = true) : advanceCycle s = s := by
  rw [advanceCycle, runCycle_halted hh]; rfl

/-! ### Cycles that latch -/

/-- The architectural machine `t` has done what is older than the instruction in `MR` of `u`. -/
structure OlderDone (t u : State) : Prop where
  regs : t.regs = regsAfterWr u
  mem : t.mem = u.mem
  events : programEvents t = writebackEvents u ++ programEvents u
  stores : storeCalls t = storeCalls u

section latched
variable {s : State} (hr : s.Runs) (hh : (memoryPhase s).hold = false)
include hr hh

theorem halted_latched : (advanceCycle s).halted = false := by
  rw [advanceCycle_latched hr hh, latch_halted, fetchPhase_halted, hr.1]

theorem regs_latched : (advanceCycle s).regs = regsAfterWr s := by
  rw [advanceCycle_latched hr hh, latch_regs, fetchPhase_regs, writeback_regs_eq]

theorem wr_latched : (advanceCycle s).wr = (memoryPhase s).wrNext := by
  rw [advanceCycle_latched hr hh, latch_wr]

theorem mr_latched : (advanceCycle s).mr = (executePhase s).mrNext := by
  rw [advanceCycle_latched hr hh, latch_mr]

theorem mem_latched : (advanceCycle s).mem = (memoryPhase s).state.mem := by
  rw [advanceCycle_latched hr hh, latch_mem, fetchPhase_mem]

theorem storeCalls_latched : storeCalls (advanceCycle s) = storeCalls (memoryPhase s).state := by
  rw [advanceCycle_latched hr hh, storeCalls_congr (latch_bus ..), storeCalls_fetchPhase]

theorem programEvents_latched : programEvents (advanceCycle s) = writebackEvents s ++ programEvents s := by
  rw [advanceCycle_latched hr hh, programEvents_congr (latch_events ..), programEvents_fetchPhase]

/-- A bubble in `MR` passes on, and nothing is stored. -/
theorem memory_latched_bubble (hm : s.mr = none) :
    (advanceCycle s).wr = none ∧ (advanceCycle s).mem = s.mem ∧ storeCalls (advanceCycle s) = storeCalls s := by
  have h : memoryPhase s = _ := memoryStage_bubble (by rw [writeback_mr, hm])
  rw [wr_latched hr hh, mem_latched hr hh, storeCalls_latched hr hh, h]
  exact ⟨rfl, writeback_mem s, storeCalls_congr (writeback_bus s)⟩

/-- The instruction in `MR` completes: it goes on to `WR`, and a store has been performed. -/
theorem memory_latched {m : ExecutedInstr} (hi : s.Inv) (hm : s.mr = some m) :
    m.misaligned = false ∧ (∃ w, (advanceCycle s).wr = some w ∧ m.CompletedAs s w) ∧
      (advanceCycle s).mem = committedMem s ∧ storeCalls (advanceCycle s) = committedStores s := by
  have hwr := hi.mr_wr hm
  obtain ⟨-, -, -, hd, -⟩ := hi
  obtain ⟨ha, ⟨w, hw, hc⟩, hmem, hst⟩ := memoryStage_completes (s := writeback s) (m := m) (by rw [writeback_mr, hm])
    hd.writeback (fun h => hwr.trans (writes_of_isLoad h)) (fun h => hwr.trans (writes_of_isStore h)) hh
  refine ⟨ha, ⟨w, by rw [wr_latched hr hh]; exact hw, hc.pc, hc.iw, hc.tag, hc.wr, ?_⟩, ?_, ?_⟩
  · simpa [pendingResult] using hc.result
  · rw [mem_latched hr hh, memoryPhase, hmem, committedMem, committedMem, writeback_mr, writeback_mem]
  · rw [storeCalls_latched hr hh, memoryPhase, hst, committedStores, committedStores, writeback_mr,
      storeCalls_congr (writeback_bus s)]

/-- The registers that the view counted as committed are those after the write of the next `WR`. -/
theorem committedRegs_latched (hi : s.Inv) : regsAfterWr (advanceCycle s) = committedRegs s := by
  have hregs := regs_latched hr hh
  rcases hm : s.mr with _ | m
  · obtain ⟨hw, -⟩ := memory_latched_bubble hr hh hm
    simp [regsAfterWr, committedRegs, hw, hm, hregs]
  · obtain ⟨ha, ⟨w, hw, hc⟩, -⟩ := memory_latched hr hh hi hm
    have hl : regsAfterWr (advanceCycle s) =
        if w.wr then RegFile.write (regsAfterWr s) w.rd w.result else regsAfterWr s := by
      rw [← hregs]; simp only [regsAfterWr, hw]
    rw [hl, hc.wr]
    cases hwr : m.wr
    · simp [committedRegs, hm, hwr]
    · obtain ⟨hrd, hres⟩ := hc.result hwr
      simp [committedRegs, hm, hwr, ha, hrd, hres]

theorem committedEvents_latched (hi : s.Inv) :
    writebackEvents (advanceCycle s) ++ programEvents (advanceCycle s) = committedEvents s := by
  rw [programEvents_latched hr hh, committedEvents, List.append_assoc]
  congr 1
  rcases hm : s.mr with _ | m
  · obtain ⟨hw, -⟩ := memory_latched_bubble hr hh hm
    simp [writebackEvents, hw]
  · obtain ⟨ha, ⟨w, hw, hc⟩, -⟩ := memory_latched hr hh hi hm
    simp [writebackEvents, hw, ha, hc.pc, hc.iw, hc.tag]

theorem committedMem_latched (hi : s.Inv) :
    (advanceCycle s).mem = committedMem s ∧ storeCalls (advanceCycle s) = committedStores s := by
  rcases hm : s.mr with _ | m
  · obtain ⟨-, hmem, hst⟩ := memory_latched_bubble hr hh hm
    simp [committedMem, committedStores, hm, hmem, hst]
  · exact (memory_latched hr hh hi hm).2.2

/-- What the view of a running core that is not stopping has committed to is done after the cycle. -/
theorem olderDone_latched (hi : s.Inv) (hs : stopping s = none) {t : State} (ht : t.archView = s.committedView) :
    OlderDone t (advanceCycle s) ∧ t.pc = frontPc s := by
  obtain ⟨hmem, hst⟩ := committedMem_latched hr hh hi
  have hpc : committedPc s = frontPc s := by
    rw [committedPc_eq, if_neg]
    rcases hm : s.mr with _ | m
    · simp
    · simp [(memory_latched hr hh hi hm).1]
  simp only [State.archView, State.committedView, hs, ArchView.mk.injEq] at ht
  obtain ⟨h1, h2, h3, h4, h5⟩ := ht
  refine ⟨⟨?_, ?_, ?_, ?_⟩, by rw [h3, hpc]⟩
  · rw [h1, committedRegs_latched hr hh hi]
  · rw [h2, hmem]
  · rw [h4, committedEvents_latched hr hh hi]
  · rw [h5, hst]

/-- `HALT` stops the core in the next cycle exactly when the decode fault was in `MR`. -/
theorem haltingInstr_latched (hi : s.Inv) :
    (haltingInstr (advanceCycle s)).map (fun w => (w.pc, w.iw)) = stopping s := by
  rcases hm : s.mr with _ | m
  · rw [stopping_bubble hr.2 hm, haltingInstr_bubble (memory_latched_bubble hr hh hm).1]; rfl
  · obtain ⟨-, ⟨w, hw, hc⟩, -⟩ := memory_latched hr hh hi hm
    rw [stopping_of_mr hr.2 hm, haltingInstr_of_wr hw, advanceCycle_cfg, hc.tag]
    split
    · simp [hc.pc, hc.iw]
    · rfl

theorem runs_latched (hi : s.Inv) (hs : stopping s = none) : (advanceCycle s).Runs :=
  ⟨halted_latched hr hh, by simpa [hs] using haltingInstr_latched hr hh hi⟩

/-- A core that is stopping commits to nothing younger than the decode fault (R403). -/
theorem committedView_stopping (hi : s.Inv) (hs : (stopping s).isSome = true) :
    (advanceCycle s).committedView = s.committedView ∧ stopping (advanceCycle s) = stopping s := by
  obtain ⟨p, hp⟩ := Option.isSome_iff_exists.1 hs
  obtain ⟨w, hw, hwp⟩ := Option.map_eq_some_iff.1 ((haltingInstr_latched hr hh hi).trans hp)
  have hs' : stopping (advanceCycle s) = some p := by rw [stopping_of_halts hw, ← hwp]
  refine ⟨?_, by rw [hs', hp]⟩
  obtain ⟨m, hm, htag⟩ := exists_of_stopping hr.2 hp
  have hwr : m.wr = false := by rw [hi.mr_wr hm, htag]; rfl
  have hregs := committedRegs_latched hr hh hi
  obtain ⟨hmem, hst⟩ := committedMem_latched hr hh hi
  simp only [committedRegs, committedMem, committedStores, hm, hwr, htag, Tag.isStore, Bool.false_and,
    Bool.false_eq_true, if_false] at hregs hmem hst
  simp [State.committedView, hs', hp, hw, hr.2, hr.1, hregs, hmem, hst, programEvents_latched hr hh,
    halted_latched hr hh]

end latched

end Sys2Proof.Machine
end

section
/-! SUPPORT. One cycle and the architectural machine (R268, R309): a cycle keeps the view, or is the one instruction
that Execute evaluates. -/

namespace Sys2Proof.Machine

/-- The architectural machine `t` is where the pipeline `s` has committed to be; it is halted exactly when the
pipeline has evaluated a decode fault that stops it (R268, R403, log 12). -/
structure Corresponds (t s : State) : Prop where
  level : t.level = .architectural
  halted : t.halted = (stopping s).isSome
  cfg : t.cfg = s.cfg
  view : t.archView = s.committedView

/-! ### The word in `XR` is the one the architectural machine fetches (R72, R268) -/

/-- An instruction word in another 16-byte line than an aligned store is as before. -/
theorem Memory.instrAt_write (m : Memory) {p a : Word} {n : Nat} (v : Word) (hp : aligned p 4 = true)
    (hn : accessSize n) (ha : aligned a n = true) (hne : icBase p ≠ icBase a) :
    (m.write a n v).instrAt p = m.instrAt p := by
  rw [aligned_iff] at hp ha
  have hline : p.toNat / 16 ≠ a.toNat / 16 := fun h =>
    hne (BitVec.eq_of_toNat_eq (by rw [icBase_toNat, icBase_toNat, h]))
  have hpl := p.isLt
  have hal := a.isLt
  refine congrArg (BitVec.ofNat 32) (Memory.read_congr fun i hi => Memory.byte_write_outside m a v ?_)
  simp only [BitVec.toNat_sub, BitVec.toNat_add, BitVec.toNat_ofNat]
  rcases hn with rfl | rfl | rfl | rfl <;> omega

/-- Under premise (i) of R268 the store in `MR` leaves the word of the instruction in `XR`. -/
theorem instrAt_committedMem {s : State} (hr : s.Runs) (hn : s.NoCodeStore) {x : DecodedInstr} (hx : s.xr = some x)
    (hp : aligned x.pc 4 = true) : (committedMem s).instrAt x.pc = s.mem.instrAt x.pc := by
  rcases hm : s.mr with _ | m
  · simp [committedMem, hm]
  · simp only [committedMem, hm]
    split
    · rename_i h
      simp only [Bool.and_eq_true, Bool.not_eq_true'] at h
      obtain ⟨hs, ha⟩ := h
      rw [ExecutedInstr.misaligned_of_access (by simp [hs]), Bool.not_eq_false'] at ha
      obtain ⟨-, -, -, hcode⟩ := hn hr m hm hs
      exact Memory.instrAt_write _ _ hp (accessBytes_store hs) ha (hcode x hx)
    · rfl

/-- The instruction in `XR`, with everything older committed to, is the one at `pc` of the architectural machine. -/
theorem instrAt_pc {s t : State} (hi : s.RefInv) (hn : s.NoCodeStore) {x : DecodedInstr} (hr : s.Runs)
    (hx : s.xr = some x) (hmem : t.mem = committedMem s) (hpc : t.pc = frontPc s) :
    x.pc = t.pc ∧ aligned t.pc 4 = true ∧ t.mem.instrAt t.pc = x.iw := by
  obtain ⟨hinv, -, -, ⟨-, -, -, hcode⟩, -⟩ := hi
  obtain ⟨⟨hal, -⟩, -⟩ := hinv.xr_decoded hx
  have hp : x.pc = t.pc := by rw [hpc]; simp [frontPc, hx]
  refine ⟨hp, hp ▸ hal, ?_⟩
  rw [← hp, hmem, instrAt_committedMem hr hn hx hal, hcode x hx]

/-! ### The view of a pipeline whose older instructions are done -/

theorem committedView_bubble {t u : State} (ho : OlderDone t u) (hs : stopping u = none) (hm : u.mr = none)
    (hp : t.pc = frontPc u) : t.archView = u.committedView := by
  simp [State.archView, State.committedView, hs, committedRegs, committedMem, committedEvents, committedStores,
    committedPc_eq, hm, ho.regs, ho.mem, ho.events, ho.stores, hp]

/-- Performing the instruction in `MR` after everything older gives the view of the pipeline. -/
theorem committedView_eq_perform {t u : State} {m : ExecutedInstr} (ho : OlderDone t u) (hs : stopping u = none)
    (hm : u.mr = some m) (hp : m.pc = t.pc) (htag : m.tag ≠ .decodeFault) (hw : m.wr = tagWrites m.tag) :
    (m.perform (frontPc u) t).archView = u.committedView := by
  have hres : pendingResult t m = pendingResult u m := by rw [pendingResult, pendingResult, ho.mem]
  have hev : committedEvents u = if m.misaligned then programEvents t else .retire t.pc m.tag :: programEvents t := by
    rw [ho.events]
    simp only [committedEvents, hm, retireEvents, htag, if_false, hp]
    split <;> simp
  simp only [State.committedView, hs, committedRegs, committedMem, committedStores, committedPc_eq, hm, hev,
    ← ho.regs, ← ho.mem, ← ho.stores, ← hres]
  rcases m.perform_cases (frontPc u) t with ⟨ha, h⟩ | ⟨ha, hst, h⟩ | ⟨ha, hst, hwr, h⟩ | ⟨ha, hst, hwr, h⟩ <;> rw [h]
  · simp [State.archView, ha, hp]
  · have hwr : m.wr = false := hw.trans (writes_of_isStore hst)
    simp [State.archView, ha, hst, hwr]
  · simp [State.archView, ha, hst, hwr]
  · simp [State.archView, ha, hst, hwr]

@[simp] theorem State.decodeFault_level (s : State) (iw : InstrWord) : (s.decodeFault iw).level = s.level := by
  unfold State.decodeFault; split <;> rfl

@[simp] theorem State.decodeFault_cfg (s : State) (iw : InstrWord) : (s.decodeFault iw).cfg = s.cfg := by
  unfold State.decodeFault; split <;> rfl

theorem State.decodeFault_nop (s : State) (iw : InstrWord) (h : s.cfg.decodeFaultPolicy = .nop) :
    (s.decodeFault iw).archView = { s.archView with
      pc := s.pc + 4, events := .decodeFault iw s.pc :: .retire s.pc .decodeFault :: programEvents s } ∧
    (s.decodeFault iw).halted = s.halted := by
  rw [State.decodeFault, h]; exact ⟨rfl, rfl⟩

theorem State.decodeFault_halt (s : State) (iw : InstrWord) (h : s.cfg.decodeFaultPolicy = .halt) :
    (s.decodeFault iw).archView = { s.archView with events := .decodeFault iw s.pc :: programEvents s } ∧
    (s.decodeFault iw).halted = true := by
  rw [State.decodeFault, h]; exact ⟨rfl, rfl⟩

/-- The decode fault in `MR`, after everything older, under either policy (R240, R403). -/
theorem committedView_eq_decodeFault {t u : State} {m : ExecutedInstr} (ho : OlderDone t u) (hm : u.mr = some m)
    (hrun : u.Runs) (hc : t.cfg = u.cfg) (ht : t.halted = false) (hp : m.pc = t.pc) (htag : m.tag = .decodeFault)
    (hw : m.wr = false) (hf : frontPc u = t.pc + 4) :
    (t.decodeFault m.iw).archView = u.committedView ∧ (t.decodeFault m.iw).halted = (stopping u).isSome := by
  have hst := stopping_of_mr hrun.2 hm
  rw [htag, ← hc] at hst
  have ha : m.misaligned = false := by simp [ExecutedInstr.misaligned, htag, Tag.isLoad, Tag.isStore]
  cases hpol : t.cfg.decodeFaultPolicy <;>
    simp only [hpol, reduceCtorEq, and_true, if_true, if_false] at hst
  · obtain ⟨hv, hhalted⟩ := t.decodeFault_nop m.iw hpol
    rw [hv, hhalted, hst, ht]
    simp [State.archView, State.committedView, hst, committedRegs, committedMem, committedEvents, committedStores,
      committedPc_eq, retireEvents, hm, ha, hw, htag, Tag.isStore, hf, hp, ho.regs, ho.mem, ho.events, ho.stores]
  · obtain ⟨hv, hhalted⟩ := t.decodeFault_halt m.iw hpol
    rw [hv, hhalted, hst]
    simp [State.archView, State.committedView, hst, hrun.1, hrun.2, hp, ho.regs, ho.mem, ho.events, ho.stores]

/-! ### A cycle that evaluates no instruction, or of a core that is stopping -/

theorem executesInstr_iff {s : State} :
    executesInstr s = true ↔ s.Runs ∧ (memoryPhase s).hold = false ∧ ∃ x, s.xr = some x := by
  simp only [executesInstr, Bool.and_eq_true, decide_eq_true_eq, Bool.not_eq_true', Option.isSome_iff_exists]
  exact ⟨fun ⟨⟨h1, h2⟩, h3⟩ => ⟨h1, (holdAll_eq h1).symm.trans h2, h3⟩,
    fun ⟨h1, h2, h3⟩ => ⟨⟨h1, (holdAll_eq h1).trans h2⟩, h3⟩⟩

/-- A bubble in `XR` leaves the view: what was in flight is done or still to come. -/
theorem committedView_bubble_latched {s t : State} (hi : s.Inv) (hr : s.Runs) (hm : (memoryPhase s).hold = false)
    (hs : stopping s = none) (hx : s.xr = none) (hv : t.archView = s.committedView) :
    t.archView = (advanceCycle s).committedView ∧ stopping (advanceCycle s) = none := by
  obtain ⟨hmr, hred⟩ := executePhase_bubble hx
  obtain ⟨ho, hp⟩ := olderDone_latched hr hm hi hs hv
  have hmr' : (advanceCycle s).mr = none := by rw [mr_latched hr hm, hmr]
  have hstop := stopping_bubble (runs_latched hr hm hi hs).2 hmr'
  refine ⟨committedView_bubble ho hstop hmr' ?_, hstop⟩
  rw [frontPc_latched hr hm, hred, hp]
  simp [frontPc, hx]

/-- Such a cycle keeps the correspondence. -/
theorem Corresponds.kept {s t : State} (h : Corresponds t s) (hi : s.Inv)
    (hk : executesInstr s = false ∨ (stopping s).isSome = true) : Corresponds t (advanceCycle s) := by
  suffices hv : t.archView = (advanceCycle s).committedView ∧ stopping (advanceCycle s) = stopping s from
    ⟨h.level, by rw [h.halted, hv.2], by rw [h.cfg, advanceCycle_cfg], hv.1⟩
  cases hh : s.halted
  case true => rw [advanceCycle_halted hh]; exact ⟨h.view, rfl⟩
  rcases hw : haltingInstr s with _ | w
  case some => rw [h.view, (committedView_halts hh hw).1]; exact ⟨rfl, (committedView_halts hh hw).2⟩
  have hr : s.Runs := ⟨hh, hw⟩
  cases hm : (memoryPhase s).hold
  case true => rw [h.view, (committedView_held hr hm).1]; exact ⟨rfl, (committedView_held hr hm).2⟩
  cases hs : (stopping s).isSome
  case true =>
    rw [h.view, (committedView_stopping hr hm hi hs).1]; exact ⟨rfl, (committedView_stopping hr hm hi hs).2⟩
  have hx : s.xr = none := by
    have hne := hk.resolve_right (by simp [hs])
    rcases hx : s.xr with _ | x
    · rfl
    · rw [executesInstr_iff.2 ⟨hr, hm, x, hx⟩] at hne; cases hne
  have hs : stopping s = none := by simpa using hs
  rw [hs]
  exact committedView_bubble_latched hi hr hm hs hx h.view

/-! ### A cycle that evaluates an instruction -/

/-- In program order the operands are the registers that the architectural machine reads (R309). -/
theorem operands_eq_vals {s t : State} {x : DecodedInstr} (ho : s.OperandsOk) (hx : s.xr = some x)
    (hr : t.regs = committedRegs s) : operandA s x = x.valA t ∧ operandB s x = x.valB t := by
  obtain ⟨h1, h2⟩ := ho x hx
  constructor
  · unfold operandA DecodedInstr.valA
    split
    · rename_i hu; rw [h1 hu, State.readReg, hr]
    · rfl
  · unfold operandB DecodedInstr.valB
    split
    · rename_i hu; rw [h2 hu, State.readReg, hr]
    · rfl

/-- The pipeline `u` has just evaluated `x`, the next instruction of the architectural machine `t`, and `t` has done
everything older. -/
structure Evaluated (t u : State) (x : DecodedInstr) : Prop where
  older : OlderDone t u
  runs : u.Runs
  cfg : t.cfg = u.cfg
  pc : x.pc = t.pc
  operandSet : x.operandSet = decodeOperands t.cfg x.iw
  mr : ∃ branch wrongPrediction, u.mr = some (x.executed t.cfg (x.valA t) (x.valB t) branch wrongPrediction)
  front : frontPc u = x.nextPc t

/-- Execute computes on the values of program order (R309) and what comes next is at the true next pc (R262), by the
redirect or because Fetch went there. -/
theorem evaluated_latched {s t : State} (hi : s.RefInv) {x : DecodedInstr} (hr : s.Runs)
    (hm : (memoryPhase s).hold = false) (hx : s.xr = some x) (hs : stopping s = none) (hc : t.cfg = s.cfg)
    (ho : OlderDone t (advanceCycle s)) (hpc : x.pc = t.pc) : Evaluated t (advanceCycle s) x := by
  obtain ⟨hinv, ⟨-, hflow⟩, hops, -⟩ := hi
  obtain ⟨hfetch, hset⟩ := hinv.xr_decoded hx
  obtain ⟨hA, hB⟩ := operands_eq_vals hops hx (ho.regs.trans (committedRegs_latched hr hm hinv))
  obtain ⟨hmr, hred⟩ := executePhase_evaluates hx
  rw [hA, hB] at hmr hred
  refine ⟨ho, runs_latched hr hm hinv hs, hc.trans (advanceCycle_cfg s).symm, hpc, hc ▸ hset, ?_, ?_⟩
  · rw [mr_latched hr hm, hc]; exact hmr
  · rw [frontPc_latched hr hm, hflow x hx, hred, DecodedInstr.nextPc]
    rcases ht : trueNextPc x.tag x.pc (x.valA t) (x.valB t) x.imm with _ | npc
    · exact predNpc_of_no_transfer hfetch hset ht
    · rfl

/-- The word is outside the supported set: both machines report it (R240, R403). -/
theorem Evaluated.decodeFault_corresponds {t u : State} {x : DecodedInstr} (h : Evaluated t u x)
    (hl : t.level = .architectural) (hh : t.halted = false) {e : DecodeError} (hd : decodeWord x.iw = .error e) :
    Corresponds (t.decodeFault x.iw) u := by
  have hset := h.operandSet
  rw [decodeOperands_error hd] at hset
  have htag : x.tag = .decodeFault := congrArg Decoded.tag hset
  have hnext : x.nextPc t = t.pc + 4 := by
    simp [DecodedInstr.nextPc, htag, h.pc, trueNextPc, branchCondition, nextWord]
  obtain ⟨br, wp, hmr⟩ := h.mr
  obtain ⟨hview, hhalted⟩ := committedView_eq_decodeFault h.older hmr h.runs h.cfg hh h.pc htag
    (congrArg Decoded.wr hset) (h.front.trans hnext)
  exact ⟨(t.decodeFault_level x.iw).trans hl, hhalted, (t.decodeFault_cfg x.iw).trans h.cfg, hview⟩

/-- The word is an instruction: the architectural machine performs the entry of `MR`. -/
theorem Evaluated.exec_next {t u : State} {x : DecodedInstr} (h : Evaluated t u x)
    (hl : t.level = .architectural) (hh : t.halted = false) {i : Instr} (hd : decodeWord x.iw = .ok i) :
    ∃ t', exec i t = .next t' ∧ Corresponds t' u := by
  have hset := h.operandSet
  have hwr : x.wr = tagWrites x.tag := by
    rw [show x.wr = _ from congrArg Decoded.wr hset, show x.tag = _ from congrArg Decoded.tag hset, decodeOperands_wr]
  rw [decodeOperands_ok hd] at hset
  have htag : x.tag ≠ .decodeFault := by
    rw [show x.tag = _ from congrArg Decoded.tag hset, operands_tag]
    exact tag_ne_decodeFault i
  obtain ⟨br, wp, hmr⟩ := h.mr
  have hstop : stopping u = none := by rw [stopping_of_mr h.runs.2 hmr, if_neg fun hf => htag hf.2]
  obtain ⟨hcfg, hlevel, -, -, -, -, -, -, -, -, hhalted, -⟩ :=
    ExecutedInstr.perform_sameCore (x.executed t.cfg (x.valA t) (x.valB t) br wp) (x.nextPc t) t
  refine ⟨_, exec_eq_perform hset h.pc br wp, hlevel.trans hl, by rw [hhalted, hh, hstop]; rfl, hcfg.trans h.cfg, ?_⟩
  rw [← h.front]
  exact committedView_eq_perform h.older hstop hmr h.pc htag hwr

/-- A cycle in which Execute evaluates an instruction is one step of the architectural machine. -/
theorem Corresponds.step_of_executes {s t : State} (h : Corresponds t s) (hi : s.RefInv) (hn : s.NoCodeStore)
    (he : executesInstr s = true) (hs : stopping s = none) :
    ∃ t', step t = .next t' ∧ Corresponds t' (advanceCycle s) := by
  obtain ⟨hr, hm, x, hx⟩ := executesInstr_iff.1 he
  obtain ⟨ho, hp⟩ := olderDone_latched hr hm hi.1 hs h.view
  obtain ⟨hpc, hal, hword⟩ :=
    instrAt_pc hi hn hr hx (ho.mem.trans (committedMem_latched hr hm hi.1).1) hp
  have hev := evaluated_latched hi hr hm hx hs h.cfg ho hpc
  have hh : t.halted = false := by rw [h.halted, hs]; rfl
  rw [step_architectural h.level]
  rcases hd : decodeWord x.iw with e | i
  · refine ⟨_, instrStep_of_decodeError hh hal (hword ▸ hd), ?_⟩
    rw [hword]
    exact hev.decodeFault_corresponds h.level hh hd
  · obtain ⟨t', ht', hcor⟩ := hev.exec_next h.level hh hd
    exact ⟨t', (instrStep_of_decodes hh hal (hword ▸ hd)).trans ht', hcor⟩

/-- The architectural machine of a core that is stopping is halted and stays as it is (R403, log 12). -/
theorem Corresponds.step_of_stopping {s t : State} (h : Corresponds t s) (hs : (stopping s).isSome = true) :
    step t = .next t := by
  rw [step_architectural h.level, instrStep_halted (h.halted.trans hs)]

/-- Settles O58: a cycle that evaluates no instruction, or of a core that is stopping, keeps the view; any other is
one step of the architectural machine. -/
theorem everyCycleIsAtMostOneInstruction : Obligations.EveryCycleIsAtMostOneInstruction := by
  unfold Obligations.EveryCycleIsAtMostOneInstruction
  intro s t hi hn hl hh hc hv
  have h : Corresponds t s := ⟨hl, hh, hc, hv⟩
  refine ⟨fun he => ?_, fun he => ?_⟩
  · obtain ⟨t', ht, h'⟩ : ∃ t', step t = .next t' ∧ Corresponds t' (advanceCycle s) := by
      cases hs : (stopping s).isSome
      · exact h.step_of_executes hi hn he (by simpa using hs)
      · exact ⟨t, h.step_of_stopping hs, h.kept hi.1 (.inr hs)⟩
    exact ⟨t', ht, h'.view, h'.level, h'.halted, h'.cfg⟩
  · have h' := h.kept hi.1 (.inl he)
    exact ⟨h'.view, h'.halted, h'.cfg⟩

end Sys2Proof.Machine
end

section
/-! SUPPORT. Even addresses (R22, R96, R98): the decoder reinstates the low zero bit of an offset, so every true next
pc of an instruction at an even address is even. -/

namespace Sys2Proof.Machine

theorem even_iff {a : Word} : even a = true ↔ a.toNat % 2 = 0 := by
  simp [even, BitVec.getLsbD, Nat.testBit_zero]

theorem even_add {a b : Word} (ha : even a = true) (hb : even b = true) : even (a + b) = true := by
  rw [even_iff] at *
  rw [BitVec.toNat_add]
  omega

theorem even_of_aligned {a : Word} (h : aligned a 4 = true) : even a = true := by
  rw [aligned_iff] at h
  rw [even_iff]
  omega

theorem even_nextWord {p : Word} (h : even p = true) : even (nextWord p) = true := even_add h (by decide)

/-- `jalr` clears bit 0 of its target (R218). -/
theorem even_jalrTarget (base imm : Word) : even (jalrTarget base imm) = true := by
  simp only [even, jalrTarget, BitVec.getLsbD_append]
  rfl

theorem even_sextImm {n : Nat} (hn : 0 < n) {offset : BitVec n} (h : evenOffset offset = true) :
    even (sextImm offset) = true := by
  simp only [even, sextImm, BitVec.getLsbD_signExtend, hn, if_true]
  exact h

/-! ### What the decoder gives is well formed (R96, R98) -/

theorem wellFormed_of_decodeBranch {iw : InstrWord} {i : Instr} (h : decodeBranch iw = .ok i) :
    i.wellFormed = true := by
  unfold decodeBranch at h
  split at h <;> cases h <;> exact evenOffset_bField iw

/-- Only a branch and `jal` have a field that could be ill formed. -/
theorem wellFormed_of_decodeWord {iw : InstrWord} {i : Instr} (h : decodeWord iw = .ok i) : i.wellFormed = true := by
  unfold decodeWord at h
  split at h
  case h_10 => exact wellFormed_of_decodeBranch h
  case h_12 => cases h; exact evenOffset_jField iw
  case h_4 | h_8 => cases h; rfl
  case h_14 => cases h
  all_goals
    simp only [decodeLoad, decodeMiscMem, decodeOpImm, decodeOpImm32, decodeStore, decodeOp, decodeOp32, decodeJalr,
      decodeSystem] at h
    (repeat' split at h) <;> cases h <;> rfl

/-- An offset that is relative to `pc` is even. -/
theorem even_imm_operands {i : Instr} (hi : i.wellFormed = true) (cfg : Config)
    (ht : i.tag.isBranch = true ∨ i.tag = .jal) : even (i.operands cfg).imm = true := by
  cases i
  case beq | bne | blt | bge | bltu | bgeu | jal => exact even_sextImm (by decide) hi
  all_goals simp [Instr.tag, Tag.isBranch] at ht

theorem even_imm_decodeOperands {cfg : Config} {iw : InstrWord}
    (ht : (decodeOperands cfg iw).tag.isBranch = true ∨ (decodeOperands cfg iw).tag = .jal) :
    even (decodeOperands cfg iw).imm = true := by
  rcases hd : decodeWord iw with e | i
  · rw [decodeOperands_error hd]; decide
  · rw [decodeOperands_ok hd, operands_tag] at ht
    rw [decodeOperands_ok hd]
    exact even_imm_operands (wellFormed_of_decodeWord hd) cfg ht

theorem isBranch_of_branchCondition {tag : Tag} {a b : Word} {taken : Bool} (h : branchCondition tag a b = some taken) :
    tag.isBranch = true := by
  cases tag <;> simp_all [branchCondition, Tag.isBranch]

/-- The true next pc of a control transfer (R262). -/
theorem even_trueNextPc {tag : Tag} {p a b imm tnpc : Word} (hp : even p = true)
    (hi : tag.isBranch = true ∨ tag = .jal → even imm = true) (h : trueNextPc tag p a b imm = some tnpc) :
    even tnpc = true := by
  unfold trueNextPc at h
  split at h
  · rename_i taken hc
    cases h
    cases taken
    · exact even_nextWord hp
    · exact even_add hp (hi (.inl (isBranch_of_branchCondition hc)))
  · split at h
    · rename_i hj; cases h; exact even_add hp (hi (.inr hj))
    · split at h
      · cases h; exact even_jalrTarget ..
      · cases h

/-- The same of an instruction as the decoder gives it. -/
theorem DecodedInstr.even_trueNextPc {x : DecodedInstr} {cfg : Config} {a b tnpc : Word} (hp : even x.pc = true)
    (hx : x.operandSet = decodeOperands cfg x.iw) (h : trueNextPc x.tag x.pc a b x.imm = some tnpc) :
    even tnpc = true := by
  refine Machine.even_trueNextPc hp (fun ht => ?_) h
  rw [show x.tag = _ from congrArg Decoded.tag hx] at ht
  rw [show x.imm = _ from congrArg Decoded.imm hx]
  exact even_imm_decodeOperands ht

theorem DecodedInstr.even_nextPc {x : DecodedInstr} {s : State} (hp : even x.pc = true)
    (hx : x.operandSet = decodeOperands s.cfg x.iw) : even (x.nextPc s) = true := by
  unfold DecodedInstr.nextPc
  rcases ht : trueNextPc x.tag x.pc (x.valA s) (x.valB s) x.imm with _ | tnpc
  · exact even_nextWord hp
  · exact x.even_trueNextPc hp hx ht

end Sys2Proof.Machine
end

section
/-! SUPPORT. The branch target buffer as a list of slots (R332 (a), (b)): what its two scans find, and that
allocating an entry at Fetch and resolving one at Execute keep its form. -/

namespace Sys2Proof.Machine

/-- `State.BtbOk` of the table's slots. -/
def BtbSlotsOk (slots : List (Option BtbEntry)) : Prop :=
  slots.Pairwise (fun p q => q.isSome → p.isSome) ∧ ((slots.filterMap id).map BtbEntry.tag).Nodup ∧
    ∀ e ∈ slots.filterMap id, aligned e.tag 4 = true ∧ ∀ t ∈ e.target, even t = true

theorem State.btbOk_iff {s : State} : s.BtbOk ↔ BtbSlotsOk s.btb.toList := Iff.rfl

/-! ### What the scans find (R322, R326) -/

theorem Btb.scanFrom_hit {pc : Word} {e : BtbEntry} {slots : List (Option BtbEntry)} {i : Nat}
    (h : Btb.scanFrom pc slots i = .hit e) : some e ∈ slots := by
  induction slots generalizing i with
  | nil => cases h
  | cons p rest ih =>
    rcases p with _ | e'
    · cases h
    · simp only [Btb.scanFrom] at h
      split at h
      · cases h; exact List.mem_cons_self
      · exact List.mem_cons_of_mem _ (ih h)

/-- The first empty slot comes after entries of other branches only. -/
theorem Btb.scanFrom_empty {pc : Word} {j : Nat} {slots : List (Option BtbEntry)} {i : Nat}
    (h : Btb.scanFrom pc slots i = .empty j) :
    ∃ (entries : List BtbEntry) (post : List (Option BtbEntry)),
      slots = entries.map some ++ none :: post ∧ j = i + entries.length ∧ ∀ e ∈ entries, e.tag ≠ pc := by
  induction slots generalizing i with
  | nil => cases h
  | cons p rest ih =>
    rcases p with _ | e
    · cases h; exact ⟨[], rest, rfl, rfl, by simp⟩
    · simp only [Btb.scanFrom] at h
      split at h
      · cases h
      · rename_i hne
        obtain ⟨entries, post, rfl, rfl, hpc⟩ := ih h
        exact ⟨e :: entries, post, rfl, by simp; omega, List.forall_mem_cons.2 ⟨hne, hpc⟩⟩

theorem Btb.findFrom_some {pc : Word} {j : Nat} {e : BtbEntry} {slots : List (Option BtbEntry)} {i : Nat}
    (h : Btb.findFrom pc slots i = some (j, e)) :
    ∃ pre post, slots = pre ++ some e :: post ∧ j = i + pre.length := by
  induction slots generalizing i with
  | nil => cases h
  | cons p rest ih =>
    have later (h : Btb.findFrom pc rest (i + 1) = some (j, e)) :
        ∃ pre post, p :: rest = pre ++ some e :: post ∧ j = i + pre.length := by
      obtain ⟨pre, post, rfl, rfl⟩ := ih h
      exact ⟨p :: pre, post, rfl, by simp; omega⟩
    rcases p with _ | e'
    · exact later h
    · simp only [Btb.findFrom] at h
      split at h
      · cases h; exact ⟨[], rest, rfl, rfl⟩
      · exact later h

/-! ### What the updates keep -/

theorem BtbSlotsOk.even_target {slots : List (Option BtbEntry)} (h : BtbSlotsOk slots) {tag target : Word}
    (hm : some { tag := tag, target := some target } ∈ slots) : even target = true := by
  obtain ⟨-, -, hentries⟩ := h
  exact (hentries _ (List.mem_filterMap.2 ⟨_, hm, rfl⟩)).2 _ rfl

theorem BtbSlotsOk.set_target {pre post : List (Option BtbEntry)} {tag : Word} {old : Option Word}
    (h : BtbSlotsOk (pre ++ some { tag := tag, target := old } :: post)) {target : Word} (ht : even target = true) :
    BtbSlotsOk (pre ++ some { tag := tag, target := some target } :: post) := by
  obtain ⟨hslots, htags, hentries⟩ := h
  refine ⟨by simpa [List.pairwise_append] using hslots, by simpa using htags, ?_⟩
  simp only [List.filterMap_append, List.filterMap_cons, id_eq, List.forall_mem_append, List.forall_mem_cons]
    at hentries ⊢
  obtain ⟨hpre, ⟨htag, -⟩, hpost⟩ := hentries
  exact ⟨hpre, ⟨htag, fun t e => Option.mem_some.1 e ▸ ht⟩, hpost⟩

/-- The entry allocated is the last one: the slots after the first empty one are empty. -/
theorem BtbSlotsOk.allocate {entries : List BtbEntry} {post : List (Option BtbEntry)}
    (h : BtbSlotsOk (entries.map some ++ none :: post)) {pc : Word} (hpc : ∀ e ∈ entries, e.tag ≠ pc)
    (ha : aligned pc 4 = true) : BtbSlotsOk (entries.map some ++ some { tag := pc, target := none } :: post) := by
  obtain ⟨hslots, htags, hentries⟩ := h
  obtain ⟨hpre, hpost, -⟩ := List.pairwise_append.1 hslots
  obtain ⟨hempty, hpost⟩ := List.pairwise_cons.1 hpost
  have hlast : post.filterMap id = [] :=
    List.filterMap_eq_nil_iff.2 fun p hp => Option.not_isSome_iff_eq_none.1 fun hs => by cases hempty p hp hs
  have hold : (entries.map some ++ none :: post).filterMap id = entries := by
    rw [List.filterMap_append, List.filterMap_cons_none rfl, hlast]; simp
  have hnew : (entries.map some ++ some { tag := pc, target := none } :: post).filterMap id =
      entries ++ [{ tag := pc, target := none }] := by
    rw [List.filterMap_append, List.filterMap_cons_some (f := id) rfl, hlast]; simp
  rw [hold] at htags hentries
  refine ⟨List.pairwise_append.2 ⟨hpre, List.pairwise_cons.2 ⟨fun _ _ _ => rfl, hpost⟩, by simp⟩, ?_, ?_⟩
  · rw [hnew, List.map_append, List.nodup_append]
    exact ⟨htags, List.nodup_singleton _, by simpa using hpc⟩
  · rw [hnew]
    simp only [List.forall_mem_append, List.forall_mem_singleton]
    exact ⟨hentries, ha, by simp⟩

theorem toList_setIfInBounds_append {α : Type} {n : Nat} {v : Vector α n} {pre post : List α} {old new : α}
    (h : v.toList = pre ++ old :: post) : (v.setIfInBounds pre.length new).toList = pre ++ new :: post := by
  simp [h]

/-- Fetch (R321 to R325): the table keeps its form, and what Fetch latches with the word is as R28 has it. -/
theorem predict_keeps {btb : Btb} (h : BtbSlotsOk btb.toList) {pc : Word} (ha : aligned pc 4 = true) (iw : InstrWord) :
    BtbSlotsOk (predict btb pc iw).btb.toList ∧ fetchedOk pc iw (predict btb pc iw).pred (predict btb pc iw).npc := by
  have hnext : fetchedOk pc iw false (nextWord pc) := ⟨ha, even_nextWord (even_of_aligned ha), rfl⟩
  unfold predict
  split
  · rename_i hb
    split
    · rename_i tag target hs
      exact ⟨h, ha, h.even_target (Btb.scanFrom_hit hs), by simpa using hb⟩
    · exact ⟨h, hnext⟩
    · rename_i i hs
      obtain ⟨entries, post, hl, rfl, hpc⟩ := Btb.scanFrom_empty hs
      rw [hl] at h
      rw [Nat.zero_add, ← List.length_map some, toList_setIfInBounds_append hl]
      exact ⟨h.allocate hpc ha, hnext⟩
    · exact ⟨h, hnext⟩
  · exact ⟨h, hnext⟩

/-- Execute (R326): the table keeps its form. -/
theorem resolve_keeps {btb : Btb} (h : BtbSlotsOk btb.toList) {tnpc : Word} (ht : even tnpc = true) (pc : Word) :
    BtbSlotsOk (resolve btb pc tnpc).1.toList := by
  have update {i : Nat} {e : BtbEntry} (hf : Btb.find btb pc = some (i, e)) :
      BtbSlotsOk (btb.setIfInBounds i (some { tag := e.tag, target := some tnpc })).toList := by
    obtain ⟨pre, post, hl, rfl⟩ := Btb.findFrom_some hf
    rw [hl] at h
    rw [Nat.zero_add, toList_setIfInBounds_append hl]
    exact h.set_target ht
  unfold resolve
  split
  · exact h
  · rename_i hf; exact update hf
  · rename_i hf
    split
    · exact h
    · exact update hf

end Sys2Proof.Machine
end

section
/-! SUPPORT. Data-cache transparency (R73) over the operations that touch memory or the data cache: a fill installs
what memory holds, a store changes a line as it changes memory, and a fill waits for the load in `MR`. -/

namespace Sys2Proof.Machine

/-- The lines of the data cache are those of memory: the clauses of `State.DcOk` about them. -/
def DcLinesOk (lines : List (Nat × DcLine)) (m : Memory) : Prop :=
  Assoc.sorted lines ∧ ∀ p ∈ lines, p.1 < 2048 ∧ p.2.data = m.readWord (dcLineAddr p.1 p.2.tag) 8

theorem State.DcOk.lines {s : State} (h : s.DcOk) : DcLinesOk s.dcLines s.mem := ⟨h.1, h.2.1⟩

theorem State.DcOk.fill {s : State} (h : s.DcOk) {f : Word × BitVec 64} (hf : s.dcFsm.pending = some f) :
    dcBase f.1 = f.1 ∧ f.2 = s.mem.readWord f.1 8 := by
  obtain ⟨-, -, hfill⟩ := h
  obtain ⟨hb, hd, -⟩ := hfill f hf
  exact ⟨hb, hd⟩

/-- A fill in progress is at the cycle level, for the aligned load in `MR`. -/
theorem State.DcOk.load_of_pending {s : State} (h : s.DcOk) {f : Word × BitVec 64} (hf : s.dcFsm.pending = some f) :
    s.level = .cycle ∧ ∃ m, s.mr = some m ∧ m.tag.isLoad = true ∧ m.misaligned = false := by
  obtain ⟨-, -, hfill⟩ := h
  obtain ⟨-, -, hl, hm⟩ := hfill f hf
  simp only [Option.any_eq_true, Bool.and_eq_true, Bool.not_eq_true'] at hm
  obtain ⟨m, hm, ⟨hload, ha⟩, -⟩ := hm
  exact ⟨hl, m, hm, hload, ha⟩

/-- Without a fill in progress the lines are all that the clause speaks of. -/
theorem State.dcOk_of_idle {s : State} (h : DcLinesOk s.dcLines s.mem) (hi : s.dcFsm.pending = none) : s.DcOk :=
  ⟨h.1, h.2, by simp [hi]⟩

/-- `State.DcOk` depends on the data cache, memory, the level and `MR`. -/
theorem State.DcOk.congr {s t : State} (h : s.DcOk) (hl : t.dcLines = s.dcLines)
    (hf : t.dcFsm.pending = s.dcFsm.pending) (hm : t.mem = s.mem) (hv : t.level = s.level) (hr : t.mr = s.mr) :
    t.DcOk := by
  simpa only [State.DcOk, hl, hf, hm, hv, hr] using h

/-! ### Lines -/

/-- A line that lists memory's bytes at its address (R364). -/
theorem DcLinesOk.insert {lines : List (Nat × DcLine)} {m : Memory} (h : DcLinesOk lines m) {base : Word}
    (hb : dcBase base = base) :
    DcLinesOk (Assoc.insert lines (dcIndex base) { tag := dcTag base, data := m.readWord base 8 }) m := by
  obtain ⟨hs, hl⟩ := h
  refine ⟨Assoc.sorted_insert hs _ _, fun p hp => ?_⟩
  rcases Assoc.mem_insert hp with rfl | hp
  · exact ⟨dcIndex_lt base, by rw [dcLineAddr_index_tag, hb]⟩
  · exact hl p hp

/-- The line at an index and tag is the one of an address exactly when they are the address's (R360). -/
theorem dcBase_eq_dcLineAddr_iff {a : Word} {i : Nat} (hi : i < 2048) {tag : BitVec 50} :
    dcBase a = dcLineAddr i tag ↔ i = dcIndex a ∧ tag = dcTag a := by
  constructor
  · intro h
    rw [← dcLineAddr_index_tag] at h
    have h1 := congrArg dcIndex h
    have h2 := congrArg dcTag h
    rw [dcIndex_dcLineAddr (dcIndex_lt a), dcIndex_dcLineAddr hi] at h1
    rw [dcTag_dcLineAddr, dcTag_dcLineAddr] at h2
    exact ⟨h1.symm, h2.symm⟩
  · rintro ⟨rfl, rfl⟩
    exact (dcLineAddr_index_tag a).symm

theorem dcLookup_eq_some_iff {lines : List (Nat × DcLine)} {a : Word} {line : DcLine} :
    dcLookup lines a = some line ↔ Assoc.lookup lines (dcIndex a) = some line ∧ line.tag = dcTag a := by
  rcases hl : Assoc.lookup lines (dcIndex a) with _ | l
  · simp [dcLookup, hl]
  · simp only [dcLookup, hl, Option.ite_none_right_eq_some, Option.some.injEq]
    exact ⟨fun ⟨ht, he⟩ => ⟨he, he ▸ ht⟩, fun ⟨he, ht⟩ => ⟨he ▸ ht, he⟩⟩

/-- A store changes the line it hits as it changes memory, and no other (R66, R366). -/
theorem DcLinesOk.storeThrough {s : State} (h : DcLinesOk s.dcLines s.mem) (hm : s.MemOk) {a : Word} {n : Nat}
    (hn : accessSize n) (ha : aligned a n = true) (v : Word) :
    DcLinesOk (s.storeThrough a n v).dcLines (s.storeThrough a n v).mem := by
  obtain ⟨hs, hl⟩ := h
  have other {p : Nat × DcLine} (hp : p ∈ s.dcLines) (hne : ¬(p.1 = dcIndex a ∧ p.2.tag = dcTag a)) :
      p.1 < 2048 ∧ p.2.data = (s.mem.write a n v).readWord (dcLineAddr p.1 p.2.tag) 8 := by
    obtain ⟨hi, hd⟩ := hl p hp
    rw [Memory.readWord_write hm hn ha (dcBase_dcLineAddr hi _),
      if_neg fun e => hne ((dcBase_eq_dcLineAddr_iff hi).1 e)]
    exact ⟨hi, hd⟩
  rw [State.storeThrough_mem]
  rcases hlook : dcLookup s.dcLines a with _ | line
  · have he : (s.storeThrough a n v).dcLines = s.dcLines := by simp [State.storeThrough, hlook]
    rw [he]
    refine ⟨hs, fun p hp => other hp fun ⟨hi, ht⟩ => ?_⟩
    have hp' : dcLookup s.dcLines a = some p.2 := dcLookup_eq_some_iff.2 ⟨hi ▸ Assoc.lookup_of_mem hs hp, ht⟩
    rw [hlook] at hp'
    cases hp'
  · have he : (s.storeThrough a n v).dcLines = Assoc.insert s.dcLines (dcIndex a)
        { line with data := replaceBytes line.data (dcOffset a) n v } := by simp [State.storeThrough, hlook]
    rw [he]
    obtain ⟨hline, ht⟩ := dcLookup_eq_some_iff.1 hlook
    refine ⟨Assoc.sorted_insert hs _ _, fun p hp => ?_⟩
    rcases Assoc.mem_insert_sorted hs hp with rfl | ⟨hp, hne⟩
    · obtain ⟨hi, hd⟩ := hl _ (Assoc.mem_of_lookup hline)
      refine ⟨hi, ?_⟩
      simp only [ht, dcLineAddr_index_tag] at hd ⊢
      rw [Memory.readWord_write hm hn ha (dcBase_dcBase a), if_pos rfl, hd]
    · exact other hp fun e => hne e.1

/-! ### The Memory stage (R256 to R258) -/

/-- The issue of a fill for the load in `MR` (R362). -/
theorem State.DcOk.dcIssue {s : State} (h : s.DcOk) (hv : s.level = .cycle) {m : ExecutedInstr} (hm : s.mr = some m)
    (hl : m.tag.isLoad = true) (ha : m.misaligned = false) : (dcIssue s m.addr).2.DcOk := by
  rw [dcIssue_eq]
  dsimp only
  split
  · obtain ⟨hs, hlines, -⟩ := h
    refine ⟨by simpa using hs, by simpa using hlines, ?_⟩
    rintro f ⟨⟩
    exact ⟨dcBase_dcBase _, by simp, by simpa using hv, by simp [hm, hl, ha]⟩
  · exact h.congr (by simp) (by simp) (by simp) (by simp) (by simp)

theorem State.DcOk.dcPoll {s : State} (h : s.DcOk) {base : Word} {data : BitVec 64} (hf : s.dcFsm = .wait base data) :
    (dcPoll s base data).DcOk := by
  refine h.congr (by simp) ?_ (by simp) (by simp) (by simp)
  rw [dcPoll_eq, hf]
  dsimp only
  split
  · rfl
  · rw [State.ask_dcFsm, hf]

theorem State.DcOk.dcCommit {s : State} (h : s.DcOk) {base : Word} {data : BitVec 64}
    (hf : s.dcFsm = .commit base data) : (dcCommit s base data).DcOk := by
  obtain ⟨hb, rfl⟩ : dcBase base = base ∧ data = s.mem.readWord base 8 := h.fill (f := (base, data)) (by rw [hf]; rfl)
  exact State.dcOk_of_idle (h.lines.insert hb) rfl

theorem State.DcOk.storeThrough {s : State} (h : s.DcOk) (hm : s.MemOk) (hi : s.dcFsm.pending = none) {a : Word}
    {n : Nat} (hn : accessSize n) (ha : aligned a n = true) (v : Word) : (s.storeThrough a n v).DcOk :=
  State.dcOk_of_idle (h.lines.storeThrough hm hn ha v) hi

/-- No fill is in progress while the instruction in `MR` is no load. -/
theorem State.DcOk.idle_of_not_load {s : State} (h : s.DcOk) (hm : ∀ m ∈ s.mr, m.tag.isLoad = false) :
    s.dcFsm.pending = none := by
  rcases hp : s.dcFsm.pending with _ | f
  · rfl
  · obtain ⟨-, m, hmr, hl, -⟩ := h.load_of_pending hp
    rw [hm m hmr] at hl
    cases hl

theorem State.DcOk.loadStage {s : State} (h : s.DcOk) (hv : s.level = .cycle) {m : ExecutedInstr} (hm : s.mr = some m)
    (hl : m.tag.isLoad = true) : (loadStage s m).state.DcOk := by
  unfold Machine.loadStage
  split
  · rename_i ha
    have ha : m.misaligned = false := by simp [ExecutedInstr.misaligned, ha]
    split
    · split
      · exact h
      · exact h.dcIssue hv hm hl ha
    · rename_i hf; exact h.dcPoll hf
    · rename_i hf; exact h.dcCommit hf
  · exact h

theorem State.DcOk.storeStage {s : State} (h : s.DcOk) (hm : s.MemOk) (hi : s.dcFsm.pending = none) {m : ExecutedInstr}
    (hs : m.tag.isStore = true) : (storeStage s m).state.DcOk := by
  cases ha : aligned m.addr (accessBytes m.tag)
  · simp only [Machine.storeStage, ha, Bool.false_eq_true, if_false]
    exact h
  · rw [storeStage_aligned ha]
    split
    · exact (h.congr (t := (s.ask _).2) (by simp) (by simp) (by simp) (by simp) (by simp)).storeThrough
        (by simpa [State.MemOk] using hm) (by simpa using hi) (accessBytes_store hs) ha _
    · exact h.congr (by simp) (by simp) (by simp) (by simp) (by simp)

theorem State.DcOk.memoryStage {s : State} (h : s.DcOk) (hm : s.MemOk) (hv : s.level = .cycle) :
    (memoryStage s).state.DcOk := by
  rcases hmr : s.mr with _ | m
  · rw [memoryStage_bubble hmr]; exact h
  cases hl : m.tag.isLoad
  · cases hs : m.tag.isStore
    · rw [memoryStage_other hmr hl hs]; exact h
    · rw [memoryStage_store hmr hs]
      exact h.storeStage hm (h.idle_of_not_load (by simpa [hmr] using hl)) hs
  · rw [memoryStage_load hmr hl]
    exact h.loadStage hv hmr hl

/-- A fill in progress holds (R363, R364). -/
theorem memoryStage_hold_of_pending {s : State} (h : s.DcOk) {f : Word × BitVec 64} (hf : s.dcFsm.pending = some f) :
    (memoryStage s).hold = true := by
  obtain ⟨-, m, hm, hl, -⟩ := h.load_of_pending hf
  rw [memoryStage_load hm hl]
  unfold loadStage
  split
  · split
    · rename_i hi; rw [hi] at hf; cases hf
    · rfl
    · rfl
  · rfl

/-- A Memory stage that does not hold leaves the fill controller and issues nothing. -/
theorem memoryStage_not_held {s : State} (h : (memoryStage s).hold = false) :
    (memoryStage s).state.dcFsm = s.dcFsm ∧ (memoryStage s).issued = false := by
  rcases hm : s.mr with _ | m
  · rw [memoryStage_bubble hm]; exact ⟨rfl, rfl⟩
  cases hl : m.tag.isLoad
  · cases hs : m.tag.isStore
    · rw [memoryStage_other hm hl hs]; exact ⟨rfl, rfl⟩
    · rw [memoryStage_store hm hs] at h ⊢
      cases ha : aligned m.addr (accessBytes m.tag)
      · simp [storeStage, ha]
      · rw [storeStage_aligned ha]
        split <;> simp
  · rw [memoryStage_load hm hl] at h ⊢
    unfold loadStage at h ⊢
    split at h
    · rename_i ha
      rw [if_pos ha]
      split at h
      · split at h
        · exact ⟨rfl, rfl⟩
        · cases h
      · cases h
      · cases h
    · cases h

/-- Memory stays canonical (R66). -/
theorem State.MemOk.memoryStage {s : State} (h : s.MemOk) : (memoryStage s).state.MemOk := by
  rcases memoryStage_state s with e | ⟨_, e⟩ | ⟨_, _, e⟩ | ⟨_, _, e⟩ | ⟨_, e⟩ | ⟨_, a, n, v, e⟩ | ⟨_, _, e⟩ <;> rw [e]
  case inr.inr.inr.inr.inr.inl => rw [State.MemOk, State.storeThrough_mem, State.ask_mem]; exact Memory.wf_write h a n v
  all_goals simpa [State.MemOk] using h

end Sys2Proof.Machine
end

section
/-! SUPPORT. The invariant of the machine (R21, R35 to R38, R73, R100, R332) over the parts of a cycle: the instruction
cache, Execute, Fetch, and what the stages latch. -/

namespace Sys2Proof.Machine

theorem State.Inv.dcOk {s : State} (h : s.Inv) : s.DcOk := h.2.2.2.1

theorem State.Inv.btbOk {s : State} (h : s.Inv) : s.BtbOk := h.2.2.2.2.1

theorem State.Inv.even_pc {s : State} (h : s.Inv) : even s.pc = true := h.2.2.2.2.2.2

theorem State.Inv.dr_fetched {s : State} (h : s.Inv) : ∀ f ∈ s.dr, fetchedOk f.pc f.iw f.pred f.predNpc :=
  h.2.2.2.2.2.1.1

/-- What `MR` and `WR` hold of a word: its tag, destination and register write (R30, R31). -/
abbrev destinationOk (cfg : Config) (iw : InstrWord) (tag : Tag) (rd : Reg) (wr : Bool) : Prop :=
  tag = (decodeOperands cfg iw).tag ∧ rd = (decodeOperands cfg iw).rd ∧ wr = (decodeOperands cfg iw).wr

theorem State.Inv.mr_destination {s : State} (h : s.Inv) : ∀ m ∈ s.mr, destinationOk s.cfg m.iw m.tag m.rd m.wr :=
  h.2.2.2.2.2.1.2.2.1

/-- Execute and Fetch change the predictor and `pc`. -/
theorem State.Inv.set_btb_pc {s : State} (h : s.Inv) {btb : Btb} (hb : BtbSlotsOk btb.toList) {pc : Word}
    (hp : even pc = true) : State.Inv { s with btb := btb, pc := pc } := by
  obtain ⟨hregs, hmem, hic, hdc, -, hst, -⟩ := h
  exact ⟨hregs, hmem, hic, hdc, hb, hst, hp⟩

/-! ### The instruction cache (R353 to R355) -/

theorem State.IcOk.congr {s t : State} (h : s.IcOk) (hl : t.icLines = s.icLines)
    (hf : t.icFsm.pending.map Prod.fst = s.icFsm.pending.map Prod.fst) : t.IcOk := by
  simpa only [State.IcOk, hl, hf] using h

theorem State.IcOk.icFillStep {s : State} (h : s.IcOk) : (icFillStep s).IcOk := by
  rcases hf : s.icFsm with _ | ⟨base, data⟩ | ⟨base, data⟩
  · rw [icFillStep_idle hf]; exact h
  · refine h.congr ?_ ?_ <;> rw [icFillStep_wait hf] <;> split <;> simp [hf, FillFsm.pending]
  · rw [icFillStep_commit hf]
    obtain ⟨hs, hi, -⟩ := h
    refine ⟨Assoc.sorted_insert hs _ _, fun p hp => ?_, fun base h => by cases h⟩
    rcases Assoc.mem_insert hp with rfl | hp
    · exact icIndex_lt base
    · exact hi p hp

theorem State.IcOk.icIssue {s : State} (h : s.IcOk) (a : Word) : (icIssue s a).2.IcOk := by
  rw [icIssue_eq]
  dsimp only
  split
  · obtain ⟨hs, hi, -⟩ := h
    refine ⟨by simpa using hs, by simpa using hi, ?_⟩
    rintro base ⟨⟩
    exact icBase_icBase a
  · exact h.congr (by simp) (by simp)

theorem State.Inv.icIssue {s : State} (h : s.Inv) (a : Word) : (icIssue s a).2.Inv := by
  obtain ⟨hregs, hmem, hic, hdc, hbtb, hst, hp⟩ := h
  refine ⟨?_, ?_, hic.icIssue a, ?_, ?_, ?_, ?_⟩
  · rw [State.RegsOk, icIssue_regs]; exact hregs
  · rw [State.MemOk, icIssue_mem]; exact hmem
  · exact hdc.congr (by simp) (by simp) (by simp) (by simp) (by simp)
  · rw [State.BtbOk, icIssue_btb]; exact hbtb
  · simpa only [State.StagesOk, icIssue_dr, icIssue_xr, icIssue_mr, icIssue_wr, icIssue_cfg] using hst
  · rw [icIssue_pc]; exact hp

/-! ### Execute (R259 to R262) -/

theorem State.Inv.executeStage {s : State} (h : s.Inv) : (executeStage s).state.Inv := by
  rcases hxr : s.xr with _ | x
  · rw [executeStage_bubble hxr]; exact h
  rcases ht : trueNextPc x.tag x.pc (operandA s x) (operandB s x) x.imm with _ | tnpc
  · rw [executeStage_plain hxr ht]; exact h
  · obtain ⟨⟨ha, -⟩, hset⟩ := h.xr_decoded hxr
    have htn : even tnpc = true := x.even_trueNextPc (even_of_aligned ha) hset ht
    have hr : BtbSlotsOk (if x.tag.isBranch then resolve s.btb x.pc tnpc else (s.btb, false)).1.toList := by
      split
      · exact resolve_keeps h.btbOk htn x.pc
      · exact h.btbOk
    rw [executeStage_transfer hxr ht]
    dsimp only
    split
    · exact h.set_btb_pc hr h.even_pc
    · exact h.set_btb_pc hr htn

theorem executeStage_mrNext {s : State} (h : s.Inv) :
    ∀ m ∈ (executeStage s).mrNext, destinationOk s.cfg m.iw m.tag m.rd m.wr := by
  rcases hxr : s.xr with _ | x
  · rw [executeStage_bubble hxr]; rintro _ ⟨⟩
  · obtain ⟨-, hset⟩ := h.xr_decoded hxr
    obtain ⟨⟨_, _, hm⟩, -⟩ := executeStage_evaluates hxr
    rw [hm]
    rintro _ ⟨⟩
    exact ⟨congrArg Decoded.tag hset, congrArg Decoded.rd hset, congrArg Decoded.wr hset⟩

/-! ### Decode and Fetch (R263, R264) -/

theorem decodeStage_xrNext {s : State} (h : s.Inv) (redirect : Bool) :
    ∀ x ∈ decodeStage s redirect,
      fetchedOk x.pc x.iw x.pred x.predNpc ∧ x.operandSet = decodeOperands s.cfg x.iw := by
  intro x hx
  unfold decodeStage at hx
  split at hx
  · cases hx
  · obtain ⟨f, hf, rfl⟩ := Option.map_eq_some_iff.1 hx
    exact ⟨h.dr_fetched f hf, rfl⟩

theorem State.Inv.fetchStage {s : State} (h : s.Inv) (redirect stall idle0 : Bool) :
    (fetchStage s redirect stall idle0).state.Inv ∧
      ∀ f ∈ (fetchStage s redirect stall idle0).drNext, fetchedOk f.pc f.iw f.pred f.predNpc := by
  have hbubble : ∀ f ∈ (none : Option FetchedInstr), fetchedOk f.pc f.iw f.pred f.predNpc := by simp
  unfold Machine.fetchStage
  split; · exact ⟨h, hbubble⟩
  split; · exact ⟨h, h.dr_fetched⟩
  split; · exact ⟨h, hbubble⟩
  split
  · rename_i ha
    split
    · rename_i line _
      obtain ⟨hbtb, hok⟩ := predict_keeps h.btbOk ha (line.words.get (icWord s.pc))
      obtain ⟨-, hnpc, -⟩ := id hok
      refine ⟨h.set_btb_pc hbtb hnpc, ?_⟩
      rintro _ ⟨⟩
      exact hok
    · exact ⟨h.icIssue s.pc, hbubble⟩
  · exact ⟨h, hbubble⟩

/-! ### The instruction that leaves Memory (R256 to R258) -/

theorem decodeOperands_rd_of_isStore {cfg : Config} {iw : InstrWord} (h : (decodeOperands cfg iw).tag.isStore = true) :
    (decodeOperands cfg iw).rd = 0 := by
  rcases hd : decodeWord iw with e | i
  · rw [decodeOperands_error hd]; rfl
  · rw [decodeOperands_ok hd, operands_tag] at h
    obtain ⟨_, _, _, -, ho⟩ := isStore_cases h cfg
    rw [decodeOperands_ok hd, ho]; rfl

theorem memoryStage_wrNext {s : State} (hm : ∀ m ∈ s.mr, destinationOk s.cfg m.iw m.tag m.rd m.wr) :
    ∀ w ∈ (memoryStage s).wrNext, destinationOk s.cfg w.iw w.tag w.rd w.wr := by
  rcases hmr : s.mr with _ | m
  · rw [memoryStage_bubble hmr]; rintro _ ⟨⟩
  obtain ⟨htag, hrd, hwr⟩ := hm m hmr
  cases hl : m.tag.isLoad
  · cases hs : m.tag.isStore
    · rw [memoryStage_other hmr hl hs]
      rintro _ ⟨⟩
      exact ⟨htag, hrd, hwr⟩
    · have hstore : destinationOk s.cfg m.iw m.tag 0 false := by
        refine ⟨htag, (decodeOperands_rd_of_isStore (htag ▸ hs)).symm, ?_⟩
        rw [decodeOperands_wr, ← htag, writes_of_isStore hs]
      rw [memoryStage_store hmr hs]
      cases ha : aligned m.addr (accessBytes m.tag)
      · simp [storeStage, ha]
      · rw [storeStage_aligned ha]
        split
        · rintro _ ⟨⟩; exact hstore
        · rintro _ ⟨⟩
  · have hload : destinationOk s.cfg m.iw m.tag m.rd true := by
      refine ⟨htag, hrd, ?_⟩
      rw [decodeOperands_wr, ← htag, writes_of_isLoad hl]
    rw [memoryStage_load hmr hl]
    unfold loadStage
    split
    · split
      · split
        · rintro _ ⟨⟩; exact hload
        · rintro _ ⟨⟩
      · rintro _ ⟨⟩
      · rintro _ ⟨⟩
    · rintro _ ⟨⟩

end Sys2Proof.Machine
end

section
/-! SUPPORT. The invariant of the machine over one step, at either level (R9, R250). -/

namespace Sys2Proof.Machine

/-! ### One instruction -/

/-- No fill is in progress at the architectural level. -/
theorem State.DcOk.idle_of_architectural {s : State} (h : s.DcOk) (hl : s.level = .architectural) :
    s.dcFsm.pending = none := by
  rcases hp : s.dcFsm.pending with _ | f
  · rfl
  · have hc := (h.load_of_pending hp).1
    rw [hl] at hc
    cases hc

theorem State.Inv.retireTo {s : State} (h : s.Inv) (tag : Tag) {npc : Word} (hp : even npc = true) :
    (s.retireTo tag npc).Inv :=
  h.set_btb_pc h.btbOk hp

theorem State.Inv.writeReg {s : State} (h : s.Inv) (r : Reg) (v : Word) : (s.writeReg r v).Inv := by
  obtain ⟨hregs, hrest⟩ := h
  exact ⟨RegFile.get_zero_write hregs r v, hrest⟩

theorem State.Inv.memWrite {s : State} (h : s.Inv) (hl : s.level = .architectural) {a : Word} {n : Nat}
    (hn : accessSize n) (ha : aligned a n = true) (v : Word) : (s.memWrite a n v).Inv := by
  obtain ⟨hregs, hmem, hic, hdc, hrest⟩ := h
  exact ⟨hregs, Memory.wf_write hmem a n v, hic, hdc.storeThrough hmem (hdc.idle_of_architectural hl) hn ha v, hrest⟩

theorem ExecutedInstr.perform_inv {m : ExecutedInstr} {s : State} (h : s.Inv) (hl : s.level = .architectural)
    {npc : Word} (hp : even npc = true) : (m.perform npc s).Inv := by
  rcases m.perform_cases npc s with ⟨_, e⟩ | ⟨ha, hs, e⟩ | ⟨_, _, _, e⟩ | ⟨_, _, _, e⟩ <;> rw [e]
  · exact h
  · rw [misaligned_of_access (by simp [hs]), Bool.not_eq_false'] at ha
    exact (h.memWrite hl (accessBytes_store hs) ha _).retireTo _ hp
  · exact (h.writeReg _ _).retireTo _ hp
  · exact h.retireTo _ hp

theorem State.Inv.decodeFault {s : State} (h : s.Inv) (iw : InstrWord) : (s.decodeFault iw).Inv := by
  unfold State.decodeFault
  split
  · exact h.retireTo .decodeFault (even_nextWord h.even_pc)
  · exact h

/-- An instruction that a word spells continues at an even address. -/
theorem exec_inv {s t : State} {iw : InstrWord} {i : Instr} (h : s.Inv) (hl : s.level = .architectural)
    (hd : decodeWord iw = .ok i) (ht : exec i s = .next t) : t.Inv := by
  let x : DecodedInstr := { decodedAt i s with iw := iw }
  have hx : x.operandSet = i.operands s.cfg := rfl
  rw [exec_eq_perform hx rfl false false] at ht
  obtain rfl := Host.Outcome.next.inj ht
  exact ExecutedInstr.perform_inv h hl (x.even_nextPc h.even_pc (hx.trans (decodeOperands_ok hd).symm))

theorem instrStep_inv {s t : State} (h : s.Inv) (hl : s.level = .architectural) (ht : instrStep s = .next t) :
    t.Inv := by
  unfold instrStep at ht
  split at ht
  · cases ht; exact h
  · split at ht
    · split at ht
      · rename_i hd; exact exec_inv h hl hd ht
      · cases ht; exact h.decodeFault _
    · cases ht; exact h

/-! ### One cycle -/

theorem State.RegsOk.writeback {s : State} (h : s.RegsOk) : (writeback s).RegsOk := by
  rw [State.RegsOk, writeback_regs]
  split
  · split
    · exact RegFile.get_zero_write h _ _
    · exact h
  · exact h

/-- The part of a cycle that no hold suppresses (R250): Writeback, Memory and the instruction fill controller. -/
theorem State.Inv.afterFillStep {s : State} (h : s.Inv) (hl : s.level = .cycle) : (afterFillStep s).Inv := by
  obtain ⟨hregs, hmem, hic, hdc, hbtb, hst, hp⟩ := h
  have hmem' : (Machine.writeback s).MemOk := by simpa [State.MemOk] using hmem
  have hic' : (memoryPhase s).state.IcOk := hic.congr (by simp [memoryPhase]) (by simp [memoryPhase])
  have hdc' : (memoryPhase s).state.DcOk := hdc.writeback.memoryStage hmem' (by rw [writeback_level, hl])
  refine ⟨?_, ?_, hic'.icFillStep, ?_, ?_, ?_, ?_⟩
  · rw [State.RegsOk, afterFillStep_regs]; exact hregs.writeback
  · rw [State.MemOk, afterFillStep_mem]; exact State.MemOk.memoryStage hmem'
  · exact hdc'.congr (icFillStep_dcLines _) (congrArg _ (icFillStep_dcFsm _)) (icFillStep_mem _) (icFillStep_level _)
      (icFillStep_mr _)
  · rw [State.BtbOk, afterFillStep_btb]; exact hbtb
  · simpa only [State.StagesOk, afterFillStep_dr, afterFillStep_xr, afterFillStep_mr, afterFillStep_wr,
      afterFillStep_cfg] using hst
  · rw [afterFillStep_pc]; exact hp

theorem State.Inv.retireStage {s : State} (h : s.Inv) : (retireStage s).Inv := by
  simpa [State.Inv, State.RegsOk, State.MemOk, State.IcOk, State.DcOk, State.BtbOk, State.StagesOk] using h

/-- The latch may change `MR` because no fill of the data cache is in progress. -/
theorem State.Inv.latch {s : State} (h : s.Inv) (hi : s.dcFsm.pending = none) {dr : Option FetchedInstr}
    {xr : Option DecodedInstr} {mr : Option ExecutedInstr} {wr : Option CompletedInstr}
    (hst : (latch s dr xr mr wr).StagesOk) : (latch s dr xr mr wr).Inv := by
  obtain ⟨hregs, hmem, hic, hdc, hbtb, -, hp⟩ := h
  exact ⟨hregs, hmem, hic, State.dcOk_of_idle hdc.lines hi, hbtb, hst, hp⟩

theorem memoryPhase_idle {s : State} (h : s.DcOk) (hh : (memoryPhase s).hold = false) :
    (memoryPhase s).state.dcFsm.pending = none := by
  rw [memoryPhase, (memoryStage_not_held hh).1]
  rcases hp : (writeback s).dcFsm.pending with _ | f
  · rfl
  · have hold := memoryStage_hold_of_pending h.writeback hp
    rw [memoryPhase, hold] at hh
    cases hh

/-- A cycle that is not held (R265). -/
theorem State.Inv.latched {s : State} (h : s.Inv) (hl : s.level = .cycle) (hr : s.Runs)
    (hh : (memoryPhase s).hold = false) : (advanceCycle s).Inv := by
  have h1 := (h.afterFillStep hl).retireStage
  have h2 : (executePhase s).state.Inv := h1.executeStage
  obtain ⟨h3, hdr⟩ : (fetchPhase s).state.Inv ∧ _ := h2.fetchStage ..
  have hxr := decodeStage_xrNext h2 (executePhase s).redirect.isSome
  have hmr := executeStage_mrNext h1
  have hwr := memoryStage_wrNext (s := Machine.writeback s) (by simpa using h.mr_destination)
  simp only [retireStage_cfg, afterFillStep_cfg, writeback_cfg, executePhase_cfg] at hxr hmr hwr
  rw [advanceCycle_latched hr hh]
  refine h3.latch (by rw [fetchPhase_dcFsm, memoryPhase_idle h.dcOk hh]) ?_
  rw [State.StagesOk, latch_cfg, fetchPhase_cfg]
  exact ⟨hdr, hxr, hmr, hwr⟩

theorem State.Inv.advanceCycle {s : State} (h : s.Inv) (hl : s.level = .cycle) : (advanceCycle s).Inv := by
  rcases advanceCycle_cases s with ⟨_, e⟩ | ⟨_, _, _, e⟩ | ⟨_, _, e⟩ | ⟨hr, hh, _⟩
  · rw [e]; exact h
  · rw [e]; exact h
  · rw [e]; exact h.afterFillStep hl
  · exact h.latched hl hr hh

/-- Settles O29: an instruction performs one of four effects, and a cycle is held or latches; each keeps the
invariant. -/
theorem invariantKeptByEveryStep : Obligations.InvariantKeptByEveryStep := by
  unfold Obligations.InvariantKeptByEveryStep
  intro s t h ht
  cases hl : s.level
  · rw [step_architectural hl] at ht
    exact instrStep_inv h hl ht
  · simp only [step, hl] at ht
    cases ht
    exact h.advanceCycle hl

end Sys2Proof.Machine
end

section
/-! SUPPORT. An instruction placed in memory (log 16): the word that `withFetchWord` writes is the word that the next
step fetches (R61, R90). -/

namespace Sys2Proof.Machine

/-- The four bytes of a word stored spell it again (R61). -/
theorem Memory.instrAt_write_self {m : Memory} (h : Memory.wf m) (a v : Word) :
    (m.write a 4 v).instrAt a = v.setWidth 32 := by
  apply BitVec.eq_of_getLsbD_eq
  intro j hj
  have hoff : (a + BitVec.ofNat 64 (j / 8) - a).toNat = j / 8 := by
    rw [BitVec.add_comm, BitVec.add_sub_cancel, BitVec.toNat_ofNat]; omega
  rw [Memory.instrAt, BitVec.getLsbD_ofNat, Memory.testBit_read _ _ _ _ (by omega), Memory.byte_write h _ (by omega),
    hoff, if_pos (by omega)]
  simp only [BitVec.getLsbD_setWidth, BitVec.getLsbD_ushiftRight]
  rw [show 8 * (j / 8) + j % 8 = j by omega]
  simp [hj, show j % 8 < 8 by omega]

/-- A word is spelled by its four bytes (R61). -/
theorem wordOfBytes_extract (iw : InstrWord) :
    wordOfBytes (iw.extractLsb' 0 8) (iw.extractLsb' 8 8) (iw.extractLsb' 16 8) (iw.extractLsb' 24 8) = iw := by
  unfold wordOfBytes
  rw [BitVec.extractLsb'_append_extractLsb'_eq_extractLsb' (by decide),
    BitVec.extractLsb'_append_extractLsb'_eq_extractLsb' (by decide),
    BitVec.extractLsb'_append_extractLsb'_eq_extractLsb' (by decide)]
  exact BitVec.extractLsb'_eq_self

theorem decodeWord_of_decodeTableWord {w : Nat} {i : Instr} (h : decodeTableWord 32 w = some i) :
    decodeWord (BitVec.ofNat 32 (w % 2 ^ 32)) = .ok i := by
  simp only [decodeTableWord, decodeBytes, wordOfBytes_extract] at h
  rcases hd : decodeWord (BitVec.ofNat 32 (w % 2 ^ 32)) with e | i'
  · rw [hd] at h; cases h
  · rw [hd] at h; exact congrArg _ (Option.some.inj h)

/-- The placed instruction's address: `pc` rounded down to a word address. -/
theorem State.withFetchWord_pc_toNat (s : State) (nbits w : Nat) :
    (s.withFetchWord nbits w).pc.toNat = s.pc.toNat / 4 * 4 := by
  have := s.pc.isLt
  simp only [State.withFetchWord, BitVec.toNat_append, BitVec.extractLsb'_toNat, BitVec.toNat_ofNat,
    Nat.shiftRight_eq_div_pow, Nat.shiftLeft_eq]
  simp
  omega

/-- Settles O23: the step fetches the four bytes just stored, which decode to the instruction. -/
theorem placedInstructionRunsNext : Obligations.PlacedInstructionRunsNext := by
  unfold Obligations.PlacedInstructionRunsNext
  intro s w i hm hd
  dsimp only
  have hpc := s.withFetchWord_pc_toNat 32 w
  have hal : aligned (s.withFetchWord 32 w).pc 4 = true := by rw [aligned_iff, hpc]; omega
  have hword : (s.withFetchWord 32 w).mem.instrAt (s.withFetchWord 32 w).pc = BitVec.ofNat 32 (w % 2 ^ 32) := by
    refine (Memory.instrAt_write_self hm _ _).trans (BitVec.eq_of_toNat_eq ?_)
    simp
  refine ⟨?_, rfl, rfl, hpc, fun x hx => Memory.byte_write_outside _ _ _ hx⟩
  rw [step_architectural rfl, instrStep_of_decodes rfl hal]
  rw [hword]
  exact decodeWord_of_decodeTableWord hd

end Sys2Proof.Machine
end

section
/-! SUPPORT. What starts and what stops the core: reset (10_state.md part D), the halt of R403, and the signals of a
cycle in which a fill is issued (R33, R371). -/

namespace Sys2Proof.Machine

/-! ### Reset (R49 to R55) -/

/-- Settles O27: every field is read off `State.launch`. -/
theorem resetValues : Obligations.ResetValues := by
  unfold Obligations.ResetValues
  refine ⟨fun cfg regs mem ans => ?_, Config.default, Vector.replicate 32 0, [], [], rfl, by decide⟩
  refine ⟨rfl, rfl, rfl, rfl, fun i => ?_, fun _ => rfl, fun _ => rfl, rfl, rfl, rfl, rfl, rfl, rfl,
    fun r hr => if_neg hr⟩
  simp [State.launch, Vector.get_eq_getElem]

/-- An empty branch target buffer. -/
theorem btbSlotsOk_replicate_none (n : Nat) : BtbSlotsOk (List.replicate n none) := by
  simp [BtbSlotsOk, List.pairwise_replicate]

theorem State.launch_inv {cfg : Config} {regs : RegFile} {mem : Memory} (ans : List Bool) (hr : regs.get 0 = 0)
    (hm : Memory.wf mem) (hp : even cfg.resetPc = true) : (State.launch cfg regs mem ans).Inv := by
  have hb : (State.launch cfg regs mem ans).BtbOk := by
    rw [State.btbOk_iff]
    simpa [State.launch, Vector.toList_replicate] using btbSlotsOk_replicate_none 32
  refine ⟨hr, hm, ⟨.nil, ?_, ?_⟩, ⟨.nil, ?_, ?_⟩, hb, ⟨?_, ?_, ?_, ?_⟩, hp⟩ <;> rintro _ ⟨⟩

/-- The invariants of the refinement and of the end of a run speak of instructions in flight and of cached code. -/
theorem State.launch_invariants {cfg : Config} {regs : RegFile} {mem : Memory} (ans : List Bool) (hr : regs.get 0 = 0)
    (hm : Memory.wf mem) (hp : even cfg.resetPc = true) :
    (State.launch cfg regs mem ans).Inv ∧ (State.launch cfg regs mem ans).RefInv ∧
      (State.launch cfg regs mem ans).EndOk := by
  have hi := State.launch_inv ans hr hm hp
  refine ⟨hi, ⟨hi, ⟨?_, ?_⟩, ?_, ⟨?_, ?_, ?_, ?_⟩, rfl, Bool.noConfusion⟩, ?_, ?_⟩ <;> rintro _ ⟨⟩

/-- Settles O28: at launch the pipeline and the caches are empty, so the invariants speak of the launch parameters
only. -/
theorem invariantHoldsAtLaunch : Obligations.InvariantHoldsAtLaunch := by
  unfold Obligations.InvariantHoldsAtLaunch
  refine ⟨fun cfg regs mem ans hr hm hp => State.launch_invariants ans hr hm hp, ?_⟩
  rw [State.reset]
  exact State.launch_invariants [] (by decide) Memory.wf_nil (by decide)

/-! ### The halt (R39, R403) -/

/-- Settles O33: the first cycle reports the fault and halts, and a halted core is a fixed point. -/
theorem haltPolicyFreezesTheCore : Obligations.HaltPolicyFreezesTheCore := by
  unfold Obligations.HaltPolicyFreezesTheCore
  intro s k
  have halted (t : State) (h : t.halted = true) : runCycles k t = t := runCycles_fixed (advanceCycle_halted h) k
  refine ⟨halted s, fun w hh hp hw ht => ?_⟩
  have hw : haltingInstr s = some w := by rw [haltingInstr_of_wr hw, if_pos ⟨hp, ht⟩]
  rw [runCycles_succ, advanceCycle, runCycle_halts hh hw]
  exact halted _ rfl

/-! ### The issue of a fill (R353, R362, R371) -/

/-- The Memory stage issues a fill exactly when the data fill controller leaves `Idle`. -/
theorem memoryStage_issued_iff (s : State) :
    (memoryStage s).issued = true ↔ s.dcFsm = .idle ∧ (memoryStage s).state.dcFsm ≠ .idle := by
  rcases hm : s.mr with _ | m
  · rw [memoryStage_bubble hm]; simp
  cases hl : m.tag.isLoad
  · cases hs : m.tag.isStore
    · rw [memoryStage_other hm hl hs]; simp
    · rw [memoryStage_store hm hs]
      cases ha : aligned m.addr (accessBytes m.tag)
      · simp [storeStage, ha]
      · rw [storeStage_aligned ha]
        split <;> simp
  · rw [memoryStage_load hm hl]
    unfold loadStage
    split
    · split
      · rename_i hf
        split
        · simp
        · rw [dcIssue_eq]
          dsimp only
          split <;> simp [hf]
      · rename_i hf; simp [hf]
      · rename_i hf; simp [hf]
    · simp

/-- Fetch issues a fill exactly when the instruction fill controller leaves `Idle` in it. -/
theorem fetchStage_issued_iff {s : State} (redirect stall : Bool) {idle0 : Bool} (h : idle0 = true → s.icFsm = .idle) :
    (fetchStage s redirect stall idle0).issued = true ↔
      idle0 = true ∧ (fetchStage s redirect stall idle0).state.icFsm ≠ .idle := by
  unfold fetchStage
  split; · simpa using h
  split; · simpa using h
  split; · simpa using h
  rename_i hi
  have hi : idle0 = true := by simpa using hi
  split
  · split
    · simp [h hi]
    · rw [icIssue_eq]
      dsimp only
      split <;> simp [hi, h hi]
  · simp [h hi]

/-- An idle instruction fill controller stays idle until Fetch. -/
theorem afterFillStep_icFsm_idle {s : State} (h : s.icFsm = .idle) : (afterFillStep s).icFsm = .idle := by
  have hm : (memoryPhase s).state.icFsm = .idle := by simp [memoryPhase, h]
  rw [afterFillStep, icFillStep_idle hm, hm]

theorem memoryPhase_issued_iff (s : State) :
    (memoryPhase s).issued = true ↔ s.dcFsm = .idle ∧ (memoryPhase s).state.dcFsm ≠ .idle := by
  simpa [memoryPhase] using memoryStage_issued_iff (writeback s)

theorem fetchPhase_issued_iff (s : State) :
    (fetchPhase s).issued = true ↔ s.icFsm = .idle ∧ (fetchPhase s).state.icFsm ≠ .idle := by
  simpa [fetchPhase] using fetchStage_issued_iff (s := (executePhase s).state) (executePhase s).redirect.isSome
    (loadUseStall (executePhase s).state) (idle0 := decide (s.icFsm = .idle))
    fun h => by simpa [executePhase] using afterFillStep_icFsm_idle (by simpa using h)

/-- Settles O52: a held cycle can only issue the fill of the data cache, any other only that of the instruction
cache. -/
theorem firstCacheStallIsTheIssue : Obligations.FirstCacheStallIsTheIssue := by
  unfold Obligations.FirstCacheStallIsTheIssue
  intro s
  rcases advanceCycle_cases s with ⟨hh, e⟩ | ⟨w, hh, hw, e⟩ | ⟨hr, hm, e⟩ | ⟨hr, hm, e⟩
  · rw [e, runCycle_halted hh]; simp [CycleOut.still]
  · rw [e, runCycle_halts hh hw]; simp [CycleOut.still]
  · rw [e, runCycle_held hr hm]
    have hic : ¬(s.icFsm = .idle ∧ (afterFillStep s).icFsm ≠ .idle) := fun h => h.2 (afterFillStep_icFsm_idle h.1)
    simp only [hic, or_false, implies_true, and_true]
    rw [memoryPhase_issued_iff, afterFillStep, icFillStep_dcFsm]
  · rw [e, runCycle_latched hr hm]
    have hdc : ¬(s.dcFsm = .idle ∧ (memoryPhase s).state.dcFsm ≠ .idle) := by
      rw [← memoryPhase_issued_iff]
      simp [memoryPhase, (memoryStage_not_held hm).2]
    simp only [latch_dcFsm, latch_icFsm, fetchPhase_dcFsm, hdc, false_or]
    exact ⟨fetchPhase_issued_iff s, by simp⟩

end Sys2Proof.Machine
end

section
/-! SUPPORT. The code that the pipeline holds and memory (R72, R268 (i), R352): a store to another 16-byte line leaves
it, a fill installs it, and Fetch delivers it. -/

namespace Sys2Proof.Machine

/-! ### Lines of 16 bytes -/

theorem icTag_icLineAddr (i : Nat) (tag : BitVec 51) : icTag (icLineAddr i tag) = tag := by
  unfold icTag icLineAddr
  ext j hj
  simp only [BitVec.getElem_extractLsb', BitVec.getLsbD_append]
  rw [if_neg (by omega), if_neg (by omega)]
  simp [BitVec.getLsbD_eq_getElem hj, show 13 + j - 4 - 9 = j by omega]

theorem icIndex_icLineAddr {i : Nat} (hi : i < 512) (tag : BitVec 51) : icIndex (icLineAddr i tag) = i := by
  unfold icIndex icLineAddr
  have : (tag ++ BitVec.ofNat 9 i ++ 0#4).extractLsb' 4 9 = BitVec.ofNat 9 i := by
    ext j hj
    simp only [BitVec.getElem_extractLsb', BitVec.getLsbD_append]
    rw [if_neg (by omega), if_pos (by omega)]
    simp [BitVec.getLsbD_eq_getElem, show 4 + j - 4 = j by omega, hj]
  rw [this, BitVec.toNat_ofNat, Nat.mod_eq_of_lt hi]

theorem icBase_icLineAddr {i : Nat} (hi : i < 512) (tag : BitVec 51) :
    icBase (icLineAddr i tag) = icLineAddr i tag := by
  rw [← icLineAddr_index_tag, icIndex_icLineAddr hi, icTag_icLineAddr]

theorem icBase_eq_iff {a b : Word} : icBase a = icBase b ↔ a.toNat / 16 = b.toNat / 16 := by
  rw [← BitVec.toNat_inj, icBase_toNat, icBase_toNat]
  omega

/-- The bytes of a line are those at its first address and the 15 after it. -/
theorem icBase_add {base : Word} (hb : icBase base = base) {i : Nat} (hi : i < 16) :
    icBase (base + BitVec.ofNat 64 i) = base := by
  have h := congrArg BitVec.toNat hb
  rw [icBase_toNat] at h
  refine (icBase_eq_iff.2 ?_).trans hb
  rw [BitVec.toNat_add, BitVec.toNat_ofNat]
  have := base.isLt
  omega

/-- An instruction word lies within one line. -/
theorem icBase_add_of_aligned {p : Word} (hp : aligned p 4 = true) {i : Nat} (hi : i < 4) :
    icBase (p + BitVec.ofNat 64 i) = icBase p := by
  rw [aligned_iff] at hp
  rw [icBase_eq_iff, BitVec.toNat_add, BitVec.toNat_ofNat]
  have := p.isLt
  omega

/-- The word of an address is at its place in the line (R350). -/
theorem icBase_add_icWord {p : Word} (hp : aligned p 4 = true) :
    icBase p + BitVec.ofNat 64 (4 * (icWord p).val) = p := by
  have hw : (icWord p).val = p.toNat / 4 % 4 := by
    simp [icWord, Nat.shiftRight_eq_div_pow]
  rw [aligned_iff] at hp
  apply BitVec.eq_of_toNat_eq
  rw [BitVec.toNat_add, icBase_toNat, BitVec.toNat_ofNat, hw]
  have := p.isLt
  omega

theorem icLookup_eq_some_iff {lines : List (Nat × IcLine)} {a : Word} {line : IcLine} :
    icLookup lines a = some line ↔ Assoc.lookup lines (icIndex a) = some line ∧ line.tag = icTag a := by
  rcases hl : Assoc.lookup lines (icIndex a) with _ | l
  · simp [icLookup, hl]
  · simp only [icLookup, hl, Option.ite_none_right_eq_some, Option.some.injEq]
    exact ⟨fun ⟨ht, he⟩ => ⟨he, he ▸ ht⟩, fun ⟨he, ht⟩ => ⟨he ▸ ht, he⟩⟩

/-- A line that no lookup of `a` finds is another line (R351). -/
theorem icLineAddr_ne_of_icLookup_none {lines : List (Nat × IcLine)} (hs : Assoc.sorted lines) {p : Nat × IcLine}
    (hp : p ∈ lines) (hi : p.1 < 512) {a : Word} (h : icLookup lines a = none) :
    icLineAddr p.1 p.2.tag ≠ icBase a := by
  intro he
  have hidx : p.1 = icIndex a := by
    rw [← icIndex_icLineAddr hi p.2.tag, he, ← icLineAddr_index_tag, icIndex_icLineAddr (icIndex_lt a)]
  have htag : p.2.tag = icTag a := by
    rw [← icTag_icLineAddr p.1 p.2.tag, he, ← icLineAddr_index_tag, icTag_icLineAddr]
  have hl : icLookup lines a = some p.2 := icLookup_eq_some_iff.2 ⟨hidx ▸ Assoc.lookup_of_mem hs hp, htag⟩
  rw [h] at hl
  cases hl

/-! ### Memory that agrees on a line -/

/-- The two memories have the same bytes in the 16-byte line of `a`. -/
def Memory.SameLine (m m' : Memory) (a : Word) : Prop := ∀ x, icBase x = icBase a → m'.byte x = m.byte x

/-- An aligned store leaves every other line (R72). -/
theorem Memory.sameLine_write (m : Memory) {a b : Word} {n : Nat} (v : Word) (hn : accessSize n)
    (ha : aligned a n = true) (hne : icBase b ≠ icBase a) : m.SameLine (m.write a n v) b := by
  intro x hx
  rw [aligned_iff] at ha
  rw [← hx, ne_eq, icBase_eq_iff] at hne
  have := x.isLt
  have := a.isLt
  refine Memory.byte_write_outside m a v ?_
  rw [BitVec.toNat_sub]
  rcases hn with rfl | rfl | rfl | rfl <;> omega

theorem Memory.SameLine.instrAt {m m' : Memory} {p : Word} (h : m.SameLine m' p) (hp : aligned p 4 = true) :
    m'.instrAt p = m.instrAt p :=
  congrArg (BitVec.ofNat 32) (Memory.read_congr fun _ hi => h _ (icBase_add_of_aligned hp hi))

theorem Memory.SameLine.read {m m' : Memory} {base : Word} (h : m.SameLine m' base) (hb : icBase base = base) :
    m'.read base 16 = m.read base 16 :=
  Memory.read_congr fun _ hi => h _ (by rw [icBase_add hb hi, hb])

/-- Word `k` of the 16 bytes of a line is the instruction word at its address (R355). -/
theorem Memory.extract_read_line (m : Memory) (base : Word) (k : Fin 4) :
    (BitVec.ofNat 128 (m.read base 16)).extractLsb' (32 * k.val) 32 =
      m.instrAt (base + BitVec.ofNat 64 (4 * k.val)) := by
  apply BitVec.eq_of_getLsbD_eq
  intro j hj
  have hk := k.isLt
  have haddr : base + BitVec.ofNat 64 ((32 * k.val + j) / 8) =
      base + BitVec.ofNat 64 (4 * k.val) + BitVec.ofNat 64 (j / 8) := by
    rw [BitVec.add_assoc, ← BitVec.ofNat_add]
    congr 2
    omega
  rw [BitVec.getLsbD_extractLsb', BitVec.getLsbD_ofNat, Memory.testBit_read _ _ _ _ (by omega), Memory.instrAt,
    BitVec.getLsbD_ofNat, Memory.testBit_read _ _ _ _ (by omega), haddr,
    show (32 * k.val + j) % 8 = j % 8 by omega]
  simp [hj, show 32 * k.val + j < 128 by omega]

theorem icFillLine_words (base : Word) (data : BitVec 128) (k : Fin 4) :
    (icFillLine base data).words.get k = data.extractLsb' (32 * k.val) 32 := by
  fin_cases k <;> rfl

/-! ### The code in the pipeline and in the instruction cache -/

/-- The code that `s` holds agrees with the memory `m`: `State.CodeOk` is this for the memory of `s`. -/
structure State.CodeIn (s : State) (m : Memory) : Prop where
  lines : ∀ p ∈ s.icLines, ∀ k : Fin 4,
    p.2.words.get k = m.instrAt (icLineAddr p.1 p.2.tag + BitVec.ofNat 64 (4 * k.val))
  fill : ∀ f ∈ s.icFsm.pending, f.2 = BitVec.ofNat 128 (m.read f.1 16)
  dr : ∀ f ∈ s.dr, f.iw = m.instrAt f.pc
  xr : ∀ x ∈ s.xr, x.iw = m.instrAt x.pc

theorem State.codeOk_iff {s : State} : s.CodeOk ↔ s.CodeIn s.mem :=
  ⟨fun ⟨h1, h2, h3, h4⟩ => ⟨h1, h2, h3, h4⟩, fun ⟨h1, h2, h3, h4⟩ => ⟨h1, h2, h3, h4⟩⟩

theorem State.CodeIn.congr {s t : State} {m : Memory} (h : s.CodeIn m) (hl : t.icLines = s.icLines)
    (hf : t.icFsm = s.icFsm) (hd : t.dr = s.dr) (hx : t.xr = s.xr) : t.CodeIn m :=
  ⟨hl ▸ h.lines, hf ▸ h.fill, hd ▸ h.dr, hx ▸ h.xr⟩

/-- A memory with the same bytes in every line that `s` holds code of. -/
theorem State.CodeIn.of_sameLine {s : State} {m m' : Memory} (h : s.CodeIn m) (hi : s.Inv)
    (hlines : ∀ p ∈ s.icLines, m.SameLine m' (icLineAddr p.1 p.2.tag))
    (hfill : ∀ f ∈ s.icFsm.pending, m.SameLine m' f.1) (hdr : ∀ f ∈ s.dr, m.SameLine m' f.pc)
    (hxr : ∀ x ∈ s.xr, m.SameLine m' x.pc) : s.CodeIn m' := by
  obtain ⟨-, -, ⟨-, hidx, hbase⟩, -⟩ := id hi
  constructor
  · intro p hp k
    have hb := icBase_icLineAddr (hidx p hp) p.2.tag
    have hk : 4 * k.val < 16 := by omega
    have hline : icBase (icLineAddr p.1 p.2.tag + BitVec.ofNat 64 (4 * k.val)) = icLineAddr p.1 p.2.tag :=
      icBase_add hb hk
    have hal : aligned (icLineAddr p.1 p.2.tag + BitVec.ofNat 64 (4 * k.val)) 4 = true := by
      have := congrArg BitVec.toNat hb
      rw [icBase_toNat] at this
      rw [aligned_iff, BitVec.toNat_add, BitVec.toNat_ofNat]
      omega
    have hsame : m.SameLine m' (icLineAddr p.1 p.2.tag + BitVec.ofNat 64 (4 * k.val)) := by
      intro x hx
      exact hlines p hp x (by rw [hx, hline, hb])
    rw [h.lines p hp k, hsame.instrAt hal]
  · intro f hf
    rw [h.fill f hf, (hfill f hf).read (hbase _ (Option.mem_map_of_mem _ hf))]
  · intro f hf
    obtain ⟨hal, -⟩ := hi.dr_fetched f hf
    rw [h.dr f hf, (hdr f hf).instrAt hal]
  · intro x hx
    obtain ⟨⟨hal, -⟩, -⟩ := hi.xr_decoded hx
    rw [h.xr x hx, (hxr x hx).instrAt hal]

/-- Premise (i) of R268: the store in `MR` leaves the code that the pipeline holds. -/
theorem State.CodeIn.committedMem {s : State} (h : s.CodeIn s.mem) (hi : s.Inv) (hr : s.Runs) (hn : s.NoCodeStore) :
    s.CodeIn (committedMem s) := by
  rcases hm : s.mr with _ | m
  · simpa [Machine.committedMem, hm] using h
  simp only [Machine.committedMem, hm]
  split
  · rename_i hst
    simp only [Bool.and_eq_true, Bool.not_eq_true'] at hst
    obtain ⟨hs, ha⟩ := hst
    rw [ExecutedInstr.misaligned_of_access (by simp [hs]), Bool.not_eq_false'] at ha
    obtain ⟨hlookup, hfill, hdr, hxr⟩ := hn hr m hm hs
    obtain ⟨-, -, ⟨hsort, hidx, hbase⟩, -⟩ := id hi
    have other {b : Word} (hb : icBase b ≠ icBase m.addr) :
        s.mem.SameLine (s.mem.write m.addr (accessBytes m.tag) m.sdata) b :=
      Memory.sameLine_write _ _ (accessBytes_store hs) ha hb
    refine h.of_sameLine hi (fun p hp => other ?_) (fun f hf => other ?_) (fun f hf => other (hdr f hf))
      (fun x hx => other (hxr x hx))
    · rw [icBase_icLineAddr (hidx p hp)]
      exact icLineAddr_ne_of_icLookup_none hsort hp (hidx p hp) hlookup
    · have hf' := Option.mem_map_of_mem Prod.fst hf
      rw [hbase _ hf']
      exact hfill _ hf'
  · exact h

/-- The fill controller installs the words it has read (R354, R355). -/
theorem State.CodeIn.icFillStep {s : State} {m : Memory} (h : s.CodeIn m)
    (hb : ∀ base ∈ s.icFsm.pending.map Prod.fst, icBase base = base) : (icFillStep s).CodeIn m := by
  rcases hf : s.icFsm with _ | ⟨base, data⟩ | ⟨base, data⟩
  · rw [icFillStep_idle hf]; exact h
  · have hfill : ∀ f ∈ (Machine.icFillStep s).icFsm.pending, f ∈ s.icFsm.pending := by
      rw [icFillStep_wait hf]
      split <;> simp [hf, FillFsm.pending]
    have hl : (Machine.icFillStep s).icLines = s.icLines := by
      rw [icFillStep_wait hf]
      split <;> simp
    exact ⟨hl ▸ h.lines, fun f hf => h.fill f (hfill f hf), by simpa using h.dr, by simpa using h.xr⟩
  · have hb : icBase base = base := hb base (by simp [hf, FillFsm.pending])
    have hdata : data = BitVec.ofNat 128 (m.read base 16) := h.fill (base, data) (by simp [hf, FillFsm.pending])
    rw [icFillStep_commit hf]
    refine ⟨fun p hp k => ?_, fun f hf => by simp [FillFsm.pending] at hf, h.dr, h.xr⟩
    rcases Assoc.mem_insert hp with rfl | hp
    · rw [icFillLine_words, hdata, Memory.extract_read_line]
      simp only [icFillLine, icLineAddr_index_tag, hb]
    · exact h.lines p hp k

/-- A word found in the instruction cache is the word of memory (R352). -/
theorem State.CodeIn.word {s : State} {m : Memory} (h : s.CodeIn m) {a : Word} (ha : aligned a 4 = true) {line : IcLine}
    (hl : icLookup s.icLines a = some line) : line.words.get (icWord a) = m.instrAt a := by
  obtain ⟨hlook, htag⟩ := icLookup_eq_some_iff.1 hl
  have hw := h.lines _ (Assoc.mem_of_lookup hlook) (icWord a)
  rwa [htag, icLineAddr_index_tag, icBase_add_icWord ha] at hw

/-- Fetch reads a line from memory, and delivers the word of memory (R264, R353). -/
theorem State.CodeIn.fetchStage {s : State} (h : s.CodeIn s.mem) (redirect stall idle0 : Bool) :
    (fetchStage s redirect stall idle0).state.CodeIn s.mem ∧
      ∀ f ∈ (fetchStage s redirect stall idle0).drNext, f.iw = s.mem.instrAt f.pc := by
  have hbubble : ∀ f ∈ (none : Option FetchedInstr), f.iw = s.mem.instrAt f.pc := by simp
  unfold Machine.fetchStage
  split; · exact ⟨h, hbubble⟩
  split; · exact ⟨h, h.dr⟩
  split; · exact ⟨h, hbubble⟩
  split
  · rename_i ha
    split
    · rename_i hl
      refine ⟨⟨h.lines, h.fill, h.dr, h.xr⟩, ?_⟩
      rintro _ ⟨⟩
      exact h.word ha hl
    · refine ⟨⟨by simpa using h.lines, ?_, by simpa using h.dr, by simpa using h.xr⟩, hbubble⟩
      rw [icIssue_eq]
      dsimp only
      split
      · rintro _ ⟨⟩; rfl
      · simpa using h.fill
  · exact ⟨⟨h.lines, h.fill, h.dr, h.xr⟩, hbubble⟩

end Sys2Proof.Machine
end

section
/-! SUPPORT. The invariant of the refinement over one cycle (R268, R309, R352): what Fetch follows, the operands that
the forwarding multiplexer gives, and the code in flight. -/

namespace Sys2Proof.Machine

/-! ### Operands in program order (R304, R309) -/

/-- What `WR` offers over the registers is the register after its write. -/
theorem fwdFromWr_eq_read (s : State) {r : Reg} (hr : r ≠ 0) :
    fwdFromWr s r (RegFile.read s.regs r) = RegFile.read (regsAfterWr s) r := by
  rcases hw : s.wr with _ | w
  · simp [fwdFromWr, regsAfterWr, hw]
  · cases hwr : w.wr
    · simp [fwdFromWr, regsAfterWr, hw, hwr]
    · simp only [fwdFromWr, regsAfterWr, hw, hwr, RegFile.read_write, Bool.true_and, beq_iff_eq, if_true]
      simp [eq_comm (a := w.rd), hr]

/-- Forwarding gives the program-order value of a register read after Writeback, unless a load in `MR` is still to
write it (R304, R305). -/
theorem fwd_eq_committed {s : State} {r : Reg} (hwr : ∀ m ∈ s.mr, m.wr = tagWrites m.tag)
    (hload : ∀ m ∈ s.mr, m.tag.isLoad = true → r ≠ 0 → m.rd ≠ r) :
    fwd s r (RegFile.read s.regs r) = RegFile.read (committedRegs s) r := by
  by_cases hr : r = 0
  · simp [fwd, hr]
  have hold := fwdFromWr_eq_read s hr
  rcases hm : s.mr with _ | m
  · simp [fwd, committedRegs, hm, hr, hold]
  rcases hw : m.wr with _ | _
  · simp [fwd, committedRegs, hm, hr, hold, hw]
  by_cases hrd : m.rd = r
  · have hl : m.tag.isLoad = false := by
      rcases hl : m.tag.isLoad with _ | _
      · rfl
      · exact absurd hrd (hload m hm hl hr)
    have hs : m.tag.isStore = false := by
      rcases hs : m.tag.isStore with _ | _
      · rfl
      · rw [hwr m hm, writes_of_isStore hs] at hw; cases hw
    simp [fwd, committedRegs, hm, hr, hw, hrd, hl, ExecutedInstr.misaligned, hs, RegFile.read_write, pendingResult]
  · have hne : (m.rd == r) = false := by simpa using hrd
    simp only [fwd, committedRegs, hm, hr, hw, hne, hold, if_false, Bool.and_false, Bool.false_and, Bool.true_and,
      Bool.false_eq_true]
    split
    · rw [RegFile.read_write, if_neg (fun h => hrd h.1.symm)]
    · rfl

/-- The instruction reads `x[r]`. -/
def readsReg (d : Decoded) (r : Reg) : Prop := (d.usesRs1 = true ∧ d.rs1 = r) ∨ (d.usesRs2 = true ∧ d.rs2 = r)

/-- Without a stall, the load in `XR` writes no register that the instruction in `DR` reads (R301). -/
theorem rd_ne_of_no_stall {s : State} (h : loadUseStall s = false) {f : FetchedInstr} {x : DecodedInstr}
    (hf : s.dr = some f) (hx : s.xr = some x) (hl : x.tag.isLoad = true) {r : Reg}
    (hd : readsReg (decodeOperands s.cfg f.iw) r) (hr : r ≠ 0) : x.rd ≠ r := by
  rintro rfl
  have hstall : loadUseStall s = true := by
    rcases hd with ⟨hu, he⟩ | ⟨hu, he⟩ <;> simp [loadUseStall, readsLoadResult, hf, hx, hl, hr, hu, he]
  rw [h] at hstall
  cases hstall

/-! ### A held cycle (R265) -/

theorem memoryPhase_held_mem {s : State} (hh : (memoryPhase s).hold = true) : (memoryPhase s).state.mem = s.mem := by
  rw [memoryPhase, (memoryStage_held hh).1, writeback_mem]

theorem State.OperandsOk.afterFillStep {s : State} (h : s.OperandsOk) (hh : (memoryPhase s).hold = true) :
    (afterFillStep s).OperandsOk := by
  have hregs : regsAfterWr (Machine.afterFillStep s) = regsAfterWr s :=
    regsAfterWr_writeback (afterFillStep_wr s) (by rw [afterFillStep_regs, writeback_regs_eq])
  have hcomm : committedRegs (Machine.afterFillStep s) = committedRegs s := by
    simp only [committedRegs, pendingResult, hregs, afterFillStep_mr, afterFillStep_mem, memoryPhase_held_mem hh]
  intro x hx
  rw [afterFillStep_xr] at hx
  rw [hcomm, fwd_congr (afterFillStep_mr s) (afterFillStep_wr s), fwd_congr (afterFillStep_mr s) (afterFillStep_wr s)]
  exact h x hx

theorem State.CodeIn.afterFillStep {s : State} {m : Memory} (h : s.CodeIn m) (hi : s.Inv) :
    (afterFillStep s).CodeIn m := by
  obtain ⟨-, -, ⟨-, -, hbase⟩, -⟩ := hi
  have h' : (memoryPhase s).state.CodeIn m :=
    h.congr (by simp [memoryPhase]) (by simp [memoryPhase]) (by simp [memoryPhase]) (by simp [memoryPhase])
  exact h'.icFillStep (by simpa [memoryPhase] using hbase)

theorem State.RefInv.held {s : State} (h : s.RefInv) (hr : s.Runs) (hh : (memoryPhase s).hold = true) :
    (Machine.afterFillStep s).RefInv := by
  obtain ⟨hinv, hflow, hops, hcode, hl, -⟩ := h
  refine ⟨hinv.afterFillStep hl, ?_, hops.afterFillStep hh, ?_, by rw [afterFillStep_level, hl], ?_⟩
  · simpa only [State.FlowOk, afterFillStep_dr, afterFillStep_xr, afterFillStep_pc] using hflow
  · rw [State.codeOk_iff, afterFillStep_mem, memoryPhase_held_mem hh]
    exact (State.codeOk_iff.1 hcode).afterFillStep hinv
  · rw [afterFillStep_halted, hr.1]; exact Bool.noConfusion

/-! ### A cycle that is not held -/

/-- Fetch goes on where it says it went (R264, R325). -/
theorem fetchStage_predNpc (s : State) (idle0 : Bool) :
    ∀ f ∈ (fetchStage s false false idle0).drNext, (fetchStage s false false idle0).state.pc = f.predNpc := by
  unfold fetchStage
  simp only [Bool.false_eq_true, if_false]
  split
  · rintro _ ⟨⟩
  · split
    · split
      · rintro _ ⟨⟩; rfl
      · rintro _ ⟨⟩
    · rintro _ ⟨⟩

theorem executePhase_pc (s : State) : (executePhase s).state.pc = (executePhase s).redirect.getD s.pc := by
  simp [executePhase, executeStage_pc]

/-- Decode hands on the instruction in `DR`, unless it stalls or Execute redirects. -/
theorem decodeStage_eq_some {s : State} {redirect : Bool} {x : DecodedInstr} (h : decodeStage s redirect = some x) :
    loadUseStall s = false ∧ redirect = false ∧ ∃ f, s.dr = some f ∧ x = f.decoded s := by
  unfold decodeStage at h
  split at h
  · cases h
  · rename_i hn
    obtain ⟨f, hf, rfl⟩ := Option.map_eq_some_iff.1 h
    simp only [Bool.or_eq_true, not_or, Bool.not_eq_true] at hn
    exact ⟨hn.1, hn.2, f, hf, rfl⟩

section latched
variable {s : State} (hr : s.Runs) (hh : (memoryPhase s).hold = false)
include hr hh

theorem State.FlowOk.latched (h : s.FlowOk) : (advanceCycle s).FlowOk := by
  obtain ⟨hdr, -⟩ := h
  have hpc := executePhase_pc s
  rw [advanceCycle_latched hr hh]
  constructor
  · intro f hf
    rw [latch_pc]
    simp only [latch_dr, fetchPhase] at hf ⊢
    rcases hx : (executePhase s).redirect with _ | p
    · rw [hx] at hf hpc
      cases hs : loadUseStall (executePhase s).state
      · rw [hs] at hf
        exact fetchStage_predNpc _ _ f hf
      · rw [hs] at hf
        simp only [Option.isSome_none, fetchStage_stalled, executePhase_dr] at hf ⊢
        rw [hpc]
        exact hdr f hf
    · simp [hx, fetchStage_redirected] at hf
  · intro x hx
    rw [latch_xr] at hx
    obtain ⟨hs, hred, f, hf, rfl⟩ := decodeStage_eq_some hx
    rw [executePhase_dr] at hf
    rw [Option.isSome_eq_false_iff, Option.isNone_iff_eq_none] at hred
    simp only [latch_dr, latch_pc, fetchPhase, hs, hred, Option.isSome_none, fetchStage_front, FetchedInstr.decoded]
    rw [hpc, hred]
    exact hdr f hf

/-- The instruction that Decode hands on has read its registers after Writeback, and the load behind which it would
have to wait is not in `XR` (R301, R308). -/
theorem operandsOk_latched (hi : s.Inv) (hl : s.level = .cycle) : (advanceCycle s).OperandsOk := by
  intro x' hx'
  have hwr := fun m hm => (hi.latched hl hr hh).mr_wr (m := m) hm
  rw [advanceCycle_latched hr hh, latch_xr] at hx'
  obtain ⟨hs, -, f, hf, rfl⟩ := decodeStage_eq_some hx'
  have hregs : (executePhase s).state.regs = (advanceCycle s).regs := by
    rw [executePhase_regs, regs_latched hr hh, writeback_regs_eq]
  have hload : ∀ m ∈ (advanceCycle s).mr, m.tag.isLoad = true →
      ∃ x, (executePhase s).state.xr = some x ∧ x.tag.isLoad = true ∧ x.rd = m.rd := by
    intro m hm hl
    rw [mr_latched hr hh] at hm
    rcases hx : s.xr with _ | x
    · rw [(executePhase_bubble hx).1] at hm; cases hm
    · obtain ⟨⟨_, _, he⟩, -⟩ := executePhase_evaluates hx
      rw [he] at hm
      cases hm
      exact ⟨x, by simp [hx], hl, rfl⟩
  have hread (r : Reg) (hd : readsReg (decodeOperands (executePhase s).state.cfg f.iw) r) :
      fwd (advanceCycle s) r (RegFile.read (advanceCycle s).regs r) =
        RegFile.read (committedRegs (advanceCycle s)) r := by
    refine fwd_eq_committed hwr fun m hm hl h0 => ?_
    obtain ⟨x, hx, hlx, hrd⟩ := hload m hm hl
    exact hrd ▸ rd_ne_of_no_stall hs hf hx hlx hd h0
  simp only [FetchedInstr.decoded, State.readReg, hregs]
  exact ⟨fun hu => hread _ (.inl ⟨hu, rfl⟩), fun hu => hread _ (.inr ⟨hu, rfl⟩)⟩

theorem State.CodeOk.latched (h : s.CodeOk) (hi : s.Inv) (hn : s.NoCodeStore) : (advanceCycle s).CodeOk := by
  have hmem := (committedMem_latched hr hh hi).1
  have h1 : (afterFillStep s).CodeIn (advanceCycle s).mem := by
    rw [hmem]
    exact ((State.codeOk_iff.1 h).committedMem hi hr hn).afterFillStep hi
  have h2 : (executePhase s).state.CodeIn (executePhase s).state.mem := by
    rw [executePhase_mem, ← mem_latched hr hh]
    exact h1.congr (by simp [executePhase]) (by simp [executePhase]) (by simp) (by simp)
  obtain ⟨h3, hdr⟩ := h2.fetchStage (executePhase s).redirect.isSome (loadUseStall (executePhase s).state)
    (decide (s.icFsm = .idle))
  have hm : (advanceCycle s).mem = (executePhase s).state.mem := by rw [mem_latched hr hh, executePhase_mem]
  rw [State.codeOk_iff, hm, advanceCycle_latched hr hh]
  refine ⟨h3.lines, h3.fill, hdr, fun x hx => ?_⟩
  rw [latch_xr] at hx
  obtain ⟨-, -, f, hf, rfl⟩ := decodeStage_eq_some hx
  exact h2.dr f hf

theorem State.RefInv.latched (h : s.RefInv) (hn : s.NoCodeStore) : (advanceCycle s).RefInv := by
  obtain ⟨hinv, hflow, -, hcode, hl, -⟩ := h
  refine ⟨hinv.latched hl hr hh, hflow.latched hr hh, operandsOk_latched hr hh hinv hl, hcode.latched hr hh hinv hn,
    by rw [advanceCycle_level, hl], ?_⟩
  rw [halted_latched hr hh]; exact Bool.noConfusion

end latched

/-- Every cycle keeps the invariant of the refinement. -/
theorem State.RefInv.advanceCycle {s : State} (h : s.RefInv) (hn : s.NoCodeStore) : (advanceCycle s).RefInv := by
  rcases advanceCycle_cases s with ⟨_, e⟩ | ⟨w, _, hw, e⟩ | ⟨hr, hh, e⟩ | ⟨hr, hh, _⟩
  · rw [e]; exact h
  · obtain ⟨hinv, hflow, hops, hcode, hl, -⟩ := h
    have hw : (haltingInstr s).isSome = true := by rw [hw]; rfl
    rw [e]
    exact ⟨hinv, hflow, hops, hcode, hl, fun _ => hw⟩
  · rw [e]; exact h.held hr hh
  · exact h.latched hr hh hn

/-- Settles O57: a held cycle moves nothing, and in any other Fetch follows on, Decode reads after Writeback, and the
code is that of the memory left by the store in `MR`. -/
theorem refinementInvariantKept : Obligations.RefinementInvariantKept := by
  unfold Obligations.RefinementInvariantKept
  exact fun s h hn => h.advanceCycle hn

end Sys2Proof.Machine
end

section
/-! SUPPORT. Memory accesses (20_memory.md): a misaligned one at either level, a load of what was just stored, the cycle
in which memory changes, and Fetch at an address that is no word address. -/

namespace Sys2Proof.Machine

/-! ### Misaligned, at the architectural level (R62, R63, log 11) -/

/-- The effective address, in numbers (R11, R130, R138). -/
theorem State.effAddr_eq_wrap64 (s : State) (rs1 : Reg) (imm : BitVec 12) :
    s.effAddr rs1 imm = wrap64 ((s.readReg rs1).toNat + imm.toInt) := by
  rw [State.effAddr, sextImm, wrap64, BitVec.ofInt_add, BitVec.ofInt_natCast, BitVec.ofNat_toNat, BitVec.setWidth_eq]
  rfl

theorem aligned_eq_false_iff {a : Word} {n : Nat} : aligned a n = false ↔ a.toNat % n ≠ 0 := by
  rw [← Bool.not_eq_true, aligned_iff]

theorem instrStep_misaligned {s : State} (hh : s.halted = false) (ha : aligned s.pc 4 = false) :
    instrStep s = .next (s.report (.memFault .fetchMisaligned s.pc)) := by
  simp [instrStep, hh, ha]

/-- Settles O8: each access is the shared load or store, which reports a misaligned address and nothing else. -/
theorem misalignedAccessMakesNoProgress : Obligations.MisalignedAccessMakesNoProgress := by
  unfold Obligations.MisalignedAccessMakesNoProgress
  refine ⟨fun s i r rs1 imm n hi ha => ?_, fun s hl hh hp => ?_⟩
  · rw [← State.effAddr_eq_wrap64] at ha ⊢
    have hn : aligned (s.effAddr rs1 imm) n = false := aligned_eq_false_iff.2 ha
    rcases hi with ⟨rfl, rfl⟩ | ⟨rfl, rfl⟩ | ⟨rfl, rfl⟩ | ⟨rfl, rfl⟩ |
      ⟨rfl, rfl⟩ | ⟨rfl, rfl⟩ | ⟨rfl, rfl⟩ | ⟨rfl, rfl⟩
    · exact State.load_misaligned (tag := .lh) hn r
    · exact State.load_misaligned (tag := .lhu) hn r
    · exact State.store_misaligned (tag := .sh) hn r
    · exact State.load_misaligned (tag := .lw) hn r
    · exact State.load_misaligned (tag := .lwu) hn r
    · exact State.store_misaligned (tag := .sw) hn r
    · exact State.load_misaligned (tag := .ld) hn r
    · exact State.store_misaligned (tag := .sd) hn r
  · rw [step_architectural hl, instrStep_misaligned hh (aligned_eq_false_iff.2 hp)]
    rfl

/-! ### A load of what was stored (R61, R65, R66) -/

/-- The bytes of a stored doubleword from its byte `j` on, little-endian. -/
theorem Memory.read_write_doubleword {m : Memory} (h : Memory.wf m) (a v : Word) {j n : Nat} (hjn : j + n ≤ 8) :
    (m.write a 8 v).read (a + BitVec.ofNat 64 j) n = v.toNat / 2 ^ (8 * j) % 2 ^ (8 * n) := by
  apply Nat.eq_of_testBit_eq
  intro i
  rw [Nat.testBit_mod_two_pow, Nat.testBit_div_two_pow]
  by_cases hi : i < 8 * n
  · have hoff : (a + BitVec.ofNat 64 j + BitVec.ofNat 64 (i / 8) - a).toNat = j + i / 8 := by
      rw [BitVec.add_assoc, ← BitVec.ofNat_add, BitVec.add_comm, BitVec.add_sub_cancel, BitVec.toNat_ofNat]
      omega
    rw [Memory.testBit_read _ _ _ _ hi, Memory.byte_write h _ (by omega), hoff, if_pos (by omega)]
    simp only [BitVec.getLsbD_setWidth, BitVec.getLsbD_ushiftRight, show i % 8 < 8 by omega, decide_true,
      Bool.true_and, hi, show 8 * (j + i / 8) + i % 8 = i + 8 * j by omega]
    rfl
  · rw [decide_eq_false hi, Bool.false_and]
    exact Nat.testBit_lt_two_pow (lt_of_lt_of_le (Memory.read_lt ..) (Nat.pow_le_pow_right (by omega) (by omega)))

/-- The loads that do not sign-extend give the number their bytes spell (R134 to R137). -/
theorem loadValue_unsigned {tag : Tag} (ht : tag = .lbu ∨ tag = .lhu ∨ tag = .lwu ∨ tag = .ld) {raw : Word}
    (h : raw.toNat < 2 ^ (8 * accessBytes tag)) : loadValue tag raw = raw := by
  apply BitVec.eq_of_toNat_eq
  rcases ht with rfl | rfl | rfl | rfl <;> simp only [accessBytes] at h <;> simp [loadValue] <;> omega

/-- What an unsigned load reads of a doubleword stored at `a`, from its byte `j` on. -/
theorem State.load_stored {t : State} {m : Memory} (hm : Memory.wf m) {a v : Word} (ht : t.mem = m.write a 8 v)
    {tag : Tag} {rd r : Reg} {d : BitVec 12} {j : Nat} (hrd : rd ≠ 0) (hj : j + accessBytes tag ≤ 8)
    (he : t.effAddr r d = a + BitVec.ofNat 64 j) (hal : aligned (t.effAddr r d) (accessBytes tag) = true)
    (hu : tag = .lbu ∨ tag = .lhu ∨ tag = .lwu ∨ tag = .ld) :
    ∃ u, t.load tag rd r d = .next u ∧
      (u.readReg rd).toNat = v.toNat / 2 ^ (8 * j) % 2 ^ (8 * accessBytes tag) := by
  obtain ⟨u, hnext, hregs, -⟩ := State.load_wrote hal rd
  have hread := Memory.read_write_doubleword hm a v hj
  rw [← he, ← ht] at hread
  have hlt : t.mem.read (t.effAddr r d) (accessBytes tag) < 2 ^ (8 * accessBytes tag) := Memory.read_lt ..
  have hpow : 2 ^ (8 * accessBytes tag) ≤ 2 ^ 64 := Nat.pow_le_pow_right (by omega) (by omega)
  have hraw : (t.mem.readWord (t.effAddr r d) (accessBytes tag)).toNat =
      t.mem.read (t.effAddr r d) (accessBytes tag) := by
    rw [Memory.readWord, BitVec.toNat_ofNat, Nat.mod_eq_of_lt (by omega)]
  refine ⟨u, hnext, ?_⟩
  rw [hregs, if_pos ⟨rfl, hrd⟩, loadValue_unsigned hu (hraw ▸ hlt), hraw, hread]

/-- An offset into an aligned doubleword that is a multiple of the access width is aligned. -/
theorem aligned_add {a : Word} {j n : Nat} (ha : a.toNat % 8 = 0) (hn : n ∣ 8) (hj : j < 8) (hjn : n ∣ j) :
    aligned (a + BitVec.ofNat 64 j) n = true := by
  have hlt : a.toNat + j < 2 ^ 64 := by have := a.isLt; omega
  rw [aligned_iff, BitVec.toNat_add, BitVec.toNat_ofNat, Nat.mod_eq_of_lt (a := j) (by omega), Nat.mod_eq_of_lt hlt]
  exact Nat.mod_eq_zero_of_dvd (Nat.dvd_add (hn.trans (Nat.dvd_of_mod_eq_zero ha)) hjn)

/-- Settles O21: the load reads the bytes that the store has just written. -/
theorem loadsSeeTheStoredDoubleword : Obligations.LoadsSeeTheStoredDoubleword := by
  unfold Obligations.LoadsSeeTheStoredDoubleword
  intro s rs2 rs1 imm hm ha
  refine ⟨_, State.store_next (tag := .sd) (aligned_iff.2 ha) rs2, fun rd r d j hrd hj he => ?_⟩
  have hal {n : Nat} (hn : n ∣ 8) (hjn : n ∣ j) := he ▸ aligned_add ha hn hj hjn
  refine ⟨?_, fun h2 => ?_, fun h4 => ?_, fun h0 => ?_⟩
  · exact State.load_stored hm rfl (tag := .lbu) hrd (by simp only [accessBytes]; omega) he
      (hal (by decide) (one_dvd j)) (by simp)
  · exact State.load_stored hm rfl (tag := .lhu) hrd (by simp only [accessBytes]; omega) he
      (hal (by decide) (Nat.dvd_of_mod_eq_zero h2)) (by simp)
  · exact State.load_stored hm rfl (tag := .lwu) hrd (by simp only [accessBytes]; omega) he
      (hal (by decide) (Nat.dvd_of_mod_eq_zero h4)) (by simp)
  · subst h0
    obtain ⟨u, hu, hv⟩ := State.load_stored hm rfl (tag := .ld) hrd (by simp [accessBytes]) he
      (hal (by decide) (dvd_zero 8)) (by simp)
    refine ⟨u, hu, ?_⟩
    rw [hv, Nat.mul_zero, Nat.pow_zero, Nat.div_one]
    exact Nat.mod_eq_of_lt (s.readReg rs2).isLt

/-! ### Misaligned, in the pipeline (R62) -/

/-- The Memory stage reports a misaligned access and holds it (R62, R257, R258). -/
theorem memoryStage_misaligned {s : State} {m : ExecutedInstr} (hm : s.mr = some m) (ha : m.misaligned = true) :
    memoryStage s =
      { state := s.report (.memFault .dataMisaligned m.addr), hold := true, wrNext := none, dMiss := false
        issued := false } := by
  simp only [ExecutedInstr.misaligned, Bool.and_eq_true, Bool.or_eq_true, Bool.not_eq_true'] at ha
  obtain ⟨hl | hs, ha⟩ := ha
  · rw [memoryStage_load hm hl]; simp [loadStage, ha]
  · rw [memoryStage_store hm hs]; simp [storeStage, ha]

theorem ExecutedInstr.misaligned_iff {m : ExecutedInstr} :
    m.misaligned = true ↔
      (m.tag.isLoad = true ∨ m.tag.isStore = true) ∧ m.addr.toNat % accessBytes m.tag ≠ 0 := by
  simp [misaligned, aligned]

/-- A cycle with a misaligned access in `MR`: it is held and reported. -/
theorem advanceCycle_misaligned {s : State} {m : ExecutedInstr} (hr : s.Runs) (hm : s.mr = some m)
    (ha : m.misaligned = true) :
    (memoryPhase s).hold = true ∧ advanceCycle s = afterFillStep s ∧ (afterFillStep s).mem = s.mem ∧
      (afterFillStep s).events = .memFault .dataMisaligned m.addr :: s.events := by
  have hp : memoryPhase s = _ := memoryStage_misaligned (s := writeback s) (by rw [writeback_mr, hm]) ha
  have hh : (memoryPhase s).hold = true := by rw [hp]
  refine ⟨hh, by rw [advanceCycle, runCycle_held hr hh], by rw [afterFillStep_mem, memoryPhase_held_mem hh], ?_⟩
  rw [afterFillStep, icFillStep_events, hp]
  exact congrArg _ (writeback_events s)

theorem State.Runs.afterFillStep {s : State} (hr : s.Runs) : (afterFillStep s).Runs :=
  ⟨by rw [afterFillStep_halted, hr.1],
    by rw [haltingInstr_congr (afterFillStep_cfg s) (afterFillStep_wr s), hr.2]⟩

/-- Settles O38: such a cycle leaves a state with the same access in `MR`. -/
theorem misalignedAccessIsHeldForEver : Obligations.MisalignedAccessIsHeldForEver := by
  unfold Obligations.MisalignedAccessIsHeldForEver
  intro s m k hr hm ht ha
  have hmis : m.misaligned = true := ExecutedInstr.misaligned_iff.2 ⟨ht, ha⟩
  dsimp only
  induction k generalizing s with
  | zero =>
    obtain ⟨hh, -⟩ := advanceCycle_misaligned hr hm hmis
    exact ⟨(holdAll_eq hr).trans hh, hm, rfl, rfl, rfl, rfl, rfl, rfl⟩
  | succ k ih =>
    obtain ⟨-, he, hmem, hev⟩ := advanceCycle_misaligned hr hm hmis
    have hnext := ih (afterFillStep s) hr.afterFillStep (by rw [afterFillStep_mr, hm])
    rw [afterFillStep_xr, afterFillStep_dr, afterFillStep_wr, afterFillStep_pc, hmem, hev,
      List.append_cons, ← List.replicate_succ'] at hnext
    rwa [runCycles_succ, he]

/-! ### The cycle in which memory changes (R267) -/

theorem mem_bus_of_mem_storeCalls {s : State} {a v : Word} {n : Nat} (h : .writeMemory a v n ∈ storeCalls s) :
    (BusCall.writeMemory a v n, true) ∈ s.bus := by
  obtain ⟨⟨call, ok⟩, hmem, hc⟩ := List.mem_filterMap.1 h
  cases call <;> cases ok <;> simp only [successfulStore, reduceCtorEq, Option.some.injEq] at hc
  exact hc ▸ hmem

theorem loadStage_mem (s : State) (m : ExecutedInstr) : (loadStage s m).state.mem = s.mem := by
  unfold loadStage
  split
  · split
    · split
      · rfl
      · exact dcIssue_mem ..
    · exact dcPoll_mem ..
    · rfl
  · rfl

/-- The Memory stage changes memory only by an aligned store whose call succeeds (R258). -/
theorem memoryStage_writes {s : State} (h : (memoryStage s).state.mem ≠ s.mem) :
    ∃ m, s.mr = some m ∧ m.tag.isStore = true ∧ aligned m.addr (accessBytes m.tag) = true ∧
      .writeMemory m.addr (lowBytes (accessBytes m.tag) m.sdata) (accessBytes m.tag) ∈
        storeCalls (memoryStage s).state := by
  rcases hm : s.mr with _ | m
  · rw [memoryStage_bubble hm] at h; exact absurd rfl h
  have hh : (memoryStage s).hold = false := by
    rcases hh : (memoryStage s).hold with _ | _
    · rfl
    · exact absurd (memoryStage_held hh).1 h
  cases hs : m.tag.isStore
  · cases hl : m.tag.isLoad
    · rw [memoryStage_other hm hl hs] at h; exact absurd rfl h
    · rw [memoryStage_load hm hl] at h hh
      exact absurd (loadStage_mem s m) h
  · rw [memoryStage_store hm hs] at hh ⊢
    cases ha : aligned m.addr (accessBytes m.tag)
    · simp [storeStage, ha] at hh
    · refine ⟨m, rfl, hs, ha, ?_⟩
      rw [storeStage_aligned ha] at hh ⊢
      split at hh
      · rename_i hok
        rw [if_pos hok, storeCalls_storeThrough, storeCalls_ask, hok]
        exact List.mem_cons_self
      · cases hh

/-- Settles O40: no part of a cycle but the Memory stage writes memory, and the calls made stay in the log. -/
theorem onlyTheStoreInMemoryWritesMemory : Obligations.OnlyTheStoreInMemoryWritesMemory := by
  unfold Obligations.OnlyTheStoreInMemoryWritesMemory
  intro s h
  rcases advanceCycle_cases s with ⟨_, e⟩ | ⟨_, _, _, e⟩ | ⟨_, hh, e⟩ | ⟨hr, hh, _⟩
  · exact absurd (by rw [e]) h
  · exact absurd (by rw [e]; rfl) h
  · exact absurd (by rw [e, afterFillStep_mem, memoryPhase_held_mem hh]) h
  · rw [mem_latched hr hh, memoryPhase, ← writeback_mem s] at h
    obtain ⟨m, hm, hs, ha, hst⟩ := memoryStage_writes h
    rw [writeback_mr] at hm
    refine ⟨m, hm, hs, aligned_iff.1 ha, mem_bus_of_mem_storeCalls ?_⟩
    rw [storeCalls_latched hr hh]
    exact hst

/-! ### Fetch at an address that is no word address (R63) -/

/-- Fetch that looks reports the address and delivers a bubble. -/
theorem fetchStage_misaligned {s : State} (ha : aligned s.pc 4 = false) :
    fetchStage s false false true =
      { state := s.report (.memFault .fetchMisaligned s.pc), drNext := none, missed := false, issued := false } := by
  simp [fetchStage, ha]

theorem fetchStage_pc_of_misaligned {s : State} (ha : aligned s.pc 4 = false) (redirect stall idle0 : Bool) :
    (fetchStage s redirect stall idle0).state.pc = s.pc := by
  unfold fetchStage
  split; · rfl
  split; · rfl
  split; · rfl
  rw [if_neg (by simp [ha])]
  rfl

/-- From such an address `pc` moves only by a redirect. -/
theorem redirect_of_pc_ne {s : State} (ha : aligned s.pc 4 = false) (h : (advanceCycle s).pc ≠ s.pc) :
    (runCycle s).redirect = some (advanceCycle s).pc := by
  rcases advanceCycle_cases s with ⟨_, e⟩ | ⟨_, _, _, e⟩ | ⟨_, _, e⟩ | ⟨hr, hh, e⟩
  · exact absurd (by rw [e]) h
  · exact absurd (by rw [e]; rfl) h
  · exact absurd (by rw [e, afterFillStep_pc]) h
  · have hpc := executePhase_pc s
    rw [runCycle_latched hr hh]
    rw [e, latch_pc, fetchPhase] at h ⊢
    rcases hx : (executePhase s).redirect with _ | p
    · rw [hx] at hpc
      refine absurd ?_ h
      rw [fetchStage_pc_of_misaligned (by rw [hpc]; exact ha), hpc]
      rfl
    · rw [hx] at hpc
      simp [fetchStage_redirected, hpc]

/-- Settles O50: Fetch looks at the `pc` that Execute left in place. -/
theorem fetchStopsAtMisalignedAddress : Obligations.FetchStopsAtMisalignedAddress := by
  unfold Obligations.FetchStopsAtMisalignedAddress
  intro s hp
  have ha : aligned s.pc 4 = false := aligned_eq_false_iff.2 hp
  refine ⟨fun ⟨hr, hh, hred, hst, hic⟩ => ?_, redirect_of_pc_ne ha⟩
  have hm : (memoryPhase s).hold = false := (holdAll_eq hr).symm.trans hh
  rw [runCycle_latched hr hm] at hred hst
  dsimp only at hred hst
  have hpc : (executePhase s).state.pc = s.pc := by rw [executePhase_pc, hred]; rfl
  have hf : fetchPhase s = fetchStage (executePhase s).state false false true := by
    rw [fetchPhase, hred, hst, hic]; rfl
  rw [fetchStage_misaligned (by rw [hpc]; exact ha)] at hf
  have hfill : afterFillStep s = (memoryPhase s).state := icFillStep_idle (by simp [memoryPhase, hic])
  rw [advanceCycle_latched hr hm, hf]
  refine ⟨rfl, hpc, ?_, ?_, _, by rw [← hpc]; rfl⟩
  · simp [executePhase, afterFillStep_icFsm_idle hic]
  · simp [executePhase, hfill, memoryPhase]

end Sys2Proof.Machine
end

section
/-! SUPPORT. Progress under a fair collaborator (R268 (ii), R373): how many true answers a state still needs before
Execute evaluates an instruction, at most 8, and that every cycle pays for the answers it uses up and comes nearer. -/

namespace Sys2Proof.Machine

/-! ### What a state still needs -/

/-- What a part of the pipeline needs before it is done: true answers, and a rank that falls when it moves. -/
structure Need where
  trues : Nat
  rank : Nat

/-- A fill in progress: the true answer to a poll, and its two phases (R36, R38). -/
def fillNeed {n : Nat} : FillFsm n → Need
  | .idle => ⟨0, 0⟩
  | .commit .. => ⟨0, 1⟩
  | .wait .. => ⟨1, 2⟩

/-- The line of `pc` is in the instruction cache, or the fill in progress is for it. -/
def lineComing (s : State) : Bool :=
  match s.icFsm.pending with
  | some f => f.1 == icBase s.pc
  | none => (icLookup s.icLines s.pc).isSome

/-- The stages before Execute and the instruction fill controller: with no instruction in `XR` or `DR` the line of `pc`
has to be there; an issue of Fetch in a later cycle may use up answers too. -/
def frontNeed (s : State) : Need :=
  if s.xr.isSome then ⟨1 + (fillNeed s.icFsm).trues, 0⟩
  else if s.dr.isSome then ⟨3 + (fillNeed s.icFsm).trues, 1⟩
  else if lineComing s then ⟨3 + (fillNeed s.icFsm).trues, 2 + (fillNeed s.icFsm).rank⟩
  else ⟨5 + (fillNeed s.icFsm).trues, 5 + (fillNeed s.icFsm).rank⟩

/-- A load in Memory: the issue of its fill and the fill, unless it hits. -/
def loadNeed (s : State) (m : ExecutedInstr) : Need :=
  match s.dcFsm with
  | .idle => if (dcLookup s.dcLines m.addr).isSome then ⟨0, 0⟩ else ⟨2, 3⟩
  | .wait .. => ⟨1, 2⟩
  | .commit .. => ⟨0, 1⟩

/-- The instruction in `MR`, before the Memory stage lets the pipeline go on. -/
def memoryNeed (s : State) : Need :=
  match s.mr with
  | some m => if m.tag.isLoad then loadNeed s m else if m.tag.isStore then ⟨1, 0⟩ else ⟨0, 0⟩
  | none => ⟨0, 0⟩

def Need.add (a b : Need) : Need := ⟨a.trues + b.trues, a.rank + b.rank⟩

/-- What a state needs before Execute has evaluated an instruction. -/
def need (s : State) : Need := (memoryNeed s).add (frontNeed s)

theorem fillNeed_trues_le {n : Nat} (f : FillFsm n) : (fillNeed f).trues ≤ 1 := by
  cases f <;> simp [fillNeed]

theorem frontNeed_trues (s : State) : 1 ≤ (frontNeed s).trues ∧ (frontNeed s).trues ≤ 6 := by
  have := fillNeed_trues_le s.icFsm
  unfold frontNeed
  split <;> [skip; split <;> [skip; split]] <;> dsimp only <;> omega

theorem memoryNeed_trues_le (s : State) : (memoryNeed s).trues ≤ 2 := by
  unfold memoryNeed loadNeed
  split
  · split
    · split
      · split <;> simp
      · simp
      · simp
    · split <;> simp
  · simp

theorem need_trues (s : State) : 1 ≤ (need s).trues ∧ (need s).trues ≤ 8 := by
  have h := frontNeed_trues s
  have h' := memoryNeed_trues_le s
  simp only [need, Need.add]
  omega

theorem lineComing_congr {s t : State} (hp : t.pc = s.pc) (hf : t.icFsm = s.icFsm) (hl : t.icLines = s.icLines) :
    lineComing t = lineComing s := by
  unfold lineComing
  rw [hp, hf, hl]

theorem frontNeed_congr {s t : State} (hx : t.xr = s.xr) (hd : t.dr = s.dr) (hp : t.pc = s.pc) (hf : t.icFsm = s.icFsm)
    (hl : t.icLines = s.icLines) : frontNeed t = frontNeed s := by
  simp only [frontNeed, lineComing_congr hp hf hl, hx, hd, hf]

theorem memoryNeed_congr {s t : State} (hm : t.mr = s.mr) (hf : t.dcFsm = s.dcFsm) (hl : t.dcLines = s.dcLines) :
    memoryNeed t = memoryNeed s := by
  simp only [memoryNeed, loadNeed, hm, hf, hl]

/-! ### What a part of a cycle pays -/

/-- From `s` to `t`, a part of the pipeline that needed `a` and now needs `b` has paid for the true answers used up. -/
structure Pays (s t : State) (a b : Need) : Prop where
  trues : s.answers.count true + b.trues ≤ t.answers.count true + a.trues
  length : t.answers.length ≤ s.answers.length
  rank : b.rank ≤ a.rank

/-- An answer was used up, or the part has moved. -/
def Nearer (s t : State) (a b : Need) : Prop := t.answers.length < s.answers.length ∨ b.rank < a.rank

theorem Pays.of_answers_eq {s t : State} {a b : Need} (h : t.answers = s.answers) (ht : b.trues ≤ a.trues)
    (hr : b.rank ≤ a.rank) : Pays s t a b :=
  ⟨by rw [h]; omega, by rw [h], hr⟩

theorem Pays.trans {s t u : State} {a b c : Need} (h : Pays s t a b) (h' : Pays t u b c) : Pays s u a c := by
  obtain ⟨h1, h2, h3⟩ := h
  obtain ⟨h4, h5, h6⟩ := h'
  exact ⟨by omega, by omega, by omega⟩

theorem Nearer.trans_pays {s t u : State} {a b c : Need} (h : Nearer s t a b) (h' : Pays t u b c) : Nearer s u a c := by
  obtain ⟨-, h5, h6⟩ := h'
  rcases h with h | h
  · exact .inl (by omega)
  · exact .inr (by omega)

theorem Pays.trans_nearer {s t u : State} {a b c : Need} (h : Pays s t a b) (h' : Nearer t u b c) : Nearer s u a c := by
  obtain ⟨-, h2, h3⟩ := h
  rcases h' with h' | h'
  · exact .inl (by omega)
  · exact .inr (by omega)

/-- What another part needs stays. -/
theorem Pays.add_right {s t : State} {a b : Need} (h : Pays s t a b) (c : Need) : Pays s t (a.add c) (b.add c) := by
  obtain ⟨h1, h2, h3⟩ := h
  exact ⟨by simp only [Need.add]; omega, h2, by simp only [Need.add]; omega⟩

theorem Pays.add_left {s t : State} {a b : Need} (h : Pays s t a b) (c : Need) : Pays s t (c.add a) (c.add b) := by
  obtain ⟨h1, h2, h3⟩ := h
  exact ⟨by simp only [Need.add]; omega, h2, by simp only [Need.add]; omega⟩

theorem Nearer.add_right {s t : State} {a b : Need} (h : Nearer s t a b) (c : Need) : Nearer s t (a.add c) (b.add c) :=
  h.imp_right fun h => by simp only [Need.add]; omega

theorem Nearer.add_left {s t : State} {a b : Need} (h : Nearer s t a b) (c : Need) : Nearer s t (c.add a) (c.add b) :=
  h.imp_right fun h => by simp only [Need.add]; omega

/-- The last answers were used up. -/
theorem Nearer.of_exhausted {s t : State} {a b : Need} (hs : s.answers ≠ []) (ht : t.answers = []) : Nearer s t a b :=
  .inl (by rw [ht]; exact List.length_pos_iff.2 hs)

/-- A call uses up the next answer. -/
theorem State.count_answers_ask (s : State) (call : BusCall) :
    s.answers.count true ≤ s.answers.tail.count true + (s.ask call).1.toNat := by
  rcases ha : s.answers with _ | ⟨a, rest⟩
  · simp
  · rw [State.ask_cons ha, List.count_cons]
    cases a <;> simp

theorem length_tail_lt {l : List Bool} (h : l ≠ []) : l.tail.length < l.length := by
  rw [List.length_tail]
  have := List.length_pos_iff.2 h
  omega

/-- The same with a call, which comes nearer as long as there are answers to come. -/
structure PaysByCall (s t : State) (a b : Need) : Prop extends Pays s t a b where
  nearer : s.answers ≠ [] → Nearer s t a b

/-- A call, when its answer pays for what moves. -/
theorem PaysByCall.of_ask {s t : State} {a b : Need} (call : BusCall) (h : t.answers = s.answers.tail)
    (ht : b.trues + (s.ask call).1.toNat ≤ a.trues) (hr : b.rank ≤ a.rank) : PaysByCall s t a b := by
  have := s.count_answers_ask call
  exact ⟨⟨by rw [h]; omega, by rw [h, List.length_tail]; omega, hr⟩, fun hne => .inl (h ▸ length_tail_lt hne)⟩

/-! ### The instruction fill controller (R354, R355) -/

theorem icFillStep_pays_fill (s : State) :
    Pays s (icFillStep s) (fillNeed s.icFsm) (fillNeed (icFillStep s).icFsm) ∧
      (s.icFsm ≠ .idle → s.answers ≠ [] →
        Nearer s (icFillStep s) (fillNeed s.icFsm) (fillNeed (icFillStep s).icFsm)) := by
  rcases hf : s.icFsm with _ | ⟨base, data⟩ | ⟨base, data⟩
  · rw [icFillStep_idle hf, hf]
    exact ⟨Pays.of_answers_eq rfl le_rfl le_rfl, fun h => absurd rfl h⟩
  · have h : PaysByCall s (icFillStep s) (fillNeed (.wait base data)) (fillNeed (icFillStep s).icFsm) := by
      rw [icFillStep_wait hf]
      split <;> rename_i hok <;>
        exact .of_ask (.memoryReady base) (by simp) (by simp [fillNeed, hok, hf]) (by simp [fillNeed, hf])
    exact ⟨h.toPays, fun _ => h.nearer⟩
  · rw [icFillStep_commit hf]
    exact ⟨Pays.of_answers_eq rfl le_rfl (by simp [fillNeed]), fun _ _ => .inr (by simp [fillNeed])⟩

/-- A line that is coming stays, and arrives at the commit. -/
theorem lineComing_icFillStep {s : State} (h : lineComing s = true) : lineComing (icFillStep s) = true := by
  rcases hf : s.icFsm with _ | ⟨base, data⟩ | ⟨base, data⟩
  · rwa [icFillStep_idle hf]
  · simp only [lineComing, hf, FillFsm.pending] at h
    rw [icFillStep_wait hf]
    split <;> simpa [lineComing, hf, FillFsm.pending] using h
  · simp only [lineComing, hf, FillFsm.pending, beq_iff_eq] at h
    have hi : icIndex base = icIndex s.pc := by
      rw [h, ← icLineAddr_index_tag, icIndex_icLineAddr (icIndex_lt _)]
    have ht : icTag base = icTag s.pc := by rw [h, ← icLineAddr_index_tag, icTag_icLineAddr]
    have hl : icLookup (icFillStep s).icLines s.pc = some (icFillLine base data) := by
      rw [icFillStep_commit hf, icLookup_eq_some_iff, Assoc.lookup_insert, if_pos hi]
      exact ⟨rfl, ht⟩
    simp only [lineComing, icFillStep_pc, hl]
    rw [icFillStep_commit hf]
    rfl

theorem icFillStep_pays (s : State) :
    Pays s (icFillStep s) (frontNeed s) (frontNeed (icFillStep s)) ∧
      (s.xr = none → s.dr = none → s.icFsm ≠ .idle → s.answers ≠ [] →
        Nearer s (icFillStep s) (frontNeed s) (frontNeed (icFillStep s))) := by
  obtain ⟨⟨ht, hlen, hr⟩, hnear⟩ := icFillStep_pays_fill s
  have hc := lineComing_icFillStep (s := s)
  have hneed : (frontNeed (icFillStep s)).trues + (fillNeed s.icFsm).trues ≤
        (frontNeed s).trues + (fillNeed (icFillStep s).icFsm).trues ∧
      (frontNeed (icFillStep s)).rank ≤ (frontNeed s).rank ∧
      (s.xr = none → s.dr = none → (frontNeed (icFillStep s)).rank + (fillNeed s.icFsm).rank ≤
        (frontNeed s).rank + (fillNeed (icFillStep s).icFsm).rank) := by
    simp only [frontNeed, icFillStep_xr, icFillStep_dr]
    rcases s.xr with _ | x
    · rcases s.dr with _ | f
      · cases h : lineComing s
        · cases lineComing (icFillStep s) <;> simp <;> omega
        · rw [hc h]; simp; omega
      · simp; omega
    · simp; omega
  obtain ⟨h1, h2, h3⟩ := hneed
  refine ⟨⟨by omega, hlen, h2⟩, fun hx hd hf hne => ?_⟩
  have h3 := h3 hx hd
  rcases hnear hf hne with h | h
  · exact .inl h
  · exact .inr (by omega)

/-! ### The Memory stage (R256 to R258) -/

theorem memoryNeed_load {s : State} {m : ExecutedInstr} (hm : s.mr = some m) (hl : m.tag.isLoad = true) :
    memoryNeed s = loadNeed s m := by
  simp [memoryNeed, hm, hl]

theorem memoryNeed_store {s : State} {m : ExecutedInstr} (hm : s.mr = some m) (hs : m.tag.isStore = true) :
    memoryNeed s = ⟨1, 0⟩ := by
  simp [memoryNeed, hm, hs, Tag.not_load_of_store hs]

/-- The line that a fill installs for a load is the one it looks up (R364). -/
theorem dcLookup_dcCommit {s : State} {a base : Word} (h : dcBase a = base) (data : BitVec 64) :
    (dcLookup (dcCommit s base data).dcLines a).isSome = true := by
  have hi : dcIndex base = dcIndex a := by rw [← h, ← dcLineAddr_index_tag, dcIndex_dcLineAddr (dcIndex_lt _)]
  have ht : dcTag base = dcTag a := by rw [← h, ← dcLineAddr_index_tag, dcTag_dcLineAddr]
  have hl : dcLookup (dcCommit s base data).dcLines a = some { tag := dcTag base, data := data } :=
    dcLookup_eq_some_iff.2 ⟨by rw [dcCommit, Assoc.lookup_insert, if_pos hi], ht⟩
  rw [hl]; rfl

/-- A fill in progress is for the line of the load in `MR` (R38). -/
theorem State.DcOk.dcBase_of_pending {s : State} (h : s.DcOk) {f : Word × BitVec 64} (hf : s.dcFsm.pending = some f)
    {m : ExecutedInstr} (hm : s.mr = some m) : dcBase m.addr = f.1 := by
  obtain ⟨-, -, hfill⟩ := h
  obtain ⟨-, -, -, hany⟩ := hfill f hf
  simp only [hm, Option.any_some, Bool.and_eq_true, beq_iff_eq] at hany
  exact hany.2

/-- An aligned load: a step of its fill, or the hit. -/
theorem loadStage_pays {s : State} {m : ExecutedInstr} (hd : s.DcOk) (hm : s.mr = some m)
    (ha : aligned m.addr (accessBytes m.tag) = true) :
    Pays s (loadStage s m).state (loadNeed s m) (loadNeed (loadStage s m).state m) ∧
      ((loadStage s m).hold = true → s.answers ≠ [] →
        Nearer s (loadStage s m).state (loadNeed s m) (loadNeed (loadStage s m).state m)) := by
  unfold loadStage
  rw [if_pos ha]
  rcases hf : s.dcFsm with _ | ⟨base, data⟩ | ⟨base, data⟩
  · rcases hl : dcLookup s.dcLines m.addr with _ | line
    · have hneed : loadNeed s m = ⟨2, 3⟩ := by simp [loadNeed, hf, hl]
      have h : PaysByCall s (dcIssue s m.addr).2 (loadNeed s m) (loadNeed (dcIssue s m.addr).2 m) := by
        rw [hneed, dcIssue_eq]
        dsimp only
        split <;> rename_i hok <;>
          exact .of_ask (.readMemory (dcBase m.addr) 8) (by simp) (by simp [loadNeed, hok, hf, hl])
            (by simp [loadNeed, hf, hl])
      exact ⟨h.toPays, fun _ => h.nearer⟩
    · exact ⟨Pays.of_answers_eq rfl le_rfl le_rfl, fun h => by cases h⟩
  · have hneed : loadNeed s m = ⟨1, 2⟩ := by simp [loadNeed, hf]
    have h : PaysByCall s (dcPoll s base data) (loadNeed s m) (loadNeed (dcPoll s base data) m) := by
      rw [hneed, dcPoll_eq]
      dsimp only
      split <;> rename_i hok <;>
        exact .of_ask (.memoryReady base) (by simp) (by simp [loadNeed, hok, hf]) (by simp [loadNeed, hf])
    exact ⟨h.toPays, fun _ => h.nearer⟩
  · have hhit := dcLookup_dcCommit (s := s) (hd.dcBase_of_pending (f := (base, data)) (by rw [hf]; rfl) hm) data
    have hbefore : loadNeed s m = ⟨0, 1⟩ := by simp [loadNeed, hf]
    have hafter : loadNeed (dcCommit s base data) m = ⟨0, 0⟩ := by
      rw [loadNeed, show (dcCommit s base data).dcFsm = .idle from rfl]
      exact if_pos hhit
    dsimp only
    rw [hbefore, hafter]
    exact ⟨Pays.of_answers_eq rfl le_rfl (by simp), fun _ _ => .inr (by simp)⟩

/-- An aligned store: its call. -/
theorem storeStage_pays {s : State} {m : ExecutedInstr} (ha : aligned m.addr (accessBytes m.tag) = true) :
    PaysByCall s (storeStage s m).state ⟨1, 0⟩ ⟨if (storeStage s m).hold then 1 else 0, 0⟩ := by
  rw [storeStage_aligned ha]
  split <;> rename_i hok <;>
    exact .of_ask (.writeMemory m.addr (lowBytes (accessBytes m.tag) m.sdata) (accessBytes m.tag)) (by simp)
      (by simp [hok]) le_rfl

/-- What `MR` needs after the Memory stage: nothing once the stage does not hold. -/
def MemoryOut.need (o : MemoryOut) : Need := if o.hold then memoryNeed o.state else ⟨0, 0⟩

theorem memoryStage_pays {s : State} (hd : s.DcOk) (ha : s.mr.any ExecutedInstr.misaligned = false) :
    Pays s (memoryStage s).state (memoryNeed s) (memoryStage s).need ∧
      ((memoryStage s).hold = true → s.answers ≠ [] →
        Nearer s (memoryStage s).state (memoryNeed s) (memoryStage s).need) := by
  unfold MemoryOut.need
  rcases hm : s.mr with _ | m
  · rw [memoryStage_bubble hm]
    exact ⟨Pays.of_answers_eq rfl (Nat.zero_le _) (Nat.zero_le _), fun h => by cases h⟩
  simp only [hm, Option.any_some] at ha
  cases hl : m.tag.isLoad
  · cases hs : m.tag.isStore
    · rw [memoryStage_other hm hl hs]
      exact ⟨Pays.of_answers_eq rfl (Nat.zero_le _) (Nat.zero_le _), fun h => by cases h⟩
    · rw [ExecutedInstr.misaligned_of_access (by simp [hs]), Bool.not_eq_false'] at ha
      have hafter := memoryNeed_store (s := (memoryStage s).state) (m := m) (by rw [memoryStage_mr, hm]) hs
      rw [memoryStage_store hm hs] at hafter ⊢
      rw [memoryNeed_store hm hs, hafter]
      have h := storeStage_pays (s := s) ha
      cases hh : (storeStage s m).hold <;> rw [hh] at h <;> exact ⟨h.toPays, fun _ => h.nearer⟩
  · rw [ExecutedInstr.misaligned_of_access (by simp [hl]), Bool.not_eq_false'] at ha
    have hafter := memoryNeed_load (s := (memoryStage s).state) (m := m) (by rw [memoryStage_mr, hm]) hl
    rw [memoryStage_load hm hl] at hafter ⊢
    rw [memoryNeed_load hm hl, hafter]
    obtain ⟨h, h'⟩ := loadStage_pays hd hm ha
    split
    · exact ⟨h, h'⟩
    · rename_i hh
      exact ⟨⟨le_trans (Nat.le_add_right _ _) h.trues, h.length, Nat.zero_le _⟩, fun h => absurd h hh⟩

/-! ### Fetch (R264) -/

/-- Fetch makes at most one call. -/
theorem fetchStage_answers (s : State) (redirect stall idle0 : Bool) :
    s.answers.count true ≤ (fetchStage s redirect stall idle0).state.answers.count true + 1 ∧
      (fetchStage s redirect stall idle0).state.answers.length ≤ s.answers.length := by
  rcases fetchStage_state s redirect stall idle0 with h | ⟨_, h⟩ | h | h <;> rw [h]
  · simp
  · simp
  · have hans : (icIssue s s.pc).2.answers = s.answers.tail := by
      rw [icIssue_eq]
      dsimp only
      split <;> simp
    have := s.count_answers_ask (.readMemory (icBase s.pc) 16)
    have := Bool.toNat_le (s.ask (.readMemory (icBase s.pc) 16)).1
    rw [hans, List.length_tail]
    omega
  · simp

/-- What Fetch and the latch leave of `s` when nothing redirects or stalls and Execute has evaluated a bubble. -/
def fetchLatched (s : State) (idle0 : Bool) (xr : Option DecodedInstr) (wr : Option CompletedInstr) : State :=
  latch (fetchStage s false false idle0).state (fetchStage s false false idle0).drNext xr none wr

/-- Fetch that looks for the next instruction finds it, or makes a call. -/
theorem fetchLatched_looks {s : State} (hx : s.xr = none) (hd : s.dr = none) (hp : aligned s.pc 4 = true)
    (hf : s.icFsm = .idle) (wr : Option CompletedInstr) :
    PaysByCall s (fetchLatched s true none wr) (frontNeed s) (frontNeed (fetchLatched s true none wr)) := by
  unfold fetchLatched
  rcases hl : icLookup s.icLines s.pc with _ | line
  · have hneed : frontNeed s = ⟨5, 5⟩ := by simp [frontNeed, hx, hd, lineComing, hf, FillFsm.pending, hl, fillNeed]
    have hstage : fetchStage s false false true =
        { state := (icIssue s s.pc).2, drNext := none, missed := true, issued := (icIssue s s.pc).1 } := by
      simp [fetchStage, hp, hl]
    rw [hneed, hstage, icIssue_eq]
    dsimp only
    split <;> rename_i hok <;> refine .of_ask (.readMemory (icBase s.pc) 16) (by simp) ?_ ?_ <;>
      simp [frontNeed, lineComing, FillFsm.pending, fillNeed, hok, hf, hl]
  · have hneed : frontNeed s = ⟨3, 2⟩ := by simp [frontNeed, hx, hd, lineComing, hf, FillFsm.pending, hl, fillNeed]
    rw [hneed]
    simp only [fetchStage, hp, hl, Bool.false_eq_true, Bool.not_true, if_false, if_true]
    refine ⟨Pays.of_answers_eq rfl ?_ ?_, fun _ => .inr ?_⟩ <;> simp [frontNeed, hf, fillNeed]

/-- The instruction in `DR` moves on to `XR`, whatever Fetch does in that cycle. -/
theorem fetchLatched_decoded {s : State} (hx : s.xr = none) (hd : s.dr.isSome = true) (idle0 : Bool) (x : DecodedInstr)
    (wr : Option CompletedInstr) :
    Pays s (fetchLatched s idle0 (some x) wr) (frontNeed s) (frontNeed (fetchLatched s idle0 (some x) wr)) ∧
      Nearer s (fetchLatched s idle0 (some x) wr) (frontNeed s) (frontNeed (fetchLatched s idle0 (some x) wr)) := by
  obtain ⟨htrues, hlen⟩ := fetchStage_answers s false false idle0
  have hfill := fillNeed_trues_le (fetchStage s false false idle0).state.icFsm
  have hbefore : frontNeed s = ⟨3 + (fillNeed s.icFsm).trues, 1⟩ := by simp [frontNeed, hx, hd]
  have hafter : frontNeed (fetchLatched s idle0 (some x) wr) =
      ⟨1 + (fillNeed (fetchStage s false false idle0).state.icFsm).trues, 0⟩ := rfl
  rw [hbefore, hafter]
  refine ⟨⟨?_, hlen, by simp⟩, .inr (by simp)⟩
  dsimp only [fetchLatched, latch_answers]
  omega

/-- Fetch waits for the fill that was in progress. -/
theorem fetchLatched_waits {s : State} (hx : s.xr = none) (hd : s.dr = none) (wr : Option CompletedInstr) :
    Pays s (fetchLatched s false none wr) (frontNeed s) (frontNeed (fetchLatched s false none wr)) := by
  have hneed : frontNeed (fetchLatched s false none wr) = frontNeed s := frontNeed_congr hx.symm hd.symm rfl rfl rfl
  rw [hneed]
  exact Pays.of_answers_eq rfl le_rfl le_rfl

end Sys2Proof.Machine
end

section
/-! SUPPORT. Progress of the pipeline (R268 (ii), R373, R404): a cycle of a core that is not stuck and evaluates no
instruction pays for the answers it uses up and comes nearer to the one that does. -/

namespace Sys2Proof.Machine

/-! ### The part of a cycle that no hold suppresses (R250) -/

/-- Writeback and the Memory stage. -/
theorem memoryPhase_pays {s : State} (hd : s.DcOk) (ha : s.mr.any ExecutedInstr.misaligned = false) :
    Pays s (memoryPhase s).state (memoryNeed s) (memoryPhase s).need ∧
      ((memoryPhase s).hold = true → s.answers ≠ [] →
        Nearer s (memoryPhase s).state (memoryNeed s) (memoryPhase s).need) := by
  have hneed : memoryNeed (writeback s) = memoryNeed s := memoryNeed_congr (by simp) (by simp) (by simp)
  obtain ⟨⟨h1, h2, h3⟩, hnear⟩ := memoryStage_pays hd.writeback (by rwa [writeback_mr])
  rw [hneed, writeback_answers] at *
  refine ⟨⟨h1, h2, h3⟩, fun hh hne => ?_⟩
  have h := hnear hh hne
  rwa [Nearer, writeback_answers] at h

/-- With the instruction fill controller, which steps in every cycle. -/
theorem afterFillStep_pays {s : State} (hd : s.DcOk) (ha : s.mr.any ExecutedInstr.misaligned = false) :
    Pays s (afterFillStep s) (need s) ((memoryPhase s).need.add (frontNeed (afterFillStep s))) ∧
      ((memoryPhase s).hold = true ∨ (s.xr = none ∧ s.dr = none ∧ s.icFsm ≠ .idle) → s.answers ≠ [] →
        Nearer s (afterFillStep s) (need s) ((memoryPhase s).need.add (frontNeed (afterFillStep s)))) := by
  obtain ⟨hmem, hmem'⟩ := memoryPhase_pays hd ha
  obtain ⟨hfill, hfill'⟩ := icFillStep_pays (memoryPhase s).state
  have hfront : frontNeed (memoryPhase s).state = frontNeed s :=
    frontNeed_congr (by simp [memoryPhase]) (by simp [memoryPhase]) (by simp [memoryPhase]) (by simp [memoryPhase])
      (by simp [memoryPhase])
  rw [hfront] at hfill hfill'
  have h1 := hmem.add_right (frontNeed s)
  have h2 := hfill.add_left (memoryPhase s).need
  refine ⟨h1.trans h2, fun hc hne => ?_⟩
  rcases hc with hh | ⟨hx, hdr, hf⟩
  · exact ((hmem' hh hne).add_right _).trans_pays h2
  · by_cases hne' : (memoryPhase s).state.answers = []
    · exact (Nearer.of_exhausted hne hne').trans_pays h2
    · exact h1.trans_nearer ((hfill' (by simpa [memoryPhase] using hx) (by simpa [memoryPhase] using hdr)
        (by simpa [memoryPhase] using hf) hne').add_left _)

/-- The same up to the retirement, in a cycle that is not held: nothing more is needed of the Memory stage. -/
theorem retired_pays {s : State} (hd : s.DcOk) (ha : s.mr.any ExecutedInstr.misaligned = false)
    (hh : (memoryPhase s).hold = false) :
    Pays s (retireStage (afterFillStep s)) (need s) (frontNeed (retireStage (afterFillStep s))) ∧
      (s.xr = none → s.dr = none → s.icFsm ≠ .idle → s.answers ≠ [] →
        Nearer s (retireStage (afterFillStep s)) (need s) (frontNeed (retireStage (afterFillStep s)))) := by
  have hmem : (memoryPhase s).need.add (frontNeed (afterFillStep s)) = frontNeed (afterFillStep s) := by
    simp [MemoryOut.need, hh, Need.add]
  have hfront : frontNeed (retireStage (afterFillStep s)) = frontNeed (afterFillStep s) :=
    frontNeed_congr (by simp) (by simp) (by simp) (by simp) (by simp)
  obtain ⟨⟨h1, h2, h3⟩, hnear⟩ := afterFillStep_pays hd ha
  rw [hmem] at h1 h3 hnear
  rw [hfront]
  refine ⟨⟨by simpa using h1, by simpa using h2, h3⟩, fun hx hdr hf hne => ?_⟩
  simpa only [Nearer, retireStage_answers] using hnear (.inr ⟨hx, hdr, hf⟩) hne

/-! ### One cycle -/

/-- From `s` to `t` the answers used up are paid for, and an instruction is nearer to being evaluated. -/
structure Approaches (s t : State) : Prop where
  pays : Pays s t (need s) (need t)
  nearer : Nearer s t (need s) (need t)

theorem not_stuck_iff {s : State} :
    ¬s.Stuck ↔ s.Runs ∧ s.mr.any ExecutedInstr.misaligned = false ∧
      (s.xr = none → s.dr = none → aligned s.pc 4 = true) := by
  rw [State.Stuck, not_or, not_or, Classical.not_not, Bool.not_eq_true]
  simp only [not_and, Bool.not_eq_false]

/-- A held cycle: the instruction in `MR` is still there. -/
theorem held_approaches {s : State} (hi : s.Inv) (ha : s.mr.any ExecutedInstr.misaligned = false) (hr : s.Runs)
    (hh : (memoryPhase s).hold = true) (hne : s.answers ≠ []) : Approaches s (advanceCycle s) := by
  have hneed : (memoryPhase s).need.add (frontNeed (afterFillStep s)) = need (afterFillStep s) := by
    rw [MemoryOut.need, if_pos hh, need]
    congr 1
    exact (memoryNeed_congr (by simp [afterFillStep, memoryPhase]) (by simp [afterFillStep, memoryPhase])
      (by simp [afterFillStep, memoryPhase])).symm
  obtain ⟨h, h'⟩ := afterFillStep_pays hi.dcOk ha
  rw [hneed] at h h'
  rw [advanceCycle, runCycle_held hr hh]
  exact ⟨h, h' (.inl hh) hne⟩

/-- A bubble in `XR` is no load to wait for (R301). -/
theorem loadUseStall_bubble {s : State} (hx : s.xr = none) : loadUseStall s = false := by
  rcases hd : s.dr with _ | f <;> simp [loadUseStall, hx, hd]

/-- A cycle that is not held and has a bubble in `XR`: `DR` moves on, and Fetch looks for the next instruction. -/
theorem advanceCycle_bubble {s : State} (hr : s.Runs) (hh : (memoryPhase s).hold = false) (hx : s.xr = none) :
    advanceCycle s = fetchLatched (retireStage (afterFillStep s)) (decide (s.icFsm = .idle))
      (s.dr.map (FetchedInstr.decoded (retireStage (afterFillStep s)))) (memoryPhase s).wrNext := by
  have hx' : (retireStage (afterFillStep s)).xr = none := by simp [hx]
  have hd : (retireStage (afterFillStep s)).dr = s.dr := by simp
  have he : executePhase s = { state := retireStage (afterFillStep s), mrNext := none, redirect := none } :=
    executeStage_bubble hx'
  rw [advanceCycle_latched hr hh, fetchPhase, he, fetchLatched]
  simp only [decodeStage, Option.isSome_none, loadUseStall_bubble hx', hd, Bool.or_false, Bool.false_eq_true, if_false]

/-- Such a cycle of a core that is not stuck. -/
theorem bubble_approaches {s : State} (hi : s.Inv) (ha : s.mr.any ExecutedInstr.misaligned = false) (hr : s.Runs)
    (hh : (memoryPhase s).hold = false) (hx : s.xr = none) (hp : s.dr = none → aligned s.pc 4 = true)
    (hne : s.answers ≠ []) : Approaches s (advanceCycle s) := by
  have hcycle := advanceCycle_bubble hr hh hx
  have hneed : need (advanceCycle s) = frontNeed (advanceCycle s) := by
    rw [need, memoryNeed, mr_latched hr hh, (executePhase_bubble hx).1]
    simp [Need.add]
  suffices h : Pays s (advanceCycle s) (need s) (frontNeed (advanceCycle s)) ∧
      Nearer s (advanceCycle s) (need s) (frontNeed (advanceCycle s)) by
    rw [← hneed] at h
    exact ⟨h.1, h.2⟩
  rw [hcycle]
  obtain ⟨hbefore, hbefore'⟩ := retired_pays hi.dcOk ha hh
  generalize hu : retireStage (afterFillStep s) = u at hbefore hbefore' ⊢
  have hxu : u.xr = none := by simp [← hu, hx]
  have hdu : u.dr = s.dr := by simp [← hu]
  rcases hd : s.dr with _ | f
  · by_cases hf : s.icFsm = .idle
    · rw [decide_eq_true hf]
      have hlook := fetchLatched_looks hxu (hdu.trans hd) (by simpa [← hu] using hp hd)
        (by simpa [← hu] using afterFillStep_icFsm_idle hf) (memoryPhase s).wrNext
      refine ⟨hbefore.trans hlook.toPays, ?_⟩
      by_cases hans : u.answers = []
      · exact (Nearer.of_exhausted hne hans).trans_pays hlook.toPays
      · exact hbefore.trans_nearer (hlook.nearer hans)
    · rw [decide_eq_false hf]
      have hwait := fetchLatched_waits hxu (hdu.trans hd) (memoryPhase s).wrNext
      exact ⟨hbefore.trans hwait, (hbefore' hx hd hf hne).trans_pays hwait⟩
  · obtain ⟨hdec, hdec'⟩ := fetchLatched_decoded hxu (by rw [hdu, hd]; rfl) (decide (s.icFsm = .idle))
      (f.decoded u) (memoryPhase s).wrNext
    exact ⟨hbefore.trans hdec, hbefore.trans_nearer hdec'⟩

/-- A cycle of a core that is not stuck and in which Execute evaluates nothing. -/
theorem advanceCycle_approaches {s : State} (hi : s.Inv) (hs : ¬s.Stuck) (he : executesInstr s = false)
    (hne : s.answers ≠ []) : Approaches s (advanceCycle s) := by
  obtain ⟨hr, ha, hp⟩ := not_stuck_iff.1 hs
  cases hh : (memoryPhase s).hold
  · have hx : s.xr = none := by
      rcases hx : s.xr with _ | x
      · rfl
      · rw [executesInstr_iff.2 ⟨hr, hh, x, hx⟩] at he; cases he
    exact bubble_approaches hi ha hr hh hx (hp hx) hne
  · exact held_approaches hi ha hr hh hne

/-- The cycle in which Execute evaluates an instruction uses up no more than was needed. -/
theorem executes_pays {s : State} (hi : s.Inv) (he : executesInstr s = true)
    (ha : s.mr.any ExecutedInstr.misaligned = false) :
    s.answers.count true ≤ (advanceCycle s).answers.count true + (need s).trues := by
  obtain ⟨hr, hh, -⟩ := executesInstr_iff.1 he
  obtain ⟨⟨htrues, -, -⟩, -⟩ := afterFillStep_pays hi.dcOk ha
  have hfetch := (fetchStage_answers (executePhase s).state (executePhase s).redirect.isSome
    (loadUseStall (executePhase s).state) (decide (s.icFsm = .idle))).1
  have hans : (executePhase s).state.answers = (afterFillStep s).answers := by simp [executePhase]
  have hfront := (frontNeed_trues (afterFillStep s)).1
  rw [hans] at hfetch
  rw [advanceCycle_latched hr hh, latch_answers, fetchPhase]
  simp only [Need.add] at htrues
  omega

/-! ### Runs -/

/-- How far a state is from evaluating an instruction, at most. -/
def distance (s : State) : Nat := s.answers.length + (need s).rank

theorem Approaches.distance_lt {s t : State} (h : Approaches s t) : distance t < distance s := by
  obtain ⟨⟨-, hlen, hrank⟩, hnear⟩ := h
  unfold distance
  rcases hnear with h | h <;> omega

/-- With as many true answers to come as are needed, Execute evaluates an instruction or the pipeline gets stuck. -/
theorem executes_or_stuck_of_need {s : State} (hi : s.Inv) (hl : s.level = .cycle)
    (h : (need s).trues ≤ s.answers.count true) :
    ∃ n, (executedCount n s = 1 ∧
        s.answers.count true ≤ (runCycles n s).answers.count true + (need s).trues) ∨
      (executedCount n s = 0 ∧ (runCycles n s).Stuck) := by
  by_cases hs : s.Stuck
  · exact ⟨0, .inr ⟨rfl, hs⟩⟩
  cases he : executesInstr s
  · have hne : s.answers ≠ [] := by
      rintro h0
      have := (need_trues s).1
      rw [h0, List.count_nil] at h
      omega
    have happ := advanceCycle_approaches hi hs he hne
    have htrues := happ.pays.trues
    have hdist : distance (advanceCycle s) < distance s := happ.distance_lt
    obtain ⟨n, hn⟩ := executes_or_stuck_of_need (hi.advanceCycle hl) (by rw [advanceCycle_level, hl]) (by omega)
    refine ⟨n + 1, ?_⟩
    rw [executedCount_succ, runCycles_succ, he]
    exact hn.imp (fun ⟨hone, hans⟩ => ⟨by simpa using hone, by omega⟩)
      fun ⟨hnone, hstuck⟩ => ⟨by simpa using hnone, hstuck⟩
  · refine ⟨1, .inl ⟨by simp [executedCount_succ, he], ?_⟩⟩
    obtain ⟨-, ha, -⟩ := not_stuck_iff.1 hs
    exact executes_pays hi he ha
termination_by distance s

/-- R268 (ii), R373: 8 true answers to come are enough, from every state with the machine's invariant. -/
theorem executes_or_stuck {s : State} (hi : s.Inv) (hl : s.level = .cycle) (h : 8 ≤ s.answers.count true) :
    ∃ n, (executedCount n s = 1 ∧ s.answers.count true ≤ (runCycles n s).answers.count true + 8) ∨
      (executedCount n s = 0 ∧ (runCycles n s).Stuck) := by
  have hneed := (need_trues s).2
  obtain ⟨n, hn⟩ := executes_or_stuck_of_need hi hl (by omega)
  exact ⟨n, hn.imp_left fun ⟨h1, h2⟩ => ⟨h1, by omega⟩⟩

end Sys2Proof.Machine
end

section
/-! SUPPORT. Runs of the pipeline and of the architectural machine (R268): they correspond after every cycle, and where
the pipeline is stuck the architectural machine makes no progress either (R404, log 11). -/

namespace Sys2Proof.Machine

/-! ### The architectural machine that makes no progress (R62, R63, R403) -/

theorem runSteps_add (j k : Nat) (t : State) : runSteps (j + k) t = runSteps k (runSteps j t) := by
  induction j generalizing t with
  | zero => simp
  | succ j ih =>
    have stopped (h : ∀ n, runSteps n t = t) : runSteps (j + 1 + k) t = runSteps k (runSteps (j + 1) t) := by
      rw [h, h, h]
    rcases h : step t with t' | f | r
    · rw [Nat.succ_add, runSteps_succ _ h, runSteps_succ _ h, ih]
    · exact stopped fun n => by cases n <;> simp [runSteps, h]
    · exact stopped fun n => by cases n <;> simp [runSteps, h]

/-- No step changes what R268 compares. -/
def State.Stays (t : State) : Prop := ∀ k, (runSteps k t).archView = t.archView

theorem State.stays_of_halted {t : State} (hl : t.level = .architectural) (hh : t.halted = true) : t.Stays := by
  intro k
  induction k with
  | zero => rfl
  | succ k ih => rw [runSteps_succ k ((step_architectural hl).trans (instrStep_halted hh)), ih]

/-- A fault that the next step meets again (log 11). -/
theorem State.stays_of_memFault {t : State} {kind : MemFaultKind} {a : Word}
    (h : ∀ events, step { t with events := events } = .next { t with events := .memFault kind a :: events }) :
    t.Stays := by
  suffices hk : ∀ k events,
      (runSteps k { t with events := events }).archView = State.archView { t with events := events } from
    fun k => hk k t.events
  intro k
  induction k with
  | zero => exact fun _ => rfl
  | succ k ih =>
    intro events
    rw [runSteps_succ k (h events), ih]
    rfl

theorem State.stays_of_misaligned_pc {t : State} (hl : t.level = .architectural) (hh : t.halted = false)
    (ha : aligned t.pc 4 = false) : t.Stays :=
  State.stays_of_memFault fun events =>
    (step_architectural (s := { t with events := events }) hl).trans (instrStep_misaligned hh ha)

/-- The step of an instruction whose access is misaligned (R62, log 11). -/
theorem step_of_misaligned {t : State} {x : DecodedInstr} (hl : t.level = .architectural) (hh : t.halted = false)
    (hp : aligned t.pc 4 = true) (hw : t.mem.instrAt t.pc = x.iw) (hset : x.operandSet = decodeOperands t.cfg x.iw)
    (hpc : x.pc = t.pc) {br wp : Bool}
    (ha : (x.executed t.cfg (x.valA t) (x.valB t) br wp).misaligned = true) :
    step t = .next
      (t.report (.memFault .dataMisaligned (x.executed t.cfg (x.valA t) (x.valB t) br wp).addr)) := by
  rcases hd : decodeWord x.iw with e | i
  · rw [decodeOperands_error hd] at hset
    have htag : x.tag = .decodeFault := congrArg Decoded.tag hset
    simp [ExecutedInstr.misaligned, DecodedInstr.executed, htag, Tag.isLoad, Tag.isStore] at ha
  · rw [decodeOperands_ok hd] at hset
    rw [step_architectural hl, instrStep_of_decodes hh hp (hw.symm ▸ hd), exec_eq_perform hset hpc br wp]
    exact congrArg _ (if_pos ha)

/-- A misaligned access that Execute has evaluated is met again by the architectural machine: the report is all that
its step changes. -/
theorem Evaluated.stays {t u t' : State} {x : DecodedInstr} (h : Evaluated t u x) (hl : t.level = .architectural)
    (hh : t.halted = false) (hp : aligned t.pc 4 = true) (hw : t.mem.instrAt t.pc = x.iw) (ht : step t = .next t')
    (ha : u.mr.any ExecutedInstr.misaligned = true) : t'.Stays := by
  obtain ⟨br, wp, hmr⟩ := h.mr
  rw [hmr, Option.any_some] at ha
  have hstep (events : List Event) : step { t with events := events } =
      .next (State.report { t with events := events }
        (.memFault .dataMisaligned (x.executed t.cfg (x.valA t) (x.valB t) br wp).addr)) :=
    step_of_misaligned (t := { t with events := events }) hl hh hp hw h.operandSet h.pc ha
  obtain rfl := Host.Outcome.next.inj ((hstep t.events).symm.trans ht)
  exact State.stays_of_memFault hstep

/-! ### Runs of both machines -/

/-- The machines correspond, and with a misaligned access in `MR` the architectural machine has met it. -/
structure Tracks (t s : State) : Prop extends Corresponds t s where
  stays : s.mr.any ExecutedInstr.misaligned = true → t.Stays

/-- What Execute has just evaluated is the next instruction of the architectural machine. -/
theorem Corresponds.evaluated {s t : State} (h : Corresponds t s) (hi : s.RefInv) (hn : s.NoCodeStore)
    (he : executesInstr s = true) (hs : stopping s = none) :
    ∃ x, Evaluated t (advanceCycle s) x ∧ aligned t.pc 4 = true ∧ t.mem.instrAt t.pc = x.iw := by
  obtain ⟨hr, hm, x, hx⟩ := executesInstr_iff.1 he
  obtain ⟨ho, hp⟩ := olderDone_latched hr hm hi.1 hs h.view
  obtain ⟨hpc, hal, hword⟩ := instrAt_pc hi hn hr hx (ho.mem.trans (committedMem_latched hr hm hi.1).1) hp
  exact ⟨x, evaluated_latched hi hr hm hx hs h.cfg ho hpc, hal, hword⟩

/-- A cycle that evaluates no instruction leaves `MR` as it was, or a bubble. -/
theorem misaligned_of_not_executes {s : State} (he : executesInstr s = false)
    (h : (advanceCycle s).mr.any ExecutedInstr.misaligned = true) : s.mr.any ExecutedInstr.misaligned = true := by
  rcases advanceCycle_cases s with ⟨_, e⟩ | ⟨_, _, _, e⟩ | ⟨_, _, e⟩ | ⟨hr, hh, _⟩
  · rwa [e] at h
  · rwa [e] at h
  · rwa [e, afterFillStep_mr] at h
  · rcases hx : s.xr with _ | x
    · rw [mr_latched hr hh, (executePhase_bubble hx).1] at h
      cases h
    · rw [executesInstr_iff.2 ⟨hr, hh, x, hx⟩] at he
      cases he

/-- One cycle, and as many steps as it evaluates instructions. -/
theorem Tracks.cycle {s t : State} (h : Tracks t s) (hi : s.RefInv) (hn : s.NoCodeStore) :
    Tracks (runSteps (if executesInstr s then 1 else 0) t) (advanceCycle s) := by
  cases he : executesInstr s
  · exact ⟨h.toCorresponds.kept hi.1 (.inl he), fun ha => h.stays (misaligned_of_not_executes he ha)⟩
  · cases hs : (stopping s).isSome
    · have hs : stopping s = none := by simpa using hs
      obtain ⟨t', ht, h'⟩ := h.step_of_executes hi hn he hs
      obtain ⟨x, hev, hal, hword⟩ := h.toCorresponds.evaluated hi hn he hs
      rw [if_pos rfl, runSteps_succ 0 ht]
      exact ⟨h', hev.stays h.level (by rw [h.halted, hs]; rfl) hal hword ht⟩
    · rw [if_pos rfl, runSteps_succ 0 (h.step_of_stopping hs)]
      exact ⟨h.kept hi.1 (.inr hs), fun _ => State.stays_of_halted h.level (h.halted.trans hs)⟩

/-- Any number of cycles in which no store goes to code. -/
theorem Tracks.run {s t : State} (h : Tracks t s) (hi : s.RefInv) (n : Nat)
    (hn : ∀ j, j < n → (runCycles j s).NoCodeStore) :
    Tracks (runSteps (executedCount n s) t) (runCycles n s) ∧ (runCycles n s).RefInv := by
  induction n generalizing s t with
  | zero => exact ⟨h, hi⟩
  | succ n ih =>
    have h0 : s.NoCodeStore := hn 0 (Nat.succ_pos n)
    rw [executedCount_succ, runSteps_add, runCycles_succ]
    exact ih (h.cycle hi h0) (hi.advanceCycle h0) fun j hj => hn (j + 1) (Nat.succ_lt_succ hj)

/-- Where the pipeline is stuck, so is the architectural machine (R404). -/
theorem Tracks.stays_of_stuck {s t : State} (h : Tracks t s) (hi : s.RefInv) (hs : s.Stuck) : t.Stays := by
  cases hh : t.halted
  case true => exact State.stays_of_halted h.level hh
  obtain ⟨-, -, -, -, -, hhalted⟩ := hi
  have hstop : stopping s = none := by simpa [h.halted] using hh
  have hhalt : haltingInstr s = none := by
    rcases hw : haltingInstr s with _ | w
    · rfl
    · rw [stopping_of_halts hw] at hstop; cases hstop
  have hr : s.Runs := ⟨by by_contra hne; simpa [hhalt] using hhalted (by simpa using hne), hhalt⟩
  cases hm : s.mr.any ExecutedInstr.misaligned
  case true => exact h.stays hm
  rcases hs with hs | hs | ⟨hx, hd, ha⟩
  · exact absurd hr hs
  · rw [hs] at hm; cases hm
  · have hpc : t.pc = s.pc := by
      have hview := congrArg ArchView.pc h.view
      simp only [State.archView, State.committedView, hstop] at hview
      rw [hview, committedPc_eq, if_neg (by simp [hm]), frontPc, hx, hd]
      rfl
    exact State.stays_of_misaligned_pc h.level hh (hpc ▸ ha)

theorem State.launch_tracks (cfg : Config) (regs : RegFile) (mem : Memory) (ans : List Bool) :
    Tracks { State.launch cfg regs mem ans with level := .architectural } (State.launch cfg regs mem ans) := by
  have hstop : stopping (State.launch cfg regs mem ans) = none := stopping_bubble (haltingInstr_bubble rfl) rfl
  refine ⟨⟨rfl, by rw [hstop]; rfl, rfl, ?_⟩, fun h => by cases h⟩
  simp only [State.archView, State.committedView, hstop]
  rfl

/-! ### Every instruction is reached (R268 (ii), R373) -/

/-- Progress, `k` times. -/
theorem executes_times_or_stuck (k : Nat) {s : State} (hi : s.Inv) (hl : s.level = .cycle)
    (h : 8 * k ≤ s.answers.count true) :
    ∃ n, executedCount n s = k ∨ (executedCount n s < k ∧ (runCycles n s).Stuck) := by
  induction k generalizing s with
  | zero => exact ⟨0, .inl rfl⟩
  | succ k ih =>
    obtain ⟨n, ⟨hone, hans⟩ | ⟨hnone, hstuck⟩⟩ := executes_or_stuck hi hl (by omega)
    · obtain ⟨hi', hl'⟩ := runCycles_induction (P := fun u => u.Inv ∧ u.level = .cycle)
        (fun u hu => ⟨hu.1.advanceCycle hu.2, (advanceCycle_level u).trans hu.2⟩) n ⟨hi, hl⟩
      obtain ⟨n', hn'⟩ := ih hi' hl' (by omega)
      refine ⟨n + n', ?_⟩
      rw [executedCount_add, runCycles_add, hone]
      exact hn'.imp (by omega) fun ⟨hlt, hst⟩ => ⟨by omega, hst⟩
    · exact ⟨n, .inr ⟨by omega, hstuck⟩⟩

/-- Settles O59: the machines correspond after every cycle; progress reaches every instruction unless the pipeline is
stuck, and then the architectural machine stays where it is. -/
theorem pipelineRefinesTheArchitecture : Obligations.PipelineRefinesTheArchitecture := by
  unfold Obligations.PipelineRefinesTheArchitecture
  intro cfg regs mem ans hr hm hp
  obtain ⟨hinv, hi, -⟩ := State.launch_invariants ans hr hm hp
  have htracks := State.launch_tracks cfg regs mem ans
  refine ⟨fun n hn => (htracks.run hi n hn).1.view, fun k hk => ?_⟩
  obtain ⟨n, hn⟩ := executes_times_or_stuck k hinv rfl hk
  refine ⟨n, hn, fun hcode => ?_⟩
  obtain ⟨hrun, hri⟩ := htracks.run hi n hcode
  rcases hn with h | ⟨hlt, hstuck⟩
  · exact h ▸ hrun.view
  · have hstays := hrun.stays_of_stuck hri hstuck
      (k - executedCount n (State.launch cfg regs mem ans))
    rw [← runSteps_add, Nat.add_sub_cancel' hlt.le] at hstays
    exact hstays.trans hrun.view

end Sys2Proof.Machine
end

section
/-! SUPPORT. Decoding an encoded instruction gives it back (30_encoding.md R90, R92, R101 to R111). The fields of an
encoded word read back what the encoder put there; what is left for each instruction is its path through the opcode
map. -/

namespace Sys2Proof.Machine

theorem decodeWord_encode {i : Instr} (hi : i.wellFormed = true) : decodeWord (encode i) = .ok i := by
  cases i
  case lb | lh | lw | ld | lbu | lhu | lwu => simp [encode, decodeWord, decodeLoad]
  case sb | sh | sw | sd => simp [encode, decodeWord, decodeStore]
  case addi | slti | sltiu | xori | ori | andi => simp [encode, decodeWord, decodeOpImm]
  case slli | srli | srai => simp [encode, encodeShift6, decodeWord, decodeOpImm]
  case addiw => simp [encode, decodeWord, decodeOpImm32]
  case slliw | srliw | sraiw => simp [encode, encodeShift5, decodeWord, decodeOpImm32]
  case add | sub | sll | slt | sltu | xor | srl | sra | or | and | mul | div | rem =>
    simp [encode, decodeWord, decodeOp]
  case addw | subw | sllw | srlw | sraw => simp [encode, decodeWord, decodeOp32]
  case lui | auipc => simp [encode, decodeWord]
  case beq | bne | blt | bge | bltu | bgeu => simp [encode, decodeWord, decodeBranch, encodeB_bField _ _ _ _ _ hi]
  case jal => simp [encode, decodeWord, encodeJ_jField _ _ _ hi]
  case jalr => simp [encode, decodeWord, decodeJalr]
  case fence | fenceI => simp [encode, decodeWord, decodeMiscMem]
  case ecall | ebreak => rfl
  case csrrw | csrrs | csrrc | csrrwi | csrrsi | csrrci => simp [encode, decodeWord, decodeSystem]

theorem decodeBytes_encodeBytes {i : Instr} (hi : i.wellFormed = true) (rest : List Byte) :
    decodeBytes (encodeBytes i ++ rest) = .ok (i, rest) := by
  simp [encodeBytes, decodeBytes, wordOfBytes_extract, decodeWord_encode hi]

/-- Settles O4: the word, by its path through the opcode map; the bytes, because they spell the word. -/
theorem decodeOfEncode : Obligations.DecodeOfEncode := by
  unfold Obligations.DecodeOfEncode
  exact fun _ hi => ⟨decodeWord_encode hi, decodeBytes_encodeBytes hi⟩

/-- Settles O1: the decoder evaluates thirteen literal words. -/
theorem sampleWordsDecode : Obligations.SampleWordsDecode := by
  unfold Obligations.SampleWordsDecode
  decide

end Sys2Proof.Machine
end

section
/-! SUPPORT. A word that decodes is the word of its instruction (30_encoding.md R92, R100): in each format the fields
of a word, put together again, are the word. -/

namespace Sys2Proof.Machine

/-! ### A word put together from its fields (R91 to R98) -/

section
variable {iw : InstrWord} {opcode funct7 : BitVec 7} {funct6 : BitVec 6} {funct3 : BitVec 3}

@[simp] theorem bits_regAt (iw : InstrWord) (lo : Nat) : Reg.bits (InstrWord.regAt iw lo) = iw.extractLsb' lo 5 := rfl

theorem encodeR_fields (ho : InstrWord.opcode iw = opcode) (h3 : InstrWord.funct3 iw = funct3)
    (h7 : InstrWord.funct7 iw = funct7) :
    encodeR funct7 (InstrWord.rs2 iw) (InstrWord.rs1 iw) funct3 (InstrWord.rd iw) opcode = iw := by
  subst ho h3 h7
  simp (disch := decide) only [encodeR, InstrWord.opcode, InstrWord.funct3, InstrWord.funct7, InstrWord.rd,
    InstrWord.rs1, InstrWord.rs2, bits_regAt, BitVec.extractLsb'_append_extractLsb'_eq_extractLsb', extract_self]

/-- Bits 19:15 are `uimm` here, which is also the five bits of `rs1` (R91, R113). -/
theorem encodeI_fields (ho : InstrWord.opcode iw = opcode) (h3 : InstrWord.funct3 iw = funct3) :
    encodeI (InstrWord.iField iw) (InstrWord.uimm iw) funct3 (InstrWord.rd iw) opcode = iw := by
  subst ho h3
  simp (disch := decide) only [encodeI, InstrWord.opcode, InstrWord.funct3, InstrWord.iField, InstrWord.rd,
    InstrWord.uimm, bits_regAt, BitVec.extractLsb'_append_extractLsb'_eq_extractLsb', extract_self]

theorem encodeS_fields (ho : InstrWord.opcode iw = opcode) (h3 : InstrWord.funct3 iw = funct3) :
    encodeS (InstrWord.sField iw) (InstrWord.rs2 iw) (InstrWord.rs1 iw) funct3 opcode = iw := by
  subst ho h3
  simp (disch := decide) only [encodeS, InstrWord.opcode, InstrWord.funct3, InstrWord.sField, InstrWord.rs2,
    InstrWord.rs1, bits_regAt, extract_append_high, extract_append_low, Nat.reduceSub,
    BitVec.extractLsb'_append_extractLsb'_eq_extractLsb', extract_self]

theorem encodeB_fields (ho : InstrWord.opcode iw = opcode) (h3 : InstrWord.funct3 iw = funct3) :
    encodeB (InstrWord.bField iw) (InstrWord.rs2 iw) (InstrWord.rs1 iw) funct3 opcode = iw := by
  subst ho h3
  simp (disch := decide) only [encodeB, InstrWord.opcode, InstrWord.funct3, InstrWord.bField, InstrWord.rs2,
    InstrWord.rs1, bits_regAt, extract_append_high, extract_append_low, Nat.reduceSub,
    BitVec.extractLsb'_append_extractLsb'_eq_extractLsb', extract_self]

theorem encodeU_fields (ho : InstrWord.opcode iw = opcode) :
    encodeU (InstrWord.uField iw) (InstrWord.rd iw) opcode = iw := by
  subst ho
  simp (disch := decide) only [encodeU, InstrWord.opcode, InstrWord.uField, InstrWord.rd, bits_regAt,
    BitVec.extractLsb'_append_extractLsb'_eq_extractLsb', extract_self]

theorem encodeJ_fields (ho : InstrWord.opcode iw = opcode) :
    encodeJ (InstrWord.jField iw) (InstrWord.rd iw) opcode = iw := by
  subst ho
  simp (disch := decide) only [encodeJ, InstrWord.opcode, InstrWord.jField, InstrWord.rd, bits_regAt,
    extract_append_high, extract_append_low, Nat.reduceSub, BitVec.extractLsb'_append_extractLsb'_eq_extractLsb',
    extract_self]

theorem funct6_append_shamt6 (iw : InstrWord) : InstrWord.funct6 iw ++ InstrWord.shamt6 iw = InstrWord.iField iw :=
  BitVec.extractLsb'_append_extractLsb'_eq_extractLsb' rfl

theorem funct7_append_shamt5 (iw : InstrWord) : InstrWord.funct7 iw ++ InstrWord.shamt5 iw = InstrWord.iField iw :=
  BitVec.extractLsb'_append_extractLsb'_eq_extractLsb' rfl

theorem encodeShift6_fields (ho : InstrWord.opcode iw = 0b0010011) (h3 : InstrWord.funct3 iw = funct3)
    (h6 : InstrWord.funct6 iw = funct6) :
    encodeShift6 funct6 (InstrWord.shamt6 iw) (InstrWord.rs1 iw) funct3 (InstrWord.rd iw) = iw := by
  rw [encodeShift6, ← h6, funct6_append_shamt6]
  exact encodeI_fields ho h3

theorem encodeShift5_fields (ho : InstrWord.opcode iw = 0b0011011) (h3 : InstrWord.funct3 iw = funct3)
    (h7 : InstrWord.funct7 iw = funct7) :
    encodeShift5 funct7 (InstrWord.shamt5 iw) (InstrWord.rs1 iw) funct3 (InstrWord.rd iw) = iw := by
  rw [encodeShift5, ← h7, funct7_append_shamt5]
  exact encodeI_fields ho h3

end

/-! ### The major opcodes (R102 to R111) -/

section
variable {iw : InstrWord} {i : Instr}

theorem encode_decodeLoad (ho : InstrWord.opcode iw = 0b0000011) (h : decodeLoad iw = .ok i) : encode i = iw := by
  unfold decodeLoad at h
  split at h <;> cases h <;> exact encodeI_fields ho ‹_›

theorem encode_decodeMiscMem (ho : InstrWord.opcode iw = 0b0001111) (h : decodeMiscMem iw = .ok i) :
    encode i = iw := by
  unfold decodeMiscMem at h
  split at h <;> cases h <;> exact encodeI_fields ho ‹_›

/-- The last branch of OP-IMM is the one `funct3` that the branches before it leave (R104). -/
theorem funct3_eq_101 {f : BitVec 3} (h0 : f ≠ 0b000) (h2 : f ≠ 0b010) (h3 : f ≠ 0b011) (h4 : f ≠ 0b100)
    (h6 : f ≠ 0b110) (h7 : f ≠ 0b111) (h1 : f ≠ 0b001) : f = 0b101 := by
  bv_omega

theorem encode_decodeOpImm (ho : InstrWord.opcode iw = 0b0010011) (h : decodeOpImm iw = .ok i) : encode i = iw := by
  unfold decodeOpImm at h
  split at h
  case h_7 h3 =>
    split at h <;> cases h
    exact encodeShift6_fields ho h3 ‹_›
  case h_8 h0 h2 h3 h4 h6 h7 h1 =>
    split at h <;> cases h <;> exact encodeShift6_fields ho (funct3_eq_101 h0 h2 h3 h4 h6 h7 h1) ‹_›
  all_goals cases h; exact encodeI_fields ho ‹_›

theorem encode_decodeOpImm32 (ho : InstrWord.opcode iw = 0b0011011) (h : decodeOpImm32 iw = .ok i) :
    encode i = iw := by
  unfold decodeOpImm32 at h
  split at h
  case h_1 h3 => cases h; exact encodeI_fields ho h3
  case h_2 h3 | h_3 h3 => split at h <;> cases h <;> exact encodeShift5_fields ho h3 ‹_›
  case h_4 => cases h

theorem encode_decodeStore (ho : InstrWord.opcode iw = 0b0100011) (h : decodeStore iw = .ok i) : encode i = iw := by
  unfold decodeStore at h
  split at h <;> cases h <;> exact encodeS_fields ho ‹_›

theorem encode_decodeOp (ho : InstrWord.opcode iw = 0b0110011) (h : decodeOp iw = .ok i) : encode i = iw := by
  unfold decodeOp at h
  split at h <;> cases h <;> exact encodeR_fields ho ‹_› ‹_›

theorem encode_decodeOp32 (ho : InstrWord.opcode iw = 0b0111011) (h : decodeOp32 iw = .ok i) : encode i = iw := by
  unfold decodeOp32 at h
  split at h <;> cases h <;> exact encodeR_fields ho ‹_› ‹_›

theorem encode_decodeBranch (ho : InstrWord.opcode iw = 0b1100011) (h : decodeBranch iw = .ok i) : encode i = iw := by
  unfold decodeBranch at h
  split at h <;> cases h <;> exact encodeB_fields ho ‹_›

theorem encode_decodeJalr (ho : InstrWord.opcode iw = 0b1100111) (h : decodeJalr iw = .ok i) : encode i = iw := by
  unfold decodeJalr at h
  split at h <;> cases h
  exact encodeI_fields ho ‹_›

theorem encode_decodeSystem (ho : InstrWord.opcode iw = 0b1110011) (h : decodeSystem iw = .ok i) : encode i = iw := by
  unfold decodeSystem at h
  split at h
  case h_1 => split_ifs at h with hw <;> cases h <;> exact Eq.symm ‹_›
  case h_8 => cases h
  all_goals cases h; exact encodeI_fields ho ‹_›

theorem encode_decodeWord (h : decodeWord iw = .ok i) : encode i = iw := by
  unfold decodeWord at h
  split at h
  case h_1 ho => exact encode_decodeLoad ho h
  case h_2 ho => exact encode_decodeMiscMem ho h
  case h_3 ho => exact encode_decodeOpImm ho h
  case h_4 ho | h_8 ho => cases h; exact encodeU_fields ho
  case h_5 ho => exact encode_decodeOpImm32 ho h
  case h_6 ho => exact encode_decodeStore ho h
  case h_7 ho => exact encode_decodeOp ho h
  case h_9 ho => exact encode_decodeOp32 ho h
  case h_10 ho => exact encode_decodeBranch ho h
  case h_11 ho => exact encode_decodeJalr ho h
  case h_12 ho => cases h; exact encodeJ_fields ho
  case h_13 ho => exact encode_decodeSystem ho h
  case h_14 => cases h

end

/-- Settles O5: every entry of the opcode map keeps all the fields of its format. -/
theorem encodeOfDecode : Obligations.EncodeOfDecode := by
  unfold Obligations.EncodeOfDecode
  exact fun _ _ h => ⟨wellFormed_of_decodeWord h, encode_decodeWord h⟩

end Sys2Proof.Machine
end

section
/-! SUPPORT. The decoder against the opcode table (30_encoding.md R102 to R111, R115). What the mask of a row covers are
whole fields, those by which the decoder chooses: a word agrees with a row when it has the row's fields. -/

namespace Sys2Proof.Machine

section
variable {iw mask value : InstrWord}

theorem extract_of_masked {lo n : Nat} (hm : mask.extractLsb' lo n = BitVec.allOnes n) (h : iw &&& mask = value) :
    iw.extractLsb' lo n = value.extractLsb' lo n := by
  rw [← h, BitVec.extractLsb'_and, hm, BitVec.and_allOnes]

/-- Words that agree on two neighbouring parts agree on both together. -/
theorem extract_eq_of_parts {x y : InstrWord} {lo n m : Nat} (hlo : x.extractLsb' lo n = y.extractLsb' lo n)
    (hhi : x.extractLsb' (lo + n) m = y.extractLsb' (lo + n) m) :
    x.extractLsb' lo (m + n) = y.extractLsb' lo (m + n) := by
  rw [← BitVec.extractLsb'_append_extractLsb'_eq_extractLsb' rfl, hlo, hhi,
    BitVec.extractLsb'_append_extractLsb'_eq_extractLsb' rfl]

/-- Words that agree on every field of the R format are equal (R92). -/
theorem eq_of_fields {x y : InstrWord} (ho : x.extractLsb' 0 7 = y.extractLsb' 0 7)
    (hd : x.extractLsb' 7 5 = y.extractLsb' 7 5) (h3 : x.extractLsb' 12 3 = y.extractLsb' 12 3)
    (h1 : x.extractLsb' 15 5 = y.extractLsb' 15 5) (h2 : x.extractLsb' 20 5 = y.extractLsb' 20 5)
    (h7 : x.extractLsb' 25 7 = y.extractLsb' 25 7) : x = y := by
  have h12 := extract_eq_of_parts ho hd
  have h15 := extract_eq_of_parts h12 h3
  have h20 := extract_eq_of_parts h15 h1
  have h25 := extract_eq_of_parts h20 h2
  have h32 := extract_eq_of_parts h25 h7
  rwa [extract_self, extract_self] at h32

theorem masked_of_opcode (hv : value &&& 0x0000007f = value) (ho : InstrWord.opcode iw = InstrWord.opcode value) :
    iw &&& 0x0000007f = value := by
  simp only [InstrWord.opcode] at ho
  rw [← hv]
  apply eq_of_fields <;> simp [BitVec.extractLsb'_and, ho]

theorem masked_of_funct3 (hv : value &&& 0x0000707f = value) (ho : InstrWord.opcode iw = InstrWord.opcode value)
    (h3 : InstrWord.funct3 iw = InstrWord.funct3 value) : iw &&& 0x0000707f = value := by
  simp only [InstrWord.opcode, InstrWord.funct3] at ho h3
  rw [← hv]
  apply eq_of_fields <;> simp [BitVec.extractLsb'_and, ho, h3]

theorem masked_of_funct6 (hv : value &&& 0xfc00707f = value) (ho : InstrWord.opcode iw = InstrWord.opcode value)
    (h3 : InstrWord.funct3 iw = InstrWord.funct3 value) (h6 : InstrWord.funct6 iw = InstrWord.funct6 value) :
    iw &&& 0xfc00707f = value := by
  simp only [InstrWord.opcode, InstrWord.funct3, InstrWord.funct6] at ho h3 h6
  rw [← hv]
  have h7 : (iw &&& 0xfc00707f).extractLsb' 25 7 = (value &&& 0xfc00707f).extractLsb' 25 7 :=
    extract_eq_of_parts (n := 1) (m := 6) (by simp [BitVec.extractLsb'_and]) (by simp [BitVec.extractLsb'_and, h6])
  apply eq_of_fields (h7 := h7) <;> simp [BitVec.extractLsb'_and, ho, h3]

theorem masked_of_funct7 (hv : value &&& 0xfe00707f = value) (ho : InstrWord.opcode iw = InstrWord.opcode value)
    (h3 : InstrWord.funct3 iw = InstrWord.funct3 value) (h7 : InstrWord.funct7 iw = InstrWord.funct7 value) :
    iw &&& 0xfe00707f = value := by
  simp only [InstrWord.opcode, InstrWord.funct3, InstrWord.funct7] at ho h3 h7
  rw [← hv]
  apply eq_of_fields <;> simp [BitVec.extractLsb'_and, ho, h3, h7]

end

/-- The row of the opcode table with a tag (R100). -/
def tagRow (tag : Tag) : Option OpcodeRow := opcodeRows.find? fun row => row.tag = tag

/-- No two rows have the same tag. -/
theorem tagRow_of_mem {row : OpcodeRow} (h : row ∈ opcodeRows) : tagRow row.tag = some row := by
  revert row
  decide

theorem mem_of_tagRow {tag : Tag} {row : OpcodeRow} (h : tagRow tag = some row) : row ∈ opcodeRows :=
  List.mem_of_find?_eq_some h

/-- A word that agrees with a row decodes. The cases are the masks: the decoder chooses by `opcode` alone, or by
`funct3` too, or by `funct6` or `funct7` as well, and these are the fields that the row's mask covers. -/
theorem decodeWord_of_accepts {iw : InstrWord} {tag : Tag} {row : OpcodeRow} (hr : tagRow tag = some row)
    (h : row.accepts iw) : ∃ i, decodeWord iw = .ok i ∧ i.tag = tag := by
  cases tag
  case decodeFault => cases hr
  all_goals obtain rfl := Option.some.inj hr
  case ecall | ebreak =>
    obtain rfl := BitVec.and_allOnes.symm.trans h
    exact ⟨_, rfl, rfl⟩
  all_goals have ho : InstrWord.opcode iw = _ := extract_of_masked rfl h
  case lui | auipc | jal => rw [decodeWord, ho]; exact ⟨_, rfl, rfl⟩
  all_goals have h3 : InstrWord.funct3 iw = _ := extract_of_masked rfl h
  case slli | srli | srai =>
    have h6 : InstrWord.funct6 iw = _ := extract_of_masked rfl h
    rw [decodeWord, ho, decodeOpImm, h3, h6]
    exact ⟨_, rfl, rfl⟩
  case slliw | srliw | sraiw | add | sub | sll | slt | sltu | xor | srl | sra | or | and | mul | div | rem | addw | subw
      | sllw | srlw | sraw =>
    have h7 : InstrWord.funct7 iw = _ := extract_of_masked rfl h
    rw [decodeWord, ho, decodeOpImm32, decodeOp, decodeOp32, h3, h7]
    exact ⟨_, rfl, rfl⟩
  all_goals
    rw [decodeWord, ho, decodeLoad, decodeMiscMem, decodeOpImm, decodeOpImm32, decodeStore, decodeBranch, decodeJalr,
      decodeSystem, h3]
    exact ⟨_, rfl, rfl⟩

/-- The encoder writes the fields of the row of the instruction's tag. -/
theorem accepts_encode (i : Instr) : ∃ row, tagRow i.tag = some row ∧ row.accepts (encode i) := by
  cases i
  case lui | auipc => exact ⟨_, rfl, masked_of_opcode rfl (encodeU_opcode ..)⟩
  case jal => exact ⟨_, rfl, masked_of_opcode rfl (encodeJ_opcode ..)⟩
  case ecall | ebreak => exact ⟨_, rfl, rfl⟩
  case slli | srli | srai =>
    exact ⟨_, rfl, masked_of_funct6 rfl (encodeI_opcode ..) (encodeI_funct3 ..) (encodeI_funct6 ..)⟩
  case slliw | srliw | sraiw =>
    exact ⟨_, rfl, masked_of_funct7 rfl (encodeI_opcode ..) (encodeI_funct3 ..) (encodeI_funct7 ..)⟩
  case add | sub | sll | slt | sltu | xor | srl | sra | or | and | mul | div | rem | addw | subw | sllw | srlw | sraw =>
    exact ⟨_, rfl, masked_of_funct7 rfl (encodeR_opcode ..) (encodeR_funct3 ..) (encodeR_funct7 ..)⟩
  case sb | sh | sw | sd => exact ⟨_, rfl, masked_of_funct3 rfl (encodeS_opcode ..) (encodeS_funct3 ..)⟩
  case beq | bne | blt | bge | bltu | bgeu =>
    exact ⟨_, rfl, masked_of_funct3 rfl (encodeB_opcode ..) (encodeB_funct3 ..)⟩
  all_goals exact ⟨_, rfl, masked_of_funct3 rfl (encodeI_opcode ..) (encodeI_funct3 ..)⟩

theorem decodeOperands_tag_of_accepts {iw : InstrWord} {row : OpcodeRow} (hrow : row ∈ opcodeRows)
    (h : row.accepts iw) (cfg : Config) : (decodeOperands cfg iw).tag = row.tag := by
  obtain ⟨i, hd, ht⟩ := decodeWord_of_accepts (tagRow_of_mem hrow) h
  rw [decodeOperands_ok hd, operands_tag, ht]

/-- A word that decodes agrees with a row. -/
theorem accepts_of_decodeWord {iw : InstrWord} {i : Instr} (hd : decodeWord iw = .ok i) :
    ∃ row ∈ opcodeRows, row.accepts iw := by
  obtain ⟨row, hrow, h⟩ := accepts_encode i
  exact ⟨row, mem_of_tagRow hrow, encode_decodeWord hd ▸ h⟩

/-- Settles O2: two rows that a word agrees with have the tag of the word, so they are one row. -/
theorem decoderFollowsOpcodeTable : Obligations.DecoderFollowsOpcodeTable := by
  unfold Obligations.DecoderFollowsOpcodeTable
  intro cfg iw
  refine ⟨fun row hrow h => decodeOperands_tag_of_accepts hrow h cfg, fun row hrow row' hrow' h h' => ?_,
    fun hnone => ?_⟩
  · have htag : row.tag = row'.tag :=
      (decodeOperands_tag_of_accepts hrow h cfg).symm.trans (decodeOperands_tag_of_accepts hrow' h' cfg)
    exact Option.some.inj ((tagRow_of_mem hrow).symm.trans (htag ▸ tagRow_of_mem hrow'))
  · rcases hd : decodeWord iw with e | i
    · exact decodeOperands_error hd
    · obtain ⟨row, hrow, h⟩ := accepts_of_decodeWord hd
      exact absurd h (hnone row hrow)

end Sys2Proof.Machine
end

section
/-! SUPPORT. The decoded operand set by the format of the tag (30_encoding.md R93 to R100): which fields of the word it
takes, and what each field is as a number. -/

namespace Sys2Proof.Machine

/-- The operand set that the table of R100 gives a word of a tag: the fields of the tag's format. -/
def operandsOfFormat (cfg : Config) (iw : InstrWord) (tag : Tag) : Decoded :=
  match Tag.format tag with
  | .r => .rForm tag (InstrWord.rd iw) (InstrWord.rs1 iw) (InstrWord.rs2 iw)
  | .i => .iForm tag (InstrWord.rd iw) (InstrWord.rs1 iw) (sextImm (InstrWord.iField iw))
  | .shift6 => .iForm tag (InstrWord.rd iw) (InstrWord.rs1 iw) ((InstrWord.shamt6 iw).zeroExtend 64)
  | .shift5 => .iForm tag (InstrWord.rd iw) (InstrWord.rs1 iw) ((InstrWord.shamt5 iw).zeroExtend 64)
  | .s => .sbForm tag (InstrWord.rs1 iw) (InstrWord.rs2 iw) (sextImm (InstrWord.sField iw))
  | .b => .sbForm tag (InstrWord.rs1 iw) (InstrWord.rs2 iw) (sextImm (InstrWord.bField iw))
  | .u => .ujForm tag (InstrWord.rd iw) (uImmediate cfg (InstrWord.uField iw))
  | .j => .ujForm tag (InstrWord.rd iw) (sextImm (InstrWord.jField iw))
  | .noOp => .noOp tag

theorem operands_eq_operandsOfFormat {i : Instr} (hi : i.wellFormed = true) (cfg : Config) :
    i.operands cfg = operandsOfFormat cfg (encode i) i.tag := by
  cases i
  case beq | bne | blt | bge | bltu | bgeu =>
    simp [Instr.operands, Instr.tag, operandsOfFormat, Tag.format, encode, sextImm, encodeB_bField _ _ _ _ _ hi]
  case jal => simp [Instr.operands, Instr.tag, operandsOfFormat, Tag.format, encode, sextImm, encodeJ_jField _ _ _ hi]
  case slli | srli | srai | slliw | srliw | sraiw =>
    simp [Instr.operands, Instr.tag, operandsOfFormat, Tag.format, encode, encodeShift6, encodeShift5]
  all_goals simp [Instr.operands, Instr.tag, operandsOfFormat, Tag.format, encode, sextImm]

theorem decodeOperands_eq_operandsOfFormat (cfg : Config) (iw : InstrWord) :
    decodeOperands cfg iw = operandsOfFormat cfg iw (decodeOperands cfg iw).tag := by
  rcases hd : decodeWord iw with e | i
  · rw [decodeOperands_error hd]; rfl
  · rw [decodeOperands_ok hd, operands_tag, operands_eq_operandsOfFormat (wellFormed_of_decodeWord hd),
      encode_decodeWord hd]

/-- Of the parameters only `U_IMM_SIGN_EXTEND` matters (R97). -/
theorem operands_congr {cfg cfg' : Config} (h : cfg'.uImmSignExtend = cfg.uImmSignExtend) (i : Instr) :
    i.operands cfg' = i.operands cfg := by
  cases i
  case lui | auipc => simp only [Instr.operands, uImmediate, h]
  all_goals rfl

theorem decodeOperands_congr {cfg cfg' : Config} (h : cfg'.uImmSignExtend = cfg.uImmSignExtend) (iw : InstrWord) :
    decodeOperands cfg' iw = decodeOperands cfg iw := by
  simp only [decodeOperands, operands_congr h]

/-! ### The fields in numbers (R93 to R97) -/

theorem toNat_extract (iw : InstrWord) (lo n : Nat) : (iw.extractLsb' lo n).toNat = iw.toNat / 2 ^ lo % 2 ^ n := by
  rw [BitVec.extractLsb'_toNat, Nat.shiftRight_eq_div_pow]

theorem toNat_append_eq_add {m n : Nat} (x : BitVec m) (y : BitVec n) :
    (x ++ y).toNat = x.toNat * 2 ^ n + y.toNat := by
  rw [BitVec.toNat_append, ← Nat.shiftLeft_add_eq_or_of_lt y.isLt, Nat.shiftLeft_eq]

section
variable (iw : InstrWord)

theorem rd_val : (InstrWord.rd iw).val = InstrWord.bits iw 11 7 := toNat_extract iw 7 5

theorem rs1_val : (InstrWord.rs1 iw).val = InstrWord.bits iw 19 15 := toNat_extract iw 15 5

theorem rs2_val : (InstrWord.rs2 iw).val = InstrWord.bits iw 24 20 := toNat_extract iw 20 5

theorem iField_toNat : (InstrWord.iField iw).toNat = InstrWord.bits iw 31 20 := toNat_extract iw 20 12

theorem shamt6_toNat : (InstrWord.shamt6 iw).toNat = InstrWord.bits iw 25 20 := toNat_extract iw 20 6

theorem shamt5_toNat : (InstrWord.shamt5 iw).toNat = InstrWord.bits iw 24 20 := toNat_extract iw 20 5

theorem uField_toNat : (InstrWord.uField iw).toNat = InstrWord.bits iw 31 12 := toNat_extract iw 12 20

theorem sField_toNat :
    (InstrWord.sField iw).toNat = InstrWord.bits iw 31 25 * 2 ^ 5 + InstrWord.bits iw 11 7 := by
  simp only [InstrWord.sField, toNat_append_eq_add, toNat_extract, InstrWord.bits]

theorem bField_toNat : (InstrWord.bField iw).toNat =
    InstrWord.bits iw 31 31 * 2 ^ 12 + InstrWord.bits iw 7 7 * 2 ^ 11 + InstrWord.bits iw 30 25 * 2 ^ 5 +
      InstrWord.bits iw 11 8 * 2 := by
  simp only [InstrWord.bField, toNat_append_eq_add, toNat_extract, InstrWord.bits, BitVec.toNat_ofNat]
  omega

theorem jField_toNat : (InstrWord.jField iw).toNat =
    InstrWord.bits iw 31 31 * 2 ^ 20 + InstrWord.bits iw 19 12 * 2 ^ 12 + InstrWord.bits iw 20 20 * 2 ^ 11 +
      InstrWord.bits iw 30 21 * 2 := by
  simp only [InstrWord.jField, toNat_append_eq_add, toNat_extract, InstrWord.bits, BitVec.toNat_ofNat]
  omega

theorem uField_shifted_toNat : (InstrWord.uField iw ++ 0#12).toNat = InstrWord.bits iw 31 12 * 2 ^ 12 := by
  rw [toNat_append_eq_add, uField_toNat, BitVec.toNat_ofNat, Nat.zero_mod, Nat.add_zero]

end

/-! ### The extended immediates in numbers (R93 to R99) -/

theorem sextImm_toInt {n : Nat} (hn : n ≤ 64) (imm : BitVec n) : (sextImm imm).toInt = signedLow n imm.toNat := by
  rw [sextImm, BitVec.toInt_signExtend_of_le hn, BitVec.toInt_eq_toNat_bmod, signedLow]

theorem sextImm_range {n : Nat} (hn : n ≤ 64) (imm : BitVec n) :
    -2 ^ (n - 1) ≤ (sextImm imm).toInt ∧ (sextImm imm).toInt < 2 ^ (n - 1) := by
  rw [sextImm, BitVec.toInt_signExtend_of_le hn]
  exact ⟨imm.le_toInt, imm.toInt_lt⟩

theorem toInt_mod_two_of_even {a : Word} (h : even a = true) : a.toInt % 2 = 0 := by
  rw [even_iff] at h
  rw [BitVec.toInt_eq_toNat_cond]
  split <;> omega

section
variable (iw : InstrWord)

theorem iImmediate_toInt : (sextImm (InstrWord.iField iw)).toInt = signedLow 12 (InstrWord.bits iw 31 20) := by
  rw [sextImm_toInt (by decide), iField_toNat]

theorem shamt6_extended_toNat : ((InstrWord.shamt6 iw).zeroExtend 64).toNat = InstrWord.bits iw 25 20 :=
  (BitVec.toNat_setWidth_of_le (by decide)).trans (shamt6_toNat iw)

theorem shamt5_extended_toNat : ((InstrWord.shamt5 iw).zeroExtend 64).toNat = InstrWord.bits iw 24 20 :=
  (BitVec.toNat_setWidth_of_le (by decide)).trans (shamt5_toNat iw)

theorem sImmediate_toInt : (sextImm (InstrWord.sField iw)).toInt =
    signedLow 12 (InstrWord.bits iw 31 25 * 2 ^ 5 + InstrWord.bits iw 11 7) := by
  rw [sextImm_toInt (by decide), sField_toNat]
  norm_cast

theorem bImmediate_toInt : (sextImm (InstrWord.bField iw)).toInt =
    signedLow 13 (InstrWord.bits iw 31 31 * 2 ^ 12 + InstrWord.bits iw 7 7 * 2 ^ 11 + InstrWord.bits iw 30 25 * 2 ^ 5 +
      InstrWord.bits iw 11 8 * 2) := by
  rw [sextImm_toInt (by decide), bField_toNat]
  norm_cast

theorem jImmediate_toInt : (sextImm (InstrWord.jField iw)).toInt =
    signedLow 21 (InstrWord.bits iw 31 31 * 2 ^ 20 + InstrWord.bits iw 19 12 * 2 ^ 12 +
      InstrWord.bits iw 20 20 * 2 ^ 11 + InstrWord.bits iw 30 21 * 2) := by
  rw [sextImm_toInt (by decide), jField_toNat]
  norm_cast

theorem uImmediate_toNat {cfg : Config} (h : cfg.uImmSignExtend = false) :
    (uImmediate cfg (InstrWord.uField iw)).toNat = InstrWord.bits iw 31 12 * 2 ^ 12 := by
  rw [uImmediate, if_neg (by simp [h])]
  exact (BitVec.toNat_setWidth_of_le (by decide)).trans (uField_shifted_toNat iw)

theorem uImmediate_toInt {cfg : Config} (h : cfg.uImmSignExtend = true) :
    (uImmediate cfg (InstrWord.uField iw)).toInt = signedLow 32 (InstrWord.bits iw 31 12 * 2 ^ 12) := by
  rw [uImmediate, if_pos h]
  refine (sextImm_toInt (by decide) _).trans ?_
  rw [uField_shifted_toNat]
  norm_cast

end

/-- Settles O3: the operand set is the one that the format of its tag gives, case by case in numbers. -/
theorem operandsByFormat : Obligations.OperandsByFormat := by
  unfold Obligations.OperandsByFormat
  intro cfg iw
  refine ⟨fun cfg' h => decodeOperands_congr h iw, ?_⟩
  rw [decodeOperands_eq_operandsOfFormat]
  generalize (decodeOperands cfg iw).tag = tag
  have hrd := rd_val iw
  have hrs1 := rs1_val iw
  have hrs2 := rs2_val iw
  cases hf : Tag.format tag <;>
    simp only [operandsOfFormat, hf, Decoded.rForm, Decoded.iForm, Decoded.sbForm, Decoded.ujForm, Decoded.noOp,
      true_and, and_true, and_self]
  case r => exact ⟨hrd, hrs1, hrs2⟩
  case i =>
    have hrange := sextImm_range (by decide) (InstrWord.iField iw)
    exact ⟨hrd, hrs1, iImmediate_toInt iw, by omega, by omega⟩
  case shift6 =>
    have himm := shamt6_extended_toNat iw
    exact ⟨hrd, hrs1, himm, by rw [himm, InstrWord.bits]; omega⟩
  case shift5 =>
    have himm := shamt5_extended_toNat iw
    exact ⟨hrd, hrs1, himm, by rw [himm, InstrWord.bits]; omega⟩
  case s => exact ⟨hrs1, hrs2, sImmediate_toInt iw⟩
  case b =>
    have heven := toInt_mod_two_of_even (even_sextImm (by decide) (evenOffset_bField iw))
    have hrange := sextImm_range (by decide) (InstrWord.bField iw)
    exact ⟨hrs1, hrs2, bImmediate_toInt iw, heven, by omega, by omega⟩
  case u => exact ⟨hrd, uImmediate_toNat iw, uImmediate_toInt iw⟩
  case j =>
    have heven := toInt_mod_two_of_even (even_sextImm (by decide) (evenOffset_jField iw))
    have hrange := sextImm_range (by decide) (InstrWord.jField iw)
    exact ⟨hrd, jImmediate_toInt iw, heven, by omega, by omega⟩

end Sys2Proof.Machine
end

section
/-! SUPPORT. Loads and stores (40_loads_stores.md) in numbers: the words of the I and S formats are the encoder's, a
load writes the number its bytes spell, a store leaves the bytes of its value. -/

namespace Sys2Proof.Machine

/-! ### Words written out in numbers (R92) -/

theorem encodeI_eq_wordI (imm : BitVec 12) (rs1 : BitVec 5) (funct3 : BitVec 3) (rd : Reg) (opcode : BitVec 7) :
    encodeI imm rs1 funct3 rd opcode = wordI imm.toNat rs1.toNat funct3.toNat rd opcode.toNat := by
  have hlt := (encodeI imm rs1 funct3 rd opcode).isLt
  apply BitVec.eq_of_toNat_eq
  simp only [wordI, encodeI, toNat_append_eq_add, Reg.bits, BitVec.toNat_ofFin, BitVec.toNat_ofNat] at hlt ⊢
  omega

theorem encodeS_eq_wordS (imm : BitVec 12) (rs2 rs1 : Reg) (funct3 : BitVec 3) (opcode : BitVec 7) :
    encodeS imm rs2 rs1 funct3 opcode = wordS imm rs2 rs1 funct3.toNat opcode.toNat := by
  have hlt := (encodeS imm rs2 rs1 funct3 opcode).isLt
  apply BitVec.eq_of_toNat_eq
  simp only [wordS, encodeS, toNat_append_eq_add, BitVec.extractLsb'_toNat, Nat.shiftRight_eq_div_pow, Reg.bits,
    BitVec.toNat_ofFin, BitVec.toNat_ofNat] at hlt ⊢
  omega

/-- The word of a well-formed instruction executes it. -/
theorem executes_of_encode {iw : InstrWord} {i : Instr} {s : State} {P : State → Prop} (hw : encode i = iw)
    (hi : i.wellFormed = true) (h : ∃ t, exec i s = .next t ∧ P t) : Executes iw i s P :=
  ⟨hw ▸ decodeWord_encode hi, h⟩

/-! ### What a load writes (R61, R130 to R137) -/

theorem signExtend_setWidth_ofNat {n : Nat} (hn : n ≤ 64) (raw : Nat) :
    ((BitVec.ofNat 64 raw).setWidth n).signExtend 64 = wrap64 (signedLow n raw) := by
  rw [BitVec.signExtend, BitVec.setWidth_ofNat_of_le hn, BitVec.toInt_eq_toNat_bmod, BitVec.toNat_ofNat,
    Int.natCast_mod, Int.emod_bmod, wrap64, signedLow]

/-- The loads, those that sign-extend and those that do not. -/
theorem isLoad_cases {tag : Tag} (h : tag.isLoad = true) :
    (tag = .lb ∨ tag = .lh ∨ tag = .lw) ∨ (tag = .lbu ∨ tag = .lhu ∨ tag = .lwu ∨ tag = .ld) := by
  cases tag <;> simp_all [Tag.isLoad]

/-- A load of the number that its bytes spell. -/
theorem loadValue_ofNat {tag : Tag} (ht : tag.isLoad = true) {raw : Nat} (h : raw < 2 ^ (8 * accessBytes tag)) :
    loadValue tag (BitVec.ofNat 64 raw) = loadedNat tag raw := by
  obtain hs | hu := isLoad_cases ht
  · rw [loadedNat, if_pos hs]
    obtain rfl | rfl | rfl := hs <;> exact signExtend_setWidth_ofNat (by decide) raw
  · rw [loadedNat, if_neg (by obtain rfl | rfl | rfl | rfl := hu <;> decide)]
    exact loadValue_unsigned hu (lt_of_le_of_lt (BitVec.toNat_ofNat .. ▸ Nat.mod_le ..) h)

theorem loadValue_readWord {tag : Tag} (ht : tag.isLoad = true) (m : Memory) (a : Word) :
    loadValue tag (m.readWord a (accessBytes tag)) = loadedNat tag (memNat m a (accessBytes tag)) := by
  rw [memNat_eq_read]
  exact loadValue_ofNat ht (Memory.read_lt ..)

/-- The word of a load whose address is aligned. -/
theorem executes_load {iw : InstrWord} {i : Instr} {s : State} {tag : Tag} {rd rs1 : Reg} {imm : BitVec 12}
    (hw : encode i = iw) (hi : i.wellFormed = true) (hx : exec i s = s.load tag rd rs1 imm)
    (ht : tag.isLoad = true) (ha : (s.effAddr rs1 imm).toNat % accessBytes tag = 0) :
    Executes iw i s (fun t => s.Wrote t tag rd
      (loadedNat tag (memNat s.mem (s.effAddr rs1 imm) (accessBytes tag))) (s.pc + 4)) := by
  refine executes_of_encode hw hi ?_
  rw [hx, ← loadValue_readWord ht]
  exact State.load_wrote (aligned_iff.2 ha) rd

/-- Settles O6: the word is the encoder's, and the bytes a load reads spell the number it extends. -/
theorem loadsWriteExtendedBytes : Obligations.LoadsWriteExtendedBytes := by
  unfold Obligations.LoadsWriteExtendedBytes
  intro s rd rs1 imm
  rw [← State.effAddr_eq_wrap64]
  have h1 : (s.effAddr rs1 imm).toNat % 1 = 0 := Nat.mod_one _
  refine ⟨?_, ?_, fun h2 => ⟨?_, ?_⟩, fun h4 => ⟨?_, ?_⟩, fun h8 => ?_⟩
  · exact executes_load (encodeI_eq_wordI ..) rfl rfl rfl h1
  · exact executes_load (encodeI_eq_wordI ..) rfl rfl rfl h1
  · exact executes_load (encodeI_eq_wordI ..) rfl rfl rfl h2
  · exact executes_load (encodeI_eq_wordI ..) rfl rfl rfl h2
  · exact executes_load (encodeI_eq_wordI ..) rfl rfl rfl h4
  · exact executes_load (encodeI_eq_wordI ..) rfl rfl rfl h4
  · exact executes_load (encodeI_eq_wordI ..) rfl rfl rfl h8

/-! ### What a store leaves in memory (R66, R138 to R142) -/

theorem lowBytes_eq_ofNat (n : Nat) (v : Word) : lowBytes n v = BitVec.ofNat 64 (v.toNat % 2 ^ (8 * n)) := by
  apply BitVec.eq_of_toNat_eq
  rw [lowBytes, BitVec.toNat_setWidth, BitVec.toNat_setWidth, BitVec.toNat_ofNat]

/-- Byte `i` of the value is at `a + i`. -/
theorem Memory.byte_write_at {m : Memory} (h : Memory.wf m) (a : Word) {n i : Nat} (hn : n ≤ 8) (hi : i < n)
    (v : Word) : (m.write a n v).byte (a + BitVec.ofNat 64 i) = v.extractLsb' (8 * i) 8 := by
  have hoff : (a + BitVec.ofNat 64 i - a).toNat = i := by bv_omega
  rw [Memory.byte_write h a (by omega), hoff, if_pos hi,
    BitVec.setWidth_ushiftRight_eq_extractLsb]

/-- Every byte that is none of the `n` from `a` on is as before. -/
theorem Memory.byte_write_of_ne (m : Memory) {a x : Word} {n : Nat} (hx : ∀ i, i < n → x ≠ a + BitVec.ofNat 64 i)
    (v : Word) : (m.write a n v).byte x = m.byte x := by
  refine Memory.byte_write_outside m a v (Nat.le_of_not_lt fun hlt => hx _ hlt ?_)
  rw [BitVec.ofNat_toNat, BitVec.setWidth_eq, BitVec.add_comm, BitVec.sub_add_cancel]

theorem accessSize.le {n : Nat} (h : accessSize n) : n ≤ 8 := by
  obtain rfl | rfl | rfl | rfl := h <;> decide

theorem State.stored_of_memWrite {s : State} (hm : s.MemOk) (tag : Tag) (a : Word) {n : Nat} (hn : n ≤ 8) (v : Word) :
    s.Stored ((s.memWrite a n v).retireTo tag (s.pc + 4)) tag a n v := by
  refine ⟨fun i hi => Memory.byte_write_at hm a hn hi v, fun x hx => Memory.byte_write_of_ne s.mem hx v, fun _ => rfl,
    rfl, rfl, ?_, ⟨rfl, rfl, rfl, rfl, rfl, rfl, rfl, rfl, rfl, rfl, rfl, rfl⟩⟩
  rw [State.retireTo_bus, State.memWrite_bus, lowBytes_eq_ofNat]

/-- The word of a store whose address is aligned. -/
theorem executes_store {iw : InstrWord} {i : Instr} {s : State} {tag : Tag} {rs2 rs1 : Reg} {imm : BitVec 12}
    (hm : s.MemOk) (hw : encode i = iw) (hi : i.wellFormed = true) (hx : exec i s = s.store tag rs2 rs1 imm)
    (ht : tag.isStore = true) (ha : (s.effAddr rs1 imm).toNat % accessBytes tag = 0) :
    Executes iw i s (fun t => s.Stored t tag (s.effAddr rs1 imm) (accessBytes tag) (s.readReg rs2)) :=
  executes_of_encode hw hi ⟨_, hx.trans (State.store_next (aligned_iff.2 ha) rs2),
    State.stored_of_memWrite hm tag _ (accessBytes_store ht).le _⟩

/-- Settles O7: the word is the encoder's, and the bytes of memory after the write are those of `x[rs2]` at the
address and those from before elsewhere. -/
theorem storesWriteLowBytes : Obligations.StoresWriteLowBytes := by
  unfold Obligations.StoresWriteLowBytes
  intro s rs2 rs1 imm hm
  refine ⟨s.effAddr_eq_wrap64 rs1 imm, ?_, fun h2 => ?_, fun h4 => ?_, fun h8 => ?_⟩
  · exact executes_store hm (encodeS_eq_wordS ..) rfl rfl rfl (Nat.mod_one _)
  · exact executes_store hm (encodeS_eq_wordS ..) rfl rfl rfl h2
  · exact executes_store hm (encodeS_eq_wordS ..) rfl rfl rfl h4
  · exact executes_store hm (encodeS_eq_wordS ..) rfl rfl rfl h8

end Sys2Proof.Machine
end

section
/-! SUPPORT. Register-immediate arithmetic (41_alu_immediate.md) in numbers: the values of the shared operations, the
extended immediate, and the upper bits of a shift that select no operation. -/

namespace Sys2Proof.Machine

/-- The word of an instruction whose meaning is to complete with `v`. -/
theorem executes_complete {iw : InstrWord} {i : Instr} {s : State} {tag : Tag} {rd : Reg} {v v' : Word}
    (hw : encode i = iw) (hi : i.wellFormed = true) (hx : exec i s = s.complete tag rd v) (hv : v = v') :
    Executes iw i s (fun t => s.Wrote t tag rd v' (s.pc + 4)) :=
  executes_of_encode hw hi (hv ▸ hx ▸ s.complete_wrote tag rd v)

/-! ### The extended immediate (R93, R150) -/

/-- The sum that is the effective address of a load is the result of `addi` (R130, R151). -/
theorem readReg_add_sextImm (s : State) (rs1 : Reg) (imm : BitVec 12) :
    s.readReg rs1 + sextImm imm = wrap64 ((s.readReg rs1).toNat + imm.toInt) :=
  s.effAddr_eq_wrap64 rs1 imm

theorem sextImm_toNat {n : Nat} (imm : BitVec n) : ((sextImm imm).toNat : Int) = imm.toInt % 2 ^ 64 := by
  rw [sextImm, BitVec.signExtend, BitVec.toNat_ofInt]
  exact Int.toNat_of_nonneg (Int.emod_nonneg _ (by decide))

/-- Bit `j` of a 12-bit immediate, bit 11 standing for every bit above it. -/
theorem getLsbD_sextImm (imm : BitVec 12) {j : Nat} (hj : j < 64) :
    (sextImm imm).getLsbD j = imm.getLsbD (min j 11) := by
  rw [sextImm, BitVec.getLsbD_signExtend, BitVec.msb_eq_getLsbD_last]
  rcases Nat.lt_or_ge j 12 with h | h
  · simp [hj, h, Nat.min_eq_left (Nat.le_of_lt_succ h)]
  · simp [hj, h.not_gt, Nat.min_eq_right (Nat.le_of_succ_le h)]

/-! ### Comparisons (R152, R153, R174, R175) -/

theorem Alu.slt_eq_ite (a b : Word) : Alu.slt a b = if a.toInt < b.toInt then 1 else 0 := by
  simp [Alu.slt, boolWord]

theorem Alu.sltu_eq_ite (a b : Word) : Alu.sltu a b = if a.toNat < b.toNat then 1 else 0 := by
  simp [Alu.sltu, boolWord]

/-! ### Shift amounts (R94, R157, R161, R173, R183) -/

theorem extractLow_toNat (b : Word) (n : Nat) : (b.extractLsb' 0 n).toNat = b.toNat % 2 ^ n := by
  rw [BitVec.extractLsb'_toNat, Nat.shiftRight_zero]

theorem shiftAmount_toNat_mod {n : Nat} (hn : n ≤ 64) (shamt : BitVec n) :
    (shiftAmount shamt).toNat % 2 ^ n = shamt.toNat := by
  have hext : (shiftAmount shamt).toNat = shamt.toNat := BitVec.toNat_setWidth_of_le hn
  rw [hext, Nat.mod_eq_of_lt shamt.isLt]

/-! ### 64-bit shifts (R157 to R159, R173, R177, R178) -/

theorem shiftLeft_eq_ofNat {n : Nat} (x : BitVec n) (k : Nat) : x <<< k = BitVec.ofNat n (x.toNat * 2 ^ k) := by
  apply BitVec.eq_of_toNat_eq
  rw [BitVec.toNat_shiftLeft, BitVec.toNat_ofNat, Nat.shiftLeft_eq]

theorem ushiftRight_eq_ofNat {n : Nat} (x : BitVec n) (k : Nat) : x >>> k = BitVec.ofNat n (x.toNat / 2 ^ k) := by
  rw [← Nat.shiftRight_eq_div_pow, ← BitVec.toNat_ushiftRight, BitVec.ofNat_toNat, BitVec.setWidth_eq]

theorem sshiftRight_eq_ofInt {n : Nat} (x : BitVec n) (k : Nat) :
    x.sshiftRight k = BitVec.ofInt n (x.toInt / 2 ^ k) := by
  rw [BitVec.sshiftRight, Int.shiftRight_eq_div_pow]
  norm_cast

section
variable {a b : Word} {k : Nat}

theorem Alu.sll_eq_ofNat (hk : b.toNat % 64 = k) : Alu.sll a b = BitVec.ofNat 64 (a.toNat * 2 ^ k) := by
  rw [Alu.sll, (extractLow_toNat b 6).trans hk, shiftLeft_eq_ofNat]

theorem Alu.srl_eq_ofNat (hk : b.toNat % 64 = k) : Alu.srl a b = BitVec.ofNat 64 (a.toNat / 2 ^ k) := by
  rw [Alu.srl, (extractLow_toNat b 6).trans hk, ushiftRight_eq_ofNat]

theorem Alu.sra_eq_wrap64 (hk : b.toNat % 64 = k) : Alu.sra a b = wrap64 (a.toInt / 2 ^ k) := by
  rw [Alu.sra, (extractLow_toNat b 6).trans hk, sshiftRight_eq_ofInt, wrap64]

/-! ### 32-bit forms (R150, R160 to R163, R181 to R185) -/

theorem signExtend_eq_wrap64 {n : Nat} (x : BitVec n) : x.signExtend 64 = wrap64 (signedLow n x.toNat) := by
  rw [BitVec.signExtend, BitVec.toInt_eq_toNat_bmod, wrap64, signedLow]

theorem signedLow_emod (n : Nat) (z : Int) : signedLow n (z % 2 ^ n) = signedLow n z :=
  mod_cast Int.emod_bmod z (2 ^ n)

theorem setWidth_toInt {n m : Nat} (x : BitVec m) : (x.setWidth n).toInt = signedLow n x.toNat :=
  BitVec.toInt_setWidth x

theorem sext32_wrap64 (z : Int) : sext32 (wrap64 z) = wrap64 (signedLow 32 z) := by
  have hlow : ((wrap64 z).toNat : Int) % 2 ^ 32 = z % 2 ^ 32 := by
    rw [wrap64, BitVec.toNat_ofInt]
    omega
  rw [sext32, BitVec.signExtend, setWidth_toInt, ← signedLow_emod, hlow, signedLow_emod, wrap64]

theorem Alu.sllw_eq_wrap64 (hk : b.toNat % 32 = k) :
    Alu.sllw a b = wrap64 (signedLow 32 ((a.toNat * 2 ^ k : Nat) : Int)) := by
  rw [Alu.sllw, (extractLow_toNat b 5).trans hk, ← BitVec.setWidth_shiftLeft_of_le (by decide), shiftLeft_eq_ofNat,
    signExtend_setWidth_ofNat (by decide)]

theorem Alu.srlw_eq_wrap64 (hk : b.toNat % 32 = k) :
    Alu.srlw a b = wrap64 (signedLow 32 ((a.toNat % 2 ^ 32 / 2 ^ k : Nat) : Int)) := by
  rw [Alu.srlw, (extractLow_toNat b 5).trans hk, signExtend_eq_wrap64, BitVec.toNat_ushiftRight, BitVec.toNat_setWidth,
    Nat.shiftRight_eq_div_pow]

theorem Alu.sraw_eq_wrap64 (hk : b.toNat % 32 = k) :
    Alu.sraw a b = wrap64 (signedLow 32 (a.toNat : Int) / 2 ^ k) := by
  rw [Alu.sraw, (extractLow_toNat b 5).trans hk, BitVec.signExtend, BitVec.toInt_sshiftRight, setWidth_toInt,
    Int.shiftRight_eq_div_pow, wrap64]
  norm_cast

end

/-! ### Shifts whose upper bits select no operation (R104, R106, R157, R161) -/

section
variable {iw : InstrWord}

theorem opcode_eq_of_bits {op : BitVec 7} (h : InstrWord.bits iw 6 0 = op.toNat) : InstrWord.opcode iw = op :=
  BitVec.eq_of_toNat_eq ((toNat_extract iw 0 7).trans h)

theorem funct3_eq_of_bits {f : BitVec 3} (h : InstrWord.bits iw 14 12 = f.toNat) : InstrWord.funct3 iw = f :=
  BitVec.eq_of_toNat_eq ((toNat_extract iw 12 3).trans h)

theorem funct6_ne_of_bits {f : BitVec 6} (h : InstrWord.bits iw 31 26 ≠ f.toNat) : InstrWord.funct6 iw ≠ f := by
  rintro rfl
  exact h (toNat_extract iw 26 6).symm

theorem funct7_ne_of_bits {f : BitVec 7} (h : InstrWord.bits iw 31 25 ≠ f.toNat) : InstrWord.funct7 iw ≠ f := by
  rintro rfl
  exact h (toNat_extract iw 25 7).symm

/-! Of the match on the upper bits the inequalities, which `simp` takes from the context, leave the last arm. -/

theorem decodeOpImm_left_error (h3 : InstrWord.funct3 iw = 0b001#3) (h0 : InstrWord.funct6 iw ≠ 0b000000#6) :
    decodeOpImm iw = .error (.shiftUpperBits (InstrWord.funct7 iw)) := by
  simp [decodeOpImm, h3]

theorem decodeOpImm_right_error (h3 : InstrWord.funct3 iw = 0b101#3) (h0 : InstrWord.funct6 iw ≠ 0b000000#6)
    (h1 : InstrWord.funct6 iw ≠ 0b010000#6) :
    decodeOpImm iw = .error (.shiftUpperBits (InstrWord.funct7 iw)) := by
  simp [decodeOpImm, h3]

theorem decodeOpImm32_left_error (h3 : InstrWord.funct3 iw = 0b001#3) (h0 : InstrWord.funct7 iw ≠ 0b0000000#7) :
    decodeOpImm32 iw = .error (.shiftUpperBits (InstrWord.funct7 iw)) := by
  simp [decodeOpImm32, h3]

theorem decodeOpImm32_right_error (h3 : InstrWord.funct3 iw = 0b101#3) (h0 : InstrWord.funct7 iw ≠ 0b0000000#7)
    (h1 : InstrWord.funct7 iw ≠ 0b0100000#7) :
    decodeOpImm32 iw = .error (.shiftUpperBits (InstrWord.funct7 iw)) := by
  simp [decodeOpImm32, h3]

theorem tag_of_decodeOpImm_error {e : DecodeError} (ho : InstrWord.opcode iw = 0b0010011#7)
    (h : decodeOpImm iw = .error e) (cfg : Config) : (decodeOperands cfg iw).tag = .decodeFault := by
  have hd : decodeWord iw = .error e := by rw [decodeWord, ho]; exact h
  rw [decodeOperands_error hd, Decoded.noOp]

theorem tag_of_decodeOpImm32_error {e : DecodeError} (ho : InstrWord.opcode iw = 0b0011011#7)
    (h : decodeOpImm32 iw = .error e) (cfg : Config) : (decodeOperands cfg iw).tag = .decodeFault := by
  have hd : decodeWord iw = .error e := by rw [decodeWord, ho]; exact h
  rw [decodeOperands_error hd, Decoded.noOp]

end

/-! ### The words of the shifts (R92, R94) -/

theorem encodeShift6_eq_wordI (f k : BitVec 6) (rs1 : Reg) (funct3 : BitVec 3) (rd : Reg) :
    encodeShift6 f k rs1 funct3 rd = wordI (f.toNat * 2 ^ 6 + k.toNat) rs1.val funct3.toNat rd 0b0010011 := by
  rw [encodeShift6, encodeI_eq_wordI, toNat_append_eq_add]
  rfl

theorem encodeShift5_eq_wordI (f : BitVec 7) (k : BitVec 5) (rs1 : Reg) (funct3 : BitVec 3) (rd : Reg) :
    encodeShift5 f k rs1 funct3 rd = wordI (f.toNat * 2 ^ 5 + k.toNat) rs1.val funct3.toNat rd 0b0011011 := by
  rw [encodeShift5, encodeI_eq_wordI, toNat_append_eq_add]
  rfl

/-! ### The three statements -/

/-- Settles O9: the word is the encoder's; the sum and the comparisons are numbers of the extended immediate, and the
logical operations act bit by bit on it. -/
theorem aluImmediateResults : Obligations.AluImmediateResults := by
  unfold Obligations.AluImmediateResults
  intro s rd rs1 imm a w
  have himm : (sextImm imm).toInt = imm.toInt := BitVec.toInt_signExtend_of_le (by decide)
  refine ⟨?_, ?_, ?_, ⟨Alu.xor a (sextImm imm), fun j hj => ?_, ?_⟩,
    ⟨Alu.or a (sextImm imm), fun j hj => ?_, ?_⟩, ⟨Alu.and a (sextImm imm), fun j hj => ?_, ?_⟩⟩
  · exact executes_complete (encodeI_eq_wordI ..) rfl rfl (readReg_add_sextImm s rs1 imm)
  · exact executes_complete (encodeI_eq_wordI ..) rfl rfl (himm ▸ Alu.slt_eq_ite a (sextImm imm))
  · simp only [← sextImm_toNat, Nat.cast_lt]
    exact executes_complete (encodeI_eq_wordI ..) rfl rfl (Alu.sltu_eq_ite a (sextImm imm))
  · rw [Alu.xor, BitVec.getLsbD_xor, getLsbD_sextImm imm hj]
  · exact executes_complete (encodeI_eq_wordI ..) rfl rfl rfl
  · rw [Alu.or, BitVec.getLsbD_or, getLsbD_sextImm imm hj]
  · exact executes_complete (encodeI_eq_wordI ..) rfl rfl rfl
  · rw [Alu.and, BitVec.getLsbD_and, getLsbD_sextImm imm hj]
  · exact executes_complete (encodeI_eq_wordI ..) rfl rfl rfl

/-- Settles O10: the shifts by a 6-bit amount, in numbers; the decoder's path for other upper bits ends in an error. -/
theorem shiftImmediateResults : Obligations.ShiftImmediateResults := by
  unfold Obligations.ShiftImmediateResults
  refine ⟨fun s rd rs1 shamt => ?_, fun cfg iw ho => ⟨fun h3 h0 => ?_, fun h3 h0 h1 => ?_⟩⟩
  · have hk := shiftAmount_toNat_mod (by decide) shamt
    exact ⟨executes_complete (encodeShift6_eq_wordI ..) rfl rfl (Alu.sll_eq_ofNat hk),
      executes_complete (encodeShift6_eq_wordI ..) rfl rfl (Alu.srl_eq_ofNat hk),
      executes_complete (encodeShift6_eq_wordI ..) rfl rfl (Alu.sra_eq_wrap64 hk)⟩
  · exact tag_of_decodeOpImm_error (opcode_eq_of_bits ho)
      (decodeOpImm_left_error (funct3_eq_of_bits h3) (funct6_ne_of_bits h0)) cfg
  · exact tag_of_decodeOpImm_error (opcode_eq_of_bits ho)
      (decodeOpImm_right_error (funct3_eq_of_bits h3) (funct6_ne_of_bits h0) (funct6_ne_of_bits h1)) cfg

/-- Settles O11: a sum modulo 2^64 and one modulo 2^32 have the same low word, a shift of the low word is a number, and
the decoder's path for other upper bits ends in an error. -/
theorem wordImmediateResults : Obligations.WordImmediateResults := by
  unfold Obligations.WordImmediateResults
  refine ⟨fun s rd rs1 imm => ?_, fun s rd rs1 shamt => ?_,
    fun cfg iw ho => ⟨fun h3 h0 => ?_, fun h3 h0 h1 => ?_⟩⟩
  · refine executes_complete (encodeI_eq_wordI ..) rfl rfl ?_
    rw [Alu.addw, readReg_add_sextImm, sext32_wrap64]
  · have hk := shiftAmount_toNat_mod (by decide) shamt
    exact ⟨executes_complete (encodeShift5_eq_wordI ..) rfl rfl (Alu.sllw_eq_wrap64 hk),
      executes_complete (encodeShift5_eq_wordI ..) rfl rfl (Alu.srlw_eq_wrap64 hk),
      executes_complete (encodeShift5_eq_wordI ..) rfl rfl (Alu.sraw_eq_wrap64 hk)⟩
  · exact tag_of_decodeOpImm32_error (opcode_eq_of_bits ho)
      (decodeOpImm32_left_error (funct3_eq_of_bits h3) (funct7_ne_of_bits h0)) cfg
  · exact tag_of_decodeOpImm32_error (opcode_eq_of_bits ho)
      (decodeOpImm32_right_error (funct3_eq_of_bits h3) (funct7_ne_of_bits h0) (funct7_ne_of_bits h1)) cfg

end Sys2Proof.Machine
end

section
/-! SUPPORT. Register-register arithmetic (42_alu_register.md) in numbers: the words of the R format are the
encoder's, and the sum and the difference of two words. -/

namespace Sys2Proof.Machine

theorem encodeR_eq_wordR (funct7 : BitVec 7) (rs2 rs1 : Reg) (funct3 : BitVec 3) (rd : Reg) (opcode : BitVec 7) :
    encodeR funct7 rs2 rs1 funct3 rd opcode = wordR funct7.toNat rs2 rs1 funct3.toNat rd opcode.toNat := by
  have hlt := (encodeR funct7 rs2 rs1 funct3 rd opcode).isLt
  apply BitVec.eq_of_toNat_eq
  simp only [wordR, encodeR, toNat_append_eq_add, Reg.bits, BitVec.toNat_ofFin, BitVec.toNat_ofNat] at hlt ⊢
  omega

/-! ### Sums and differences (R171, R172, R181, R182)

A word is the same modulo 2^64 whether it is read as a signed or as an unsigned number, and so are sums and
differences. -/

theorem wrap64_toInt (a : Word) : wrap64 a.toInt = a := BitVec.ofInt_toInt

theorem wrap64_toNat (a : Word) : wrap64 a.toNat = a := by
  rw [wrap64, BitVec.ofInt_natCast, BitVec.ofNat_toNat, BitVec.setWidth_eq]

theorem wrap64_add (x y : Int) : wrap64 (x + y) = wrap64 x + wrap64 y := BitVec.ofInt_add x y

theorem wrap64_sub (x y : Int) : wrap64 (x - y) = wrap64 x - wrap64 y := by
  simp only [wrap64, Int.sub_eq_add_neg, BitVec.ofInt_add, BitVec.ofInt_neg, BitVec.sub_eq_add_neg]

section
variable (a b : Word)

theorem Alu.add_eq_wrap64 : Alu.add a b = wrap64 (a.toInt + b.toInt) := by
  rw [wrap64_add, wrap64_toInt, wrap64_toInt, Alu.add]

theorem Alu.sub_eq_wrap64 : Alu.sub a b = wrap64 (a.toInt - b.toInt) := by
  rw [wrap64_sub, wrap64_toInt, wrap64_toInt, Alu.sub]

theorem Alu.addw_eq_wrap64 : Alu.addw a b = wrap64 (signedLow 32 ((a.toNat : Int) + b.toNat)) := by
  rw [← sext32_wrap64, wrap64_add, wrap64_toNat, wrap64_toNat, Alu.addw]

theorem Alu.subw_eq_wrap64 : Alu.subw a b = wrap64 (signedLow 32 ((a.toNat : Int) - b.toNat)) := by
  rw [← sext32_wrap64, wrap64_sub, wrap64_toNat, wrap64_toNat, Alu.subw]

end

/-! ### The two statements -/

/-- Settles O12: the word is the encoder's; sums, differences, comparisons and shifts are numbers of the two operands,
and the logical operations act bit by bit on them. -/
theorem aluRegisterResults : Obligations.AluRegisterResults := by
  unfold Obligations.AluRegisterResults
  intro s rd rs1 rs2 a b k w
  refine ⟨?_, ?_, ?_, ?_, ?_, ⟨Alu.xor a b, fun j _ => BitVec.getLsbD_xor, ?_⟩, ?_, ?_,
    ⟨Alu.or a b, fun j _ => BitVec.getLsbD_or, ?_⟩, ⟨Alu.and a b, fun j _ => BitVec.getLsbD_and, ?_⟩⟩
  · exact executes_complete (encodeR_eq_wordR ..) rfl rfl (Alu.add_eq_wrap64 a b)
  · exact executes_complete (encodeR_eq_wordR ..) rfl rfl (Alu.sub_eq_wrap64 a b)
  · exact executes_complete (encodeR_eq_wordR ..) rfl rfl (Alu.sll_eq_ofNat rfl)
  · exact executes_complete (encodeR_eq_wordR ..) rfl rfl (Alu.slt_eq_ite a b)
  · exact executes_complete (encodeR_eq_wordR ..) rfl rfl (Alu.sltu_eq_ite a b)
  · exact executes_complete (encodeR_eq_wordR ..) rfl rfl rfl
  · exact executes_complete (encodeR_eq_wordR ..) rfl rfl (Alu.srl_eq_ofNat rfl)
  · exact executes_complete (encodeR_eq_wordR ..) rfl rfl (Alu.sra_eq_wrap64 rfl)
  · exact executes_complete (encodeR_eq_wordR ..) rfl rfl rfl
  · exact executes_complete (encodeR_eq_wordR ..) rfl rfl rfl

/-- Settles O13: a sum or difference modulo 2^64 and one modulo 2^32 have the same low word, and a shift of the low
word is a number. -/
theorem wordRegisterResults : Obligations.WordRegisterResults := by
  unfold Obligations.WordRegisterResults
  intro s rd rs1 rs2 a b k w
  refine ⟨?_, ?_, ?_, ?_, ?_⟩
  · exact executes_complete (encodeR_eq_wordR ..) rfl rfl (Alu.addw_eq_wrap64 ..)
  · exact executes_complete (encodeR_eq_wordR ..) rfl rfl (Alu.subw_eq_wrap64 ..)
  · exact executes_complete (encodeR_eq_wordR ..) rfl rfl (Alu.sllw_eq_wrap64 rfl)
  · exact executes_complete (encodeR_eq_wordR ..) rfl rfl (Alu.srlw_eq_wrap64 rfl)
  · exact executes_complete (encodeR_eq_wordR ..) rfl rfl (Alu.sraw_eq_wrap64 rfl)

end Sys2Proof.Machine
end

section
/-! SUPPORT. Multiply, divide and remainder (43_muldiv.md) in numbers: the product, the signed and the unsigned
division, and the cases of R193. -/

namespace Sys2Proof.Machine

theorem wrap64_mul (x y : Int) : wrap64 (x * y) = wrap64 x * wrap64 y := BitVec.ofInt_mul x y

/-- The low 64 bits of the product are those of the signed product (R191). -/
theorem Alu.mul_eq_wrap64 (a b : Word) : Alu.mul a b = wrap64 (a.toInt * b.toInt) := by
  rw [wrap64_mul, wrap64_toInt, wrap64_toInt, Alu.mul, BitVec.ofNat_mul, BitVec.ofNat_toNat, BitVec.ofNat_toNat,
    BitVec.setWidth_eq, BitVec.setWidth_eq]

/-! ### The cases of the quotient and of the remainder (R192 to R194) -/

theorem Alu.div_zero (cfg : Config) (a : Word) : Alu.div cfg a 0 = 0xFFFFFFFFFFFFFFFF := if_pos rfl

theorem Alu.rem_zero (cfg : Config) (a : Word) : Alu.rem cfg a 0 = a := if_pos rfl

section
variable {cfg : Config} {a b : Word} (hb : b ≠ 0)
include hb

theorem Alu.div_signed (h : cfg.divremSigned = true) : Alu.div cfg a b = wrap64 (a.toInt.tdiv b.toInt) := by
  rw [Alu.div, if_neg hb, if_pos h, wrap64]

theorem Alu.rem_signed (h : cfg.divremSigned = true) : Alu.rem cfg a b = wrap64 (a.toInt.tmod b.toInt) := by
  rw [Alu.rem, if_neg hb, if_pos h, wrap64]

theorem Alu.div_unsigned (h : cfg.divremSigned = false) : Alu.div cfg a b = a / b := by
  rw [Alu.div, if_neg hb, if_neg (by simp [h]), BitVec.udiv_def]

theorem Alu.rem_unsigned (h : cfg.divremSigned = false) : Alu.rem cfg a b = a % b := by
  rw [Alu.rem, if_neg hb, if_neg (by simp [h]), BitVec.umod_def]

/-! ### Ranges and signs -/

/-- The signed remainder is never cut off: it is smaller than the divisor. -/
theorem Alu.toInt_rem_signed (h : cfg.divremSigned = true) : (Alu.rem cfg a b).toInt = a.toInt.tmod b.toInt := by
  rw [Alu.rem_signed hb h, ← BitVec.toInt_srem, wrap64_toInt]

/-- Only the quotient of the overflow pair is cut off (R193). -/
theorem Alu.toInt_div_signed (h : cfg.divremSigned = true)
    (hov : ¬(a = 0x8000000000000000 ∧ b = 0xFFFFFFFFFFFFFFFF)) :
    (Alu.div cfg a b).toInt = a.toInt.tdiv b.toInt := by
  have hfit := BitVec.toInt_sdiv_of_ne_or_ne a b (not_and_or.mp hov)
  rw [Alu.div_signed hb h, ← hfit, wrap64_toInt]

theorem Alu.natAbs_rem_signed_lt (h : cfg.divremSigned = true) :
    (Alu.rem cfg a b).toInt.natAbs < b.toInt.natAbs := by
  have hb' : b.toInt ≠ 0 := BitVec.toInt_ne.mpr hb
  rw [Alu.toInt_rem_signed hb h, Int.natAbs_tmod]
  exact Nat.mod_lt _ (Int.natAbs_pos.mpr hb')

/-- The two cases are whether the divisor divides the dividend (R194). -/
theorem Alu.rem_signed_sign (h : cfg.divremSigned = true) :
    Alu.rem cfg a b = 0 ∨ ((Alu.rem cfg a b).toInt < 0 ↔ a.toInt < 0) := by
  rw [Alu.toInt_rem_signed hb h]
  by_cases hdvd : b.toInt ∣ a.toInt
  · left
    rw [Alu.rem_signed hb h, Int.tmod_eq_zero_of_dvd hdvd]
    rfl
  · right
    rw [← Int.sign_eq_neg_one_iff_neg, Int.sign_tmod, if_neg hdvd, Int.sign_eq_neg_one_iff_neg]

/-! ### Dividend = quotient * divisor + remainder (R193) -/

/-- The equation as words, that is modulo 2^64: there the quotient of the overflow pair obeys it too. -/
theorem Alu.div_mul_add_rem : Alu.div cfg a b * b + Alu.rem cfg a b = a := by
  cases h : cfg.divremSigned with
  | true =>
    calc Alu.div cfg a b * b + Alu.rem cfg a b
        = wrap64 (a.toInt.tdiv b.toInt * b.toInt + a.toInt.tmod b.toInt) := by
          rw [wrap64_add, wrap64_mul, wrap64_toInt, Alu.div_signed hb h, Alu.rem_signed hb h]
      _ = a := by rw [Int.tdiv_mul_add_tmod, wrap64_toInt]
  | false =>
    rw [Alu.div_unsigned hb h, Alu.rem_unsigned hb h]
    apply BitVec.eq_of_toNat_eq
    rw [BitVec.toNat_add, BitVec.toNat_mul, BitVec.toNat_udiv, BitVec.toNat_umod, Nat.mod_add_mod,
      Nat.div_add_mod', Nat.mod_eq_of_lt a.isLt]

theorem Alu.toInt_div_mul_add_rem (h : cfg.divremSigned = true)
    (hov : ¬(a = 0x8000000000000000 ∧ b = 0xFFFFFFFFFFFFFFFF)) :
    (Alu.div cfg a b).toInt * b.toInt + (Alu.rem cfg a b).toInt = a.toInt := by
  rw [Alu.toInt_div_signed hb h hov, Alu.toInt_rem_signed hb h, Int.tdiv_mul_add_tmod]

end

/-- The overflow pair: the quotient 2^63 wraps to the most negative number, and nothing remains (R193). -/
theorem Alu.div_rem_overflow {cfg : Config} (h : cfg.divremSigned = true) :
    Alu.div cfg 0x8000000000000000 0xFFFFFFFFFFFFFFFF = 0x8000000000000000 ∧
      Alu.rem cfg 0x8000000000000000 0xFFFFFFFFFFFFFFFF = 0 := by
  rw [Alu.div_signed (by decide) h, Alu.rem_signed (by decide) h]
  decide

/-! ### The two statements -/

/-- Settles O14: the word is the encoder's, and a product of words is the same modulo 2^64 under either reading. -/
theorem multiplyResult : Obligations.MultiplyResult := by
  unfold Obligations.MultiplyResult
  intro s rd rs1 rs2 a b
  exact ⟨(Alu.mul_eq_wrap64 a b).symm, executes_complete (encodeR_eq_wordR ..) rfl rfl (Alu.mul_eq_wrap64 a b)⟩

/-- Settles O15: the words written are `Alu.div` and `Alu.rem` under the state's setting of `DIVREM_SIGNED`, which obey
each case of R193. -/
theorem divideAndRemainderResults : Obligations.DivideAndRemainderResults := by
  unfold Obligations.DivideAndRemainderResults
  intro s rd rs1 rs2 a b
  refine ⟨Alu.div s.cfg a b, Alu.rem s.cfg a b, executes_complete (encodeR_eq_wordR ..) rfl rfl rfl,
    executes_complete (encodeR_eq_wordR ..) rfl rfl rfl, fun hb => ?_, fun hb => (Alu.div_mul_add_rem hb).symm,
    fun hb h => ⟨?_, ?_⟩,
    fun hb h => ⟨Alu.rem_signed_sign hb h, Alu.natAbs_rem_signed_lt hb h,
      fun hov => (Alu.toInt_div_mul_add_rem hb h hov).symm, fun ha hb' => ?_⟩⟩
  · exact hb ▸ ⟨Alu.div_zero s.cfg a, Alu.rem_zero s.cfg a⟩
  · rw [Alu.rem_unsigned hb h, BitVec.toNat_umod]
    exact Nat.mod_lt _ (BitVec.toNat_pos_of_ne_zero hb)
  · rw [Alu.div_unsigned hb h, BitVec.toNat_udiv]
  · rw [ha, hb']
    exact Alu.div_rem_overflow h

end Sys2Proof.Machine
end

section
/-! SUPPORT. `lui` and `auipc` (44_upper_immediate.md) in numbers: the words of the U format are the encoder's, and the
U-immediate under either setting of `U_IMM_SIGN_EXTEND`. -/

namespace Sys2Proof.Machine

theorem encodeU_eq_wordU (imm20 : BitVec 20) (rd : Reg) (opcode : BitVec 7) :
    encodeU imm20 rd opcode = wordU imm20 rd opcode.toNat := by
  have hlt := (encodeU imm20 rd opcode).isLt
  apply BitVec.eq_of_toNat_eq
  simp only [wordU, encodeU, toNat_append_eq_add, Reg.bits, BitVec.toNat_ofFin, BitVec.toNat_ofNat] at hlt ⊢
  omega

theorem shiftedU_toNat (imm20 : BitVec 20) : ((imm20 ++ 0#12).toNat : Int) = imm20.toNat * 2 ^ 12 := by
  rw [toNat_append_eq_add, BitVec.toNat_ofNat, Nat.zero_mod, Nat.add_zero]
  norm_cast

/-- The U-immediate as a number: the field times 2^12, read as it stands or as a signed 32-bit number (R97). -/
theorem uImmediate_eq_wrap64 (cfg : Config) (imm20 : BitVec 20) :
    uImmediate cfg imm20 = wrap64 (if cfg.uImmSignExtend then signedLow 32 (imm20.toNat * 2 ^ 12)
      else imm20.toNat * 2 ^ 12) := by
  rw [← shiftedU_toNat]
  cases h : cfg.uImmSignExtend with
  | true =>
    rw [uImmediate, if_pos h, if_pos rfl]
    exact signExtend_eq_wrap64 _
  | false =>
    rw [uImmediate, if_neg (by simp [h]), if_neg (by decide), wrap64, BitVec.ofInt_natCast, BitVec.ofNat_toNat]

theorem relTarget_wrap64 (p : Word) (z : Int) : relTarget p (wrap64 z) = wrap64 (p.toNat + z) := by
  rw [wrap64_add, wrap64_toNat, relTarget]

/-- Settles O16: the words are the encoder's, and the immediate that both instructions use is the number of the
statement modulo 2^64, to which `auipc` adds its own address. -/
theorem upperImmediateResults : Obligations.UpperImmediateResults := by
  unfold Obligations.UpperImmediateResults
  intro s rd imm20 z
  have hz : uImmediate s.cfg imm20 = wrap64 z := uImmediate_eq_wrap64 s.cfg imm20
  refine ⟨executes_complete (encodeU_eq_wordU ..) rfl rfl hz, executes_complete (encodeU_eq_wordU ..) rfl rfl ?_⟩
  rw [hz, relTarget_wrap64]

end Sys2Proof.Machine
end

section
/-! SUPPORT. Branches and jumps (45_control_transfer.md) in numbers: the words of the B and J formats are the encoder's,
and the targets, relative to `pc` and of `jalr`. -/

namespace Sys2Proof.Machine

/-! ### Words and offsets (R92, R96, R98) -/

theorem encodeB_eq_wordB (offset : BitVec 13) (rs2 rs1 : Reg) (funct3 : BitVec 3) (opcode : BitVec 7) :
    encodeB offset rs2 rs1 funct3 opcode = wordB offset rs2 rs1 funct3.toNat opcode.toNat := by
  have hlt := (encodeB offset rs2 rs1 funct3 opcode).isLt
  apply BitVec.eq_of_toNat_eq
  simp only [wordB, encodeB, toNat_append_eq_add, BitVec.extractLsb'_toNat, Nat.shiftRight_eq_div_pow, pow_one,
    Reg.bits, BitVec.toNat_ofFin, BitVec.toNat_ofNat] at hlt ⊢
  omega

theorem encodeJ_eq_wordJ (offset : BitVec 21) (rd : Reg) (opcode : BitVec 7) :
    encodeJ offset rd opcode = wordJ offset rd opcode.toNat := by
  have hlt := (encodeJ offset rd opcode).isLt
  apply BitVec.eq_of_toNat_eq
  simp only [wordJ, encodeJ, toNat_append_eq_add, BitVec.extractLsb'_toNat, Nat.shiftRight_eq_div_pow, Reg.bits,
    BitVec.toNat_ofFin, BitVec.toNat_ofNat] at hlt ⊢
  omega

theorem evenOffset_iff {n : Nat} {offset : BitVec n} : evenOffset offset = true ↔ offset.toNat % 2 = 0 := by
  simp [evenOffset, BitVec.getLsbD, Nat.testBit_zero]

/-! ### Next addresses (R22, R210, R217, R218) -/

theorem nextWord_eq_wrap64 (p : Word) : nextWord p = wrap64 (p.toNat + 4) := by
  rw [wrap64_add, wrap64_toNat]
  rfl

theorem relTarget_sextImm {n : Nat} (p : Word) (offset : BitVec n) :
    relTarget p (sextImm offset) = wrap64 (p.toNat + offset.toInt) :=
  relTarget_wrap64 p offset.toInt

/-- The target of `jalr` is an even number: 2^64 is even, so bit 0 of the sum may be cleared before or after the
reduction modulo 2^64. -/
theorem jalrTarget_eq_wrap64 {base imm : Word} {z : Int} (hz : base + imm = wrap64 z) :
    jalrTarget base imm = wrap64 (z / 2 * 2) := by
  apply BitVec.eq_of_toNat_eq
  simp only [jalrTarget, hz, wrap64, toNat_append_eq_add, BitVec.extractLsb'_toNat, Nat.shiftRight_eq_div_pow,
    BitVec.toNat_ofInt, BitVec.toNat_ofNat]
  omega

/-! ### The two statements -/

/-- The word of a branch that is taken when `c` holds. -/
theorem executes_branch {iw : InstrWord} {i : Instr} {s : State} {tag : Tag} {offset : BitVec 13} {c : Prop}
    [Decidable c] (hw : encode i = iw) (hi : i.wellFormed = true) (hx : exec i s = s.branch tag (decide c) offset) :
    Executes iw i s (fun t => s.Wrote t tag 0 0
      (if c then wrap64 (s.pc.toNat + offset.toInt) else wrap64 (s.pc.toNat + 4))) := by
  refine executes_of_encode hw hi ?_
  simpa only [hx, relTarget_sextImm, nextWord_eq_wrap64, decide_eq_true_eq] using s.branch_wrote tag (decide c) offset

/-- The word of a jump to `target`. -/
theorem executes_jump {iw : InstrWord} {i : Instr} {s : State} {tag : Tag} {rd : Reg} {target target' : Word}
    (hw : encode i = iw) (hi : i.wellFormed = true) (hx : exec i s = s.jump tag rd target) (ht : target = target') :
    Executes iw i s (fun t => s.Wrote t tag rd (wrap64 (s.pc.toNat + 4)) target') :=
  executes_of_encode hw hi (ht ▸ hx ▸ nextWord_eq_wrap64 s.pc ▸ s.jump_wrote tag rd target)

/-- Settles O17: the words are the encoder's, which spell every even offset, and each branch decides the condition
that the statement writes out. -/
theorem branchesContinueAtTarget : Obligations.BranchesContinueAtTarget := by
  unfold Obligations.BranchesContinueAtTarget
  intro s rs1 rs2 offset heven
  have hi : evenOffset offset = true := evenOffset_iff.2 heven
  refine ⟨?_, ?_, ?_, ?_, ?_, ?_⟩
  all_goals exact executes_branch (encodeB_eq_wordB ..) hi rfl

/-- Settles O18: the words are the encoder's, the link is the next word, and the targets are the numbers of the
statement modulo 2^64. -/
theorem jumpsLinkAndContinue : Obligations.JumpsLinkAndContinue := by
  unfold Obligations.JumpsLinkAndContinue
  constructor
  · intro s rd offset heven
    exact executes_jump (encodeJ_eq_wordJ ..) (evenOffset_iff.2 heven) rfl (relTarget_sextImm ..)
  · intro s rd rs1 imm
    exact executes_jump (encodeI_eq_wordI ..) rfl rfl (jalrTarget_eq_wrap64 (readReg_add_sextImm s rs1 imm))

end Sys2Proof.Machine
end

section
/-! SUPPORT. The system instructions (46_system.md): a no-op moves `pc` and retires, whatever its word's ignored fields
are; and a word outside the supported set, under both policies. -/

namespace Sys2Proof.Machine

/-- The word of an instruction whose meaning is to do nothing (R230). -/
theorem executes_noOp {iw : InstrWord} {i : Instr} {s : State} {tag : Tag} (hw : encode i = iw)
    (hi : i.wellFormed = true) (hx : exec i s = s.noOp tag) :
    Executes iw i s (fun t => s.Wrote t tag 0 0 (s.pc + 4)) :=
  executes_of_encode hw hi (hx ▸ s.noOp_wrote tag)

/-- Settles O19: the words are the encoder's, which spell every value of the ignored fields, and the meaning of each
is the no-op. -/
theorem systemInstructionsAreNoOps : Obligations.SystemInstructionsAreNoOps := by
  unfold Obligations.SystemInstructionsAreNoOps
  intro s rd rs1 imm uimm
  refine ⟨?fence, ?fenceI, ?ecall, ?ebreak, ?csrrw, ?csrrs, ?csrrc, ?csrrwi, ?csrrsi, ?csrrci⟩
  case ecall | ebreak => exact executes_noOp rfl rfl rfl
  all_goals exact executes_noOp (encodeI_eq_wordI ..) rfl rfl

/-! ### A word outside the supported set (R240, R403, log 12) -/

section
variable {s : State} (iw : InstrWord)

theorem State.decodeFault_eq_of_nop (h : s.cfg.decodeFaultPolicy = .nop) :
    s.decodeFault iw = (s.retireTo .decodeFault (s.pc + 4)).report (.decodeFault iw s.pc) := by
  rw [State.decodeFault, h]

theorem State.decodeFault_eq_of_halt (h : s.cfg.decodeFaultPolicy = .halt) :
    s.decodeFault iw = { s.report (.decodeFault iw s.pc) with halted := true } := by
  rw [State.decodeFault, h]

end

theorem step_of_halted {s : State} (hl : s.level = .architectural) (hh : s.halted = true) : step s = .next s :=
  (step_architectural hl).trans (instrStep_halted hh)

/-- Settles O24: the step is the decode fault of the word at `pc`, and a halted machine steps to itself. -/
theorem decodeFaultIsReported : Obligations.DecodeFaultIsReported := by
  unfold Obligations.DecodeFaultIsReported
  intro s e hl hh hp hd iw
  have hstep : step s = .next (s.decodeFault iw) :=
    (step_architectural hl).trans (instrStep_of_decodeError hh (aligned_iff.2 hp) hd)
  refine ⟨fun hnop => ?nop, fun hhalt => ⟨?halt, ?still⟩⟩
  case nop => exact hstep.trans (congrArg _ (State.decodeFault_eq_of_nop iw hnop))
  case halt => exact hstep.trans (congrArg _ (State.decodeFault_eq_of_halt iw hhalt))
  case still => exact step_of_halted hl rfl

end Sys2Proof.Machine
end

section
/-! SUPPORT. What the two scans of the branch target buffer come to (R322, R326), by the slots before it, and what an
update of one slot leaves for the branches of the others. -/

namespace Sys2Proof.Machine

/-! ### The scans past slots that do not stop them -/

/-- The scan of Execute skips the slots that hold no entry of the branch. -/
theorem Btb.findFrom_drop {pc : Word} {k : Nat} {slots : List (Option BtbEntry)} (i : Nat)
    (h : ∀ j < k, ∀ e, slots[j]? = some (some e) → e.tag ≠ pc) :
    Btb.findFrom pc slots i = Btb.findFrom pc (slots.drop k) (i + k) := by
  induction k generalizing slots i with
  | zero => rfl
  | succ k ih =>
    rcases slots with _ | ⟨p, rest⟩
    · rfl
    have hrest := ih (slots := rest) (i + 1) fun j hj => h (j + 1) (Nat.succ_lt_succ hj)
    rw [List.drop_succ_cons, show i + (k + 1) = i + 1 + k by omega, ← hrest]
    rcases p with _ | e
    · rfl
    · exact if_neg (h 0 k.succ_pos e rfl)

/-- The scan of Fetch skips the entries of other branches, which it must find in every slot. -/
theorem Btb.scanFrom_drop {pc : Word} {k : Nat} {slots : List (Option BtbEntry)} (i : Nat)
    (h : ∀ j < k, ∃ e, slots[j]? = some (some e) ∧ e.tag ≠ pc) :
    Btb.scanFrom pc slots i = Btb.scanFrom pc (slots.drop k) (i + k) := by
  induction k generalizing slots i with
  | zero => rfl
  | succ k ih =>
    obtain ⟨e, he, htag⟩ := h 0 k.succ_pos
    rcases slots with _ | ⟨p, rest⟩
    · cases he
    obtain rfl : p = some e := by simpa using he
    have hrest := ih (slots := rest) (i + 1) fun j hj => h (j + 1) (Nat.succ_lt_succ hj)
    rw [List.drop_succ_cons, show i + (k + 1) = i + 1 + k by omega, ← hrest]
    exact if_neg htag

theorem Btb.getElem?_toList (btb : Btb) (i : Fin 32) : btb.toList[i.val]? = some (btb.get i) := by
  simp [Vector.get_eq_getElem]

theorem Btb.drop_toList (btb : Btb) (i : Fin 32) :
    btb.toList.drop i.val = btb.get i :: btb.toList.drop (i.val + 1) := by
  rw [List.drop_eq_getElem_cons (by simp)]
  simp [Vector.get_eq_getElem]

/-! ### What Execute finds (R326) -/

section
variable {btb : Btb} {pc : Word}

theorem Btb.get_of_getElem? {j : Nat} {p : Option BtbEntry} (h : btb.toList[j]? = some p) :
    ∃ i : Fin 32, i.val = j ∧ btb.get i = p := by
  have hj : j < 32 := by simpa using (List.getElem?_eq_some_iff.1 h).1
  refine ⟨⟨j, hj⟩, rfl, ?_⟩
  have hget := btb.getElem?_toList ⟨j, hj⟩
  rw [h] at hget
  exact (Option.some.inj hget).symm

/-- The first entry of the branch. -/
theorem Btb.find_eq_some {i : Fin 32} {e : BtbEntry} (he : btb.get i = some e) (htag : e.tag = pc)
    (h : ∀ j e', j < i → btb.get j = some e' → e'.tag ≠ pc) : Btb.find btb pc = some (i.val, e) := by
  rw [Btb.find, Btb.findFrom_drop (k := i.val), btb.drop_toList, he, Nat.zero_add]
  · exact if_pos htag
  · intro j hj e' he'
    obtain ⟨j, rfl, hget⟩ := Btb.get_of_getElem? he'
    exact h j e' hj hget

theorem Btb.find_eq_none (h : ∀ i e, btb.get i = some e → e.tag ≠ pc) : Btb.find btb pc = none := by
  rw [Btb.find, Btb.findFrom_drop (k := 32), List.drop_of_length_le (by simp)]
  · rfl
  · intro j _ e he
    obtain ⟨j, rfl, hget⟩ := Btb.get_of_getElem? he
    exact h j e hget

theorem Btb.findFrom_tag {slots : List (Option BtbEntry)} {i j : Nat} {e : BtbEntry}
    (h : Btb.findFrom pc slots i = some (j, e)) : e.tag = pc := by
  induction slots generalizing i with
  | nil => cases h
  | cons p rest ih =>
    rcases p with _ | e'
    · exact ih h
    · simp only [Btb.findFrom] at h
      split at h
      · cases h; assumption
      · exact ih h

/-- What is found is the entry of a slot. -/
theorem Btb.get_of_find {j : Nat} {e : BtbEntry} (h : Btb.find btb pc = some (j, e)) :
    ∃ i : Fin 32, i.val = j ∧ btb.get i = some e := by
  obtain ⟨pre, post, hl, rfl⟩ := Btb.findFrom_some h
  exact Btb.get_of_getElem? (by simp [hl])

end

/-! ### What Fetch finds (R322) -/

section
variable {btb : Btb} {pc : Word}

/-- The first `n` slots hold entries of other branches. -/
def Btb.MissesBelow (btb : Btb) (pc : Word) (n : Nat) : Prop :=
  ∀ j : Fin 32, j.val < n → ∃ e, btb.get j = some e ∧ e.tag ≠ pc

theorem Btb.MissesBelow.scan_eq {n : Nat} (hn : n ≤ 32) (h : btb.MissesBelow pc n) :
    Btb.scan btb pc = Btb.scanFrom pc (btb.toList.drop n) n := by
  rw [Btb.scan, Btb.scanFrom_drop (k := n), Nat.zero_add]
  intro j hj
  obtain ⟨e, he, htag⟩ := h ⟨j, by omega⟩ hj
  exact ⟨e, by rw [btb.getElem?_toList ⟨j, by omega⟩, he], htag⟩

theorem Btb.scan_eq_hit {i : Fin 32} {e : BtbEntry} (h : btb.MissesBelow pc i) (he : btb.get i = some e)
    (htag : e.tag = pc) : Btb.scan btb pc = .hit e := by
  rw [h.scan_eq i.isLt.le, btb.drop_toList, he]
  exact if_pos htag

theorem Btb.scan_eq_empty {i : Fin 32} (h : btb.MissesBelow pc i) (he : btb.get i = none) :
    Btb.scan btb pc = .empty i := by
  rw [h.scan_eq i.isLt.le, btb.drop_toList, he]
  rfl

theorem Btb.scan_eq_full (h : btb.MissesBelow pc 32) : Btb.scan btb pc = .full := by
  rw [h.scan_eq le_rfl, List.drop_of_length_le (by simp)]
  rfl

end

end Sys2Proof.Machine
end

section
/-! SUPPORT. Execute in its cycle, said once by its three results (R259 to R262, R326): the branch target buffer, the
redirect and `MR_next`; and the true next pc in numbers. -/

namespace Sys2Proof.Machine

/-- `tnpc` of the instruction in `XR` on its forwarded operands, `none` when it transfers no control (R262). -/
def DecodedInstr.trueNext (x : DecodedInstr) (s : State) : Option Word :=
  trueNextPc x.tag x.pc (operandA s x) (operandB s x) x.imm

/-- The branch target buffer and `wrong_prediction` once Execute has resolved the instruction in `XR` (R326). -/
def DecodedInstr.resolution (x : DecodedInstr) (s : State) : Btb × Bool :=
  match x.trueNext s with
  | some tnpc => if x.tag.isBranch then resolve s.btb x.pc tnpc else (s.btb, false)
  | none => (s.btb, false)

/-- Where Execute redirects `pc` to: the true next pc, when Fetch went elsewhere (R262, R327). -/
def DecodedInstr.redirect (x : DecodedInstr) (s : State) : Option Word :=
  (x.trueNext s).bind fun tnpc => if tnpc = x.predNpc then none else some tnpc

section
variable {s : State} {x : DecodedInstr} (hx : s.xr = some x)
include hx

theorem executePhase_eq :
    (executePhase s).state.btb = (x.resolution s).1 ∧ (executePhase s).redirect = x.redirect s ∧
      (executePhase s).mrNext = some
        (x.executed s.cfg (operandA s x) (operandB s x) (x.redirect s).isSome (x.resolution s).2) := by
  have hx' : (retireStage (afterFillStep s)).xr = some x := by simp [hx]
  have hA : operandA (retireStage (afterFillStep s)) x = operandA s x := operandA_congr (by simp) (by simp) x
  have hB : operandB (retireStage (afterFillStep s)) x = operandB s x := operandB_congr (by simp) (by simp) x
  rcases ht : x.trueNext s with _ | tnpc
  · have he := executeStage_plain hx' (by rw [hA, hB]; exact ht)
    simp [executePhase, he, hA, hB, DecodedInstr.resolution, DecodedInstr.redirect, ht]
  · have he := executeStage_transfer hx' (by rw [hA, hB]; exact ht)
    by_cases hp : tnpc = x.predNpc <;> cases hb : x.tag.isBranch <;>
      simp [executePhase, he, hA, hB, DecodedInstr.resolution, DecodedInstr.redirect, ht, hp, hb]

theorem executePhase_btb : (executePhase s).state.btb = (x.resolution s).1 := (executePhase_eq hx).1

theorem executePhase_redirect : (executePhase s).redirect = x.redirect s := (executePhase_eq hx).2.1

theorem executePhase_mrNext : (executePhase s).mrNext = some
    (x.executed s.cfg (operandA s x) (operandB s x) (x.redirect s).isSome (x.resolution s).2) :=
  (executePhase_eq hx).2.2

end

theorem executePhase_btb_bubble {s : State} (hx : s.xr = none) : (executePhase s).state.btb = s.btb := by
  rw [executePhase, executeStage_bubble (by simp [hx])]
  simp

/-- A branch always has a true next pc. -/
theorem DecodedInstr.trueNext_of_isBranch {x : DecodedInstr} (h : x.tag.isBranch = true) (s : State) :
    ∃ tnpc, x.trueNext s = some tnpc :=
  Option.ne_none_iff_exists'.1 (trueNextPc_ne_none_of_isBranch h _ _ _ _)

theorem DecodedInstr.resolution_of_not_branch {x : DecodedInstr} (h : x.tag.isBranch = false) (s : State) :
    x.resolution s = (s.btb, false) := by
  unfold DecodedInstr.resolution
  split <;> simp [h]

theorem DecodedInstr.resolution_of_branch {x : DecodedInstr} {s : State} {tnpc : Word} (h : x.tag.isBranch = true)
    (ht : x.trueNext s = some tnpc) : x.resolution s = resolve s.btb x.pc tnpc := by
  simp [DecodedInstr.resolution, ht, h]

/-! ### Resolution (R326), by what is found -/

section
variable {btb : Btb} {pc tnpc : Word}

theorem resolve_of_find_none (h : Btb.find btb pc = none) : resolve btb pc tnpc = (btb, false) := by
  simp [resolve, h]

theorem resolve_of_unset {i : Nat} {e : BtbEntry} (h : Btb.find btb pc = some (i, e)) (he : e.target = none) :
    resolve btb pc tnpc = (btb.setIfInBounds i (some { tag := e.tag, target := some tnpc }), false) := by
  obtain ⟨tag, target⟩ := e
  obtain rfl : target = none := he
  simp [resolve, h]

theorem resolve_of_same {i : Nat} {e : BtbEntry} (h : Btb.find btb pc = some (i, e)) (he : e.target = some tnpc) :
    resolve btb pc tnpc = (btb, false) := by
  obtain ⟨tag, target⟩ := e
  obtain rfl : target = some tnpc := he
  simp [resolve, h]

theorem resolve_of_other {i : Nat} {e : BtbEntry} {u : Word} (h : Btb.find btb pc = some (i, e))
    (he : e.target = some u) (hu : u ≠ tnpc) :
    resolve btb pc tnpc = (btb.setIfInBounds i (some { tag := e.tag, target := some tnpc }), true) := by
  obtain ⟨tag, target⟩ := e
  obtain rfl : target = some u := he
  simp [resolve, h, hu]

/-- The table after a resolution: as before, or with a known target in the entry found. -/
theorem resolve_cases (btb : Btb) (pc tnpc : Word) :
    (resolve btb pc tnpc).1 = btb ∨ ∃ i e, Btb.find btb pc = some (i, e) ∧
      (resolve btb pc tnpc).1 = btb.setIfInBounds i (some { tag := e.tag, target := some tnpc }) := by
  rcases h : Btb.find btb pc with _ | ⟨i, e⟩
  · exact .inl (by rw [resolve_of_find_none h])
  rcases he : e.target with _ | u
  · exact .inr ⟨i, e, rfl, by rw [resolve_of_unset h he]⟩
  by_cases hu : u = tnpc
  · exact .inl (by rw [resolve_of_same h (hu ▸ he)])
  · exact .inr ⟨i, e, rfl, by rw [resolve_of_other h he hu]⟩

/-- `wrong_prediction`: the entry had another known target. -/
theorem exists_of_wrongPrediction (h : (resolve btb pc tnpc).2 = true) :
    ∃ i e u, Btb.find btb pc = some (i, e) ∧ e.target = some u ∧ u ≠ tnpc := by
  rcases hf : Btb.find btb pc with _ | ⟨i, e⟩
  · rw [resolve_of_find_none hf] at h; cases h
  rcases he : e.target with _ | u
  · rw [resolve_of_unset hf he] at h; cases h
  refine ⟨i, e, u, rfl, he, ?_⟩
  rintro rfl
  rw [resolve_of_same hf he] at h; cases h

end

end Sys2Proof.Machine
end

section
/-! SUPPORT. The branch target buffer over a cycle (R320 to R332): an update of a slot leaves what is found for the
other branches, so the predictions that Fetch followed stand until Execute. -/

namespace Sys2Proof.Machine

/-! ### The cases of the scan (R322) -/

section
variable (btb : Btb) (pc : Word)

/-- The first slot that is empty or holds an entry of the branch, unless every slot is of another branch. -/
theorem Btb.missesBelow_or_stops (n : Nat) (hn : n ≤ 32) :
    btb.MissesBelow pc n ∨ ∃ i : Fin 32, btb.MissesBelow pc i ∧
      (btb.get i = none ∨ ∃ e, btb.get i = some e ∧ e.tag = pc) := by
  induction n with
  | zero => exact .inl fun _ hj => absurd hj (Nat.not_lt_zero _)
  | succ n ih =>
    rcases ih (by omega) with h | h
    · rcases he : btb.get ⟨n, hn⟩ with _ | e
      · exact .inr ⟨⟨n, hn⟩, h, .inl he⟩
      by_cases htag : e.tag = pc
      · exact .inr ⟨⟨n, hn⟩, h, .inr ⟨e, he, htag⟩⟩
      · refine .inl fun j hj => ?_
        rcases Nat.lt_succ_iff_lt_or_eq.1 hj with hj | hj
        · exact h j hj
        · obtain rfl : j = ⟨n, hn⟩ := Fin.ext hj
          exact ⟨e, he, htag⟩
    · exact .inr h

theorem Btb.scan_cases :
    (∃ (i : Fin 32) (e : BtbEntry), btb.MissesBelow pc i ∧ btb.get i = some e ∧ e.tag = pc ∧ Btb.scan btb pc = .hit e) ∨
    (∃ i : Fin 32, btb.MissesBelow pc i ∧ btb.get i = none ∧ Btb.scan btb pc = .empty i) ∨
    (btb.MissesBelow pc 32 ∧ Btb.scan btb pc = .full) := by
  rcases btb.missesBelow_or_stops pc 32 le_rfl with h | ⟨i, h, he | ⟨e, he, htag⟩⟩
  · exact .inr (.inr ⟨h, Btb.scan_eq_full h⟩)
  · exact .inr (.inl ⟨i, h, he, Btb.scan_eq_empty h he⟩)
  · exact .inl ⟨i, e, h, he, htag, Btb.scan_eq_hit h he htag⟩

end

section
variable {btb : Btb} {pc : Word}

theorem Btb.MissesBelow.tag_ne {n : Nat} (h : btb.MissesBelow pc n) {j : Fin 32} (hj : j.val < n) {e : BtbEntry}
    (he : btb.get j = some e) : e.tag ≠ pc := by
  obtain ⟨e', he', htag⟩ := h j hj
  rw [he] at he'
  exact Option.some.inj he' ▸ htag

/-- Allocated entries come first in the table (R332 (a)). -/
theorem BtbSlotsOk.get_isSome (h : BtbSlotsOk btb.toList) {i j : Fin 32} (hij : i < j)
    (hj : (btb.get j).isSome = true) :
    (btb.get i).isSome = true := by
  obtain ⟨hslots, -⟩ := h
  have hget (k : Fin 32) : btb.get k = btb.toList[k.val]'(by simp) := by simp [Vector.get_eq_getElem]
  rw [hget] at hj ⊢
  exact List.pairwise_iff_getElem.1 hslots i j (by simp) (by simp) hij hj

/-- A branch that has an entry is not allocated another one. -/
theorem BtbSlotsOk.scan_ne_empty (h : BtbSlotsOk btb.toList) {r : Nat × BtbEntry} (hf : Btb.find btb pc = some r)
    {i : Fin 32} (hm : btb.MissesBelow pc i) : btb.get i ≠ none := by
  intro he
  obtain ⟨j, e⟩ := r
  obtain ⟨j, rfl, hj⟩ := Btb.get_of_find hf
  rcases lt_trichotomy j i with hlt | rfl | hlt
  · exact hm.tag_ne hlt hj (Btb.findFrom_tag hf)
  · rw [he] at hj; cases hj
  · have hi := h.get_isSome hlt (by rw [hj]; rfl)
    rw [he] at hi; cases hi

theorem Btb.all_isSome_iff : btb.toList.all Option.isSome = true ↔ ∀ i : Fin 32, (btb.get i).isSome = true := by
  rw [List.all_eq_true]
  constructor
  · intro h i
    exact h _ (List.mem_iff_getElem?.2 ⟨i.val, btb.getElem?_toList i⟩)
  · intro h p hp
    obtain ⟨j, hj⟩ := List.mem_iff_getElem?.1 hp
    obtain ⟨i, -, rfl⟩ := Btb.get_of_getElem? hj
    exact h i

/-! ### What an update of a slot leaves -/

theorem Btb.get_setIfInBounds (i j : Fin 32) (p : Option BtbEntry) :
    Vector.get (btb.setIfInBounds i.val p) j = if i = j then p else btb.get j := by
  simp [Vector.get_eq_getElem, Vector.getElem_setIfInBounds, Fin.ext_iff]

theorem Btb.all_isSome_set (h : btb.toList.all Option.isSome = true) (i : Fin 32) (e : BtbEntry) :
    (Vector.toList (btb.setIfInBounds i.val (some e))).all Option.isSome = true := by
  rw [Btb.all_isSome_iff] at h ⊢
  intro j
  rw [Btb.get_setIfInBounds]
  split
  · rfl
  · exact h j

/-- A slot of another branch is skipped. -/
theorem Btb.findFrom_cons_of_ne {p : Option BtbEntry} (hp : ∀ e ∈ p, e.tag ≠ pc) (rest : List (Option BtbEntry))
    (i : Nat) : Btb.findFrom pc (p :: rest) i = Btb.findFrom pc rest (i + 1) := by
  rcases p with _ | e
  · rfl
  · exact if_neg (hp e rfl)

theorem Btb.findFrom_replace {old new : Option BtbEntry} (ho : ∀ e ∈ old, e.tag ≠ pc) (hn : ∀ e ∈ new, e.tag ≠ pc)
    (pre post : List (Option BtbEntry)) (i : Nat) :
    Btb.findFrom pc (pre ++ new :: post) i = Btb.findFrom pc (pre ++ old :: post) i := by
  induction pre generalizing i with
  | nil => rw [List.nil_append, List.nil_append, Btb.findFrom_cons_of_ne ho, Btb.findFrom_cons_of_ne hn]
  | cons p pre ih => rcases p with _ | e <;> simp only [List.cons_append, Btb.findFrom, ih]

theorem Btb.find_set_of_ne {i : Fin 32} {new : Option BtbEntry} (ho : ∀ e ∈ btb.get i, e.tag ≠ pc)
    (hn : ∀ e ∈ new, e.tag ≠ pc) : Btb.find (btb.setIfInBounds i.val new) pc = Btb.find btb pc := by
  have hl : btb.toList = btb.toList.take i.val ++ btb.get i :: btb.toList.drop (i.val + 1) := by
    rw [← btb.drop_toList, List.take_append_drop]
  have hset := toList_setIfInBounds_append (new := new) hl
  rw [List.length_take, Vector.length_toList, Nat.min_eq_left i.isLt.le] at hset
  rw [Btb.find, Btb.find, hset, Btb.findFrom_replace ho hn, ← hl]

/-- The resolution of a branch leaves what is found for another one (R326). -/
theorem Btb.find_resolve_of_ne {pc' tnpc : Word} (h : pc' ≠ pc) :
    Btb.find (resolve btb pc tnpc).1 pc' = Btb.find btb pc' := by
  rcases resolve_cases btb pc tnpc with he | ⟨_, e, hf, he⟩ <;> rw [he]
  obtain ⟨i, rfl, hi⟩ := Btb.get_of_find hf
  have htag : e.tag = pc := Btb.findFrom_tag hf
  exact Btb.find_set_of_ne (by simpa [hi, htag] using h.symm) (by simpa [htag] using h.symm)

theorem Btb.all_isSome_resolve (h : btb.toList.all Option.isSome = true) (tnpc : Word) :
    (resolve btb pc tnpc).1.toList.all Option.isSome = true := by
  rcases resolve_cases btb pc tnpc with he | ⟨_, _, hf, he⟩ <;> rw [he]
  · exact h
  · obtain ⟨i, rfl, -⟩ := Btb.get_of_find hf
    exact Btb.all_isSome_set h i _

/-- The table after Fetch: as before, or with a new entry in the first empty slot (R322, R323). -/
theorem predict_cases (btb : Btb) (pc : Word) (iw : InstrWord) :
    (predict btb pc iw).btb = btb ∨ ∃ i : Fin 32, btb.MissesBelow pc i ∧ btb.get i = none ∧
      (predict btb pc iw).btb = btb.setIfInBounds i (some { tag := pc, target := none }) := by
  unfold predict
  split
  · rcases btb.scan_cases pc with ⟨_, ⟨_, _ | target⟩, _, _, _, hs⟩ | ⟨i, hm, he, hs⟩ | ⟨_, hs⟩ <;> rw [hs]
    case inr.inl => exact .inr ⟨i, hm, he, rfl⟩
    all_goals exact .inl rfl
  · exact .inl rfl

/-- Fetch leaves what is found for a branch that has an entry or has met a full table. -/
theorem BtbSlotsOk.find_predict (h : BtbSlotsOk btb.toList) {pc' : Word}
    (hfull : Btb.find btb pc' = none → btb.toList.all Option.isSome = true) (iw : InstrWord) :
    Btb.find (predict btb pc iw).btb pc' = Btb.find btb pc' := by
  rcases predict_cases btb pc iw with he | ⟨i, hm, hi, he⟩ <;> rw [he]
  obtain ⟨r, hr⟩ : ∃ r, Btb.find btb pc' = some r := by
    refine Option.ne_none_iff_exists'.1 fun hf => ?_
    have hsome := Btb.all_isSome_iff.1 (hfull hf) i
    rw [hi] at hsome; cases hsome
  have hne : pc ≠ pc' := by
    rintro rfl
    exact h.scan_ne_empty hr hm hi
  exact Btb.find_set_of_ne (by simp [hi]) (by simpa using hne)

theorem Btb.all_isSome_predict (h : btb.toList.all Option.isSome = true) (iw : InstrWord) :
    (predict btb pc iw).btb.toList.all Option.isSome = true := by
  rcases predict_cases btb pc iw with he | ⟨i, -, -, he⟩ <;> rw [he]
  · exact h
  · exact Btb.all_isSome_set h i _

end

/-! ### Predictions that stand (R325, R327) -/

/-- The clause of `State.PredictOk` about one instruction. -/
def FollowedOk (btb : Btb) (pc : Word) (iw : InstrWord) (predNpc : Word) : Prop :=
  predictionStands btb pc iw predNpc ∧
    (isCondBranch iw = true → isBackward iw = true → Btb.find btb pc = none → btb.toList.all Option.isSome = true)

theorem State.predictOk_iff {s : State} : s.PredictOk ↔
    (∀ f ∈ s.dr, FollowedOk s.btb f.pc f.iw f.predNpc) ∧ ∀ x ∈ s.xr, FollowedOk s.btb x.pc x.iw x.predNpc := Iff.rfl

theorem FollowedOk.congr {btb btb' : Btb} {pc : Word} {iw : InstrWord} {npc : Word} (h : FollowedOk btb pc iw npc)
    (hf : isCondBranch iw = true → isBackward iw = true → Btb.find btb' pc = Btb.find btb pc)
    (ha : btb.toList.all Option.isSome = true → btb'.toList.all Option.isSome = true) : FollowedOk btb' pc iw npc := by
  obtain ⟨hstands, hfull⟩ := h
  refine ⟨fun hc hb => ?_, fun hc hb hn => ha (hfull hc hb (hf hc hb ▸ hn))⟩
  rw [hf hc hb]
  exact hstands hc hb

/-- What Fetch has just followed is what the table says (R321 to R325). -/
theorem followedOk_predict (btb : Btb) (pc : Word) (iw : InstrWord) :
    FollowedOk (predict btb pc iw).btb pc iw (predict btb pc iw).npc := by
  by_cases hb : (isCondBranch iw && isBackward iw) = true
  swap
  · have hno : isCondBranch iw = true → isBackward iw = true → False := by simpa using hb
    exact ⟨fun h h' => (hno h h').elim, fun h h' => (hno h h').elim⟩
  rcases btb.scan_cases pc with ⟨i, ⟨tag, target⟩, hm, he, htag, hs⟩ | ⟨i, hm, he, hs⟩ | ⟨hm, hs⟩
  · have hf := Btb.find_eq_some he htag fun j _ hj => hm.tag_ne hj
    rcases target with _ | target <;> simp [FollowedOk, predictionStands, predict, hb, hs, hf]
  · have hf : Btb.find (btb.setIfInBounds i (some { tag := pc, target := none })) pc =
        some (i.val, { tag := pc, target := none }) := by
      refine Btb.find_eq_some (by rw [Btb.get_setIfInBounds, if_pos rfl]) rfl fun j e' hj hget => ?_
      rw [Btb.get_setIfInBounds, if_neg hj.ne'] at hget
      exact hm.tag_ne hj hget
    simp [FollowedOk, predictionStands, predict, hb, hs, hf]
  · have hf : Btb.find btb pc = none := Btb.find_eq_none fun i _ => hm.tag_ne i.isLt
    have hall : btb.toList.all Option.isSome = true := Btb.all_isSome_iff.2 fun i => by
      obtain ⟨e, he, -⟩ := hm i i.isLt
      rw [he]; rfl
    simp only [FollowedOk, predictionStands, predict, hb, hs, hf, hall, if_true, implies_true, and_self]

/-- Fetch keeps the predictions that stand, and latches one (R264). -/
theorem fetchStage_followedOk {s : State} (h : s.BtbOk) {redirect : Bool} (stall idle0 : Bool)
    (hdr : redirect = false → ∀ f ∈ s.dr, FollowedOk s.btb f.pc f.iw f.predNpc) :
    (∀ f ∈ (fetchStage s redirect stall idle0).drNext,
      FollowedOk (fetchStage s redirect stall idle0).state.btb f.pc f.iw f.predNpc) ∧
    ∀ pc iw npc, FollowedOk s.btb pc iw npc →
      FollowedOk (fetchStage s redirect stall idle0).state.btb pc iw npc := by
  have hbubble (btb : Btb) : ∀ f ∈ (none : Option FetchedInstr), FollowedOk btb f.pc f.iw f.predNpc := by simp
  unfold fetchStage
  split; · exact ⟨hbubble _, fun _ _ _ => id⟩
  rename_i hr
  split; · exact ⟨hdr (by simpa using hr), fun _ _ _ => id⟩
  split; · exact ⟨hbubble _, fun _ _ _ => id⟩
  split
  · split
    · refine ⟨?_, fun pc iw npc hf => hf.congr (fun hc hb => BtbSlotsOk.find_predict h (hf.2 hc hb) _)
        fun ha => Btb.all_isSome_predict ha _⟩
      rintro _ ⟨⟩
      exact followedOk_predict _ _ _
    · refine ⟨hbubble _, fun _ _ _ hf => ?_⟩
      rwa [icIssue_btb]
  · exact ⟨hbubble _, fun _ _ _ => id⟩

/-! ### Execute (R326) -/

theorem nextWord_ne_self (p : Word) : nextWord p ≠ p := by
  unfold nextWord
  bv_omega

/-- An instruction that was followed by itself was predicted, so a true next pc that is the predicted one changes
nothing in the table. -/
theorem resolve_of_self_followed {btb : Btb} {x : DecodedInstr} (hf : fetchedOk x.pc x.iw x.pred x.predNpc)
    (hp : FollowedOk btb x.pc x.iw x.predNpc) (hself : x.predNpc = x.pc) : (resolve btb x.pc x.predNpc).1 = btb := by
  obtain ⟨-, -, hpred⟩ := hf
  have hne : x.predNpc ≠ nextWord x.pc := hself ▸ (nextWord_ne_self x.pc).symm
  split at hpred
  swap
  · exact absurd hpred hne
  obtain ⟨hstands, -⟩ := hp
  have hst := hstands hpred.1 hpred.2
  rcases hfind : Btb.find btb x.pc with _ | ⟨i, e⟩
  · rw [resolve_of_find_none hfind]
  obtain ⟨tag, _ | target⟩ := e <;> rw [hfind] at hst
  · exact absurd hst hne
  · rw [resolve_of_same hfind (congrArg some hst.symm)]

section
variable {s : State} (hi : s.Inv) (hflow : s.FlowOk) (hp : s.PredictOk)
include hi hflow hp

/-- The instruction in `DR` was predicted by what the table still says, unless Execute squashes it. -/
theorem followedOk_executePhase (hred : (executePhase s).redirect = none) :
    ∀ f ∈ s.dr, FollowedOk (executePhase s).state.btb f.pc f.iw f.predNpc := by
  intro f hf
  obtain ⟨hdr, hxr⟩ := State.predictOk_iff.1 hp
  have hold := hdr f hf
  rcases hx : s.xr with _ | x
  · rwa [executePhase_btb_bubble hx]
  rw [executePhase_btb hx]
  cases hb : x.tag.isBranch
  · rwa [DecodedInstr.resolution_of_not_branch hb]
  obtain ⟨tnpc, ht⟩ := DecodedInstr.trueNext_of_isBranch hb s
  rw [DecodedInstr.resolution_of_branch hb ht]
  obtain rfl : tnpc = x.predNpc := by
    rw [executePhase_redirect hx] at hred
    simpa [DecodedInstr.redirect, ht] using hred
  obtain ⟨-, hflow⟩ := hflow
  have hnext : f.pc = x.predNpc := by simpa [Option.mem_def.1 hf] using hflow x hx
  by_cases hself : f.pc = x.pc
  · obtain ⟨hfetch, -⟩ := hi.xr_decoded hx
    rwa [resolve_of_self_followed hfetch (hxr x hx) (hnext ▸ hself)]
  · exact hold.congr (fun _ _ => Btb.find_resolve_of_ne hself) fun ha => Btb.all_isSome_resolve ha _

theorem State.PredictOk.latched (hl : s.level = .cycle) (hr : s.Runs) (hh : (memoryPhase s).hold = false) :
    (advanceCycle s).PredictOk := by
  have hbtb : (executePhase s).state.BtbOk := State.Inv.btbOk (hi.afterFillStep hl).retireStage.executeStage
  obtain ⟨hfetch, hkeep⟩ := fetchStage_followedOk hbtb (redirect := (executePhase s).redirect.isSome)
    (loadUseStall (executePhase s).state) (decide (s.icFsm = .idle)) fun hred => by
      rw [executePhase_dr]
      exact followedOk_executePhase hi hflow hp (by simpa using hred)
  rw [State.predictOk_iff, advanceCycle_latched hr hh]
  refine ⟨hfetch, fun x hx => ?_⟩
  rw [latch_xr] at hx
  obtain ⟨-, hred, f, hf, rfl⟩ := decodeStage_eq_some hx
  rw [executePhase_dr] at hf
  exact hkeep _ _ _ (followedOk_executePhase hi hflow hp (by simpa using hred) f hf)

theorem State.PredictOk.advanceCycle (hl : s.level = .cycle) :
    (advanceCycle s).FlowOk ∧ (advanceCycle s).PredictOk := by
  rcases advanceCycle_cases s with ⟨_, e⟩ | ⟨_, _, _, e⟩ | ⟨_, _, e⟩ | ⟨hr, hh, _⟩
  · rw [e]; exact ⟨hflow, hp⟩
  · rw [e]; exact ⟨hflow, hp⟩
  · rw [e]
    simp only [State.FlowOk, State.PredictOk, afterFillStep_dr, afterFillStep_xr, afterFillStep_pc, afterFillStep_btb]
    exact ⟨hflow, hp⟩
  · exact ⟨hflow.latched hr hh, hp.latched hi hflow hl hr hh⟩

end

/-- A word that decodes as a branch is what Fetch takes for one (R321). -/
theorem isCondBranch_of_isBranch {cfg : Config} {iw : InstrWord} (h : (decodeOperands cfg iw).tag.isBranch = true) :
    isCondBranch iw = true := by
  rcases hd : decodeWord iw with e | i
  · rw [decodeOperands_error hd] at h; cases h
  rw [decodeOperands_ok hd, operands_tag] at h
  obtain rfl := encode_decodeWord hd
  cases i
  case beq | bne | blt | bge | bltu | bgeu => simp [encode, isCondBranch]
  all_goals cases h

/-- A backward branch whose entry has another known target than its true next pc was followed by that target. -/
theorem redirect_of_wrongPrediction {s : State} {x : DecodedInstr} (hi : s.Inv) (hp : s.PredictOk) (hx : s.xr = some x)
    (hback : isBackward x.iw = true) (hw : (x.resolution s).2 = true) : (x.redirect s).isSome = true := by
  have hb : x.tag.isBranch = true := by
    by_contra hb
    rw [DecodedInstr.resolution_of_not_branch (by simpa using hb)] at hw
    cases hw
  obtain ⟨tnpc, ht⟩ := DecodedInstr.trueNext_of_isBranch hb s
  rw [DecodedInstr.resolution_of_branch hb ht] at hw
  obtain ⟨i, ⟨tag, target⟩, u, hf, rfl, hu⟩ := exists_of_wrongPrediction hw
  obtain ⟨-, hset⟩ := hi.xr_decoded hx
  have hcond : isCondBranch x.iw = true :=
    isCondBranch_of_isBranch (cfg := s.cfg) ((congrArg (fun d => d.tag.isBranch) hset).symm.trans hb)
  obtain ⟨-, hxr⟩ := hp
  have hst := (hxr x hx).1 hcond hback
  rw [hf] at hst
  have hne : tnpc ≠ x.predNpc := fun h => hu (hst.symm.trans h.symm)
  simp [DecodedInstr.redirect, ht, hne]

/-- Settles O54: what Fetch followed is kept by every cycle as what the table says, and Execute finds a prediction wrong
only against that. -/
theorem wrongPredictionRedirects : Obligations.WrongPredictionRedirects := by
  unfold Obligations.WrongPredictionRedirects
  intro s hi hflow hp hl
  obtain ⟨hflow', hp'⟩ := hp.advanceCycle hi hflow hl
  refine ⟨hflow', hp', fun x m hr hh hx hback hm hw => ?_⟩
  have hhold : (memoryPhase s).hold = false := (holdAll_eq hr).symm.trans hh
  rw [runCycle_latched hr hhold]
  dsimp only
  rw [executePhase_redirect hx]
  rw [mr_latched hr hhold, executePhase_mrNext hx] at hm
  cases hm
  exact redirect_of_wrongPrediction hi hp hx hback hw

end Sys2Proof.Machine
end

section
/-! SUPPORT. Control transfers and Execute in numbers (R259 to R262, R304, R326): the statements about what Execute
leaves in `MR`, in the branch target buffer and in `pc`. -/

namespace Sys2Proof.Machine

/-! ### The true next pc in numbers (R262) -/

theorem relTarget_eq_wrap64 (p imm : Word) : relTarget p imm = wrap64 (p.toNat + imm.toInt) := by
  rw [← relTarget_wrap64, wrap64_toInt]

theorem add_eq_wrap64 (a b : Word) : a + b = wrap64 (a.toInt + b.toInt) := by
  rw [wrap64_add, wrap64_toInt, wrap64_toInt]

theorem sub_eq_wrap64 (a b : Word) : a - b = wrap64 (a.toInt - b.toInt) := by
  rw [wrap64_sub, wrap64_toInt, wrap64_toInt]

/-- The condition of a branch, decided (R211 to R216). -/
theorem branchCondition_eq {tag : Tag} (h : tag.isBranch = true) (a b : Word) :
    branchCondition tag a b = some (decide (branchTaken tag a b)) := by
  cases tag
  case beq | bne | blt | bge | bltu | bgeu =>
    simp [branchCondition, branchTaken, Cond.eq, Cond.ne, Cond.lt, Cond.ge, Cond.ltu, Cond.geu]
  all_goals cases h

theorem branchCondition_eq_none {tag : Tag} (h : tag.isBranch = false) (a b : Word) :
    branchCondition tag a b = none := by
  cases tag
  case beq | bne | blt | bge | bltu | bgeu => cases h
  all_goals rfl

/-- The true next pc of a branch or a jump is the number that R262 gives. -/
theorem trueNextPc_eq_transferTarget {tag : Tag} (h : transfersControl tag) (p a b imm : Word) :
    trueNextPc tag p a b imm = some (transferTarget tag p a b imm) := by
  obtain h | rfl | rfl := h
  · have hjal : tag ≠ .jal := by rintro rfl; cases h
    have hjalr : tag ≠ .jalr := by rintro rfl; cases h
    simp only [trueNextPc, branchCondition_eq h, transferTarget, hjal, hjalr, false_or, if_false, decide_eq_true_eq,
      relTarget_eq_wrap64, nextWord_eq_wrap64]
  · simp [trueNextPc, branchCondition, transferTarget, relTarget_eq_wrap64]
  · simp [trueNextPc, branchCondition, transferTarget, jalrTarget_eq_wrap64 (add_eq_wrap64 a imm)]

theorem trueNextPc_eq_none {tag : Tag} (h : ¬transfersControl tag) (p a b imm : Word) :
    trueNextPc tag p a b imm = none := by
  simp only [transfersControl, not_or, Bool.not_eq_true] at h
  obtain ⟨hb, hjal, hjalr⟩ := h
  simp [trueNextPc, branchCondition_eq_none hb, hjal, hjalr]

section
variable {x : DecodedInstr} (s : State)

theorem DecodedInstr.trueNext_eq (h : transfersControl x.tag) :
    x.trueNext s = some (transferTarget x.tag x.pc (operandA s x) (operandB s x) x.imm) :=
  trueNextPc_eq_transferTarget h ..

/-- A transfer redirects to its true next pc unless Fetch went there. -/
theorem DecodedInstr.redirect_of_transfers (h : transfersControl x.tag) :
    let tnpc := transferTarget x.tag x.pc (operandA s x) (operandB s x) x.imm
    x.redirect s = if tnpc = x.predNpc then none else some tnpc := by
  simp [DecodedInstr.redirect, x.trueNext_eq s h]

theorem DecodedInstr.redirect_of_not_transfers (h : ¬transfersControl x.tag) : x.redirect s = none := by
  simp [DecodedInstr.redirect, DecodedInstr.trueNext, trueNextPc_eq_none h]

end

/-! ### Forwarding in the words of the statements (R304, R305) -/

/-- The forwarding multiplexer gives the one value that the rule allows. -/
theorem State.Forwards.fwd_eq {s : State} {r : Reg} {v a : Word} (h : s.Forwards r v a) : fwd s r v = a := by
  obtain ⟨hzero, hmr, hwr, hread⟩ := h
  by_cases hr : r = 0
  · rw [hzero hr, fwd, if_pos hr]
  have fromWr (hm : ¬∃ m, s.mr = some m ∧ m.wr = true ∧ m.rd = r ∧ m.tag.isLoad = false) : fwdFromWr s r v = a := by
    by_cases hw : ∃ w, s.wr = some w ∧ w.wr = true ∧ w.rd = r
    · obtain ⟨w, hsw, ha⟩ := hwr hr hm hw
      obtain ⟨w', hsw', hwr', hrd⟩ := hw
      obtain rfl := Option.some.inj (hsw.symm.trans hsw')
      simp [fwdFromWr, hsw, hwr', hrd, ha]
    · rw [hread hr hm hw, fwdFromWr]
      split
      · rename_i w hsw
        exact if_neg fun hc => hw ⟨w, hsw, by simpa using hc⟩
      · rfl
  rw [fwd, if_neg hr]
  split
  · rename_i m hsm
    split
    · rename_i hc
      have hm : m.wr = true ∧ m.rd = r ∧ m.tag.isLoad = false := by simpa [and_assoc] using hc
      obtain ⟨m', hsm', ha⟩ := hmr hr ⟨m, hsm, hm⟩
      rw [hsm] at hsm'
      cases hsm'
      exact ha.symm
    · rename_i hc
      refine fromWr fun ⟨m', hsm', hm⟩ => hc ?_
      rw [hsm] at hsm'
      cases hsm'
      simpa [and_assoc] using hm
  · rename_i hsm
    refine fromWr fun ⟨m, hsm', _⟩ => ?_
    rw [hsm] at hsm'
    cases hsm'

theorem operandA_eq {s : State} {x : DecodedInstr} {a : Word} (h : x.usesRs1 = true → s.Forwards x.rs1 x.v1 a)
    (h0 : x.usesRs1 = false → a = 0) : operandA s x = a := by
  unfold operandA
  split
  · rename_i hu; exact (h hu).fwd_eq
  · rename_i hu; exact (h0 (by simpa using hu)).symm

theorem operandB_eq {s : State} {x : DecodedInstr} {b : Word} (h : x.usesRs2 = true → s.Forwards x.rs2 x.v2 b)
    (h0 : x.usesRs2 = false → b = 0) : operandB s x = b := by
  unfold operandB
  split
  · rename_i hu; exact (h hu).fwd_eq
  · rename_i hu; exact (h0 (by simpa using hu)).symm

/-! ### The results that are no arithmetic (R261) -/

theorem executeResult_eq_zero {tag : Tag}
    (h : tag.isLoad = true ∨ tag.isStore = true ∨ tag.isBranch = true ∨ Tag.format tag = .noOp) (cfg : Config)
    (p a b imm : Word) : executeResult cfg tag p a b imm = 0 := by
  cases tag <;> simp [Tag.isLoad, Tag.isStore, Tag.isBranch, Tag.format] at h <;> rfl

/-! ### The statements about one cycle -/

section
variable {s : State} (hr : s.Runs) (hh : (runCycle s).holdAll = false)
include hr hh

theorem hold_eq_false : (memoryPhase s).hold = false := (holdAll_eq hr).symm.trans hh

theorem runCycle_redirect : (runCycle s).redirect = (executePhase s).redirect := by
  rw [runCycle_latched hr (hold_eq_false hr hh)]

theorem runCycle_stall : (runCycle s).stall = loadUseStall (executePhase s).state := by
  rw [runCycle_latched hr (hold_eq_false hr hh)]

/-- What Execute leaves in `MR`. -/
theorem mr_of_executes {x : DecodedInstr} (hx : s.xr = some x) : (advanceCycle s).mr = some
    (x.executed s.cfg (operandA s x) (operandB s x) (x.redirect s).isSome (x.resolution s).2) := by
  rw [mr_latched hr (hold_eq_false hr hh), executePhase_mrNext hx]

end

/-- Settles O41: the multiplexer gives the value of the rule, and `MR` has the difference of the operands. -/
theorem forwardingFeedsExecute : Obligations.ForwardingFeedsExecute := by
  unfold Obligations.ForwardingFeedsExecute
  intro s x a b hr hh hx hu1 hu2 ha hb
  have hA : operandA s x = a := operandA_eq (fun _ => ha) fun h => by rw [hu1] at h; cases h
  have hB : operandB s x = b := operandB_eq (fun _ => hb) fun h => by rw [hu2] at h; cases h
  refine ⟨hA, hB, fun htag => ?_⟩
  rw [mr_of_executes hr hh hx, hA, hB, ← sub_eq_wrap64]
  simp [DecodedInstr.executed, htag, executeResult, Alu.sub]

/-- Settles O42: the entry of `MR` is `DecodedInstr.executed` of the forwarded operands. -/
theorem executeFillsMemoryRegister : Obligations.ExecuteFillsMemoryRegister := by
  unfold Obligations.ExecuteFillsMemoryRegister
  refine fun s hr hh => ⟨fun hx => ?bubble, fun x a b hx ha ha0 hb hb0 => ?instr⟩
  case bubble =>
    obtain ⟨hmr, hred⟩ := executePhase_bubble hx
    exact ⟨(mr_latched hr (hold_eq_false hr hh)).trans hmr, (runCycle_redirect hr hh).trans hred⟩
  case instr =>
    refine ⟨_, mr_of_executes hr hh hx, rfl, rfl, rfl, rfl, rfl, ?_, ?_, fun h => executeResult_eq_zero h .., ?_, ?_,
      ?_⟩
    · simp only [DecodedInstr.executed, Bool.or_eq_true, operandA_eq ha ha0, add_eq_wrap64]
    · simp only [DecodedInstr.executed, operandB_eq hb hb0]
    · rintro (h | h) <;> simp [DecodedInstr.executed, executeResult, h, nextWord_eq_wrap64]
    · intro h; simp [DecodedInstr.executed, executeResult, h]
    · intro h; simp [DecodedInstr.executed, executeResult, h, relTarget_eq_wrap64]

/-- A redirect: `pc` is its target, the two younger instructions are squashed, and Fetch does nothing (R327, R328). -/
theorem squashed_of_redirect {s : State} (hr : s.Runs) (hh : (memoryPhase s).hold = false) {target : Word}
    (ht : (executePhase s).redirect = some target) :
    let t := advanceCycle s
    t.pc = target ∧ t.xr = none ∧ t.dr = none ∧ t.btb = (executePhase s).state.btb ∧
      (s.icFsm = .idle → t.icFsm = .idle) ∧ t.icLines = (afterFillStep s).icLines := by
  have hf : fetchPhase s = { state := (executePhase s).state, drNext := none, missed := false, issued := false } := by
    simp [fetchPhase, ht, fetchStage_redirected]
  have hpc := executePhase_pc s
  rw [advanceCycle_latched hr hh, hf]
  refine ⟨by rw [latch_pc, hpc, ht]; rfl, by simp [decodeStage, ht], rfl, rfl, fun hidle => ?_, ?_⟩
  · simp [executePhase, afterFillStep_icFsm_idle hidle]
  · simp [executePhase]

/-- Settles O43: a transfer redirects to its true next pc unless Fetch went there, and nothing else redirects. -/
theorem transfersResolveInExecute : Obligations.TransfersResolveInExecute := by
  unfold Obligations.TransfersResolveInExecute
  intro s x hr hh hx
  have hhold := hold_eq_false hr hh
  refine ⟨_, mr_of_executes hr hh hx, rfl, rfl, fun hc => ?transfer, fun hc => ?other, fun target ht => ?squash⟩
  · rw [runCycle_redirect hr hh, executePhase_redirect hx]
    have hred := x.redirect_of_transfers s hc
    refine ⟨hred, ?_⟩
    simp only [DecodedInstr.executed, hred]
    split <;> simp [*]
  · rw [runCycle_redirect hr hh, executePhase_redirect hx]
    have hbranch : x.tag.isBranch = false := by
      by_contra hb
      exact hc (.inl (by simpa using hb))
    exact ⟨x.redirect_of_not_transfers s hc, by simp [DecodedInstr.executed, x.redirect_of_not_transfers s hc],
      by simp [DecodedInstr.executed, x.resolution_of_not_branch hbranch]⟩
  · rw [runCycle_redirect hr hh] at ht
    exact squashed_of_redirect hr hhold ht

theorem Btb.setIfInBounds_eq_set (btb : Btb) (i : Fin 32) (p : Option BtbEntry) :
    btb.setIfInBounds i.val p = btb.set i p := by
  ext j hj
  rw [Vector.getElem_setIfInBounds, Vector.getElem_set]

/-- Settles O44: Execute finds the first entry of the branch and updates it by its target. -/
theorem branchResolutionUpdatesItsEntry : Obligations.BranchResolutionUpdatesItsEntry := by
  unfold Obligations.BranchResolutionUpdatesItsEntry
  intro s x hr hh hx
  rw [executePhase_btb hx]
  refine ⟨_, mr_of_executes hr hh hx, fun hb => ?other, fun hb => ?branch⟩
  case other => simp [DecodedInstr.executed, x.resolution_of_not_branch hb]
  case branch =>
    simp only [DecodedInstr.executed, DecodedInstr.resolution_of_branch hb (x.trueNext_eq s (.inl hb))]
    refine ⟨fun hnone => by simp [resolve_of_find_none (Btb.find_eq_none hnone)], fun i e he htag hfirst => ?_⟩
    have hf := Btb.find_eq_some he htag hfirst
    refine ⟨fun hunset => ?_, fun hsame => ?_, fun u hother hu => ?_⟩
    · rw [resolve_of_unset hf hunset, htag, Btb.setIfInBounds_eq_set]; exact ⟨rfl, rfl⟩
    · rw [resolve_of_same hf hsame]; exact ⟨rfl, rfl⟩
    · rw [resolve_of_other hf hother hu, htag, Btb.setIfInBounds_eq_set]; exact ⟨rfl, rfl⟩

end Sys2Proof.Machine
end

section
/-! SUPPORT. The pipeline controller (R250 to R265) and the load-use hazard (R300 to R308): what a cycle writes, emits,
keeps and latches, field by field. -/

namespace Sys2Proof.Machine

/-- Settles O26: an instruction performs one of four effects, and a cycle is a function. -/
theorem everyStepAnswersNext : Obligations.EveryStepAnswersNext := by
  unfold Obligations.EveryStepAnswersNext
  intro s
  cases hl : s.level
  case cycle => exact ⟨advanceCycle s, by simp [step, hl]⟩
  case architectural =>
    rw [step_architectural hl, instrStep]
    split
    · exact ⟨_, rfl⟩
    split
    · split
      · exact ⟨_, exec_eq_perform (x := decodedAt _ s) rfl rfl false false⟩
      · exact ⟨_, rfl⟩
    · exact ⟨_, rfl⟩

/-! ### Writeback and retirement (R254, R255) -/

theorem advanceCycle_held {s : State} (hr : s.Runs) (hh : (memoryPhase s).hold = true) :
    advanceCycle s = afterFillStep s := by
  rw [advanceCycle, runCycle_held hr hh]

/-- The register file after Writeback, as R254 words it. -/
theorem regsAfterWr_eq_set (s : State) : regsAfterWr s =
    match s.wr with
    | some w => if w.wr = true ∧ w.rd ≠ 0 then s.regs.set w.rd w.result else s.regs
    | none => s.regs := by
  rcases hw : s.wr with _ | w
  · simp [regsAfterWr, hw]
  · by_cases hd : w.rd = 0 <;> simp [regsAfterWr, hw, RegFile.write, hd]

/-- A core that does not run is halted, or halts. -/
theorem regs_of_not_runs {s : State} (h : ¬s.Runs) : (advanceCycle s).regs = s.regs := by
  rcases advanceCycle_cases s with ⟨_, e⟩ | ⟨_, _, _, e⟩ | ⟨hr, _⟩ | ⟨hr, _⟩
  · rw [e]
  · rw [e]; rfl
  · exact absurd hr h
  · exact absurd hr h

theorem regs_of_runs {s : State} (hr : s.Runs) : (advanceCycle s).regs = regsAfterWr s := by
  cases hh : (memoryPhase s).hold
  · exact regs_latched hr hh
  · rw [advanceCycle_held hr hh, afterFillStep_regs, writeback_regs_eq]

/-- Settles O30: Writeback is evaluated in held cycles too, and no later stage writes a register. -/
theorem writebackIsTheOnlyRegisterWriter : Obligations.WritebackIsTheOnlyRegisterWriter := by
  unfold Obligations.WritebackIsTheOnlyRegisterWriter
  exact fun s => ⟨fun hr => (regs_of_runs hr).trans (regsAfterWr_eq_set s), regs_of_not_runs⟩

/-- Settles O31: the retire stage is evaluated exactly when nothing holds. -/
theorem retireEventsOfACycle : Obligations.RetireEventsOfACycle := by
  unfold Obligations.RetireEventsOfACycle
  intro s hr
  rw [holdAll_eq hr]
  cases hh : (memoryPhase s).hold
  · rw [if_neg (by decide), programEvents_latched hr hh]
    rfl
  · rw [if_pos rfl, advanceCycle_held hr hh, programEvents_afterFillStep]
    rfl

/-! ### Hold and latch (R252, R265) -/

/-- Settles O32: a held cycle ends with the fill step, any other with the latch. -/
theorem latchAndHold : Obligations.LatchAndHold := by
  unfold Obligations.LatchAndHold
  refine fun s hr => ⟨fun hh => ?_, fun hh => ?_⟩
  · rw [holdAll_eq hr] at hh
    rw [advanceCycle_held hr hh]
    exact ⟨afterFillStep_dr s, afterFillStep_xr s, afterFillStep_mr s, afterFillStep_wr s, afterFillStep_pc s,
      afterFillStep_btb s, (afterFillStep_mem s).trans (memoryPhase_held_mem hh), afterFillStep_halted s,
      afterFillStep_cfg s, afterFillStep_level s, programEvents_afterFillStep s⟩
  · rw [advanceCycle_latched hr (hold_eq_false hr hh)]
    exact ⟨rfl, rfl, rfl, rfl⟩

/-- Settles O34: the Memory stage of a bubble, and of an instruction that makes no access. -/
theorem memoryPassesOthersThrough : Obligations.MemoryPassesOthersThrough := by
  unfold Obligations.MemoryPassesOthersThrough
  refine fun s hr => ⟨fun hm => ?_, fun m hm hl hs => ?_⟩
  · have hp : memoryPhase s = _ := memoryStage_bubble (by rw [writeback_mr, hm])
    have hh : (memoryPhase s).hold = false := by rw [hp]
    exact ⟨(holdAll_eq hr).trans hh, by rw [wr_latched hr hh, hp]⟩
  · have hp : memoryPhase s = _ := memoryStage_other (by rw [writeback_mr, hm]) hl hs
    have hh : (memoryPhase s).hold = false := by rw [hp]
    exact ⟨(holdAll_eq hr).trans hh, by rw [wr_latched hr hh, hp]; rfl⟩

/-! ### Decode and the load-use hazard (R263, R300 to R308) -/

theorem loadUseStall_congr {s t : State} (hc : t.cfg = s.cfg) (hd : t.dr = s.dr) (hx : t.xr = s.xr) :
    loadUseStall t = loadUseStall s := by
  simp only [loadUseStall, hc, hd, hx]

theorem loadUseStall_executePhase (s : State) : loadUseStall (executePhase s).state = loadUseStall s :=
  loadUseStall_congr (executePhase_cfg s) (executePhase_dr s) (executePhase_xr s)

theorem loadUseStall_iff {s : State} : loadUseStall s = true ↔
    ∃ f x, s.dr = some f ∧ s.xr = some x ∧ x.tag.isLoad = true ∧ x.rd ≠ 0 ∧
      (((decodeOperands s.cfg f.iw).usesRs1 = true ∧ (decodeOperands s.cfg f.iw).rs1 = x.rd) ∨
        ((decodeOperands s.cfg f.iw).usesRs2 = true ∧ (decodeOperands s.cfg f.iw).rs2 = x.rd)) := by
  rcases hd : s.dr with _ | f
  · simp [loadUseStall, hd]
  rcases hx : s.xr with _ | x
  · simp [loadUseStall, hd, hx]
  · simp [loadUseStall, readsLoadResult, hd, hx, and_assoc]

/-- A register that the instruction in `WR` writes in this cycle (R308). -/
theorem readReg_of_writeback {s : State} (hr : s.Runs) {w : CompletedInstr} (hw : s.wr = some w) (hwr : w.wr = true)
    (hd : w.rd ≠ 0) : (advanceCycle s).readReg w.rd = w.result := by
  have hregs : (advanceCycle s).regs = RegFile.write s.regs w.rd w.result := by
    rw [regs_of_runs hr]; simp [regsAfterWr, hw, hwr]
  rw [State.readReg_of_regs hregs, if_pos ⟨rfl, hd⟩]

/-- Settles O45: Decode comes after Writeback in the cycle, and the later stages write no register. -/
theorem decodeReadsAfterWriteback : Obligations.DecodeReadsAfterWriteback := by
  unfold Obligations.DecodeReadsAfterWriteback
  intro s hr hh
  have hhold := hold_eq_false hr hh
  have hxr : (advanceCycle s).xr = decodeStage (executePhase s).state (executePhase s).redirect.isSome := by
    rw [advanceCycle_latched hr hhold, latch_xr]
  rw [runCycle_stall hr hh, runCycle_redirect hr hh]
  refine ⟨fun hd => ?bubble, fun f hf => ⟨fun hc => ?squashed, fun hst hred => ⟨?decoded, fun w hw hwr hrd => ?read⟩⟩⟩
  case bubble => simp [hxr, decodeStage, loadUseStall, hd]
  case squashed =>
    rw [hxr, decodeStage, if_pos]
    simpa using hc
  case decoded =>
    have hread : ∀ r, (executePhase s).state.readReg r = (advanceCycle s).readReg r := by
      intro r
      rw [State.readReg, State.readReg, executePhase_regs, regs_latched hr hhold, writeback_regs_eq]
    rw [hxr, decodeStage, if_neg (by simp [hst, hred]), executePhase_dr, hf]
    simp only [Option.map_some, FetchedInstr.decoded, executePhase_cfg, hread]
  case read =>
    exact ⟨fun h => by rw [h]; exact readReg_of_writeback hr hw hwr hrd,
      fun h => by rw [h]; exact readReg_of_writeback hr hw hwr hrd⟩

theorem not_transfersControl_of_isLoad {tag : Tag} (h : tag.isLoad = true) : ¬transfersControl tag := by
  cases tag <;> simp [Tag.isLoad] at h <;> decide

/-- A bubble in `XR` causes no stall. -/
theorem runCycle_stall_of_bubble {t : State} (hx : t.xr = none) : (runCycle t).stall = false := by
  rcases advanceCycle_cases t with ⟨hh, _⟩ | ⟨w, hh, hw, _⟩ | ⟨hr, hh, _⟩ | ⟨hr, hh, _⟩
  · rw [runCycle_halted hh]; rfl
  · rw [runCycle_halts hh hw]; rfl
  · rw [runCycle_held hr hh]
  · rw [runCycle_latched hr hh]
    exact (loadUseStall_executePhase t).trans (loadUseStall_bubble hx)

/-- A cycle that stalls: Execute has a load, which neither redirects nor touches the table, and Fetch does nothing. -/
theorem stalled_cycle {s : State} (hr : s.Runs) (hh : (memoryPhase s).hold = false) (hs : loadUseStall s = true) :
    let t := advanceCycle s
    t.xr = none ∧ t.dr = s.dr ∧ t.pc = s.pc ∧ t.btb = s.btb ∧ (s.icFsm = .idle → t.icFsm = .idle) := by
  obtain ⟨f, x, hd, hx, hl, -⟩ := loadUseStall_iff.1 hs
  have hnt := not_transfersControl_of_isLoad hl
  have hred : (executePhase s).redirect = none := by rw [executePhase_redirect hx, x.redirect_of_not_transfers s hnt]
  have hbtb : (executePhase s).state.btb = s.btb := by
    rw [executePhase_btb hx, x.resolution_of_not_branch]
    by_contra hb
    exact hnt (.inl (by simpa using hb))
  have hst := (loadUseStall_executePhase s).trans hs
  have hf : fetchPhase s =
      { state := (executePhase s).state, drNext := (executePhase s).state.dr, missed := false, issued := false } := by
    rw [fetchPhase, hred, hst]; exact fetchStage_stalled ..
  rw [advanceCycle_latched hr hh, hf]
  refine ⟨by simp [decodeStage, hst], executePhase_dr s, ?_, hbtb, fun hidle => ?_⟩
  · rw [latch_pc, executePhase_pc, hred]; rfl
  · simp [executePhase, afterFillStep_icFsm_idle hidle]

/-- Settles O46: the stall is the hazard of R301, and it leaves a bubble in `XR`, which stalls nothing. -/
theorem loadUseHazardStallsOneCycle : Obligations.LoadUseHazardStallsOneCycle := by
  unfold Obligations.LoadUseHazardStallsOneCycle
  intro s hr hh
  rw [runCycle_stall hr hh, loadUseStall_executePhase]
  refine ⟨loadUseStall_iff, fun hs => ?_⟩
  obtain ⟨hxr, hdr, hpc, hbtb, hidle⟩ := stalled_cycle hr (hold_eq_false hr hh) hs
  exact ⟨hxr, hdr, hpc, hbtb, hidle, fun x hx => by rw [mr_of_executes hr hh hx]; rfl, runCycle_stall_of_bubble hxr⟩

end Sys2Proof.Machine
end

section
/-! SUPPORT. The branch target buffer and Fetch: entries persist (R320, R324, R332); what Fetch delivers at a hit and
asks for at a miss (R264, R321 to R325, R350 to R358). -/

namespace Sys2Proof.Machine

/-! ### Entries persist (R320, R332) -/

/-- Every entry of the first table has its slot in the second, and a known target there. -/
def Btb.Persists (btb btb' : Btb) : Prop :=
  ∀ (i : Fin 32) (e : BtbEntry), btb.get i = some e →
    ∃ e', btb'.get i = some e' ∧ e'.tag = e.tag ∧ (e.target.isSome = true → e'.target.isSome = true)

theorem Btb.Persists.refl (btb : Btb) : btb.Persists btb := fun _ e he => ⟨e, he, rfl, id⟩

theorem Btb.Persists.trans {a b c : Btb} (hab : a.Persists b) (hbc : b.Persists c) : a.Persists c := by
  intro i e he
  obtain ⟨e', he', htag', htarget'⟩ := hab i e he
  obtain ⟨e'', he'', htag'', htarget''⟩ := hbc i e' he'
  exact ⟨e'', he'', htag''.trans htag', htarget'' ∘ htarget'⟩

/-- Resolution writes a target into the slot of its own entry. -/
theorem Btb.Persists.resolve (btb : Btb) (pc tnpc : Word) : btb.Persists (resolve btb pc tnpc).1 := by
  rcases resolve_cases btb pc tnpc with h | ⟨j, e, hf, h⟩ <;> rw [h]
  · exact .refl btb
  obtain ⟨j, rfl, hj⟩ := Btb.get_of_find hf
  intro i e' he'
  rw [Btb.get_setIfInBounds]
  by_cases hij : j = i
  · subst hij
    obtain rfl : e = e' := by simpa [hj] using he'
    exact ⟨_, if_pos rfl, rfl, fun _ => rfl⟩
  · exact ⟨e', by rw [if_neg hij, he'], rfl, id⟩

/-- Fetch allocates in an empty slot. -/
theorem Btb.Persists.predict (btb : Btb) (pc : Word) (iw : InstrWord) : btb.Persists (predict btb pc iw).btb := by
  rcases predict_cases btb pc iw with h | ⟨j, -, hj, h⟩ <;> rw [h]
  · exact .refl btb
  intro i e he
  have hij : j ≠ i := by rintro rfl; rw [hj] at he; cases he
  exact ⟨e, by rw [Btb.get_setIfInBounds, if_neg hij, he], rfl, id⟩

theorem Btb.Persists.executePhase (s : State) : s.btb.Persists (executePhase s).state.btb := by
  rcases hx : s.xr with _ | x
  · rw [executePhase_btb_bubble hx]; exact .refl _
  rw [executePhase_btb hx]
  by_cases hb : x.tag.isBranch = true
  · obtain ⟨tnpc, ht⟩ := DecodedInstr.trueNext_of_isBranch hb s
    rw [DecodedInstr.resolution_of_branch hb ht]
    exact Btb.Persists.resolve _ _ _
  · rw [DecodedInstr.resolution_of_not_branch (by simpa using hb)]; exact .refl _

theorem Btb.Persists.fetchStage (s : State) (redirect stall idle0 : Bool) :
    s.btb.Persists (fetchStage s redirect stall idle0).state.btb := by
  unfold Machine.fetchStage
  split; · exact .refl _
  split; · exact .refl _
  split; · exact .refl _
  split
  · split
    · exact Btb.Persists.predict _ _ _
    · rw [icIssue_btb]; exact .refl _
  · exact .refl _

/-- Settles O53: in a cycle only the resolution in Execute and the prediction in Fetch write the table. -/
theorem btbEntriesPersist : Obligations.BtbEntriesPersist := by
  unfold Obligations.BtbEntriesPersist
  intro s
  rcases advanceCycle_cases s with ⟨_, h⟩ | ⟨_, _, _, h⟩ | ⟨_, _, h⟩ | ⟨_, _, h⟩ <;> rw [h]
  · exact Btb.Persists.refl _
  · exact Btb.Persists.refl _
  · rw [afterFillStep_btb]; exact Btb.Persists.refl _
  · exact (Btb.Persists.executePhase s).trans (Btb.Persists.fetchStage (Machine.executePhase s).state _ _ _)

/-! ### Instruction-cache addresses in numbers (R350, R351) -/

theorem icIndex_eq (a : Word) : icIndex a = a.toNat / 16 % 512 := by
  simp [icIndex, Nat.shiftRight_eq_div_pow]

theorem icTag_toNat (a : Word) : (icTag a).toNat = a.toNat / 2 ^ 13 := by
  have := a.isLt
  rw [icTag, BitVec.extractLsb'_toNat, Nat.shiftRight_eq_div_pow, Nat.mod_eq_of_lt (by omega)]

theorem icHolds_iff {lines : List (Nat × IcLine)} {a : Word} {line : IcLine} :
    IcHolds lines a line ↔ icLookup lines a = some line := by
  rw [icLookup_eq_some_iff, icIndex_eq, ← BitVec.toNat_inj, icTag_toNat]
  exact Iff.rfl

theorem icLookup_eq_none_of {lines : List (Nat × IcLine)} {a : Word} (h : ∀ line, ¬IcHolds lines a line) :
    icLookup lines a = none :=
  Option.eq_none_iff_forall_ne_some.2 fun line hl => h line (icHolds_iff.2 hl)

theorem icWord_eq (a : Word) : icWord a = Fin.ofNat 4 (a.toNat / 4) :=
  Fin.ext (by simp [icWord, Nat.shiftRight_eq_div_pow])

theorem icBase_eq_ofNat (a : Word) : icBase a = BitVec.ofNat 64 (a.toNat / 16 * 16) := by
  have := a.isLt
  apply BitVec.eq_of_toNat_eq
  rw [icBase_toNat, BitVec.toNat_ofNat]
  omega

/-! ### What Fetch does when it looks (R264) -/

/-- Fetch that finds the line of `pc` (R352). -/
theorem fetchStage_hit {s : State} {line : IcLine} (ha : aligned s.pc 4 = true)
    (hl : icLookup s.icLines s.pc = some line) :
    let iw := line.words.get (icWord s.pc)
    let p := predict s.btb s.pc iw
    fetchStage s false false true =
      { state := { s with btb := p.btb, pc := p.npc }, missed := false, issued := false
        drNext := some { pc := s.pc, iw := iw, pred := p.pred, predNpc := p.npc } } := by
  simp [fetchStage, ha, hl]

/-- Fetch that does not (R353). -/
theorem fetchStage_miss {s : State} (ha : aligned s.pc 4 = true) (hl : icLookup s.icLines s.pc = none) :
    fetchStage s false false true =
      { state := (icIssue s s.pc).2, drNext := none, missed := true, issued := (icIssue s s.pc).1 } := by
  simp [fetchStage, ha, hl]

/-- The Execute stage of a cycle in which Fetch looks leaves `pc` and the instruction cache to it. -/
theorem executePhase_of_looks {s : State} (h : s.FetchLooks) :
    (memoryPhase s).hold = false ∧ fetchPhase s = fetchStage (executePhase s).state false false true ∧
      (executePhase s).state.pc = s.pc ∧ (executePhase s).state.icLines = s.icLines ∧
      (executePhase s).state.icFsm = .idle := by
  obtain ⟨hr, hh, hred, hst, hic⟩ := h
  have hhold := hold_eq_false hr hh
  rw [runCycle_redirect hr hh] at hred
  rw [runCycle_stall hr hh] at hst
  have hfill : afterFillStep s = (memoryPhase s).state := icFillStep_idle (by simp [memoryPhase, hic])
  refine ⟨hhold, ?_, by rw [executePhase_pc, hred]; rfl, ?_, ?_⟩
  · rw [fetchPhase, hred, hst, hic]; rfl
  · simp [executePhase, hfill, memoryPhase]
  · simp [executePhase, afterFillStep_icFsm_idle hic]

/-- A cycle in which Fetch hits: `DR`, `pc` and the table are the predictor's. -/
theorem advanceCycle_fetch_hit {s : State} {line : IcLine} (h : s.FetchLooks) (ha : aligned s.pc 4 = true)
    (hl : icLookup s.icLines s.pc = some line) :
    let iw := line.words.get (icWord s.pc)
    let p := predict (executePhase s).state.btb s.pc iw
    let t := advanceCycle s
    t.dr = some { pc := s.pc, iw := iw, pred := p.pred, predNpc := p.npc } ∧ t.pc = p.npc ∧ t.btb = p.btb ∧
      t.icFsm = .idle ∧ t.icLines = s.icLines := by
  obtain ⟨hhold, hf, hpc, hlines, hic⟩ := executePhase_of_looks h
  rw [fetchStage_hit (line := line) (by rw [hpc, ha]) (by rw [hlines, hpc, hl])] at hf
  intro iw p t
  have ht : t = _ := advanceCycle_latched h.1 hhold
  rw [ht, hf]
  simp only [hpc, latch_dr, latch_pc, latch_btb, latch_icFsm, latch_icLines]
  exact ⟨rfl, rfl, rfl, hic, hlines⟩

/-! ### The predictor at Fetch (R321 to R324) -/

theorem isBackward_iff (iw : InstrWord) : isBackward iw = true ↔ InstrWord.bits iw 31 31 = 1 := by
  rw [isBackward, BitVec.getLsbD, Nat.testBit_eq_decide_div_mod_eq]
  simp [InstrWord.bits]

/-- A word is a conditional branch when its opcode is the branches' and its `funct3` none of the two that are no
branch (R321). -/
theorem isCondBranch_iff (iw : InstrWord) : isCondBranch iw = true ↔
    InstrWord.bits iw 6 0 = 0b1100011 ∧ InstrWord.bits iw 14 12 ≠ 0b010 ∧ InstrWord.bits iw 14 12 ≠ 0b011 := by
  have hop : InstrWord.opcode iw = 0b1100011#7 ↔ InstrWord.bits iw 6 0 = 0b1100011 :=
    ⟨fun h => (toNat_extract iw 0 7).symm.trans (congrArg BitVec.toNat h), fun h => opcode_eq_of_bits h⟩
  have hf : (InstrWord.funct3 iw).toNat = InstrWord.bits iw 14 12 := toNat_extract iw 12 3
  rw [isCondBranch, Bool.and_eq_true, beq_iff_eq, hop, ← hf]
  refine and_congr_right fun _ => ?_
  generalize InstrWord.funct3 iw = f
  revert f
  decide

section
variable {btb : Btb} {pc : Word} {iw : InstrWord}

theorem predict_of_not_backward (h : ¬(isCondBranch iw = true ∧ isBackward iw = true)) :
    predict btb pc iw = { btb, pred := false, npc := nextWord pc } := by
  rw [predict, if_neg (by rwa [Bool.and_eq_true])]

variable (h : isCondBranch iw = true ∧ isBackward iw = true)
include h

theorem predict_of_scan_hit {e : BtbEntry} (hs : Btb.scan btb pc = .hit e) (he : e.target = none) :
    predict btb pc iw = { btb, pred := false, npc := nextWord pc } := by
  obtain ⟨tag, _⟩ := e
  obtain rfl := he
  simp [predict, h, hs]

theorem predict_of_scan_known {e : BtbEntry} {target : Word} (hs : Btb.scan btb pc = .hit e)
    (he : e.target = some target) : predict btb pc iw = { btb, pred := true, npc := target } := by
  obtain ⟨tag, _⟩ := e
  obtain rfl := he
  simp [predict, h, hs]

theorem predict_of_scan_empty {i : Nat} (hs : Btb.scan btb pc = .empty i) : predict btb pc iw =
    { btb := btb.setIfInBounds i (some { tag := pc, target := none }), pred := false, npc := nextWord pc } := by
  simp [predict, h, hs]

theorem predict_of_scan_full (hs : Btb.scan btb pc = .full) :
    predict btb pc iw = { btb, pred := false, npc := nextWord pc } := by
  simp [predict, h, hs]

end

/-- Settles O47: the cycle is Fetch's at the table that Execute left, and the scan has three ends. -/
theorem fetchHitDeliversAndPredicts : Obligations.FetchHitDeliversAndPredicts := by
  unfold Obligations.FetchHitDeliversAndPredicts
  intro s line hlooks hp hline
  obtain ⟨hdr, hpc, hbtb, hic, hlines⟩ :=
    advanceCycle_fetch_hit hlooks (aligned_iff.2 hp) (icHolds_iff.1 hline)
  rw [icWord_eq] at hdr hpc hbtb
  intro t iw table backward unpredicted missesBelow
  have hback : backward ↔ isCondBranch iw = true ∧ isBackward iw = true := by
    rw [isCondBranch_iff, isBackward_iff, and_assoc, and_assoc]
  have hunpredicted {btb : Btb} (h : predict table s.pc iw = { btb, pred := false, npc := nextWord s.pc }) :
      unpredicted ∧ t.btb = btb := by
    rw [h, nextWord_eq_wrap64] at hdr hpc
    rw [h] at hbtb
    exact ⟨⟨hdr, hpc⟩, hbtb⟩
  refine ⟨hic, hlines, fun hb => hunpredicted (predict_of_not_backward (hback.not.1 hb)), fun hb => ?_⟩
  have hb := hback.1 hb
  refine ⟨fun i e hmiss he htag => ?hit, fun i hmiss he => ?empty, fun hmiss => ?full⟩
  case hit =>
    have hs : Btb.scan table s.pc = .hit e := Btb.scan_eq_hit hmiss he htag
    refine ⟨?table, fun ht => (hunpredicted (predict_of_scan_hit hb hs ht)).1, fun target ht => ?known⟩
    case known =>
      rw [predict_of_scan_known hb hs ht] at hdr hpc
      exact ⟨hdr, hpc⟩
    case table =>
      rcases ht : e.target with _ | target
      · exact (hunpredicted (predict_of_scan_hit hb hs ht)).2
      · exact hbtb.trans (by rw [predict_of_scan_known hb hs ht])
  case empty =>
    rw [← Btb.setIfInBounds_eq_set]
    exact hunpredicted (predict_of_scan_empty hb (Btb.scan_eq_empty hmiss he))
  case full => exact hunpredicted (predict_of_scan_full hb (Btb.scan_eq_full hmiss))

end Sys2Proof.Machine
end

section
/-! SUPPORT. The fill of the instruction cache (R353 to R358), the cases of a load in Memory, and that no line of either
cache is lost (R374). -/

namespace Sys2Proof.Machine

/-! ### The Memory stage of a load (R257, R361 to R364) -/

section
variable {s : State} {m : ExecutedInstr} (ha : aligned m.addr (accessBytes m.tag) = true)
include ha

theorem loadStage_hit {line : DcLine} (hf : s.dcFsm = .idle) (hl : dcLookup s.dcLines m.addr = some line) :
    loadStage s m =
      { state := s, hold := false, dMiss := false, issued := false
        wrNext := some (m.completed m.rd true (loadValue m.tag (dcRaw line m.addr))) } := by
  simp [loadStage, ha, hf, hl]

theorem loadStage_miss (hf : s.dcFsm = .idle) (hl : dcLookup s.dcLines m.addr = none) :
    loadStage s m =
      { state := (dcIssue s m.addr).2, hold := true, wrNext := none, dMiss := true
        issued := (dcIssue s m.addr).1 } := by
  simp [loadStage, ha, hf, hl]

theorem loadStage_wait {base : Word} {data : BitVec 64} (hf : s.dcFsm = .wait base data) :
    loadStage s m =
      { state := dcPoll s base data, hold := true, wrNext := none, dMiss := true, issued := false } := by
  simp [loadStage, ha, hf]

theorem loadStage_commit {base : Word} {data : BitVec 64} (hf : s.dcFsm = .commit base data) :
    loadStage s m =
      { state := dcCommit s base data, hold := true, wrNext := none, dMiss := true, issued := false } := by
  simp [loadStage, ha, hf]

end

/-- A load that does not hold found its line. -/
theorem loadStage_state_of_not_held {s : State} {m : ExecutedInstr} (h : (loadStage s m).hold = false) :
    (loadStage s m).state = s := by
  unfold loadStage at h ⊢
  split at h
  · rename_i ha
    rw [if_pos ha]
    split at h
    · split at h
      · rfl
      · cases h
    · cases h
    · cases h
  · cases h

/-- A Memory stage that does not hold has made at most the call of its store. -/
theorem memoryStage_bus_of_not_held {s : State} (h : (memoryStage s).hold = false) :
    ∃ calls, (memoryStage s).state.bus = calls ++ s.bus ∧ calls.length ≤ 1 ∧ ∀ c ∈ calls, ∃ m, s.mr = some m ∧
      c = (BusCall.writeMemory m.addr (lowBytes (accessBytes m.tag) m.sdata) (accessBytes m.tag), true) := by
  rcases hm : s.mr with _ | m
  · exact ⟨[], by simp [memoryStage_bubble hm]⟩
  cases hl : m.tag.isLoad
  · cases hs : m.tag.isStore
    · exact ⟨[], by simp [memoryStage_other hm hl hs]⟩
    · rw [memoryStage_store hm hs] at h ⊢
      cases ha : aligned m.addr (accessBytes m.tag)
      · simp [storeStage, ha] at h
      · rw [storeStage_aligned ha] at h ⊢
        split at h
        · rename_i hok
          refine ⟨[(.writeMemory m.addr (lowBytes (accessBytes m.tag) m.sdata) (accessBytes m.tag), true)], ?_, le_rfl,
            fun c hc => ⟨m, rfl, by simpa using hc⟩⟩
          simp [hok]
        · cases h
  · rw [memoryStage_load hm hl] at h ⊢
    exact ⟨[], by rw [loadStage_state_of_not_held h]; rfl, by simp, by simp⟩

/-! ### A miss of Fetch (R353, R358) -/

/-- The issue of an instruction fill by its answer. -/
theorem icIssue_bus (s : State) (a : Word) :
    (icIssue s a).2.bus = (.readMemory (icBase a) 16, (icIssue s a).1) :: s.bus := by
  rw [icIssue_eq]
  dsimp only
  split <;> simp_all

theorem icIssue_of_answered {s : State} {a : Word} (h : (icIssue s a).1 = true) :
    (icIssue s a).2.icFsm = .wait (icBase a) (BitVec.ofNat 128 (s.mem.read (icBase a) 16)) := by
  rw [icIssue_eq] at h ⊢
  dsimp only at h ⊢
  split at h
  · rename_i hok; rw [if_pos hok]
  · cases h

theorem icIssue_of_refused {s : State} {a : Word} (h : (icIssue s a).1 = false) :
    (icIssue s a).2.icFsm = s.icFsm ∧ (icIssue s a).2.events = .memFault .iFillFail (icBase a) :: s.events := by
  rw [icIssue_eq] at h ⊢
  dsimp only at h ⊢
  split at h
  · cases h
  · rename_i hok; rw [if_neg hok]; simp

theorem executePhase_bus {s : State} (hic : s.icFsm = .idle) :
    (executePhase s).state.bus = (memoryPhase s).state.bus := by
  rw [executePhase, executeStage_bus, retireStage_bus, afterFillStep, icFillStep_idle (by simp [memoryPhase, hic])]

theorem advanceCycle_fetch_miss {s : State} (h : s.FetchLooks) (ha : aligned s.pc 4 = true)
    (hl : icLookup s.icLines s.pc = none) :
    let r := icIssue (executePhase s).state s.pc
    let t := advanceCycle s
    t.dr = none ∧ t.pc = s.pc ∧ t.icLines = s.icLines ∧ t.bus = r.2.bus ∧ t.icFsm = r.2.icFsm ∧
      t.events = r.2.events ∧ t.mem = (executePhase s).state.mem ∧ (runCycle s).firstCacheStall = r.1 := by
  obtain ⟨hhold, hf, hpc, hlines, -⟩ := executePhase_of_looks h
  rw [fetchStage_miss (by rw [hpc, ha]) (by rw [hlines, hpc, hl]), hpc] at hf
  rw [advanceCycle_latched h.1 hhold, runCycle_latched h.1 hhold, hf]
  exact ⟨rfl, (icIssue_pc ..).trans hpc, (icIssue_icLines ..).trans hlines, rfl, rfl, rfl, icIssue_mem .., rfl⟩

/-- Settles O48: the cycle is the issue of Fetch, after the calls of a Memory stage that did not hold. -/
theorem fetchMissIssuesTheFill : Obligations.FetchMissIssuesTheFill := by
  unfold Obligations.FetchMissIssuesTheFill
  intro s hlooks hp hmiss
  obtain ⟨-, -, -, -, hidle⟩ := id hlooks
  obtain ⟨hhold, -, -, -, hic⟩ := executePhase_of_looks hlooks
  obtain ⟨hdr, hpc, hlines, hbus, hfsm, hevents, hmem, hfirst⟩ :=
    advanceCycle_fetch_miss hlooks (aligned_iff.2 hp) (icLookup_eq_none_of hmiss)
  obtain ⟨earlier, hearlier, hlen, hcalls⟩ := memoryStage_bus_of_not_held hhold
  rw [writeback_bus] at hearlier
  rw [writeback_mr] at hcalls
  rw [icIssue_bus, executePhase_bus hidle] at hbus
  dsimp only
  rw [memNat_eq_read, hmem, ← icBase_eq_ofNat]
  refine ⟨hdr, hpc, hlines, _, earlier, hbus.trans (congrArg _ hearlier), hcalls, hlen, hfirst,
    fun hok => ?_, fun hok => ?_⟩
  · exact hfsm.trans (icIssue_of_answered hok)
  · obtain ⟨hkept, hreport⟩ := icIssue_of_refused hok
    exact ⟨hfsm.trans (hkept.trans hic), _, hevents.trans hreport⟩

/-! ### The instruction fill controller (R354, R355) -/

/-- While the controller is busy Fetch makes no call. -/
theorem fetchStage_busy (s : State) (redirect stall : Bool) : (fetchStage s redirect stall false).state = s := by
  cases redirect <;> cases stall <;> rfl

theorem fetchStage_busy_drNext (s : State) (redirect : Bool) : (fetchStage s redirect false false).drNext = none := by
  cases redirect <;> rfl

/-- A cycle of a running core with a busy controller leaves what its fill step left. -/
theorem advanceCycle_busy {s : State} (hr : s.Runs) (hic : s.icFsm ≠ .idle) :
    let t := advanceCycle s
    t.icLines = (afterFillStep s).icLines ∧ t.icFsm = (afterFillStep s).icFsm ∧ t.bus = (afterFillStep s).bus ∧
      ((runCycle s).holdAll = false → (runCycle s).stall = false → t.dr = none) := by
  have hf : fetchPhase s =
      fetchStage (executePhase s).state (executePhase s).redirect.isSome (loadUseStall (executePhase s).state)
        false := by
    rw [fetchPhase, decide_eq_false hic]
  cases hh : (memoryPhase s).hold
  · rw [advanceCycle_latched hr hh, runCycle_latched hr hh, hf]
    simp only [latch_icLines, latch_icFsm, latch_bus, latch_dr, fetchStage_busy]
    refine ⟨by simp [executePhase], by simp [executePhase], by simp [executePhase], fun _ hst => ?_⟩
    rw [hst]
    exact fetchStage_busy_drNext ..
  · rw [advanceCycle_held hr hh, runCycle_held hr hh]
    exact ⟨rfl, rfl, rfl, fun h => nomatch h⟩

theorem icFillLine_word_toNat (base : Word) (data : BitVec 128) (k : Fin 4) :
    ((icFillLine base data).words.get k).toNat = data.toNat / 2 ^ (32 * k.val) % 2 ^ 32 := by
  rw [icFillLine_words, BitVec.extractLsb'_toNat, Nat.shiftRight_eq_div_pow]

/-- Settles O49: the fill step is evaluated in every cycle, before Fetch, which is silent meanwhile. -/
theorem instructionFillSteps : Obligations.InstructionFillSteps := by
  unfold Obligations.InstructionFillSteps
  intro s base data hr
  have hmem : (memoryPhase s).state.icFsm = s.icFsm := by simp [memoryPhase]
  have hlines : (memoryPhase s).state.icLines = s.icLines := by simp [memoryPhase]
  refine ⟨fun hbusy => ?bubble, fun hw => ?wait, fun hc => ?commit⟩
  case bubble =>
    obtain ⟨-, -, -, hdr⟩ := advanceCycle_busy hr (by rcases hbusy with h | h <;> simp [h])
    exact hdr
  case wait =>
    obtain ⟨htl, htf, htb, -⟩ := advanceCycle_busy hr (by simp [hw])
    have hfill : afterFillStep s = _ := icFillStep_wait (hmem.trans hw)
    rw [htl, htf, htb, hfill]
    refine ⟨by split <;> simp [hlines], ((memoryPhase s).state.ask (.memoryReady base)).1, (memoryPhase s).state.bus,
      ?_, ?_⟩
    · split <;> simp
    · split
      · rfl
      · simp [hmem, hw]
  case commit =>
    obtain ⟨htl, htf, -, -⟩ := advanceCycle_busy hr (by simp [hc])
    have hfill : afterFillStep s = _ := icFillStep_commit (hmem.trans hc)
    rw [htl, htf, hfill, hlines]
    refine ⟨rfl, ⟨icFillLine base data, icHolds_iff.2 (icLookup_eq_some_iff.2 ⟨?_, rfl⟩),
      icFillLine_word_toNat base data⟩, fun i hi => ?_⟩
    · exact (Assoc.lookup_insert ..).trans (if_pos rfl)
    · exact (Assoc.lookup_insert ..).trans (if_neg (by rw [icIndex_eq]; exact hi.symm))

/-! ### Data-cache addresses in numbers (R360) -/

theorem dcIndex_eq (a : Word) : dcIndex a = a.toNat / 8 % 2048 := by
  simp [dcIndex, Nat.shiftRight_eq_div_pow]

theorem dcTag_toNat (a : Word) : (dcTag a).toNat = a.toNat / 2 ^ 14 := by
  have := a.isLt
  rw [dcTag, BitVec.extractLsb'_toNat, Nat.shiftRight_eq_div_pow, Nat.mod_eq_of_lt (by omega)]

theorem dcHolds_iff {lines : List (Nat × DcLine)} {a : Word} {line : DcLine} :
    DcHolds lines a line ↔ dcLookup lines a = some line := by
  rw [dcLookup_eq_some_iff, dcIndex_eq, ← BitVec.toNat_inj, dcTag_toNat]
  exact Iff.rfl

theorem dcLookup_eq_none_of {lines : List (Nat × DcLine)} {a : Word} (h : ∀ line, ¬DcHolds lines a line) :
    dcLookup lines a = none :=
  Option.eq_none_iff_forall_ne_some.2 fun line hl => h line (dcHolds_iff.2 hl)

theorem dcBase_eq_ofNat (a : Word) : dcBase a = BitVec.ofNat 64 (a.toNat / 8 * 8) := by
  have := a.isLt
  apply BitVec.eq_of_toNat_eq
  rw [dcBase_toNat, BitVec.toNat_ofNat]
  omega

/-! ### Lines are kept (R374) -/

theorem Assoc.lookup_insert_isSome {α : Type} {l : List (Nat × α)} {i : Nat} (h : (Assoc.lookup l i).isSome = true)
    (key : Nat) (v : α) : (Assoc.lookup (Assoc.insert l key v) i).isSome = true := by
  rw [Assoc.lookup_insert]
  split
  · rfl
  · exact h

theorem State.storeThrough_dcLines_of_none {s : State} {a : Word} (h : dcLookup s.dcLines a = none) (n : Nat)
    (v : Word) : (s.storeThrough a n v).dcLines = s.dcLines := by
  simp [State.storeThrough, h]

theorem State.storeThrough_dcLines_of_some {s : State} {a : Word} {line : DcLine}
    (h : dcLookup s.dcLines a = some line) (n : Nat) (v : Word) :
    (s.storeThrough a n v).dcLines =
      Assoc.insert s.dcLines (dcIndex a) { line with data := replaceBytes line.data (dcOffset a) n v } := by
  simp [State.storeThrough, h]

/-- What Memory may do to the lines of the data cache: nothing, the commit of a fill, the store that hits. -/
theorem memoryStage_dcLines (s : State) :
    (memoryStage s).state.dcLines = s.dcLines ∨
    (∃ base data line, s.dcFsm = .commit base data ∧
      (memoryStage s).state.dcLines = Assoc.insert s.dcLines (dcIndex base) line) ∨
    ∃ m line line', s.mr = some m ∧ m.tag.isStore = true ∧ dcLookup s.dcLines m.addr = some line ∧
      (memoryStage s).state.dcLines = Assoc.insert s.dcLines (dcIndex m.addr) line' := by
  rcases hm : s.mr with _ | m
  · exact .inl (by simp [memoryStage_bubble hm])
  cases hl : m.tag.isLoad
  · cases hs : m.tag.isStore
    · exact .inl (by simp [memoryStage_other hm hl hs])
    rw [memoryStage_store hm hs]
    cases ha : aligned m.addr (accessBytes m.tag)
    · exact .inl (by simp [storeStage, ha])
    rw [storeStage_aligned ha]
    split
    · rcases hd : dcLookup s.dcLines m.addr with _ | line
      · exact .inl (by simp [State.storeThrough_dcLines_of_none, hd])
      · exact .inr (.inr ⟨m, line, _, rfl, hs, hd, by
          rw [State.storeThrough_dcLines_of_some (by rw [State.ask_dcLines, hd]), State.ask_dcLines]⟩)
    · exact .inl (by simp)
  · rw [memoryStage_load hm hl]
    cases ha : aligned m.addr (accessBytes m.tag)
    · exact .inl (by simp [loadStage, ha])
    rcases hf : s.dcFsm with _ | ⟨base, data⟩ | ⟨base, data⟩
    · rcases hd : dcLookup s.dcLines m.addr with _ | line
      · exact .inl (by simp [loadStage_miss ha hf hd])
      · exact .inl (by simp [loadStage_hit ha hf hd])
    · exact .inl (by simp [loadStage_wait ha hf])
    · exact .inr (.inl ⟨base, data, _, rfl, by rw [loadStage_commit ha hf]; rfl⟩)

theorem icFillStep_icLines (s : State) :
    (icFillStep s).icLines = s.icLines ∨
    ∃ base data line, s.icFsm = .commit base data ∧
      (icFillStep s).icLines = Assoc.insert s.icLines (icIndex base) line := by
  rcases hf : s.icFsm with _ | ⟨base, data⟩ | ⟨base, data⟩
  · exact .inl (by rw [icFillStep_idle hf])
  · rw [icFillStep_wait hf]
    exact .inl (by split <;> simp)
  · exact .inr ⟨base, data, _, rfl, by rw [icFillStep_commit hf]⟩

/-- The lines after a cycle are those after the fill step. -/
theorem advanceCycle_lines (s : State) :
    ((advanceCycle s).icLines = s.icLines ∧ (advanceCycle s).dcLines = s.dcLines) ∨
    ((advanceCycle s).icLines = (afterFillStep s).icLines ∧
      (advanceCycle s).dcLines = (memoryPhase s).state.dcLines) := by
  rcases advanceCycle_cases s with ⟨_, h⟩ | ⟨_, _, _, h⟩ | ⟨_, _, h⟩ | ⟨_, _, h⟩ <;> rw [h]
  · exact .inl ⟨rfl, rfl⟩
  · exact .inl ⟨rfl, rfl⟩
  · exact .inr ⟨rfl, icFillStep_dcLines _⟩
  · exact .inr ⟨fetchPhase_icLines s, fetchPhase_dcLines s⟩

theorem advanceCycle_icLines (s : State) :
    (advanceCycle s).icLines = s.icLines ∨
    ∃ base data line, s.icFsm = .commit base data ∧
      (advanceCycle s).icLines = Assoc.insert s.icLines (icIndex base) line := by
  rcases advanceCycle_lines s with ⟨h, -⟩ | ⟨h, -⟩
  · exact .inl h
  · have hmem : (memoryPhase s).state.icFsm = s.icFsm := by simp [memoryPhase]
    have hlines : (memoryPhase s).state.icLines = s.icLines := by simp [memoryPhase]
    rw [h, ← hmem, ← hlines]
    exact icFillStep_icLines _

theorem advanceCycle_dcLines (s : State) :
    (advanceCycle s).dcLines = s.dcLines ∨
    (∃ base data line, s.dcFsm = .commit base data ∧
      (advanceCycle s).dcLines = Assoc.insert s.dcLines (dcIndex base) line) ∨
    ∃ m line line', s.mr = some m ∧ m.tag.isStore = true ∧ dcLookup s.dcLines m.addr = some line ∧
      (advanceCycle s).dcLines = Assoc.insert s.dcLines (dcIndex m.addr) line' := by
  rcases advanceCycle_lines s with ⟨-, h⟩ | ⟨-, h⟩
  · exact .inl h
  · rw [h]
    simpa [memoryPhase] using memoryStage_dcLines (writeback s)

theorem Assoc.index_of_lookup_insert_ne {α : Type} {l : List (Nat × α)} {key i : Nat} {v : α}
    (h : Assoc.lookup (Assoc.insert l key v) i ≠ Assoc.lookup l i) : i = key := by
  by_contra hne
  exact h ((Assoc.lookup_insert ..).trans (if_neg (Ne.symm hne)))

/-- Settles O51: the lines change by an insertion only. -/
theorem linesAreNeverInvalidated : Obligations.LinesAreNeverInvalidated := by
  unfold Obligations.LinesAreNeverInvalidated
  intro s i
  refine ⟨fun hi => ?_, fun hi => ?_, fun hne => ?_, fun hne => ?_⟩
  · rcases advanceCycle_icLines s with h | ⟨_, _, _, -, h⟩ <;> rw [h]
    · exact hi
    · exact Assoc.lookup_insert_isSome hi ..
  · rcases advanceCycle_dcLines s with h | ⟨_, _, _, -, h⟩ | ⟨_, _, _, -, -, -, h⟩ <;> rw [h]
    · exact hi
    · exact Assoc.lookup_insert_isSome hi ..
    · exact Assoc.lookup_insert_isSome hi ..
  · rcases advanceCycle_icLines s with h | ⟨base, data, _, hc, h⟩ <;> rw [h] at hne
    · exact absurd rfl hne
    · exact ⟨base, data, hc, (Assoc.index_of_lookup_insert_ne hne).trans (icIndex_eq base)⟩
  · rcases advanceCycle_dcLines s with h | ⟨base, data, _, hc, h⟩ | ⟨m, line, _, hm, hs, hl, h⟩ <;> rw [h] at hne
    · exact absurd rfl hne
    · exact .inl ⟨base, data, hc, (Assoc.index_of_lookup_insert_ne hne).trans (dcIndex_eq base)⟩
    · exact .inr ⟨m, line, hm, hs, (Assoc.index_of_lookup_insert_ne hne).trans (dcIndex_eq m.addr), dcHolds_iff.2 hl⟩

end Sys2Proof.Machine
end

section
/-! SUPPORT. The data cache in the cycle: the load that hits (R361), the fill protocol and its cost (R362 to R365, R369,
R370), and the store that writes through (R366 to R368). -/

namespace Sys2Proof.Machine

/-! ### The call log of a cycle -/

/-- The fill step of the instruction cache adds at most its poll. -/
theorem icFillStep_bus (s : State) : ∃ later, (icFillStep s).bus = later ++ s.bus ∧
    ∀ c ∈ later, ∃ b d, s.icFsm = .wait b d ∧ c.1 = BusCall.memoryReady b := by
  rcases hf : s.icFsm with _ | ⟨base, data⟩ | ⟨base, data⟩
  · exact ⟨[], by rw [icFillStep_idle hf]; rfl, by simp⟩
  · refine ⟨[(.memoryReady base, (s.ask (.memoryReady base)).1)], ?_, by simp⟩
    rw [icFillStep_wait hf]
    split <;> simp
  · exact ⟨[], by rw [icFillStep_commit hf]; rfl, by simp⟩

theorem fetchStage_bus (s : State) (redirect stall idle0 : Bool) :
    ∃ later, (fetchStage s redirect stall idle0).state.bus = later ++ s.bus := by
  rcases fetchStage_state s redirect stall idle0 with h | ⟨_, h⟩ | h | h <;> rw [h]
  · exact ⟨[], rfl⟩
  · exact ⟨[], rfl⟩
  · exact ⟨[_], icIssue_bus ..⟩
  · exact ⟨[], rfl⟩

/-- The calls of a cycle after Memory's come later in the log. -/
theorem advanceCycle_bus {s : State} (hr : s.Runs) :
    ∃ later, (advanceCycle s).bus = later ++ (memoryPhase s).state.bus := by
  obtain ⟨fill, hfill, -⟩ := icFillStep_bus (memoryPhase s).state
  cases hh : (memoryPhase s).hold
  · obtain ⟨fetch, hfetch⟩ := fetchStage_bus (executePhase s).state (executePhase s).redirect.isSome
      (loadUseStall (executePhase s).state) (decide (s.icFsm = .idle))
    refine ⟨fetch ++ fill, ?_⟩
    rw [advanceCycle_latched hr hh, latch_bus, fetchPhase, hfetch, executePhase, executeStage_bus, retireStage_bus,
      afterFillStep, hfill, List.append_assoc]
  · exact ⟨fill, by rw [advanceCycle_held hr hh]; exact hfill⟩

/-! ### A load that hits (R361) -/

theorem memoryPhase_load {s : State} {m : ExecutedInstr} (hm : s.mr = some m) (hl : m.tag.isLoad = true) :
    memoryPhase s = loadStage (writeback s) m :=
  memoryStage_load (by rw [writeback_mr, hm]) hl

/-- A load takes the bytes of the line from its offset on. -/
theorem loadValue_dcRaw_eq_loadedNat {tag : Tag} (ht : tag.isLoad = true) (line : DcLine) (a : Word) :
    loadValue tag (dcRaw line a) =
      loadedNat tag (line.data.toNat / 2 ^ (8 * (a.toNat % 8)) % 2 ^ (8 * accessBytes tag)) := by
  rw [← loadValue_ofNat ht (Nat.mod_lt _ (Nat.two_pow_pos _))]
  refine loadValue_congr ht fun j hj => ?_
  have h64 : j < 64 := by have := (accessBytes_load ht).le; omega
  rw [dcRaw, dcOffset_eq, BitVec.getLsbD_ushiftRight, BitVec.getLsbD_ofNat, Nat.testBit_mod_two_pow,
    Nat.testBit_div_two_pow, BitVec.getLsbD, Nat.add_comm]
  simp [hj, h64]

section
variable {s : State} {m : ExecutedInstr} (hr : s.Runs) (hm : s.mr = some m) (hl : m.tag.isLoad = true)
include hr hm hl

/-- A cycle that a load holds: Memory's state after the fill step of the instruction cache. -/
theorem advanceCycle_load_held (hh : (loadStage (writeback s) m).hold = true) :
    (runCycle s).holdAll = true ∧ (advanceCycle s).mr = some m ∧
      advanceCycle s = icFillStep (loadStage (writeback s) m).state := by
  have hhold : (memoryPhase s).hold = true := by rw [memoryPhase_load hm hl, hh]
  refine ⟨(holdAll_eq hr).trans hhold, ?_, ?_⟩
  · rw [advanceCycle_held hr hhold, afterFillStep_mr, hm]
  · rw [advanceCycle_held hr hhold, afterFillStep, memoryPhase_load hm hl]

theorem advanceCycle_load_hit (ha : aligned m.addr (accessBytes m.tag) = true) {line : DcLine}
    (hf : s.dcFsm = .idle) (hlook : dcLookup s.dcLines m.addr = some line) :
    (memoryPhase s).hold = false ∧
      (advanceCycle s).wr = some (m.completed m.rd true (loadValue m.tag (dcRaw line m.addr))) ∧
      (advanceCycle s).dcLines = s.dcLines ∧ (advanceCycle s).dcFsm = .idle := by
  have hp : memoryPhase s = _ := (memoryPhase_load hm hl).trans
    (loadStage_hit ha (by rw [writeback_dcFsm, hf]) (by rw [writeback_dcLines, hlook]))
  have hh : (memoryPhase s).hold = false := by rw [hp]
  rw [wr_latched hr hh, advanceCycle_latched hr hh, latch_dcLines, latch_dcFsm, fetchPhase_dcLines,
    fetchPhase_dcFsm, hp]
  exact ⟨rfl, rfl, writeback_dcLines s, (writeback_dcFsm s).trans hf⟩

end

/-- Settles O35: the hit is Memory's, and the later stages leave the data cache alone. -/
theorem loadHitCompletes : Obligations.LoadHitCompletes := by
  unfold Obligations.LoadHitCompletes
  intro s m line hr hm hl ha hf hline
  obtain ⟨hhold, hwr, hlines, hfsm⟩ := advanceCycle_load_hit hr hm hl (aligned_iff.2 ha) hf (dcHolds_iff.1 hline)
  rw [loadValue_dcRaw_eq_loadedNat hl] at hwr
  exact ⟨(holdAll_eq hr).trans hhold, hwr, hlines, hfsm⟩

/-! ### The fill protocol (R362 to R364, R369) -/

/-- The issue of a data fill by its answer. -/
theorem dcIssue_bus (s : State) (a : Word) :
    (dcIssue s a).2.bus = (.readMemory (dcBase a) 8, (dcIssue s a).1) :: s.bus := by
  rw [dcIssue_eq]
  dsimp only
  split <;> simp_all

theorem dcIssue_of_answered {s : State} {a : Word} (h : (dcIssue s a).1 = true) :
    (dcIssue s a).2.dcFsm = .wait (dcBase a) (s.mem.readWord (dcBase a) 8) ∧ (dcIssue s a).2.events = s.events := by
  rw [dcIssue_eq] at h ⊢
  dsimp only at h ⊢
  split at h
  · rename_i hok; rw [if_pos hok]; simp
  · cases h

theorem dcIssue_of_refused {s : State} {a : Word} (h : (dcIssue s a).1 = false) :
    (dcIssue s a).2.dcFsm = s.dcFsm ∧ (dcIssue s a).2.events = .memFault .readFail (dcBase a) :: s.events := by
  rw [dcIssue_eq] at h ⊢
  dsimp only at h ⊢
  split at h
  · cases h
  · rename_i hok; rw [if_neg hok]; simp

theorem dcPoll_bus (s : State) (base : Word) (data : BitVec 64) :
    (dcPoll s base data).bus = (.memoryReady base, (s.ask (.memoryReady base)).1) :: s.bus := by
  rw [dcPoll_eq]
  dsimp only
  split <;> simp

theorem dcPoll_dcFsm {s : State} {base : Word} {data : BitVec 64} (h : s.dcFsm = .wait base data) :
    (dcPoll s base data).dcFsm = if (s.ask (.memoryReady base)).1 then .commit base data else .wait base data := by
  rw [dcPoll_eq]
  dsimp only
  split
  · rfl
  · rw [State.ask_dcFsm, h]

theorem dcLookup_dcCommit_base (s : State) (base : Word) (data : BitVec 64) :
    dcLookup (dcCommit s base data).dcLines base = some { tag := dcTag base, data := data } :=
  dcLookup_eq_some_iff.2 ⟨(Assoc.lookup_insert ..).trans (if_pos rfl), rfl⟩

/-- The call of Memory in a cycle that a load holds, and the poll that may follow it. -/
theorem advanceCycle_bus_held {s t u : State} {call : BusCall × Bool} (ht : t = icFillStep u)
    (hu : u.bus = call :: s.bus) (hic : u.icFsm = s.icFsm) :
    ∃ later, t.bus = later ++ call :: s.bus ∧
      ∀ c ∈ later, ∃ b d, s.icFsm = .wait b d ∧ c.1 = BusCall.memoryReady b := by
  obtain ⟨later, hbus, hpoll⟩ := icFillStep_bus u
  exact ⟨later, by rw [ht, hbus, hu], by rwa [← hic]⟩

/-- Settles O36: one case of the load in Memory for each state of the fill controller. -/
theorem dataMissProtocol : Obligations.DataMissProtocol := by
  unfold Obligations.DataMissProtocol
  intro s m hr hm hl hal
  have ha : aligned m.addr (accessBytes m.tag) = true := aligned_iff.2 hal
  have hwf : (writeback s).dcFsm = s.dcFsm := writeback_dcFsm s
  refine ⟨fun hf hmiss => ?issue, fun b data hf => ?wait, fun b data hf => ?commit⟩
  case issue =>
    have hs := loadStage_miss ha (hwf.trans hf) (by rw [writeback_dcLines, dcLookup_eq_none_of hmiss])
    obtain ⟨hhold, hmr, ht⟩ := advanceCycle_load_held hr hm hl (by rw [hs])
    rw [hs] at ht
    obtain ⟨later, hbus, hpoll⟩ := advanceCycle_bus_held (s := s) ht (by rw [dcIssue_bus, writeback_bus])
      (by rw [dcIssue_icFsm, writeback_icFsm])
    have hfirst : (runCycle s).firstCacheStall = (dcIssue (writeback s) m.addr).1 := by
      rw [runCycle_held hr ((holdAll_eq hr).symm.trans hhold), memoryPhase_load hm hl, hs]
    dsimp only
    rw [memNat_eq_read, ← dcBase_eq_ofNat]
    refine ⟨hhold, hmr, by rw [ht]; simp, _, later, hbus, hpoll, hfirst, fun hok => ?_, fun hok => ?_⟩
    · obtain ⟨hfsm, hevents⟩ := dcIssue_of_answered hok
      rw [ht, icFillStep_dcFsm, icFillStep_events, hfsm, hevents, writeback_mem, writeback_events]
      exact ⟨rfl, rfl⟩
    · obtain ⟨hfsm, hevents⟩ := dcIssue_of_refused hok
      rw [ht, icFillStep_dcFsm, icFillStep_events, hfsm, hevents, writeback_events]
      exact ⟨hwf.trans hf, rfl⟩
  case wait =>
    have hs := loadStage_wait ha (hwf.trans hf)
    obtain ⟨hhold, hmr, ht⟩ := advanceCycle_load_held hr hm hl (by rw [hs])
    rw [hs] at ht
    obtain ⟨later, hbus, hpoll⟩ := advanceCycle_bus_held (s := s) ht (by rw [dcPoll_bus, writeback_bus])
      (by rw [dcPoll_icFsm, writeback_icFsm])
    refine ⟨hhold, hmr, by rw [ht]; simp, _, later, hbus, hpoll, ?_⟩
    rw [ht, icFillStep_dcFsm, dcPoll_dcFsm (hwf.trans hf)]
  case commit =>
    have hs := loadStage_commit ha (hwf.trans hf)
    obtain ⟨hhold, hmr, ht⟩ := advanceCycle_load_held hr hm hl (by rw [hs])
    rw [hs] at ht
    rw [ht, icFillStep_dcFsm, icFillStep_dcLines]
    refine ⟨hhold, ht ▸ hmr, rfl, ⟨_, dcHolds_iff.2 (dcLookup_dcCommit_base ..), rfl⟩, fun i hi => ?_⟩
    rw [dcCommit, Assoc.lookup_insert, if_neg (by rw [dcIndex_eq]; exact hi.symm), writeback_dcLines]

/-! ### The cost of a miss (R365, R370) -/

/-- The next `n` cycles hold with the instruction in `MR`, and then the property holds. -/
def State.HeldUntil (m : ExecutedInstr) (P : State → Prop) (n : Nat) (s : State) : Prop :=
  (∀ j, j < n → (runCycle (runCycles j s)).holdAll = true ∧ (runCycles j s).mr = some m) ∧ P (runCycles n s)

theorem State.HeldUntil.succ {m : ExecutedInstr} {P : State → Prop} {n : Nat} {s : State}
    (hh : (runCycle s).holdAll = true) (hm : s.mr = some m) (h : (advanceCycle s).HeldUntil m P n) :
    s.HeldUntil m P (n + 1) := by
  obtain ⟨hheld, hP⟩ := h
  refine ⟨fun j hj => ?_, hP⟩
  cases j with
  | zero => exact ⟨hh, hm⟩
  | succ j => exact hheld j (Nat.lt_of_succ_lt_succ hj)

/-- A load in the Memory stage of a running core whose only calls are the load's. -/
structure State.LoadAlone (s : State) (m : ExecutedInstr) (answers : List Bool) : Prop where
  runs : s.Runs
  icIdle : s.icFsm = .idle
  mr : s.mr = some m
  answers : s.answers = answers

/-- The line of the load is there. -/
def State.LoadReady (m : ExecutedInstr) (data : Word) (answers : List Bool) (s : State) : Prop :=
  s.LoadAlone m answers ∧ s.dcFsm = .idle ∧ ∃ line, dcLookup s.dcLines m.addr = some line ∧ line.data = data

section
variable {s : State} {m : ExecutedInstr} {rest : List Bool} (hl : m.tag.isLoad = true)
include hl

/-- One held cycle of such a load: the state is Memory's. -/
theorem State.LoadAlone.held {l : List Bool} (h : s.LoadAlone m l) {u : State}
    (hu : (loadStage (writeback s) m).state = u) (hh : (loadStage (writeback s) m).hold = true)
    (hic : u.icFsm = s.icFsm) (hans : u.answers = rest) :
    (runCycle s).holdAll = true ∧ advanceCycle s = u ∧ (advanceCycle s).LoadAlone m rest := by
  obtain ⟨hr, hidle, hm, -⟩ := h
  obtain ⟨hhold, hmr, ht⟩ := advanceCycle_load_held hr hm hl hh
  have hu' : advanceCycle s = u := by rw [ht, hu, icFillStep_idle (hic.trans hidle)]
  have hruns : (advanceCycle s).Runs := by
    rw [advanceCycle_held hr ((holdAll_eq hr).symm.trans hhold)]
    exact hr.afterFillStep
  exact ⟨hhold, hu', hruns, by rw [hu', hic, hidle], hmr, by rw [hu', hans]⟩

variable (ha : aligned m.addr (accessBytes m.tag) = true)
include ha

theorem State.LoadAlone.issue (h : s.LoadAlone m (true :: rest)) (hf : s.dcFsm = .idle)
    (hlook : dcLookup s.dcLines m.addr = none) :
    (runCycle s).holdAll = true ∧ (advanceCycle s).LoadAlone m rest ∧
      (advanceCycle s).dcFsm = .wait (dcBase m.addr) (s.mem.readWord (dcBase m.addr) 8) := by
  have hs := loadStage_miss (s := writeback s) ha (by rw [writeback_dcFsm, hf]) (by rw [writeback_dcLines, hlook])
  have hask := State.ask_cons (s := writeback s) (by rw [writeback_answers, h.answers]) (.readMemory (dcBase m.addr) 8)
  obtain ⟨hhold, hu, halone⟩ := h.held hl (rest := rest) (congrArg MemoryOut.state hs) (by rw [hs])
    (by simp) (by rw [dcIssue_eq, hask]; rfl)
  refine ⟨hhold, halone, ?_⟩
  rw [hu, (dcIssue_of_answered (by rw [dcIssue_eq, hask]; rfl)).1, writeback_mem]

theorem State.LoadAlone.poll {ready : Bool} {base : Word} {data : BitVec 64} (h : s.LoadAlone m (ready :: rest))
    (hf : s.dcFsm = .wait base data) :
    (runCycle s).holdAll = true ∧ (advanceCycle s).LoadAlone m rest ∧
      (advanceCycle s).dcFsm = if ready then .commit base data else .wait base data := by
  have hwf : (writeback s).dcFsm = .wait base data := (writeback_dcFsm s).trans hf
  have hs := loadStage_wait ha hwf
  have hask := State.ask_cons (s := writeback s) (by rw [writeback_answers, h.answers]) (.memoryReady base)
  obtain ⟨hhold, hu, halone⟩ := h.held hl (rest := rest) (congrArg MemoryOut.state hs) (by rw [hs])
    (by simp) (by rw [dcPoll_eq, hask]; cases ready <;> rfl)
  exact ⟨hhold, halone, by rw [hu, dcPoll_dcFsm hwf, hask]⟩

theorem State.LoadAlone.commit {data : BitVec 64} (h : s.LoadAlone m rest)
    (hf : s.dcFsm = .commit (dcBase m.addr) data) :
    (runCycle s).holdAll = true ∧ (advanceCycle s).LoadReady m data rest := by
  have hs := loadStage_commit ha ((writeback_dcFsm s).trans hf)
  obtain ⟨hhold, hu, halone⟩ := h.held hl (rest := rest) (congrArg MemoryOut.state hs) (by rw [hs])
    (by simp) (by rw [dcCommit_answers, writeback_answers, h.answers])
  refine ⟨hhold, halone, by rw [hu]; rfl, { tag := dcTag (dcBase m.addr), data := data }, ?_, rfl⟩
  rw [hu, dcLookup_eq_some_iff, dcCommit, Assoc.lookup_insert, if_pos]
  · exact ⟨rfl, by rw [← dcLineAddr_index_tag, dcTag_dcLineAddr]⟩
  · rw [← dcLineAddr_index_tag, dcIndex_dcLineAddr (dcIndex_lt _)]

/-- From the wait on: a cycle for each poll, and the commit. -/
theorem State.LoadAlone.heldUntil_of_wait {data : BitVec 64} (k : Nat)
    (h : s.LoadAlone m (List.replicate k false ++ true :: rest)) (hf : s.dcFsm = .wait (dcBase m.addr) data) :
    s.HeldUntil m (State.LoadReady m data rest) (k + 2) := by
  induction k generalizing s with
  | zero =>
    obtain ⟨hhold, halone, hfsm⟩ := State.LoadAlone.poll hl ha h hf
    obtain ⟨hhold', hready⟩ := halone.commit hl ha hfsm
    exact .succ hhold h.mr (.succ hhold' halone.mr ⟨fun _ hj => absurd hj (Nat.not_lt_zero _), hready⟩)
  | succ k ih =>
    obtain ⟨hhold, halone, hfsm⟩ := State.LoadAlone.poll hl ha h hf
    exact .succ hhold h.mr (ih halone hfsm)

end

/-- Settles O39: the issue, `k + 1` polls and the commit hold; then the load hits the line that was read. -/
theorem dataMissCostsTwoMoreThanItsPolls : Obligations.DataMissCostsTwoMoreThanItsPolls := by
  unfold Obligations.DataMissCostsTwoMoreThanItsPolls
  intro s m k rest hr hic hm hl hal hf hmiss hans
  have ha : aligned m.addr (accessBytes m.tag) = true := aligned_iff.2 hal
  have h : s.LoadAlone m (true :: (List.replicate k false ++ true :: rest)) := ⟨hr, hic, hm, hans⟩
  obtain ⟨hhold, halone, hfsm⟩ := h.issue hl ha hf (dcLookup_eq_none_of hmiss)
  obtain ⟨hheld, hready, hidle, line, hline, hdata⟩ :=
    State.HeldUntil.succ hhold hm (halone.heldUntil_of_wait hl ha k hfsm)
  obtain ⟨hdone, hwr, -, -⟩ := advanceCycle_load_hit hready.runs hready.mr hl ha hidle hline
  refine ⟨fun j hj => hheld j (by omega), (holdAll_eq hready.runs).trans hdone, hready.answers, ?_⟩
  rw [runCycles_add (k + 3) 1, ← loadValue_readWord hl, ← loadValue_dcRaw hl ha hdata]
  exact hwr

/-! ### A store writes through (R366 to R368) -/

/-- A byte of a line after a store: the store's, if it covers it. -/
theorem extractLsb'_replaceBytes (data v : Word) {off n k : Nat} (hk : k < 8) :
    (replaceBytes data off n v).extractLsb' (8 * k) 8 =
      if off ≤ k ∧ k < off + n then v.extractLsb' (8 * (k - off)) 8 else data.extractLsb' (8 * k) 8 := by
  apply BitVec.eq_of_getLsbD_eq
  intro j hj
  rw [BitVec.getLsbD_extractLsb', getLsbD_replaceBytes _ _ _ _ (by omega)]
  by_cases h : off ≤ k ∧ k < off + n
  · rw [if_pos h, if_pos (by omega), BitVec.getLsbD_extractLsb', show 8 * k + j - 8 * off = 8 * (k - off) + j by omega]
  · rw [if_neg h, if_neg (by omega), BitVec.getLsbD_extractLsb']

theorem State.storeThrough_lookup_of_ne (s : State) (a : Word) (n : Nat) (v : Word) {i : Nat} (hi : i ≠ dcIndex a) :
    Assoc.lookup (s.storeThrough a n v).dcLines i = Assoc.lookup s.dcLines i := by
  rcases hl : dcLookup s.dcLines a with _ | line
  · rw [State.storeThrough_dcLines_of_none hl]
  · rw [State.storeThrough_dcLines_of_some hl, Assoc.lookup_insert, if_neg hi.symm]

theorem State.dcLookup_storeThrough {s : State} {a : Word} {line : DcLine} (hl : dcLookup s.dcLines a = some line)
    (n : Nat) (v : Word) : dcLookup (s.storeThrough a n v).dcLines a =
      some { line with data := replaceBytes line.data (dcOffset a) n v } := by
  rw [State.storeThrough_dcLines_of_some hl, dcLookup_eq_some_iff, Assoc.lookup_insert, if_pos rfl]
  exact ⟨rfl, (dcLookup_eq_some_iff.1 hl).2⟩

/-- Settles O37: the answer to the call decides; memory and line are those of the store that took effect. -/
theorem storeWritesThrough : Obligations.StoreWritesThrough := by
  unfold Obligations.StoreWritesThrough
  intro s m hr hmem hm hs hal
  have ha : aligned m.addr (accessBytes m.tag) = true := aligned_iff.2 hal
  have hp : memoryPhase s = _ := (memoryStage_store (by rw [writeback_mr, hm]) hs).trans (storeStage_aligned ha)
  obtain ⟨later, hbus⟩ := advanceCycle_bus hr
  dsimp only at hp ⊢
  rw [← lowBytes_eq_ofNat, ← dcIndex_eq, ← dcOffset_eq]
  generalize hcall : BusCall.writeMemory m.addr (lowBytes (accessBytes m.tag) m.sdata) (accessBytes m.tag) = call
    at hp ⊢
  refine ⟨((writeback s).ask call).1, later, ?bus, fun hok => ?done, fun hok => ?failed⟩
  case bus => rw [hbus, hp]; split <;> simp
  case done =>
    rw [if_pos hok] at hp
    have hh : (memoryPhase s).hold = false := by rw [hp]
    have hlines : (advanceCycle s).dcLines =
        (((writeback s).ask call).2.storeThrough m.addr (accessBytes m.tag) m.sdata).dcLines := by
      rw [advanceCycle_latched hr hh, latch_dcLines, fetchPhase_dcLines, hp]
    have hold : ((writeback s).ask call).2.dcLines = s.dcLines := by simp
    refine ⟨(holdAll_eq hr).trans hh, by rw [wr_latched hr hh, hp]; rfl, fun x => ?_, fun i hi => ?_, fun line hl => ?_,
      fun hno => ?_⟩
    · rw [mem_latched hr hh, hp, State.storeThrough_mem, State.ask_mem, writeback_mem,
        Memory.byte_write hmem _ (by have := (accessBytes_store hs).le; omega),
        BitVec.setWidth_ushiftRight_eq_extractLsb]
    · rw [hlines, State.storeThrough_lookup_of_ne _ _ _ _ hi, hold]
    · rw [dcHolds_iff, ← hold] at hl
      refine ⟨_, dcHolds_iff.2 (hlines ▸ State.dcLookup_storeThrough hl ..), fun k hk => ?_⟩
      exact extractLsb'_replaceBytes _ _ hk
    · rw [hlines, State.storeThrough_dcLines_of_none (by rw [hold, dcLookup_eq_none_of hno]), hold]
  case failed =>
    rw [if_neg (by simp [hok])] at hp
    have hh : (memoryPhase s).hold = true := by rw [hp]
    rw [advanceCycle_held hr hh]
    refine ⟨(holdAll_eq hr).trans hh, (afterFillStep_mr s).trans hm, (afterFillStep_mem s).trans ?_, ?_, ?_⟩
    · rw [hp]; simp
    · rw [afterFillStep, icFillStep_dcLines, hp]; simp
    · rw [afterFillStep, icFillStep_events, hp]; simp

end Sys2Proof.Machine
end

section
/-! SUPPORT. Progress and timing (R268, R373, R404): a stuck pipeline stays stuck, and the architectural machine that
both of two runs are compared with does not read the collaborator's answers. -/

namespace Sys2Proof.Machine

/-! ### Stuck pipelines (R404) -/

/-- A stuck pipeline has nothing to evaluate. -/
theorem State.Stuck.executesInstr_eq_false {s : State} (h : s.Stuck) : executesInstr s = false := by
  rw [← Bool.not_eq_true, executesInstr_iff]
  rintro ⟨hr, hh, x, hx⟩
  rcases h with h | h | ⟨hxr, -⟩
  · exact h hr
  · obtain ⟨m, hm, hmis⟩ := (Option.any_eq_true ..).1 h
    rw [(advanceCycle_misaligned hr hm hmis).1] at hh
    cases hh
  · rw [hxr] at hx
    cases hx

/-- A core that does not run does not run in the next cycle. -/
theorem not_runs_advanceCycle {s : State} (h : ¬s.Runs) : ¬(advanceCycle s).Runs := by
  rcases advanceCycle_cases s with ⟨_, e⟩ | ⟨_, _, _, e⟩ | ⟨hr, _⟩ | ⟨hr, _⟩
  · rwa [e]
  · rw [e]; exact fun hr => nomatch hr.1
  · exact absurd hr h
  · exact absurd hr h

/-- With `pc` no word address and nothing in flight before Memory, nothing comes to Execute. -/
theorem front_stays_empty {s : State} (hr : s.Runs) (hx : s.xr = none) (hd : s.dr = none)
    (ha : aligned s.pc 4 = false) :
    (advanceCycle s).xr = none ∧ (advanceCycle s).dr = none ∧ aligned (advanceCycle s).pc 4 = false := by
  have hpc : (advanceCycle s).pc = s.pc := by
    by_contra hne
    have hred := redirect_of_pc_ne ha hne
    cases hh : (runCycle s).holdAll
    · rw [runCycle_redirect hr hh, (executePhase_bubble hx).2] at hred
      cases hred
    · rw [runCycle_held hr ((holdAll_eq hr).symm.trans hh)] at hred
      cases hred
  rw [hpc]
  cases hh : (memoryPhase s).hold
  · rw [advanceCycle_latched hr hh]
    refine ⟨?_, ?_, ha⟩
    · simp [decodeStage, hd]
    · have hp : (executePhase s).state.pc = s.pc := by rw [executePhase_pc, (executePhase_bubble hx).2]; rfl
      rw [latch_dr, fetchPhase]
      unfold fetchStage
      split; · rfl
      split; · simp [hd]
      split; · rfl
      rw [if_neg (by rw [hp, ha]; decide)]
  · rw [advanceCycle_held hr hh]
    simp [hx, hd, ha]

theorem State.Stuck.advanceCycle {s : State} (h : s.Stuck) : (advanceCycle s).Stuck := by
  by_cases hr : s.Runs
  swap
  · exact .inl (not_runs_advanceCycle hr)
  rcases h with h | h | ⟨hx, hd, ha⟩
  · exact absurd hr h
  · refine .inr (.inl ?_)
    obtain ⟨m, hm, hmis⟩ := (Option.any_eq_true ..).1 h
    rwa [(advanceCycle_misaligned hr hm hmis).2.1, afterFillStep_mr]
  · exact .inr (.inr (front_stays_empty hr hx hd ha))

/-- Settles O56: progress is `executes_or_stuck`; being stuck is kept by every cycle. -/
theorem executeEvaluatesAnotherInstruction : Obligations.ExecuteEvaluatesAnotherInstruction := by
  unfold Obligations.ExecuteEvaluatesAnotherInstruction
  refine ⟨fun s hi hl h => executes_or_stuck hi hl h, fun s k hs => ?_⟩
  induction k generalizing s with
  | zero => rfl
  | succ k ih => rw [executedCount_succ, hs.executesInstr_eq_false, ih _ hs.advanceCycle]; rfl

/-! ### The collaborator's answers at the architectural level (R268, R373) -/

/-- The same state with other answers of the collaborator to come. -/
def State.withAnswers (t : State) (answers : List Bool) : State := { t with answers := answers }

theorem ExecutedInstr.perform_withAnswers (m : ExecutedInstr) (npc : Word) (t : State) (answers : List Bool) :
    m.perform npc (t.withAnswers answers) = (m.perform npc t).withAnswers answers := by
  unfold ExecutedInstr.perform
  split
  · rfl
  · split
    · rfl
    · split <;> rfl

theorem State.decodeFault_withAnswers (t : State) (iw : InstrWord) (answers : List Bool) :
    (t.withAnswers answers).decodeFault iw = (t.decodeFault iw).withAnswers answers := by
  cases hp : t.cfg.decodeFaultPolicy
  · rw [State.decodeFault_eq_of_nop iw hp, State.decodeFault_eq_of_nop (s := t.withAnswers answers) iw hp]; rfl
  · rw [State.decodeFault_eq_of_halt iw hp, State.decodeFault_eq_of_halt (s := t.withAnswers answers) iw hp]; rfl

/-- A step of the architectural machine reads no answer, uses none up, and stays at its level. -/
theorem step_withAnswers {t : State} (hl : t.level = .architectural) (answers : List Bool) :
    ∃ t', step t = .next t' ∧ step (t.withAnswers answers) = .next (t'.withAnswers answers) ∧
      t'.level = .architectural := by
  have hl' : (t.withAnswers answers).level = .architectural := hl
  rw [step_architectural hl, step_architectural hl']
  cases hh : t.halted
  case true => exact ⟨t, instrStep_halted hh, instrStep_halted hh, hl⟩
  cases ha : aligned t.pc 4
  case false => exact ⟨_, instrStep_misaligned hh ha, instrStep_misaligned hh ha, hl⟩
  rcases hd : decodeWord (t.mem.instrAt t.pc) with e | i
  · refine ⟨_, instrStep_of_decodeError hh ha hd, ?_, (State.decodeFault_level ..).trans hl⟩
    rw [← State.decodeFault_withAnswers]
    exact instrStep_of_decodeError (s := t.withAnswers answers) hh ha hd
  · rw [instrStep_of_decodes hh ha hd, instrStep_of_decodes (s := t.withAnswers answers) hh ha hd]
    refine ⟨_, exec_eq_perform (x := decodedAt i t) rfl rfl false false, ?_, ?_⟩
    · rw [← ExecutedInstr.perform_withAnswers]
      exact exec_eq_perform (s := t.withAnswers answers) (x := decodedAt i t) rfl rfl false false
    · obtain ⟨-, hlevel, -⟩ := ExecutedInstr.perform_sameCore
        (((decodedAt i t).executed t.cfg ((decodedAt i t).valA t) ((decodedAt i t).valB t) false false))
        ((decodedAt i t).nextPc t) t
      exact hlevel.trans hl

theorem runSteps_withAnswers (k : Nat) {t : State} (hl : t.level = .architectural) (answers : List Bool) :
    runSteps k (t.withAnswers answers) = (runSteps k t).withAnswers answers := by
  induction k generalizing t with
  | zero => rfl
  | succ k ih =>
    obtain ⟨t', ht, ht', hl'⟩ := step_withAnswers hl answers
    rw [runSteps_succ k ht, runSteps_succ k ht', ih hl']

/-- Settles O60: both runs have committed to what the architectural machine has after as many steps. -/
theorem resultsDoNotDependOnMemoryTiming : Obligations.ResultsDoNotDependOnMemoryTiming := by
  unfold Obligations.ResultsDoNotDependOnMemoryTiming
  intro cfg regs mem ans ans' n n' hr hm hp s s' hn hn' hcount
  obtain ⟨-, hi, -⟩ := State.launch_invariants ans hr hm hp
  obtain ⟨-, hi', -⟩ := State.launch_invariants ans' hr hm hp
  have hrun : Tracks (runSteps (executedCount n s) { s with level := .architectural }) (runCycles n s) :=
    ((State.launch_tracks cfg regs mem ans).run hi n hn).1
  have hrun' : Tracks (runSteps (executedCount n' s') { s' with level := .architectural }) (runCycles n' s') :=
    ((State.launch_tracks cfg regs mem ans').run hi' n' hn').1
  have hlaunch : ({ s' with level := .architectural } : State) =
      State.withAnswers { s with level := .architectural } ans' := rfl
  calc (runCycles n s).committedView
      = (runSteps (executedCount n s) { s with level := .architectural }).archView := hrun.view.symm
    _ = (runSteps (executedCount n' s') { s' with level := .architectural }).archView := by
        rw [hlaunch, runSteps_withAnswers _ rfl, hcount]; rfl
    _ = (runCycles n' s').committedView := hrun'.view

end Sys2Proof.Machine
end

section
/-! SUPPORT. The end of a run (R269, log 22): what follows a `jal x0, 0` in the pipeline is that same jump, which writes
no register and no memory. -/

namespace Sys2Proof.Machine

/-! ### The jump to itself -/

theorem decodeWord_selfJump : decodeWord selfJump = .ok (.jal 0 0) := by decide

theorem decodeOperands_selfJump (cfg : Config) : decodeOperands cfg selfJump = (Instr.jal 0 0).operands cfg :=
  decodeOperands_ok decodeWord_selfJump

/-- The jump in `MR` is a `jal` without a destination. -/
theorem State.Inv.mr_selfJump {s : State} (h : s.Inv) {m : ExecutedInstr} (hm : s.mr = some m) (hiw : m.iw = selfJump) :
    m.tag = .jal := by
  obtain ⟨-, -, -, -, -, ⟨-, -, hmr, -⟩, -⟩ := h
  obtain ⟨htag, -, -⟩ := hmr m hm
  rw [htag, hiw, decodeOperands_selfJump]
  rfl

theorem State.Inv.wr_selfJump {s : State} (h : s.Inv) {w : CompletedInstr} (hw : s.wr = some w)
    (hiw : w.iw = selfJump) :
    w.tag = .jal ∧ w.rd = 0 := by
  obtain ⟨-, -, -, -, -, ⟨-, -, -, hwr⟩, -⟩ := h
  obtain ⟨htag, hrd, -⟩ := hwr w hw
  rw [htag, hrd, hiw, decodeOperands_selfJump]
  exact ⟨rfl, rfl⟩

theorem misaligned_eq_false_of_jal {m : ExecutedInstr} (h : m.tag = .jal) : m.misaligned = false := by
  simp [ExecutedInstr.misaligned, h, Tag.isLoad, Tag.isStore]

theorem committedPc_of_aligned {s : State} (h : s.mr.any ExecutedInstr.misaligned = false) :
    committedPc s = frontPc s := by
  rw [committedPc_eq, if_neg (by simp [h])]

theorem committedMem_of_jal {s : State} {m : ExecutedInstr} (hm : s.mr = some m) (htag : m.tag = .jal) :
    committedMem s = s.mem := by
  simp [committedMem, hm, htag, Tag.isStore]

/-! ### Where the program goes on, over a cycle that is not held -/

section latched
variable {s : State} (hr : s.Runs) (hh : (memoryPhase s).hold = false)
include hr hh

/-- The jump to itself in Execute: it goes to `MR`, and the program goes on where it stands. -/
theorem selfJump_latched (hi : s.Inv) (hflow : s.FlowOk) {x : DecodedInstr} (hx : s.xr = some x)
    (hiw : x.iw = selfJump) :
    (∃ m, (advanceCycle s).mr = some m ∧ m.iw = selfJump ∧ m.pc = x.pc) ∧
      committedPc (advanceCycle s) = x.pc := by
  obtain ⟨-, hset⟩ := hi.xr_decoded hx
  rw [hiw, decodeOperands_selfJump] at hset
  have htag : x.tag = .jal := congrArg Decoded.tag hset
  have himm : x.imm = 0 := congrArg Decoded.imm hset
  obtain ⟨⟨br, wp, hmr⟩, hred⟩ := executePhase_evaluates hx
  rw [← mr_latched hr hh] at hmr
  have hnext : trueNextPc x.tag x.pc (operandA s x) (operandB s x) x.imm = some x.pc := by
    rw [htag, himm]
    exact congrArg some (BitVec.add_zero x.pc)
  refine ⟨⟨_, hmr, hiw, rfl⟩, ?_⟩
  obtain ⟨-, hfollow⟩ := hflow
  rw [committedPc_of_aligned, frontPc_latched hr hh, hfollow x hx, hred, hnext]
  · rfl
  · rw [hmr]
    exact misaligned_eq_false_of_jal htag

/-- A program that goes on at its own jump still does, and Execute comes to nothing else. -/
theorem State.LoopsAt.latched {p : Word} (h : s.LoopsAt p) (hi : s.RefInv)
    (hm : s.mr.any ExecutedInstr.misaligned = false) (hmem : (advanceCycle s).mem = s.mem) :
    (advanceCycle s).LoopsAt p ∧ ∀ m ∈ (advanceCycle s).mr, m.iw = selfJump ∧ m.pc = p := by
  obtain ⟨hpc, hword⟩ := h
  obtain ⟨hinv, hflow, -, ⟨-, -, -, hcode⟩, -⟩ := hi
  rw [committedPc_of_aligned hm] at hpc
  rw [State.LoopsAt, hmem]
  rcases hx : s.xr with _ | x
  · have hmr : (advanceCycle s).mr = none := by rw [mr_latched hr hh, (executePhase_bubble hx).1]
    refine ⟨⟨?_, hword⟩, by simp [hmr]⟩
    rw [committedPc_of_aligned (by rw [hmr]; rfl), frontPc_latched hr hh, (executePhase_bubble hx).2, ← hpc]
    simp [frontPc, hx]
  · obtain rfl : x.pc = p := by rw [← hpc]; simp [frontPc, hx]
    obtain ⟨⟨m, hmr, hiw, hmpc⟩, hcpc⟩ := selfJump_latched hr hh hinv hflow hx ((hcode x hx).trans hword)
    refine ⟨⟨hcpc, hword⟩, fun m' hm' => ?_⟩
    obtain rfl : m = m' := Option.some.inj (hmr.symm.trans hm')
    exact ⟨hiw, hmpc⟩

/-- What is in `WR` after the cycle was in `MR`. -/
theorem exists_mr_of_wr_latched (hi : s.Inv) {w : CompletedInstr} (hw : (advanceCycle s).wr = some w) :
    ∃ m, s.mr = some m ∧ w.pc = m.pc ∧ w.iw = m.iw := by
  rcases hm : s.mr with _ | m
  · rw [(memory_latched_bubble hr hh hm).1] at hw
    cases hw
  · obtain ⟨-, ⟨w', hw', hc⟩, -⟩ := memory_latched hr hh hi hm
    obtain rfl : w' = w := Option.some.inj (hw'.symm.trans hw)
    exact ⟨m, rfl, hc.pc, hc.iw⟩

theorem State.EndOk.latched (he : s.EndOk) (hi : s.RefInv) (hn : s.NoCodeStore) : (advanceCycle s).EndOk := by
  obtain ⟨hinv, hflow, -, ⟨-, -, -, hcode⟩, -⟩ := id hi
  refine ⟨fun m hm hiw => ?_, fun w hw hiw => ?_⟩
  · rcases hx : s.xr with _ | x
    · rw [mr_latched hr hh, (executePhase_bubble hx).1] at hm
      cases hm
    obtain ⟨⟨br, wp, hmr⟩, -⟩ := executePhase_evaluates hx
    rw [← mr_latched hr hh] at hmr
    obtain rfl := Option.some.inj (hmr.symm.trans hm)
    obtain ⟨⟨hal, -⟩, -⟩ := hinv.xr_decoded hx
    refine ⟨(selfJump_latched hr hh hinv hflow hx hiw).2, ?_⟩
    rw [(committedMem_latched hr hh hinv).1]
    exact (instrAt_committedMem hr hn hx hal).trans ((hcode x hx).symm.trans hiw)
  · obtain ⟨m, hm, hpc, hmiw⟩ := exists_mr_of_wr_latched hr hh hinv hw
    have htag := hinv.mr_selfJump hm (hmiw.symm.trans hiw)
    have hmem : (advanceCycle s).mem = s.mem :=
      (committedMem_latched hr hh hinv).1.trans (committedMem_of_jal hm htag)
    rw [hpc]
    exact (he.1 m hm (hmiw.symm.trans hiw)).latched hr hh hi (by rw [hm]; exact misaligned_eq_false_of_jal htag) hmem

end latched

/-- `EndOk` depends on what a held cycle leaves alone. -/
theorem State.EndOk.congr {s t : State} (h : s.EndOk) (hpc : t.pc = s.pc) (hdr : t.dr = s.dr) (hxr : t.xr = s.xr)
    (hmr : t.mr = s.mr) (hwr : t.wr = s.wr) (hmem : t.mem = s.mem) : t.EndOk := by
  have hc : committedPc t = committedPc s := by simp only [committedPc, hpc, hdr, hxr, hmr]
  simpa only [State.EndOk, State.LoopsAt, hc, hmr, hwr, hmem] using h

theorem State.EndOk.advanceCycle {s : State} (h : s.EndOk) (hi : s.RefInv) (hn : s.NoCodeStore) :
    (advanceCycle s).EndOk := by
  rcases advanceCycle_cases s with ⟨_, e⟩ | ⟨_, _, _, e⟩ | ⟨_, hh, e⟩ | ⟨hr, hh, _⟩
  · rwa [e]
  · rw [e]; exact h.congr rfl rfl rfl rfl rfl rfl
  · rw [e]
    exact h.congr (afterFillStep_pc s) (afterFillStep_dr s) (afterFillStep_xr s) (afterFillStep_mr s)
      (afterFillStep_wr s) ((afterFillStep_mem s).trans (memoryPhase_held_mem hh))
  · exact h.latched hr hh hi hn

/-! ### The loop in the pipeline -/

/-- From here on the program is the jump to itself at `p`, and nothing else is in flight behind Execute. -/
structure State.Looping (p : Word) (s : State) : Prop where
  inv : s.RefInv
  running : s.halted = false
  loops : s.LoopsAt p
  mr : ∀ m ∈ s.mr, m.iw = selfJump ∧ m.pc = p
  wr : ∀ w ∈ s.wr, w.iw = selfJump ∧ w.pc = p

section looping
variable {p : Word} {s : State} (h : s.Looping p)
include h

theorem State.Looping.mr_tag {m : ExecutedInstr} (hm : s.mr = some m) : m.tag = .jal :=
  h.inv.1.mr_selfJump hm (h.mr m hm).1

theorem State.Looping.runs : s.Runs := by
  refine ⟨h.running, ?_⟩
  rcases hw : s.wr with _ | w
  · exact haltingInstr_bubble hw
  · rw [haltingInstr_of_wr hw, if_neg]
    rw [(h.inv.1.wr_selfJump hw (h.wr w hw).1).1]
    simp

theorem State.Looping.noCodeStore : s.NoCodeStore := by
  intro _ m hm hs
  rw [h.mr_tag hm] at hs
  cases hs

theorem State.Looping.not_misaligned : s.mr.any ExecutedInstr.misaligned = false := by
  rcases hm : s.mr with _ | m
  · rfl
  · exact misaligned_eq_false_of_jal (h.mr_tag hm)

theorem State.Looping.regsAfterWr_eq : regsAfterWr s = s.regs := by
  rcases hw : s.wr with _ | w
  · simp [regsAfterWr, hw]
  · simp [regsAfterWr, hw, (h.inv.1.wr_selfJump hw (h.wr w hw).1).2]

theorem State.Looping.writebackEvents_eq : writebackEvents s = [] ∨ writebackEvents s = [.retire p .jal] := by
  rcases hw : s.wr with _ | w
  · exact .inl (by simp [writebackEvents, hw])
  · obtain ⟨hiw, rfl⟩ := h.wr w hw
    exact .inr (by simp [writebackEvents, hw, retireEvents, (h.inv.1.wr_selfJump hw hiw).1])

/-- A cycle of the loop changes neither registers nor memory, and retires at most the jump. -/
theorem State.Looping.advanceCycle :
    (advanceCycle s).Looping p ∧ (advanceCycle s).regs = s.regs ∧ (advanceCycle s).mem = s.mem ∧
      ∃ e, (e = [] ∨ e = [.retire p .jal]) ∧ programEvents (advanceCycle s) = e ++ programEvents s := by
  have hr := h.runs
  have hregs : (Machine.advanceCycle s).regs = s.regs := (regs_of_runs hr).trans h.regsAfterWr_eq
  have hinv := h.inv.advanceCycle h.noCodeStore
  cases hh : (memoryPhase s).hold
  · have hmem : (Machine.advanceCycle s).mem = s.mem := by
      rw [(committedMem_latched hr hh h.inv.1).1]
      rcases hm : s.mr with _ | m
      · simp [committedMem, hm]
      · exact committedMem_of_jal hm (h.mr_tag hm)
    obtain ⟨hloops, hmr⟩ := h.loops.latched hr hh h.inv h.not_misaligned hmem
    refine ⟨⟨hinv, halted_latched hr hh, hloops, hmr, fun w hw => ?_⟩, hregs, hmem, _, h.writebackEvents_eq,
      programEvents_latched hr hh⟩
    obtain ⟨m, hm, hpc, hiw⟩ := exists_mr_of_wr_latched hr hh h.inv.1 hw
    rw [hpc, hiw]
    exact h.mr m hm
  · have hmem : (Machine.advanceCycle s).mem = s.mem := by
      rw [advanceCycle_held hr hh, afterFillStep_mem, memoryPhase_held_mem hh]
    have hcpc : committedPc (Machine.advanceCycle s) = committedPc s := by
      rw [advanceCycle_held hr hh]; simp [committedPc]
    rw [advanceCycle_held hr hh] at hinv hregs hmem hcpc ⊢
    refine ⟨⟨hinv, (afterFillStep_halted s).trans h.running, ⟨hcpc.trans h.loops.1, hmem ▸ h.loops.2⟩, ?_, ?_⟩, hregs,
      hmem, [], .inl rfl, programEvents_afterFillStep s⟩
    · rw [afterFillStep_mr]; exact h.mr
    · rw [afterFillStep_wr]; exact h.wr

end looping

theorem State.Looping.run {p : Word} (k : Nat) {s : State} (h : s.Looping p) :
    (runCycles k s).Looping p ∧ (runCycles k s).regs = s.regs ∧ (runCycles k s).mem = s.mem ∧
      ∃ j, j ≤ k ∧ programEvents (runCycles k s) = List.replicate j (.retire p .jal) ++ programEvents s := by
  induction k generalizing s with
  | zero => exact ⟨h, rfl, rfl, 0, le_rfl, rfl⟩
  | succ k ih =>
    obtain ⟨h', hregs, hmem, e, he, hevents⟩ := h.advanceCycle
    obtain ⟨hk, hkregs, hkmem, j, hj, hkevents⟩ := ih h'
    refine ⟨hk, hkregs.trans hregs, hkmem.trans hmem, ?_⟩
    rw [runCycles_succ, hkevents, hevents]
    rcases he with rfl | rfl
    · exact ⟨j, by omega, rfl⟩
    · exact ⟨j + 1, by omega, by rw [List.replicate_succ', List.append_assoc]⟩

/-! ### The end of a run -/

/-- The architectural machine at the jump to itself: it retires the jump and stays. -/
theorem instrStep_selfJump {s : State} (hh : s.halted = false) (ha : aligned s.pc 4 = true)
    (hw : s.fetchWord = selfJump) : instrStep s = .next (s.retireTo .jal s.pc) := by
  have hd : decodeWord (s.mem.instrAt s.pc) = .ok (.jal 0 0) := by
    rw [← decodeWord_selfJump, ← hw]; rfl
  rw [instrStep_of_decodes hh ha hd, exec_eq_perform (x := decodedAt (.jal 0 0) s) rfl rfl false false]
  have hpc : (decodedAt (.jal 0 0) s).nextPc s = s.pc := BitVec.add_zero s.pc
  rw [hpc, ExecutedInstr.perform, if_neg (by rw [misaligned_eq_false_of_jal rfl]; decide)]
  exact congrArg (fun regs => Host.Outcome.next (State.retireTo { s with regs := regs } .jal s.pc))
    (RegFile.write_zero s.regs _)

theorem step_of_endsRun {s t : State} (hl : s.level = .architectural) (he : endsRun s = true) (ht : step s = .next t) :
    t.regs = s.regs ∧ t.mem = s.mem ∧ t.pc = s.pc ∧ endsRun t = true := by
  rw [step_architectural hl] at ht
  cases hh : s.halted
  case true =>
    rw [instrStep_halted hh] at ht
    cases ht
    exact ⟨rfl, rfl, rfl, he⟩
  simp only [endsRun, hl, hh, Bool.false_or, Bool.and_eq_true, beq_iff_eq] at he
  obtain ⟨ha, hw⟩ := he
  rw [instrStep_selfJump hh ha hw] at ht
  cases ht
  refine ⟨rfl, rfl, rfl, ?_⟩
  simp only [endsRun, State.retireTo_level, hl, Bool.or_eq_true, Bool.and_eq_true, beq_iff_eq]
  exact .inr ⟨ha, hw⟩

/-- The cycle that ends a run leaves a halted core, or the loop of the jump in `WR`. -/
theorem halted_or_looping_of_endsRun {s : State} (hi : s.RefInv) (he : s.EndOk) (h : endsRun s = true) :
    (advanceCycle s).halted = true ∨ ∃ w, s.wr = some w ∧ s.Looping w.pc := by
  obtain ⟨-, -, -, -, hl, -⟩ := id hi
  rcases advanceCycle_cases s with ⟨hh, e⟩ | ⟨_, _, _, e⟩ | ⟨hr, _⟩ | ⟨hr, _⟩
  · exact .inl (by rw [e, hh])
  · exact .inl (by rw [e])
  all_goals
    simp only [endsRun, hl, hr.1, hr.2, Bool.false_or, Option.isSome_none, Bool.and_eq_true] at h
    obtain ⟨w, hw, hiw⟩ := (Option.any_eq_true ..).1 h.2
    obtain ⟨hloops, hmr⟩ := he.2 w hw (beq_iff_eq.1 hiw)
    exact .inr ⟨w, hw, hi, hr.1, hloops, hmr, fun w' hw' => by
      obtain rfl : w = w' := Option.some.inj (hw.symm.trans hw')
      exact ⟨beq_iff_eq.1 hiw, rfl⟩⟩

/-- Settles O25: a halted core stays whole; a core that retires the jump to itself is in its loop, which every cycle
keeps. -/
theorem endOfRunIsFinal : Obligations.EndOfRunIsFinal := by
  unfold Obligations.EndOfRunIsFinal
  refine ⟨fun s t hl he ht => step_of_endsRun hl he ht, fun s hi he => ⟨he.advanceCycle hi, fun hend k => ?_⟩⟩
  rcases halted_or_looping_of_endsRun hi he hend with hh | ⟨w, hw, hloop⟩
  · have hfix : runCycles k (advanceCycle s) = advanceCycle s := runCycles_fixed (advanceCycle_halted hh) k
    dsimp only
    rw [hfix]
    exact ⟨rfl, rfl, fun _ => rfl, fun h => by rw [hh] at h; cases h⟩
  · obtain ⟨hnext, -⟩ := hloop.advanceCycle
    obtain ⟨hk, hregs, hmem, hevents⟩ := hnext.run k
    exact ⟨hregs, hmem, fun h => absurd (hnext.running.symm.trans h) (by decide),
      fun _ => ⟨w, hw, hk.loops, hk.mr, hk.wr, hevents⟩⟩

end Sys2Proof.Machine
end

section
/-! SUPPORT. The first cycles after a launch (R432): the fill of the line of `RESET_PC`, the fetch of its word, and the
passage of that instruction through the stages. -/

namespace Sys2Proof.Machine

/-! ### A pipeline that has written nothing -/

theorem memoryPhase_bubble {s : State} (hm : s.mr = none) : memoryPhase s =
    { state := writeback s, hold := false, wrNext := none, dMiss := false, issued := false } :=
  memoryStage_bubble (by rw [writeback_mr, hm])

theorem writebackEvents_of_wr {s : State} {w : CompletedInstr} (hw : s.wr = some w) :
    writebackEvents s = retireEvents w.pc w.iw w.tag := by
  simp only [writebackEvents, hw]

/-- The core runs, `WR` is empty, and registers, memory and the program's events are as given. -/
structure State.Quiet (regs : RegFile) (mem : Memory) (s : State) : Prop where
  runs : s.Runs
  wr : s.wr = none
  regs : s.regs = regs
  mem : s.mem = mem
  events : programEvents s = []

section
variable {regs : RegFile} {mem : Memory} {s : State} (h : s.Quiet regs mem)
include h

/-- Writeback has nothing to write or to retire. -/
theorem State.Quiet.unwritten : (advanceCycle s).regs = regs ∧ programEvents (advanceCycle s) = [] := by
  refine ⟨by rw [regs_of_runs h.runs, regsAfterWr, h.wr, h.regs], ?_⟩
  cases hh : (memoryPhase s).hold
  · rw [programEvents_latched h.runs hh, writebackEvents, h.wr, h.events]; rfl
  · rw [advanceCycle_held h.runs hh, programEvents_afterFillStep, h.events]

section
variable (hm : s.mr = none)
include hm

/-- With a bubble in `MR` too, the cycle is not held and the next state is quiet. -/
theorem State.Quiet.next : (memoryPhase s).hold = false ∧ (advanceCycle s).Quiet regs mem := by
  have hh : (memoryPhase s).hold = false := by rw [memoryPhase_bubble hm]
  obtain ⟨hwr, hmem, -⟩ := memory_latched_bubble h.runs hh hm
  obtain ⟨hregs, hevents⟩ := h.unwritten
  exact ⟨hh, ⟨halted_latched h.runs hh, haltingInstr_bubble hwr⟩, hwr, hregs, hmem.trans h.mem, hevents⟩

/-- The next cycle of a pipeline with bubbles from `XR` on. -/
theorem State.Quiet.advanceCycle_eq (hx : s.xr = none) :
    advanceCycle s = fetchLatched (icFillStep s) (decide (s.icFsm = .idle))
      (s.dr.map (FetchedInstr.decoded (icFillStep s))) none := by
  have hfill : retireStage (afterFillStep s) = icFillStep s := by
    have hwb : writeback s = s := by simp [writeback, h.wr]
    rw [afterFillStep, memoryPhase_bubble hm, hwb, retireStage, icFillStep_wr, h.wr]
  rw [advanceCycle_bubble h.runs (h.next hm).1 hx, hfill, memoryPhase_bubble hm]

end

end

/-! ### The fill of the first line (cycles 0 to 2) -/

/-- The launch with the instruction cache, the answers to come and the call log as given. -/
def State.launched (cfg : Config) (regs : RegFile) (mem : Memory) (fsm : FillFsm 128) (lines : List (Nat × IcLine))
    (answers : List Bool) (bus : List (BusCall × Bool)) : State :=
  { State.launch cfg regs mem answers with icFsm := fsm, icLines := lines, bus := bus }

section
variable {cfg : Config} {regs : RegFile} {mem : Memory} {lines : List (Nat × IcLine)} {answers : List Bool}
  {bus : List (BusCall × Bool)}

theorem State.launched_quiet (fsm : FillFsm 128) : (State.launched cfg regs mem fsm lines answers bus).Quiet regs mem :=
  ⟨⟨rfl, haltingInstr_bubble rfl⟩, rfl, rfl, rfl, rfl⟩

theorem advanceCycle_launched (fsm : FillFsm 128) :
    advanceCycle (State.launched cfg regs mem fsm lines answers bus) =
      fetchLatched (icFillStep (State.launched cfg regs mem fsm lines answers bus)) (decide (fsm = .idle)) none none :=
  (State.launched_quiet fsm).advanceCycle_eq rfl rfl

/-- The issue of the fill. -/
theorem advanceCycle_launched_miss (hp : aligned cfg.resetPc 4 = true) (hl : icLookup lines cfg.resetPc = none) :
    advanceCycle (State.launched cfg regs mem .idle lines (true :: answers) bus) =
      State.launched cfg regs mem (.wait (icBase cfg.resetPc) (BitVec.ofNat 128 (mem.read (icBase cfg.resetPc) 16)))
        lines answers ((.readMemory (icBase cfg.resetPc) 16, true) :: bus) := by
  rw [advanceCycle_launched, icFillStep_idle rfl, fetchLatched, decide_eq_true rfl, fetchStage_miss hp hl, icIssue_eq,
    State.ask_cons rfl]
  rfl

/-- The poll that is answered. -/
theorem advanceCycle_launched_poll (base : Word) (data : BitVec 128) :
    advanceCycle (State.launched cfg regs mem (.wait base data) lines (true :: answers) bus) =
      State.launched cfg regs mem (.commit base data) lines answers ((.memoryReady base, true) :: bus) := by
  rw [advanceCycle_launched, icFillStep_wait rfl, State.ask_cons rfl]
  rfl

/-- The commit. -/
theorem advanceCycle_launched_commit (base : Word) (data : BitVec 128) :
    advanceCycle (State.launched cfg regs mem (.commit base data) lines answers bus) =
      State.launched cfg regs mem .idle (Assoc.insert lines (icIndex base) (icFillLine base data)) answers bus := by
  rw [advanceCycle_launched, icFillStep_commit rfl]
  rfl

/-- The fetch of the word at `RESET_PC` (cycle 3). -/
theorem advanceCycle_launched_hit {line : IcLine} (hp : aligned cfg.resetPc 4 = true)
    (hl : icLookup lines cfg.resetPc = some line) :
    let t := advanceCycle (State.launched cfg regs mem .idle lines answers bus)
    t.cfg = cfg ∧ t.xr = none ∧ t.mr = none ∧
      ∃ f, t.dr = some f ∧ f.pc = cfg.resetPc ∧ f.iw = line.words.get (icWord cfg.resetPc) := by
  rw [advanceCycle_launched, icFillStep_idle rfl, fetchLatched, decide_eq_true rfl, fetchStage_hit hp hl]
  exact ⟨rfl, rfl, rfl, _, rfl, rfl, rfl⟩

end

/-- The line that the fill of `p` installs has the word of memory at `p`. -/
theorem icFillLine_word_of_memory (mem : Memory) {p : Word} (hp : aligned p 4 = true) :
    (icFillLine (icBase p) (BitVec.ofNat 128 (mem.read (icBase p) 16))).words.get (icWord p) = mem.instrAt p := by
  rw [icFillLine_words, Memory.extract_read_line, icBase_add_icWord hp]

theorem icLookup_insert_icFillLine (lines : List (Nat × IcLine)) (p : Word) (data : BitVec 128) :
    icLookup (Assoc.insert lines (icIndex (icBase p)) (icFillLine (icBase p) data)) p =
      some (icFillLine (icBase p) data) := by
  have hi : icIndex (icBase p) = icIndex p := by rw [← icLineAddr_index_tag, icIndex_icLineAddr (icIndex_lt p)]
  have ht : icTag (icBase p) = icTag p := by rw [← icLineAddr_index_tag, icTag_icLineAddr]
  exact icLookup_eq_some_iff.2 ⟨by rw [hi, Assoc.lookup_insert, if_pos rfl], ht⟩

/-! ### The first instruction in the stages (cycles 4 to 7) -/

section
variable {regs : RegFile} {mem : Memory} {s : State} (h : s.Quiet regs mem) (hm : s.mr = none)
include h hm

/-- Decode hands an instruction on when `XR` has a bubble. -/
theorem State.Quiet.decodes (hx : s.xr = none) {f : FetchedInstr} (hd : s.dr = some f) :
    (advanceCycle s).mr = none ∧ ∃ x, (advanceCycle s).xr = some x ∧ x.pc = f.pc ∧ x.iw = f.iw ∧
      x.tag = (decodeOperands s.cfg f.iw).tag := by
  rw [h.advanceCycle_eq hm hx, hd]
  refine ⟨rfl, f.decoded (icFillStep s), rfl, rfl, rfl, ?_⟩
  rw [FetchedInstr.decoded, icFillStep_cfg]

/-- Execute hands it on to Memory. -/
theorem State.Quiet.executes {x : DecodedInstr} (hx : s.xr = some x) :
    ∃ m, (advanceCycle s).mr = some m ∧ m.pc = x.pc ∧ m.iw = x.iw ∧ m.tag = x.tag := by
  obtain ⟨⟨br, wp, hmr⟩, -⟩ := executePhase_evaluates hx
  exact ⟨_, (mr_latched h.runs (h.next hm).1).trans hmr, rfl, rfl, rfl⟩

end

/-- Memory passes on what is no access. -/
theorem State.Quiet.passes {regs : RegFile} {mem : Memory} {s : State} (h : s.Quiet regs mem) {m : ExecutedInstr}
    (hm : s.mr = some m) (hl : m.tag.isLoad = false) (hs : m.tag.isStore = false) :
    (advanceCycle s).halted = false ∧
      ∃ w, (advanceCycle s).wr = some w ∧ w.pc = m.pc ∧ w.iw = m.iw ∧ w.tag = m.tag := by
  have hp : memoryPhase s = _ := memoryStage_other (by rw [writeback_mr, hm]) hl hs
  have hh : (memoryPhase s).hold = false := by rw [hp]
  exact ⟨halted_latched h.runs hh, _, by rw [wr_latched h.runs hh, hp], rfl, rfl, rfl⟩

/-- The first instruction of a launch reaches `MR` in cycle 5, with nothing written on the way. -/
structure State.FirstInstr (cfg : Config) (regs : RegFile) (mem : Memory) (s : Nat → State) : Prop where
  quiet : ∀ k, k ≤ 6 → (s k).Quiet regs mem
  btb : ∀ k, k ≤ 3 → (s k).btb = Vector.replicate 32 none
  dr : ∃ f, (s 4).dr = some f ∧ f.pc = cfg.resetPc ∧ f.iw = mem.instrAt cfg.resetPc
  mr : ∃ m, (s 6).mr = some m ∧ m.pc = cfg.resetPc ∧ m.iw = mem.instrAt cfg.resetPc ∧
    m.tag = (decodeOperands cfg (mem.instrAt cfg.resetPc)).tag

theorem State.launch_firstInstr (cfg : Config) (regs : RegFile) (mem : Memory) (rest : List Bool)
    (hp : aligned cfg.resetPc 4 = true) :
    State.FirstInstr cfg regs mem fun k => runCycles k (State.launch cfg regs mem (true :: true :: rest)) := by
  set s := fun k => runCycles k (State.launch cfg regs mem (true :: true :: rest))
  have hstep (k : Nat) : s (k + 1) = advanceCycle (s k) := runCycles_add k 1 _
  set base := icBase cfg.resetPc
  set data := BitVec.ofNat 128 (mem.read base 16)
  have h0 : s 0 = State.launched cfg regs mem .idle [] (true :: true :: rest) [] := rfl
  have h1 : s 1 = State.launched cfg regs mem (.wait base data) [] (true :: rest) [(.readMemory base 16, true)] := by
    rw [hstep, h0, advanceCycle_launched_miss hp rfl]
  have h2 : s 2 = State.launched cfg regs mem (.commit base data) [] rest
      [(.memoryReady base, true), (.readMemory base 16, true)] := by
    rw [hstep, h1, advanceCycle_launched_poll]
  have h3 : s 3 = State.launched cfg regs mem .idle (Assoc.insert [] (icIndex base) (icFillLine base data)) rest
      [(.memoryReady base, true), (.readMemory base 16, true)] := by
    rw [hstep, h2, advanceCycle_launched_commit]
  obtain ⟨hcfg, hx4, hm4, f, hf, hfpc, hfiw⟩ : (s 4).cfg = cfg ∧ (s 4).xr = none ∧ (s 4).mr = none ∧
      ∃ f, (s 4).dr = some f ∧ f.pc = cfg.resetPc ∧ f.iw = mem.instrAt cfg.resetPc := by
    rw [hstep, h3, ← icFillLine_word_of_memory mem hp]
    exact advanceCycle_launched_hit hp (icLookup_insert_icFillLine ..)
  have hq3 : (s 3).Quiet regs mem := h3 ▸ State.launched_quiet _
  have hq4 : (s 4).Quiet regs mem := hstep 3 ▸ (hq3.next (by rw [h3]; rfl)).2
  have hq5 : (s 5).Quiet regs mem := hstep 4 ▸ (hq4.next hm4).2
  obtain ⟨hm5, x, hx, hxpc, hxiw, hxtag⟩ := hq4.decodes hm4 hx4 hf
  rw [← hstep 4] at hm5 hx
  have hq6 : (s 6).Quiet regs mem := hstep 5 ▸ (hq5.next hm5).2
  obtain ⟨m, hm, hmpc, hmiw, hmtag⟩ := hq5.executes hm5 hx
  rw [← hstep 5] at hm
  refine ⟨fun k hk => ?_, fun k hk => ?_, ⟨f, hf, hfpc, hfiw⟩, m, hm, ?_, ?_, ?_⟩
  · interval_cases k
    · exact h0 ▸ State.launched_quiet _
    · exact h1 ▸ State.launched_quiet _
    · exact h2 ▸ State.launched_quiet _
    · exact hq3
    · exact hq4
    · exact hq5
    · exact hq6
  · interval_cases k
    · rw [h0]; rfl
    · rw [h1]; rfl
    · rw [h2]; rfl
    · rw [h3]; rfl
  · rw [hmpc, hxpc, hfpc]
  · rw [hmiw, hxiw, hfiw]
  · rw [hmtag, hxtag, hcfg, hfiw]

/-- Settles O55: the first line arrives in cycle 2, and its first instruction is in `DR` after cycle 3 and in `MR` after
cycle 5. -/
theorem firstCyclesAfterReset : Obligations.FirstCyclesAfterReset := by
  unfold Obligations.FirstCyclesAfterReset
  intro cfg regs mem rest hp s iw d
  have hfirst : State.FirstInstr cfg regs mem s := State.launch_firstInstr cfg regs mem rest (aligned_iff.2 hp)
  have hstep (k : Nat) : s (k + 1) = advanceCycle (s k) := runCycles_add k 1 _
  have hq6 := hfirst.quiet 6 le_rfl
  obtain ⟨hregs7, hevents7⟩ := hq6.unwritten
  rw [← hstep 6] at hregs7 hevents7
  refine ⟨fun k hk => ?_, fun k hk => (hfirst.quiet k hk).mem, fun k hk i => ?_, hfirst.dr, fun hl hst hpolicy hh => ?_⟩
  · obtain hk | rfl : k ≤ 6 ∨ k = 7 := by omega
    · exact ⟨(hfirst.quiet k hk).regs, (hfirst.quiet k hk).events⟩
    · exact ⟨hregs7, hevents7⟩
  · rw [hfirst.btb k hk, Vector.get_eq_getElem, Vector.getElem_replicate]
  · obtain ⟨m, hm, hmpc, hmiw, hmtag⟩ := hfirst.mr
    obtain ⟨hhalted, w, hw, hwpc, hwiw, hwtag⟩ := hq6.passes hm (hmtag ▸ hl) (hmtag ▸ hst)
    rw [← hstep 6] at hhalted hw
    have hcfg : (s 7).cfg = cfg := runCycles_induction (P := fun u => u.cfg = cfg)
      (fun u hu => (advanceCycle_cfg u).trans hu) 7 rfl
    have hruns : (s 7).Runs := by
      refine ⟨hhalted, ?_⟩
      rw [haltingInstr_of_wr hw, if_neg]
      rintro ⟨hhalt, htag⟩
      rw [hcfg] at hhalt
      rcases hpolicy with hne | hnop
      · exact hne (hmtag ▸ hwtag ▸ htag)
      · rw [hnop] at hhalt
        cases hhalt
    rw [hstep 7, programEvents_latched hruns (hold_eq_false hruns hh), hevents7, List.append_nil,
      writebackEvents_of_wr hw, hwpc, hwiw, hwtag, hmpc, hmiw, hmtag]

end Sys2Proof.Machine
end
